-- ==== Sys2Proof/Word.lean ====
section
/-! DEFINITION. The machine's words: bytes, 16-bit and 32-bit values (spec 00, section 0.7). -/

namespace Sys2Proof

/-- A byte of memory, of a cell, of a message or of a page. -/
abbrev Byte := BitVec 8

/-- A 16-bit value: a counter, an id, one word of the cell cipher's state. -/
abbrev Half := BitVec 16

/-- A 64-bit key K0 K1 K2 K3, K0 most significant (03, section 3.1). -/
abbrev Key64 := BitVec 64

end Sys2Proof
end

