-- ==== Sys2Proof/Syntax.lean ====
section
/-! DEFINITION. The commands the block takes: one constructor of `Instr` per row of spec/opcode_table.json. -/

namespace Sys2Proof

/-- One byte lane of a bus write: its data and its byte enable (R1). -/
structure Lane where
  data : Byte
  enabled : Bool
  deriving DecidableEq, Repr

/-- A bus read: the first byte address and the number of 32-bit words (R1). -/
structure BusRead where
  address : BitVec 26
  words : Nat
  deriving DecidableEq, Repr

/-- A bus write: the first byte address and its byte lanes in address order, four to a word (R1).
Lane `4 * w + m` is byte `m` of word `w`, byte 0 at the lowest address (00, section 0.7). -/
structure BusWrite where
  address : BitVec 26
  lanes : List Lane
  deriving DecidableEq, Repr

/-- A transaction of the stream-buffer bus (R1). -/
inductive Transaction where
  | read (r : BusRead)
  | write (w : BusWrite)
  deriving DecidableEq, Repr

/-- The steps of spec/opcode_table.json.
A bus row carries the transaction a bus master presents.
`powerOn` carries the levels of the two straps at that moment (R184).
The message rows take no operand: they are the Message Decoder's step on the message handed off (R56). -/
inductive Instr where
  | powerOn (storePresent bypass : Bool)
  | setReset
  | imageLoad
  | journalLoad
  | stayLoad
  | busPassThrough (t : Transaction)
  | ringWrite (w : BusWrite)
  | messageRejected
  | key
  | serviceAdd
  | serviceDelete
  | listing
  | tariffDefine
  | tariffDelete
  | pricing
  | time
  | freeviewOn
  | freeviewOff
  | checkin
  | checkout
  | credit
  | ack
  | ceiling
  | maint
  | ringRead (r : BusRead)
  | reportRead (r : BusRead)
  | reportWriteDropped (w : BusWrite)
  | otherWindowAccess (t : Transaction)
  | requestWriteDropped (w : BusWrite)
  | requestWriteNotTaken (w : BusWrite)
  | buy (w : BusWrite)
  | unlock (w : BusWrite)
  | relock (w : BusWrite)
  | refresh (w : BusWrite)
  | unknownRequestKind (w : BusWrite)
  | portGrant
  | insertedWriteComplete
  | passingWriteComplete
  | refreshPeriodStart
  | secondsAdvance
  | accountSecondTimer
  | accountMinuteTimer
  | keyMinuteTimer
  | showingMinuteTimer
  | lockMinuteTimer
  | pageWriteComplete
  | storeJobComplete
  | storeFault
  deriving DecidableEq, Repr

end Sys2Proof
end

