-- ==== Sys2Proof/Config.lean ====
section
/-! DEFINITION. What lies outside the part's own rules: the bytes of memory nothing has written, and the free values. -/

namespace Sys2Proof

/-- What a byte of stream-buffer memory reads as while nothing has written it.
DESIGN CHOICE (log 2): the spec gives none (R5 calls such contents "old or arbitrary"). Unsafe. -/
def Config.memoryUnlisted : Byte := 0x00

/-- What a byte of the serial store reads as while nothing has written it: an erased byte.
DESIGN CHOICE (log 4): the installer leaves unwritten pages erased (chapter 12's procedure), and R179 names FFh. Unsafe. -/
def Config.storeUnlisted : Byte := 0xFF

/-- Free value: whether byte `i` of a write that power-on cuts short holds the new byte (R179, R189: "any mix of old and new
bytes"). The first argument counts the free values drawn (log 15). -/
opaque Config.cutShortTakesNew : Nat → Nat → Bool

/-- Free value: byte `i` of the page whose write overran its limit ("whatever the EEPROM left there", R178; log 16). -/
opaque Config.overrunByte : Nat → Nat → Byte

end Sys2Proof
end

