-- ==== Sys2Proof/Machine/State.lean ====
section
/-! DEFINITION. The state of the Galtern 440, block by block (00, section 0.3), as plain data, and its value at reset. -/

namespace Sys2Proof.Machine

/-- The three modes of the Path Unit (00, section 0.4; R4). -/
inductive Mode where
  | load
  | run
  | pass
  deriving DecidableEq, Repr

/-- The two cell rings (R2). -/
inductive Ring where
  | ring0
  | ring1
  deriving DecidableEq, Repr

/-- One thing for each ring. -/
structure PerRing (α : Type) where
  ring0 : α
  ring1 : α
  deriving DecidableEq, Repr

/-- The window table, as copied from the image (R2). -/
structure WindowTable where
  ring0Base : Nat
  ring0Slots : Nat
  ring1Base : Nat
  ring1Slots : Nat
  requestBase : Nat
  requestSlots : Nat
  reportBase : Nat
  deriving DecidableEq, Repr

/-! ### Cells and verdicts -/

/-- Cell kinds as a slot tag records them (R21). -/
inductive CellKind where
  | filler
  | media
  | message
  | guide
  deriving DecidableEq, Repr

/-- The basis of an OPEN verdict (R89). -/
inductive Basis where
  | free
  | paid
  | freeView
  | preview
  deriving DecidableEq, Repr

/-- The reason of a VOID verdict (R89). -/
inductive VoidReason where
  | lock
  | noKey
  | hold
  deriving DecidableEq, Repr

/-- RAW, CLEAR, OPEN with a basis, VOID with a reason (R89). -/
inductive Verdict where
  | raw
  | clear
  | opened (basis : Basis)
  | voided (reason : VoidReason)
  deriving DecidableEq, Repr

/-- The fields a valid slot tag records (R21, R22). -/
structure TagFields where
  kind : CellKind
  scrambled : Bool
  service : BitVec 12
  epoch : BitVec 4
  eventTag : Half
  salt : Half
  payloadLength : Nat
  deriving DecidableEq, Repr

/-- A slot tag: its fields while it is valid, `none` while it is not, and its latch (R22). -/
structure SlotTag where
  fields : Option TagFields
  latch : Option Verdict
  deriving DecidableEq, Repr

/-- The open cell of a ring (02, section 2.3). -/
structure OpenCell where
  slot : Nat
  next : Nat
  message : Bool
  broken : Bool
  deriving DecidableEq, Repr

/-- A staging buffer while it holds a message: its 116 bytes and the salt kept with it (R30). -/
structure Staging where
  salt : Half
  bytes : List Byte
  deriving DecidableEq, Repr

/-- What a hand-off brings to the Message Decoder (R32, R56). -/
structure HandOff where
  ring : Ring
  slot : Nat
  salt : Half
  bytes : List Byte
  deriving DecidableEq, Repr

/-- The Intake Unit (chapter 2). `tags` lists, by tag number, the tags that are not "invalid with no latch". -/
structure Intake where
  tags : List (Nat × SlotTag)
  context : PerRing (Option OpenCell)
  staging : PerRing (Option Staging)
  headerErrors : Half
  abandoned : Half
  deriving DecidableEq, Repr

/-- The Message Decoder (R56). `handOff` is the message handed off and not yet finished with (log 9). -/
structure Decoder where
  lastNumber : Option Half
  lastMaintenanceTag : Option Half
  tagFailures : Half
  ignored : Half
  handOff : Option HandOff
  deriving DecidableEq, Repr

/-! ### Time -/

/-- A day and a minute of the day (00, section 0.7). -/
structure Moment where
  day : Half
  minute : Nat
  deriving DecidableEq, Repr

/-- The wall clock while it is valid (R71). -/
structure WallClock where
  day : Half
  minute : Nat
  second : Nat
  deriving DecidableEq, Repr

/-- The Timebase (R69, R71). The five `Due` fields count expiries of the unit timers of R70 not yet taken (log 10). -/
structure Timebase where
  seconds : Nat
  clock : Option WallClock
  secondDue : Nat
  accountMinuteDue : Nat
  keyMinuteDue : Nat
  showingMinuteDue : Nat
  lockMinuteDue : Nat
  deriving DecidableEq, Repr

/-! ### Keys, services and showings -/

/-- A key entry in use (R43). -/
structure KeyEntry where
  service : BitVec 12
  epoch : BitVec 4
  key : Key64
  arrival : Nat
  deriving DecidableEq, Repr

/-- The Key Table's pool in its order of arrival, oldest first (R43). -/
structure KeyTable where
  pool : List KeyEntry
  deriving DecidableEq, Repr

inductive ServiceClass where
  | free
  | pay
  deriving DecidableEq, Repr

/-- A service record (R75). -/
structure ServiceRecord where
  service : BitVec 12
  cls : ServiceClass
  defaultRating : Nat
  deriving DecidableEq, Repr

/-- Preview states NONE, PREVIEW, SPENT, PAID (R139); `untouched` is NONE. -/
inductive PreviewState where
  | untouched
  | preview
  | spent
  | paid
  deriving DecidableEq, Repr

/-- An event record: seven listing fields, three metering fields (R79). -/
structure EventRecord where
  id : Half
  service : BitVec 12
  start : Moment
  finish : Moment
  tariffClass : Nat
  rating : Nat
  title : BitVec 32
  preview : PreviewState
  viewed : Nat
  cells : Half
  deriving DecidableEq, Repr

/-- The Showing Tables (R75, R79); `events` in ascending order of start, then of event id. -/
structure Showings where
  services : List ServiceRecord
  events : List EventRecord
  deriving DecidableEq, Repr

/-- Viewed seconds and allowance as a summary shows them (R102). -/
structure ShownMetering where
  viewed : Nat
  allowance : Nat
  deriving DecidableEq, Repr

/-- A presentation summary that is not empty (R102). -/
structure Summary where
  service : BitVec 12
  event : Half
  listed : Bool
  verdict : Verdict
  metering : Option ShownMetering
  deriving DecidableEq, Repr

/-- The Presentation Unit (R102, R103). -/
structure Presentation where
  summary : PerRing (Option Summary)
  noKey : Half
  deriving DecidableEq, Repr

/-! ### Lock and account -/

/-- A PIN of four digits (R105). -/
structure Pin where
  first : Nat
  second : Nat
  third : Nat
  fourth : Nat
  deriving DecidableEq, Repr

/-- A running unlock or lockout period: its end on the seconds count, and its minutes (R105). -/
structure Period where
  finish : Nat
  minutes : Nat
  deriving DecidableEq, Repr

/-- The Lock Unit (R105). -/
structure Lock where
  roomCeiling : Nat
  defaultCeiling : Nat
  guestCeiling : Nat
  pin : Option Pin
  unlock : Option Period
  lockout : Option Period
  wrongAttempts : Nat
  lockouts : Nat
  deriving DecidableEq, Repr

inductive StayState where
  | vacant
  | occupied
  deriving DecidableEq, Repr

/-- The Account Unit's fields of the stay record (R120). -/
structure Stay where
  state : StayState
  number : Half
  granted : Nat
  remaining : Nat
  spent : Nat
  nightCeiling : Nat
  nightSpent : Nat
  nightIndex : Option Half
  deriving DecidableEq, Repr

inductive PurchaseMode where
  | confirm
  | auto
  deriving DecidableEq, Repr

/-- A defined tariff class (R129). -/
structure Tariff where
  base : Nat
  mode : PurchaseMode
  allowance : Nat
  hours : Nat
  stepCode : Nat
  usesBand : Bool
  deriving DecidableEq, Repr

structure Band where
  start : Nat
  percent : Nat
  deriving DecidableEq, Repr

/-- The pricing while it is set: a tax and four bands (R131). -/
structure Pricing where
  tax : Nat
  band0 : Band
  band1 : Band
  band2 : Band
  band3 : Band
  deriving DecidableEq, Repr

/-- A purchase (R146). -/
structure Purchase where
  event : Half
  service : BitVec 12
  rating : Nat
  title : BitVec 32
  amount : Nat
  rentalEnd : Nat
  sequence : Option Nat
  deriving DecidableEq, Repr

/-- The reasons of refused requests (11, section 11.2); `none` there is `Option.none` here. -/
inductive Reason where
  | badKind
  | noPin
  | lockedOut
  | wrongPin
  | noStay
  | noEvent
  | noTariff
  | locked
  | already
  | storeFault
  | purchasesFull
  | journalFull
  | storeBusy
  | credit
  | ceiling
  deriving DecidableEq, Repr

/-- The cause of a held preview end (R144). -/
inductive HeldCause where
  | confirm
  | refused (reason : Reason)
  deriving DecidableEq, Repr

structure HeldRecord where
  event : Half
  cause : HeldCause
  deriving DecidableEq, Repr

/-- Free-view: off, or on with an end or none (R151). -/
inductive FreeView where
  | off
  | on (finish : Option Moment)
  deriving DecidableEq, Repr

/-- An entry of the pending-buy list (R153). -/
structure PendingBuy where
  slot : Nat
  sequence : Option Nat
  needed : BitVec 32
  journalMark : Bool
  stayMark : Bool
  deriving DecidableEq, Repr

/-- The Account Unit. `tariffs` lists the defined classes by number. -/
structure Account where
  stay : Stay
  purchases : List Purchase
  tariffs : List (Nat × Option Tariff)
  pricing : Option Pricing
  held : Option HeldRecord
  freeView : FreeView
  generation : BitVec 32
  pendingBuys : List PendingBuy
  deriving DecidableEq, Repr

/-! ### Journal, requests, report -/

/-- A charge record (R158). -/
structure ChargeRecord where
  sequence : Nat
  stay : Half
  event : Half
  tariffClass : Nat
  title : BitVec 32
  amount : Nat
  base : Nat
  percent : Nat
  tax : Nat
  clock : Option Moment
  stored : Bool
  deriving DecidableEq, Repr

/-- The Charge Journal (R157). -/
structure Journal where
  records : List ChargeRecord
  next : Nat
  mark : Nat
  deriving DecidableEq, Repr

/-- The results the part writes (11, section 11.2). -/
inductive Result where
  | pending
  | done
  | refused
  | volatile
  deriving DecidableEq, Repr

/-- A result with its reason, as rewritten into a request record. -/
structure Answer where
  result : Result
  reason : Option Reason
  deriving DecidableEq, Repr

/-- The Request Unit (R168): the slots whose pending mark is yes, and the held results that are not empty. -/
structure Requests where
  pendingMarks : List (Nat × Bool)
  heldResults : List (Nat × Option Answer)
  deriving DecidableEq, Repr

/-- A result entry of the insertion queue (R12). -/
structure ResultEntry where
  slot : Nat
  answer : Answer
  attention : Bool
  deriving DecidableEq, Repr

/-! ### The path -/

/-- Where the part placed an accepted read, and so what its returned words go through (R3, R4, R6). -/
inductive Place where
  /-- LOAD, PASS, the request ring or the other window: returned as memory gave it. -/
  | plain
  /-- A slot of a cell ring, from this word of the cell on. -/
  | cell (ring : Ring) (slot : Nat) (word : Nat)
  /-- A line of the report area. -/
  | line (n : Nat)
  deriving DecidableEq, Repr

/-- The accepted passing transaction that is not yet complete (R1): a read with its place, or a write with the data the owning
unit gave and the request slot it was placed in, if any. -/
inductive Passing where
  | read (r : BusRead) (place : Place)
  | write (w : BusWrite) (slot : Option Nat)
  deriving DecidableEq, Repr

/-- What an inserted write carries (R13). -/
inductive Source where
  | result (slot : Nat)
  | line (n : Nat)
  deriving DecidableEq, Repr

/-- An inserted write, composed and issued (R13, R14). -/
structure Inserted where
  source : Source
  write : BusWrite
  attention : Bool
  deriving DecidableEq, Repr

/-- Who holds the memory port (R1, R16). -/
inductive Port where
  | free
  | passing
  | inserted (i : Inserted)
  deriving DecidableEq, Repr

/-- A read returned upstream: its address and the bytes of its words (R1, R8). -/
structure Returned where
  address : BitVec 26
  data : List Byte
  deriving DecidableEq, Repr

/-- The Path Unit (chapter 1). `returned` lists the reads returned upstream since power-on, oldest first (log 33). -/
structure Path where
  mode : Mode
  windows : Option WindowTable
  refreshPeriod : Nat
  tokensPerPeriod : Nat
  periodRunning : Bool
  tokens : Nat
  waiting : List Transaction
  passing : Option Passing
  port : Port
  results : List ResultEntry
  attn : Bool
  dropped : Half
  returned : List Returned
  deriving DecidableEq, Repr

/-! ### The serial store -/

inductive StoreState where
  | absent
  | ready
  | busy
  | fault
  deriving DecidableEq, Repr

/-- A waiting job; a JOURNAL job holds its record from the moment it is queued (R182). -/
inductive Job where
  | stay
  | journal (record : ChargeRecord)
  | mark
  deriving DecidableEq, Repr

/-- A held-over request (R181). -/
inductive HeldJob where
  | stay
  | mark
  deriving DecidableEq, Repr

/-- What the completion of the job in flight reports (R183). -/
inductive JobReport where
  | stay (generation : BitVec 32)
  | journal (sequence : Nat)
  | mark
  deriving DecidableEq, Repr

/-- One page write: the page and its 32 bytes (R177). -/
structure PageWrite where
  page : Nat
  bytes : List Byte
  deriving DecidableEq, Repr

/-- The job in flight: the page being written and the pages after it (R177, R182). -/
structure InFlight where
  report : JobReport
  current : PageWrite
  later : List PageWrite
  deriving DecidableEq, Repr

/-- The next step of the start-up load (R184), or none. -/
inductive LoadPhase where
  | idle
  | image
  | journal
  | stay
  deriving DecidableEq, Repr

/-- The fields of the image (13, section 13.5), as it carries them. -/
structure Image where
  windows : WindowTable
  roomId : Half
  groupId : Half
  siteKey : Key64
  roomKey : Key64
  presenceThreshold : Nat
  historyDepth : Nat
  shiftHorizon : Nat
  retention : Nat
  unknownRating : Nat
  discreetLevel : Nat
  discreetTitle : BitVec 32
  maxUnlock : Nat
  lockoutBase : Nat
  rolloverMinute : Nat
  refreshPeriod : Nat
  tokensPerPeriod : Nat
  deriving DecidableEq, Repr

/-- The Store Controller and its EEPROM (chapter 12). -/
structure Store where
  state : StoreState
  queue : List Job
  heldOver : List HeldJob
  inFlight : Option InFlight
  pageNumber : Half
  storePresent : Bool
  bypass : Bool
  phase : LoadPhase
  image : Option Image
  eeprom : List Host.Cell
  deriving DecidableEq, Repr

/-- The image values the owners have taken, clamped (R185). -/
structure Settings where
  roomId : Half
  groupId : Half
  siteKey : Key64
  roomKey : Key64
  presenceThreshold : Nat
  historyDepth : Nat
  shiftHorizon : Nat
  retention : Nat
  unknownRating : Nat
  discreetLevel : Nat
  discreetTitle : BitVec 32
  maxUnlock : Nat
  lockoutBase : Nat
  rolloverMinute : Nat
  deriving DecidableEq, Repr

/-- The stream-buffer memory fitted to the set (01, section 1.1; log 3). -/
inductive MemorySize where
  | mb16
  | mb32
  | mb64
  deriving DecidableEq, Repr

/-- The whole machine: the queue of commands, the blocks, the stream-buffer memory, and the count of free values drawn. -/
structure State where
  pending : List Instr
  path : Path
  intake : Intake
  decoder : Decoder
  time : Timebase
  keys : KeyTable
  showings : Showings
  presentation : Presentation
  lock : Lock
  account : Account
  journal : Journal
  requests : Requests
  report : List (Nat × Option Bool)
  store : Store
  settings : Settings
  memory : List Host.Cell
  memorySize : MemorySize
  freeCount : Nat
  deriving DecidableEq, Repr

/-- Why the machine stops. -/
inductive Fault where
  /-- Raised by a bus row whose operand is not a transaction as R1 defines one (no words, more than eight, not word aligned, or
  crossing a granule). Safe: no bus master can present it, and nothing is claimed of it. -/
  | notATransaction
  deriving DecidableEq, Repr

/-- Why a command has no meaning here. -/
inductive Refusal where
  /-- Raised by `exec` for a row that has no meaning yet; no arm raises it now. Safe: the machine stops. -/
  | notModelled (mnemonic : String)
  deriving DecidableEq, Repr

/-- The image values before RUN is entered: those of an image of zeros, each in the range its owner uses.
DESIGN CHOICE (log 14): the spec gives them only "from the image on entering RUN". Unsafe. -/
def Settings.reset : Settings where
  roomId := 0
  groupId := 0
  siteKey := 0
  roomKey := 0
  presenceThreshold := 1
  historyDepth := 1
  shiftHorizon := 10
  retention := 0
  unknownRating := 0
  discreetLevel := 0
  discreetTitle := 0
  maxUnlock := 1
  lockoutBase := 1
  rolloverMinute := 0

/-- The path at power-on (R1, R2, R4, R11, R12, R15, R17). -/
def Path.reset : Path where
  mode := .load
  windows := none
  refreshPeriod := 1
  tokensPerPeriod := 0
  periodRunning := false
  tokens := 0
  waiting := []
  passing := none
  port := .free
  results := []
  attn := false
  dropped := 0
  returned := []

/-- The intake at power-on (R22, R33, R36). -/
def Intake.reset : Intake where
  tags := []
  context := { ring0 := none, ring1 := none }
  staging := { ring0 := none, ring1 := none }
  headerErrors := 0
  abandoned := 0

/-- The decoder at power-on (R64, R66, R67). -/
def Decoder.reset : Decoder where
  lastNumber := none
  lastMaintenanceTag := none
  tagFailures := 0
  ignored := 0
  handOff := none

/-- The timebase at power-on (R69, R71). -/
def Timebase.reset : Timebase where
  seconds := 0
  clock := none
  secondDue := 0
  accountMinuteDue := 0
  keyMinuteDue := 0
  showingMinuteDue := 0
  lockMinuteDue := 0

/-- The lock at power-on (R119). -/
def Lock.reset : Lock where
  roomCeiling := 0
  defaultCeiling := 0
  guestCeiling := 0
  pin := none
  unlock := none
  lockout := none
  wrongAttempts := 0
  lockouts := 0

/-- A vacant stay with nothing in it, and this night index (R125, R138). -/
def Stay.vacantWith (nightIndex : Option Half) : Stay where
  state := .vacant
  number := 0
  granted := 0
  remaining := 0
  spent := 0
  nightCeiling := 0
  nightSpent := 0
  nightIndex := nightIndex

/-- The account at power-on (R138, R156). -/
def Account.reset : Account where
  stay := Stay.vacantWith none
  purchases := []
  tariffs := []
  pricing := none
  held := none
  freeView := .off
  generation := 0
  pendingBuys := []

/-- The journal at power-on (R167). -/
def Journal.reset : Journal where
  records := []
  next := 1
  mark := 0

/-- The Store Controller at power-on, the straps at these levels and the EEPROM holding these bytes: the load begins, READY,
or nothing is read and the state stays ABSENT (R180, R184, R189). -/
def Store.poweredOn (storePresent bypass : Bool) (eeprom : List Host.Cell) : Store where
  state := if storePresent && !bypass then .ready else .absent
  queue := []
  heldOver := []
  inFlight := none
  pageNumber := 0
  storePresent := storePresent
  bypass := bypass
  phase := if storePresent && !bypass then .image else .idle
  image := none
  eeprom := eeprom

/-- The machine right after power-on, with the store-present strap high and the bypass strap low (log 13): LOAD, the start-up
load about to read the image, an erased serial store and a memory that nothing has written. -/
def State.reset : State where
  pending := []
  path := Path.reset
  intake := Intake.reset
  decoder := Decoder.reset
  time := Timebase.reset
  keys := { pool := [] }
  showings := { services := [], events := [] }
  presentation := { summary := { ring0 := none, ring1 := none }, noKey := 0 }
  lock := Lock.reset
  account := Account.reset
  journal := Journal.reset
  requests := { pendingMarks := [], heldResults := [] }
  report := []
  store := Store.poweredOn true false []
  settings := Settings.reset
  memory := []
  memorySize := .mb64
  freeCount := 0

end Sys2Proof.Machine
end

