-- ==== Sys2Proof/Machine/Ops.lean ====
section
/-! DEFINITION. The operations everything else rests on: sparse tables in one canonical form, byte order, the stream-buffer
memory and the serial store, and what belongs to a ring. -/

namespace Sys2Proof.Machine

/-! ### Sparse tables

A table over the natural numbers, listed as pairs with strictly rising keys and no entry equal to the default, which is what
an unlisted key reads as. -/

def Sparse.read {α : Type} (dflt : α) : List (Nat × α) → Nat → α
  | [], _ => dflt
  | (k, v) :: rest, a => if a = k then v else Sparse.read dflt rest a

def Sparse.write {α : Type} [DecidableEq α] (dflt : α) : List (Nat × α) → Nat → α → List (Nat × α)
  | [], a, v => if v = dflt then [] else [(a, v)]
  | (k, x) :: rest, a, v =>
    if a < k then
      if v = dflt then (k, x) :: rest else (a, v) :: (k, x) :: rest
    else if a = k then
      if v = dflt then rest else (a, v) :: rest
    else (k, x) :: Sparse.write dflt rest a v

/-- The canonical form: keys strictly rising, no entry equal to the default. -/
def Sparse.wf {α : Type} [DecidableEq α] (dflt : α) : List (Nat × α) → Bool
  | [] => true
  | (k, v) :: rest => decide (v ≠ dflt) && rest.all (fun e => decide (k < e.1)) && Sparse.wf dflt rest

/-! ### Bytes, most significant first (00, section 0.7) -/

/-- The number that bytes carry, most significant byte first. -/
def natOf (bytes : List Byte) : Nat := bytes.foldl (fun n b => n * 256 + b.toNat) 0

/-- The low `len` bytes of a number, most significant byte first. -/
def bytesOf : Nat → Nat → List Byte
  | 0, _ => []
  | len + 1, n => BitVec.ofNat 8 (n / 256 ^ len) :: bytesOf len n

/-- The field of `len` bytes at an offset of a record. -/
def field (record : List Byte) (offset len : Nat) : Nat := natOf ((record.drop offset).take len)

/-- The byte at an offset of a record; 0 past its end. -/
def byteAt (record : List Byte) (offset : Nat) : Byte := record.getD offset 0

/-- A presence or flag byte of a received message: 0 is no, any other value is yes (R191). -/
def flagAt (record : List Byte) (offset : Nat) : Bool := byteAt record offset != 0

/-- A presence byte the part composes: 0 or 1 (R191). -/
def flagByte (b : Bool) : Byte := if b then 1 else 0

/-- The service in a two-byte service field: its low twelve bits (13, section 13.2). -/
def serviceField (record : List Byte) (offset : Nat) : BitVec 12 := BitVec.ofNat 12 (field record offset 2)

/-! ### The stream-buffer memory -/

/-- A memory of 16 or 32 MB decodes fewer address bits (01, section 1.1). -/
def MemorySize.bytes : MemorySize → Nat
  | .mb16 => 16777216
  | .mb32 => 33554432
  | .mb64 => 67108864

/-- The memory's canonical form. -/
def Memory.wf (m : List Host.Cell) : Bool := Sparse.wf Config.memoryUnlisted m

/-- The byte the memory holds at a bus address. -/
def readByte (s : State) (a : Nat) : Byte :=
  Sparse.read Config.memoryUnlisted s.memory (a % s.memorySize.bytes)

def readBytes (s : State) (a len : Nat) : List Byte := (List.range len).map fun i => readByte s (a + i)

def writeByte (a : Nat) (b : Byte) (s : State) : State :=
  { s with memory := Sparse.write Config.memoryUnlisted s.memory (a % s.memorySize.bytes) b }

/-- A write reaching memory: a byte whose enable is off is not written (R1). -/
def writeLanes (a : Nat) : List Lane → State → State
  | [], s => s
  | l :: rest, s => writeLanes (a + 1) rest (if l.enabled then writeByte a l.data s else s)

/-- The completion of a write in memory. -/
def writeMemory (w : BusWrite) (s : State) : State := writeLanes w.address.toNat w.lanes s

/-! ### The serial store's bytes (12, section 12.1): page p lies at byte address 32 p -/

/-- The store's canonical form. -/
def Eeprom.wf (m : List Host.Cell) : Bool := Sparse.wf Config.storeUnlisted m

def readStore (eeprom : List Host.Cell) (a len : Nat) : List Byte :=
  (List.range len).map fun i => Sparse.read Config.storeUnlisted eeprom (a + i)

def readPage (eeprom : List Host.Cell) (page : Nat) : List Byte := readStore eeprom (32 * page) 32

def writeStore (a : Nat) : List Byte → List Host.Cell → List Host.Cell
  | [], m => m
  | b :: rest, m => writeStore (a + 1) rest (Sparse.write Config.storeUnlisted m a b)

def writePage (p : PageWrite) (eeprom : List Host.Cell) : List Host.Cell := writeStore (32 * p.page) p.bytes eeprom

/-! ### Rings -/

def PerRing.get {α : Type} (p : PerRing α) : Ring → α
  | .ring0 => p.ring0
  | .ring1 => p.ring1

def PerRing.set {α : Type} (p : PerRing α) (r : Ring) (a : α) : PerRing α :=
  match r with
  | .ring0 => { p with ring0 := a }
  | .ring1 => { p with ring1 := a }

end Sys2Proof.Machine
end

