-- ==== Sys2Proof/Machine/Flags.lean ====
section
/-! DEFINITION. The part's flags: saturating counters, the dirty set with its attention marks, the request slots' pending marks
and held results. -/

namespace Sys2Proof.Machine

/-! ### 16-bit counters that saturate at 65535 (R11, R33, R66, R103) -/

def bump (c : Half) : Half := if c = 65535 then c else c + 1

/-! ### The dirty set over the 53 report lines (R12, R176) -/

/-- The number of report lines. -/
def lineCount : Nat := 53

/-- The attention mark a line carries, or `none` while it is not in the dirty set. -/
def lineMark (s : State) (n : Nat) : Option Bool := Sparse.read none s.report n

/-- A line joins the dirty set; a line already there keeps an attention mark it had (R12). -/
def markLine (n : Nat) (attention : Bool) (s : State) : State :=
  { s with report := Sparse.write none s.report n (some (attention || (lineMark s n).getD false)) }

/-- Every line joins the set; marks already held are kept, a line added carries a clear mark (R12, R19, R173). -/
def markAllLines (s : State) : State :=
  { s with report := (List.range lineCount).map fun n => (n, some ((lineMark s n).getD false)) }

/-- All 53 lines stand in the set with clear marks (R5, R18, R176). -/
def markAllLinesClear (s : State) : State :=
  { s with report := (List.range lineCount).map fun n => (n, some false) }

/-! ### The counters of report line 0: a change marks the line without attention (R174) -/

def countDropped (s : State) : State :=
  if s.path.dropped = 65535 then s
  else markLine 0 false { s with path := { s.path with dropped := bump s.path.dropped } }

def countHeaderError (s : State) : State :=
  if s.intake.headerErrors = 65535 then s
  else markLine 0 false { s with intake := { s.intake with headerErrors := bump s.intake.headerErrors } }

def countAbandoned (s : State) : State :=
  if s.intake.abandoned = 65535 then s
  else markLine 0 false { s with intake := { s.intake with abandoned := bump s.intake.abandoned } }

def countTagFailure (s : State) : State :=
  if s.decoder.tagFailures = 65535 then s
  else markLine 0 false { s with decoder := { s.decoder with tagFailures := bump s.decoder.tagFailures } }

def countIgnored (s : State) : State :=
  if s.decoder.ignored = 65535 then s
  else markLine 0 false { s with decoder := { s.decoder with ignored := bump s.decoder.ignored } }

def countNoKey (s : State) : State :=
  if s.presentation.noKey = 65535 then s
  else markLine 0 false { s with presentation := { s.presentation with noKey := bump s.presentation.noKey } }

/-! ### Request slots (R168) -/

def slotPending (s : State) (slot : Nat) : Bool := Sparse.read false s.requests.pendingMarks slot

def setSlotPending (slot : Nat) (b : Bool) (s : State) : State :=
  { s with requests := { s.requests with pendingMarks := Sparse.write false s.requests.pendingMarks slot b } }

def heldResult (s : State) (slot : Nat) : Option Answer := Sparse.read none s.requests.heldResults slot

def setHeldResult (slot : Nat) (a : Option Answer) (s : State) : State :=
  { s with requests := { s.requests with heldResults := Sparse.write none s.requests.heldResults slot a } }

/-- A result entry joins the insertion queue; its attention mark is always set (R12). -/
def appendResult (slot : Nat) (a : Answer) (s : State) : State :=
  { s with path := { s.path with results := s.path.results ++ [{ slot := slot, answer := a, attention := true }] } }

/-- Whether the passing write is one placed in this request slot, and so not yet complete on the memory port (R171). -/
def carrierInProgress (s : State) (slot : Nat) : Bool :=
  match s.path.passing with
  | some (.write _ (some k)) => k == slot
  | _ => false

/-- A deferred result: appended at once if the write that carried the BUY has completed, held until it completes otherwise
(R171). -/
def deliverResult (slot : Nat) (a : Answer) (s : State) : State :=
  if carrierInProgress s slot then setHeldResult slot (some a) s else appendResult slot a s

end Sys2Proof.Machine
end

