-- ==== Sys2Proof/Machine/Keys.lean ====
section
/-! DEFINITION. The Key Table: histories, KEY messages, ageing, lookups and purges (chapter 3, R43 to R55). -/

namespace Sys2Proof.Machine

/-- The pool's size (R43). -/
def poolSize : Nat := 128

/-- The key held for a service and an epoch, or absent (R51). A lookup changes nothing. -/
def lookupKey (pool : List KeyEntry) (service : BitVec 12) (epoch : BitVec 4) : Option Key64 :=
  (pool.find? fun e => e.service == service && e.epoch == epoch).map KeyEntry.key

/-- The entries of a service's history, oldest first (R44). -/
def history (pool : List KeyEntry) (service : BitVec 12) : List KeyEntry := pool.filter fun e => e.service == service

/-- The pool without its first entry for which `p` holds. -/
def dropFirst (p : KeyEntry → Bool) : List KeyEntry → List KeyEntry
  | [] => []
  | e :: rest => if p e then rest else e :: dropFirst p rest

/-- Room for a new entry of a service: at depth its history's oldest entry goes; below depth, in a full pool, the pool's
oldest (R48, R49). -/
def makeRoom (depth : Nat) (service : BitVec 12) (pool : List KeyEntry) : List KeyEntry :=
  if depth ≤ (history pool service).length then dropFirst (fun e => e.service == service) pool
  else if poolSize ≤ pool.length then pool.tail
  else pool

/-- The pool after an accepted KEY message (R46, R47, R48): an entry held for the epoch is refreshed or has its key replaced and
moves to the newest end; otherwise a new entry is added there. -/
def keyPool (depth now : Nat) (service : BitVec 12) (epoch : BitVec 4) (key : Key64) (pool : List KeyEntry) : List KeyEntry :=
  let entry : KeyEntry := { service := service, epoch := epoch, key := key, arrival := now }
  if (lookupKey pool service epoch).isSome then
    pool.filter (fun e => !(e.service == service && e.epoch == epoch)) ++ [entry]
  else makeRoom depth service pool ++ [entry]

def keyMessage (service : BitVec 12) (epoch : BitVec 4) (key : Key64) (s : State) : State :=
  { s with keys := { pool := keyPool s.settings.historyDepth s.time.seconds service epoch key s.keys.pool } }

/-- The Key Table's minute timer: every entry older than the shift horizon is removed (R50). -/
def ageKeys (s : State) : State :=
  { s with keys := { pool := s.keys.pool.filter fun e => decide (s.time.seconds - e.arrival ≤ 60 * s.settings.shiftHorizon) } }

/-- The purge of a deleted service's history (R53). -/
def purgeKeys (service : BitVec 12) (s : State) : State :=
  { s with keys := { pool := s.keys.pool.filter fun e => e.service != service } }

end Sys2Proof.Machine
end

