-- ==== Sys2Proof/Machine/Store.lean ====
section
/-! DEFINITION. The Store Controller: record checks, the pages a job writes, the job queue, and the course of a job
(chapter 12, R177 to R183, R190; layouts 13, section 13.5). -/

namespace Sys2Proof.Machine

/-! ### The record check (R179) -/

/-- The sum, modulo 65536, of a record's 16-bit words, each most significant byte first. -/
def wordSum : List Byte → Half
  | hi :: lo :: rest => (hi ++ lo) + wordSum rest
  | _ => 0

/-- A record passes its check when its words sum to A55Ah. -/
def passesCheck (record : List Byte) : Bool := wordSum record == 0xA55A

/-- A page from its first 30 bytes: the check word set so that the page passes. -/
def sealPage (body : List Byte) : List Byte := body ++ bytesOf 2 ((0xA55A : Half) - wordSum body).toNat

/-! ### Composing pages -/

/-- Fourteen bytes of a purchase entry; a free entry is zeros; an absent sequence number is written as 0, and the title code is
not written (R190). The remaining rental seconds are the end less the seconds count, or 0 if the end has passed (R182). -/
def purchaseEntry (now : Nat) : Option Purchase → List Byte
  | none => bytesOf 14 0
  | some p =>
    bytesOf 2 p.event.toNat ++ bytesOf 2 (p.rating * 4096 + p.service.toNat) ++ bytesOf 3 p.amount
      ++ bytesOf 3 (p.rentalEnd - now) ++ bytesOf 4 (p.sequence.getD 0)

/-- Page 10 + k: the stay page number and purchase entries 2k and 2k + 1 (12, section 12.2). -/
def purchasePage (s : State) (number : Half) (k : Nat) : PageWrite where
  page := 10 + k
  bytes := sealPage (bytesOf 2 number.toNat ++ purchaseEntry s.time.seconds s.account.purchases[2 * k]?
    ++ purchaseEntry s.time.seconds s.account.purchases[2 * k + 1]?)

def pinNumber (p : Pin) : Nat := ((p.first * 16 + p.second) * 16 + p.third) * 16 + p.fourth

/-- Page 9, the stay header page; a field that is absent is written as 0 (R191). -/
def stayHeaderPage (s : State) (number : Half) : PageWrite where
  page := 9
  bytes :=
    let y := s.account.stay
    let presence := (if s.decoder.lastNumber.isSome then 1 else 0) + (if y.nightIndex.isSome then 2 else 0)
      + (if s.lock.pin.isSome then 4 else 0)
    sealPage (bytesOf 1 (if y.state = .occupied then 1 else 0) ++ bytesOf 1 presence ++ bytesOf 2 number.toNat
      ++ bytesOf 2 y.number.toNat ++ bytesOf 2 (s.decoder.lastNumber.getD 0).toNat ++ bytesOf 3 y.granted
      ++ bytesOf 3 y.remaining ++ bytesOf 3 y.spent ++ bytesOf 3 y.nightCeiling ++ bytesOf 3 y.nightSpent
      ++ bytesOf 2 (y.nightIndex.getD 0).toNat ++ bytesOf 1 s.lock.roomCeiling ++ bytesOf 1 s.lock.defaultCeiling
      ++ bytesOf 1 s.lock.guestCeiling ++ bytesOf 2 ((s.lock.pin.map pinNumber).getD 0))

/-- The page of the journal slot of a sequence number: slot s mod 64 (12, section 12.2). -/
def journalPage (sequence : Nat) : Nat := 18 + sequence % 64

/-- A journal slot: the record without its stored flag (R182). -/
def journalSlotPage (r : ChargeRecord) : PageWrite where
  page := journalPage r.sequence
  bytes := sealPage (bytesOf 4 r.sequence ++ bytesOf 2 r.stay.toNat ++ bytesOf 2 r.event.toNat ++ bytesOf 4 r.title.toNat
    ++ bytesOf 4 r.amount ++ bytesOf 2 r.base ++ bytesOf 1 r.percent ++ bytesOf 1 r.tax ++ bytesOf 1 r.tariffClass
    ++ bytesOf 1 (if r.clock.isSome then 1 else 0)
    ++ bytesOf 2 ((r.clock.map fun c => c.day.toNat).getD 0) ++ bytesOf 2 ((r.clock.map Moment.minute).getD 0)
    ++ bytesOf 4 0)

/-- The mark page. -/
def markPage (mark : Nat) : PageWrite where
  page := 8
  bytes := sealPage (bytesOf 4 mark ++ bytesOf 26 0)

/-! ### Requests for jobs (R181) -/

/-- The queue's places. -/
def queuePlaces : Nat := 8

/-- Whether a request finds a queue: not in FAULT and not in ABSENT (R164, R178). -/
def storeUsable (s : State) : Bool := s.store.state == .ready || s.store.state == .busy

/-- A request joins the end of the queue, or is held over where the queue is full and none of its kind is held over. -/
def joinQueue (j : Job) (h : HeldJob) (s : State) : State :=
  if j ∈ s.store.queue then s
  else if s.store.queue.length < queuePlaces then { s with store := { s.store with queue := s.store.queue ++ [j] } }
  else if h ∈ s.store.heldOver then s
  else { s with store := { s.store with heldOver := s.store.heldOver ++ [h] } }

def requestStay (s : State) : State := if storeUsable s then joinQueue .stay .stay s else s

def requestMark (s : State) : State := if storeUsable s then joinQueue .mark .mark s else s

/-- A JOURNAL job joins the end of the queue; check 9 of the commit has seen to its place (R181). -/
def requestJournal (r : ChargeRecord) (s : State) : State :=
  if storeUsable s then { s with store := { s.store with queue := s.store.queue ++ [.journal r] } } else s

/-- A rise of the stay generation, which requests a STAY job (R152). -/
def raiseGeneration (s : State) : State :=
  requestStay { s with account := { s.account with generation := s.account.generation + 1 } }

/-! ### The course of a job -/

/-- A change of the store state marks line 0, with attention at the entry into FAULT (R174, R180). -/
def setStoreState (x : StoreState) (s : State) : State :=
  if s.store.state = x then s
  else markLine 0 (x == .fault) { s with store := { s.store with state := x } }

def setInFlight (f : Option InFlight) (s : State) : State := { s with store := { s.store with inFlight := f } }

/-- A job takes its snapshot and its first page write begins (R182). A STAY job raises the stay page number by 1. -/
def launchJob (j : Job) (s : State) : State :=
  match j with
  | .stay =>
    let n := s.store.pageNumber + 1
    { s with store := { s.store with
        pageNumber := n
        inFlight := some {
          report := .stay s.account.generation
          current := purchasePage s n 0
          later := [purchasePage s n 1, purchasePage s n 2, purchasePage s n 3, purchasePage s n 4, purchasePage s n 5,
            purchasePage s n 6, purchasePage s n 7, stayHeaderPage s n] } } }
  | .journal r => setInFlight (some { report := .journal r.sequence, current := journalSlotPage r, later := [] }) s
  | .mark => setInFlight (some { report := .mark, current := markPage s.journal.mark, later := [] }) s

def HeldJob.job : HeldJob → Job
  | .stay => .stay
  | .mark => .mark

/-- The oldest waiting job leaves the queue and begins; the request first held over takes the place it frees (R181, R182). -/
def beginJob (s : State) : State :=
  match s.store.queue with
  | [] => s
  | j :: rest =>
    let joined := rest ++ (s.store.heldOver.take 1).map HeldJob.job
    setStoreState .busy
      (launchJob j { s with store := { s.store with queue := joined, heldOver := s.store.heldOver.drop 1 } })

/-- A job begins when the queue is not empty, no job is in flight, the store state is READY or BUSY, and the mode is RUN
(R182). Taken at the end of an event that requested a job (log 25). -/
def startJob (s : State) : State :=
  if s.path.mode = .run ∧ s.store.inFlight = none ∧ storeUsable s then beginJob s else s

/-- After a completion: the next waiting job begins in the same event, or the state returns to READY (R180, R183). -/
def nextJob (s : State) : State :=
  let s := setInFlight none s
  if s.store.queue = [] then setStoreState .ready s else beginJob s

end Sys2Proof.Machine
end

