-- ==== Sys2Proof/Machine/Lock.lean ====
section
/-! DEFINITION. The Lock Unit: ceilings, PIN, unlock and lockout periods (chapter 7, R105 to R119). -/

namespace Sys2Proof.Machine

/-- The effective ceiling (R108). -/
def effectiveCeiling (l : Lock) : Nat :=
  if l.unlock.isSome then l.roomCeiling else min l.roomCeiling l.guestCeiling

/-- A change of the Lock Unit's fields; a change marks line 2 without attention (R109). -/
def setLock (l : Lock) (s : State) : State :=
  if s.lock = l then s else markLine 2 false { s with lock := l }

/-- Both periods ended and both counts 0 (R110, R111, R118). -/
def Lock.cleared (l : Lock) : Lock := { l with unlock := none, lockout := none, wrongAttempts := 0, lockouts := 0 }

/-- The Lock Unit's part of a check-out: line 2 is marked with attention (R111). -/
def lockCheckOut (s : State) : State :=
  markLine 2 true { s with lock := { s.lock.cleared with guestCeiling := s.lock.defaultCeiling, pin := none } }

/-- The digits of a message as a PIN: absent if any is above 9 (R110, R119). -/
def pinOf (a b c d : Nat) : Option Pin :=
  if a ≤ 9 ∧ b ≤ 9 ∧ c ≤ 9 ∧ d ≤ 9 then some { first := a, second := b, third := c, fourth := d } else none

/-- The Lock Unit's part of a check-in: line 2 is marked with attention (R110). -/
def lockCheckIn (room dflt : Nat) (pin : Option Pin) (s : State) : State :=
  let room := min room 9
  markLine 2 true { s with lock := { s.lock.cleared with
    roomCeiling := room, defaultCeiling := min dflt room, guestCeiling := min dflt room, pin := pin } }

/-- The ceilings under a new room ceiling (R112). -/
def Lock.lowered (l : Lock) (level : Nat) : Lock :=
  { l with roomCeiling := level, defaultCeiling := min l.defaultCeiling level, guestCeiling := min l.guestCeiling level }

/-- A CEILING message; a GROUP CEILING that changes a field asks for a rise of the stay generation, a ROOM one is covered by its
acceptance (R112). -/
def ceilingMessage (room : Bool) (level : Nat) (s : State) : State :=
  let l := s.lock.lowered (min level 9)
  if s.lock = l then s
  else if room then setLock l s
  else raiseGeneration (setLock l s)

/-- A RELOCK: the guest ceiling falls to the level, a running unlock period ends; only a fall asks for a rise (R113). -/
def relockRequest (level : Nat) (s : State) : State :=
  let l := { s.lock with guestCeiling := min level s.lock.guestCeiling, unlock := none }
  if l.guestCeiling < s.lock.guestCeiling then startJob (raiseGeneration (setLock l s)) else setLock l s

/-- The multiplier of a lockout's length (R116). -/
def lockoutFactor (count : Nat) : Nat :=
  if count = 0 then 1 else if count = 1 then 2 else if count = 2 then 4 else 8

/-- The third wrong attempt: a lockout begins, and a running unlock period ends (R116). -/
def Lock.lockedOut (l : Lock) (now base : Nat) : Lock :=
  let minutes := base * lockoutFactor l.lockouts
  { l with
    wrongAttempts := 0
    lockouts := min (l.lockouts + 1) 3
    lockout := some { finish := now + 60 * minutes, minutes := minutes }
    unlock := none }

/-- A wrong PIN (R116); each marks line 2 without attention. -/
def wrongPin (s : State) : State :=
  markLine 2 false
    (if s.lock.wrongAttempts + 1 < 3 then { s with lock := { s.lock with wrongAttempts := s.lock.wrongAttempts + 1 } }
     else { s with lock := s.lock.lockedOut s.time.seconds s.settings.lockoutBase })

/-- The minutes an UNLOCK is granted (R115). -/
def grantedMinutes (s : State) (minutes : Nat) : Nat := if minutes = 0 then 1 else min minutes s.settings.maxUnlock

/-- A correct PIN: an unlock period starts or is replaced, both counts return to 0, line 2 is marked (R115). -/
def startUnlock (minutes : Nat) (s : State) : State :=
  let m := grantedMinutes s minutes
  markLine 2 false { s with lock := { s.lock with
    unlock := some { finish := s.time.seconds + 60 * m, minutes := m }, wrongAttempts := 0, lockouts := 0 } }

/-- An UNLOCK request, tested in the order of R114. -/
def unlockRequest (digits : Pin) (minutes : Nat) (s : State) : State × Answer :=
  match s.account.stay.state, s.lock.pin with
  | .occupied, some pin =>
    if s.lock.lockout.isSome then (s, { result := .refused, reason := some .lockedOut })
    else if digits = pin then (startUnlock minutes s, { result := .done, reason := none })
    else (wrongPin s, { result := .refused, reason := some .wrongPin })
  | _, _ => (s, { result := .refused, reason := some .noPin })

/-- Whether a running period's end has been reached (R117). -/
def periodOver (now : Nat) : Option Period → Bool
  | some p => decide (p.finish ≤ now)
  | none => false

/-- An unlock period whose end is reached ends, with attention (R117). -/
def endUnlock (s : State) : State :=
  if periodOver s.time.seconds s.lock.unlock then markLine 2 true { s with lock := { s.lock with unlock := none } } else s

/-- A lockout period whose end is reached ends, without attention (R117). -/
def endLockout (s : State) : State :=
  if periodOver s.time.seconds s.lock.lockout then markLine 2 false { s with lock := { s.lock with lockout := none } } else s

end Sys2Proof.Machine
end

