-- ==== Sys2Proof/Machine/Showings.lean ====
section
/-! DEFINITION. The Showing Tables: services, event records in their order, lookups and removal (chapter 5, R75 to R88), and the
rating of a cell or an event (R107). -/

namespace Sys2Proof.Machine

/-- A moment as a minute count: day x 1440 + minute (R79). -/
def Moment.count (m : Moment) : Nat := m.day.toNat * 1440 + m.minute

/-- The table sizes (R75, R79). -/
def tableSize : Nat := 64

/-! ### Lookups (R85, R86) -/

def findService (s : State) (service : BitVec 12) : Option ServiceRecord :=
  s.showings.services.find? fun r => r.service == service

/-- The Account Unit's lookup, by event id alone (R86). -/
def findEvent (s : State) (id : Half) : Option EventRecord := s.showings.events.find? fun e => e.id == id

/-- The Presentation Unit's lookup, by service and event tag (R86). -/
def findShowing (s : State) (service : BitVec 12) (tag : Half) : Option EventRecord :=
  match findEvent s tag with
  | some e => if e.service = service then some e else none
  | none => none

/-- The rating of a cell or of an event being bought, from its service and its event record (R107). -/
def ratingOf (s : State) (service : BitVec 12) (event : Option EventRecord) : Nat :=
  match findService s service with
  | none => s.settings.unknownRating
  | some r =>
    match r.cls, event with
    | .pay, some e => e.rating
    | _, _ => r.defaultRating

/-! ### The service table (R76, R77) -/

def setServices (l : List ServiceRecord) (s : State) : State := { s with showings := { s.showings with services := l } }

def setEvents (l : List EventRecord) (s : State) : State := { s with showings := { s.showings with events := l } }

/-- A SERVICE add: the record's class and rating become the message's, or a record is added, or the message is ignored and
counted in a full table (R76). -/
def serviceAddMessage (r : ServiceRecord) (s : State) : State :=
  if (findService s r.service).isSome then
    setServices (s.showings.services.map fun x => if x.service = r.service then r else x) s
  else if s.showings.services.length < tableSize then setServices (s.showings.services ++ [r]) s
  else countIgnored s

/-- The Showing Tables' part of a SERVICE delete (R77). -/
def dropService (service : BitVec 12) (s : State) : State :=
  setEvents (s.showings.events.filter fun e => e.service != service)
    (setServices (s.showings.services.filter fun r => r.service != service) s)

/-! ### The showing table (R79 to R84) -/

/-- The table's order: by start, then by event id (R79). -/
def EventRecord.before (a b : EventRecord) : Bool :=
  decide (a.start.count < b.start.count) || (a.start.count == b.start.count && decide (a.id.toNat < b.id.toNat))

/-- A record takes its place in the table's order. -/
def insertEvent (e : EventRecord) : List EventRecord → List EventRecord
  | [] => [e]
  | x :: rest => if e.before x then e :: x :: rest else x :: insertEvent e rest

/-- A change of one event record's fields that keeps its place. -/
def updateEvent (id : Half) (f : EventRecord → EventRecord) (s : State) : State :=
  setEvents (s.showings.events.map fun e => if e.id = id then f e else e) s

/-- The listing fields of one record of a LISTING (R79). -/
structure ListingRecord where
  id : Half
  service : BitVec 12
  start : Moment
  finish : Moment
  tariffClass : Nat
  rating : Nat
  title : BitVec 32
  deriving DecidableEq, Repr

/-- A new event record: metering NONE, 0 and 0 (R80). -/
def ListingRecord.fresh (r : ListingRecord) : EventRecord where
  id := r.id
  service := r.service
  start := r.start
  finish := r.finish
  tariffClass := r.tariffClass
  rating := r.rating
  title := r.title
  preview := .untouched
  viewed := 0
  cells := 0

/-- An updated event record: the listing fields replaced, the metering fields kept (R81). -/
def ListingRecord.over (r : ListingRecord) (e : EventRecord) : EventRecord :=
  { r.fresh with preview := e.preview, viewed := e.viewed, cells := e.cells }

/-- An update: the record moves to its place under its start (R81). -/
def relistEvent (r : ListingRecord) (e : EventRecord) (s : State) : State :=
  setEvents (insertEvent (r.over e) (s.showings.events.filter fun x => x.id != r.id)) s

/-- An insertion; of 65 records the last in the table's order, which has the latest start and among equals the highest event id,
is discarded (R80, R82). -/
def listEvent (r : ListingRecord) (s : State) : State :=
  let l := insertEvent r.fresh s.showings.events
  setEvents (if tableSize < l.length then l.dropLast else l) s

/-- Whether a record is due for removal at a minute count of the clock (R83). -/
def EventRecord.due (e : EventRecord) (now retention : Nat) : Bool := decide (e.finish.count + retention < now)

/-- The Showing Tables' minute timer (R84). -/
def retireEvents (s : State) : State :=
  match s.time.clock with
  | none => s
  | some c =>
    setEvents (s.showings.events.filter fun e => !e.due (c.day.toNat * 1440 + c.minute) s.settings.retention) s

/-- Metering afresh for every event: NONE, 0 and 0 (R124, R125). -/
def resetMetering (s : State) : State :=
  setEvents (s.showings.events.map fun e => { e with preview := .untouched, viewed := 0, cells := 0 }) s

end Sys2Proof.Machine
end

