-- ==== Sys2Proof/Machine/Account.lean ====
section
/-! DEFINITION. The Account Unit and the Charge Journal: stays, nights, credit, prices, the charge commit, previews, purchases,
pending buys, acknowledgement (chapters 8, 9 and 10). -/

namespace Sys2Proof.Machine

def setStay (y : Stay) (s : State) : State := { s with account := { s.account with stay := y } }

/-! ### Prices (R129 to R133) -/

def tariffOf (s : State) (cls : Nat) : Option Tariff := Sparse.read none s.account.tariffs cls

def setTariff (cls : Nat) (t : Option Tariff) (s : State) : State :=
  { s with account := { s.account with tariffs := Sparse.write none s.account.tariffs cls t } }

/-- The rounding step of a step code (R129). -/
def stepUnits : Nat → Nat
  | 0 => 1
  | 1 => 2
  | 2 => 5
  | 3 => 10
  | 4 => 20
  | 5 => 25
  | 6 => 50
  | _ => 100

/-- The band of greatest start in a list; among equals the last, which is the highest numbered (R132). -/
def latestBand : List Band → Option Band
  | [] => none
  | b :: rest =>
    match latestBand rest with
    | some x => if b.start ≤ x.start then some x else some b
    | none => some b

def Pricing.bands (p : Pricing) : List Band := [p.band0, p.band1, p.band2, p.band3]

/-- The band in force at a minute of the day (R132). -/
def Pricing.bandAt (p : Pricing) (minute : Nat) : Band :=
  match latestBand (p.bands.filter fun b => decide (b.start ≤ minute)) with
  | some b => b
  | none => (latestBand p.bands).getD p.band3

/-- The band percent of a charge (R132): 100 where the class uses no band, the clock is invalid or the pricing is not set. -/
def bandPercent (s : State) (t : Tariff) : Nat :=
  match s.time.clock, s.account.pricing with
  | some c, some p => if t.usesBand then (p.bandAt c.minute).percent else 100
  | _, _ => 100

/-- The tax of a charge: 0 while the pricing is not set (R131). -/
def taxRate (s : State) : Nat := (s.account.pricing.map Pricing.tax).getD 0

/-- The price under the band, rounded to the step: stages 1 and 2 of R133. -/
def roundedPrice (base percent step : Nat) : Nat :=
  let banded := (base * percent + 50) / 100
  ((banded + step / 2) / step) * step

/-- The amount charged: stages 3 and 4 of R133. -/
def chargeTotal (base percent step tax : Nat) : Nat :=
  let rounded := roundedPrice base percent step
  rounded + (rounded * tax + 500) / 1000

/-- The total of a purchase of a class at this moment (R134). -/
def totalOf (s : State) (t : Tariff) : Nat := chargeTotal t.base (bandPercent s t) (stepUnits t.stepCode) (taxRate s)

/-! ### The purchase list (R146, R147) -/

/-- Position n of the list shows on line 5 + n; each position whose content changes marks its line (R146). -/
def purchasePlaces : Nat := 16

def markPurchaseLines (before after : List Purchase) (s : State) : State :=
  (List.range purchasePlaces).foldl (fun s n => if before[n]? = after[n]? then s else markLine (5 + n) false s) s

def setPurchases (l : List Purchase) (s : State) : State :=
  markPurchaseLines s.account.purchases l { s with account := { s.account with purchases := l } }

/-- A purchase whose rental end is after now (R94, R135). -/
def Purchase.live (p : Purchase) (now : Nat) : Bool := decide (now < p.rentalEnd)

def livePurchase (s : State) (event : Half) : Bool :=
  s.account.purchases.any fun p => p.event == event && p.live s.time.seconds

/-- Every purchase whose rental end has come leaves the list, and its event, if listed, becomes SPENT with its viewed seconds kept
(R136, R147). It asks for no rise of the stay generation (R128). -/
def removeExpired (s : State) : State :=
  let gone := s.account.purchases.filter fun p => !p.live s.time.seconds
  setPurchases (s.account.purchases.filter fun p => p.live s.time.seconds)
    (setEvents (s.showings.events.map fun e =>
      if gone.any fun p => p.event == e.id then { e with preview := .spent } else e) s)

/-! ### The journal (chapter 10) -/

/-- The line on which a record is shown (R165). -/
def journalLine (sequence : Nat) : Nat := 21 + sequence % 32

/-- The journal's size (R157). -/
def journalPlaces : Nat := 32

/-- An append: the record takes the next sequence number, its line is marked, its JOURNAL job is queued (R160). -/
def appendCharge (r : ChargeRecord) (s : State) : State :=
  requestJournal r (markLine (journalLine r.sequence) false { s with journal := { s.journal with
    records := s.journal.records ++ [r], next := s.journal.next + 1 } })

/-- A record's stored flag set at its job's completion (R162). -/
def markStored (sequence : Nat) (s : State) : State :=
  if s.journal.records.any fun r => r.sequence == sequence then
    markLine (journalLine sequence) false { s with journal := { s.journal with
      records := s.journal.records.map fun r => if r.sequence = sequence then { r with stored := true } else r } }
  else s

def markJournalLines (l : List ChargeRecord) (s : State) : State :=
  l.foldl (fun s r => markLine (journalLine r.sequence) false s) s

/-- An ACK carrying the number `a` (R163): the records up to it leave, the mark moves, a MARK job is requested; one that removes
nothing is counted. -/
def ackMessage (a : Nat) (s : State) : State :=
  let gone := s.journal.records.filter fun r => decide (r.sequence ≤ a)
  if a ≤ s.journal.mark ∨ s.journal.records = [] then countIgnored s
  else requestMark (markJournalLines gone { s with journal := { s.journal with
    records := s.journal.records.filter fun r => decide (a < r.sequence)
    mark := min a (s.journal.next - 1) } })

/-! ### The charge commit (R134 to R137) -/

/-- The room check 9 finds lacking (R135): a JOURNAL job if the total is above 0, and a STAY job unless one waits. -/
def lacksRoom (s : State) (total : Nat) : Bool :=
  let needed := (if 0 < total then 1 else 0) + (if Job.stay ∈ s.store.queue then 0 else 1)
  decide (queuePlaces < s.store.queue.length + needed)

/-- The title a charge record carries (R159). -/
def recordTitle (s : State) (rating : Nat) (e : EventRecord) : BitVec 32 :=
  if s.settings.discreetLevel ≤ rating then s.settings.discreetTitle else e.title

/-- The charge record of a commit (R160). -/
def chargeRecord (s : State) (e : EventRecord) (t : Tariff) (rating total : Nat) : ChargeRecord where
  sequence := s.journal.next
  stay := s.account.stay.number
  event := e.id
  tariffClass := e.tariffClass
  title := recordTitle s rating e
  amount := total
  base := t.base
  percent := bandPercent s t
  tax := taxRate s
  clock := s.time.clock.map fun c => { day := c.day, minute := c.minute }
  stored := false

/-- The greatest night spent and the greatest credit remaining (R120). -/
def moneyLimit : Nat := 999999

/-- The purchase record of a commit (R137). -/
def purchaseRecord (s : State) (e : EventRecord) (t : Tariff) (rating total : Nat) : Purchase where
  event := e.id
  service := e.service
  rating := rating
  title := e.title
  amount := total
  rentalEnd := s.time.seconds + 3600 * t.hours
  sequence := if 0 < total then some s.journal.next else none

/-- The credit and night fields after a commit (R137). -/
def Stay.charged (y : Stay) (total : Nat) : Stay :=
  { y with remaining := y.remaining - total, spent := y.spent + total, nightSpent := min (y.nightSpent + total) moneyLimit }

/-- The pending-buy entry of a commit by a BUY; `needed` is the generation after the rise (R137, R153). -/
def addPendingBuy (slot : Option Nat) (sequence : Option Nat) (s : State) : State :=
  match slot with
  | none => s
  | some k =>
    { s with account := { s.account with pendingBuys := s.account.pendingBuys ++ [{
        slot := k, sequence := sequence, needed := s.account.generation, journalMark := sequence.isNone, stayMark := false }] } }

/-- The effects of a commit that passes every check, all at the commit event (R137). -/
def commitEffects (e : EventRecord) (t : Tariff) (rating total : Nat) (slot : Option Nat) (s : State) : State :=
  let purchase := purchaseRecord s e t rating total
  let s1 := markLine 1 false (setStay (s.account.stay.charged total) s)
  let s2 := updateEvent e.id (fun e => { e with preview := .paid }) (setPurchases (s.account.purchases ++ [purchase]) s1)
  let s3 := if 0 < total then appendCharge (chargeRecord s e t rating total) s2 else s2
  startJob (addPendingBuy slot purchase.sequence (raiseGeneration s3))

/-- Checks 7 to 11 of R135 and the effects, on the state that check 7's removals leave. -/
def commitChecked (e : EventRecord) (t : Tariff) (rating total : Nat) (slot : Option Nat) (s : State) : State × Option Reason :=
  if purchasePlaces ≤ s.account.purchases.length then (s, some .purchasesFull)
  else if 0 < total ∧ journalPlaces ≤ s.journal.records.length then (s, some .journalFull)
  else if lacksRoom s total then (s, some .storeBusy)
  else if s.account.stay.remaining < total then (s, some .credit)
  else if 0 < s.account.stay.nightCeiling ∧ s.account.stay.nightCeiling < s.account.stay.nightSpent + total then
    (s, some .ceiling)
  else (commitEffects e t rating total slot s, none)

/-- A charge commit for an event id, by a BUY from a request slot or, with no slot, by a preview end (R134, R135): the state it
leaves, and the reason of the first failed check or none. -/
def commit (event : Half) (slot : Option Nat) (s : State) : State × Option Reason :=
  if s.account.stay.state = .vacant then (s, some .noStay)
  else
    match findEvent s event with
    | none => (s, some .noEvent)
    | some e =>
      match tariffOf s e.tariffClass with
      | none => (s, some .noTariff)
      | some t =>
        let rating := ratingOf s e.service (some e)
        if effectiveCeiling s.lock < rating then (s, some .locked)
        else if livePurchase s event then (s, some .already)
        else if s.store.state = .fault ∨ s.store.state = .absent then (s, some .storeFault)
        else commitChecked e t rating (totalOf s t) slot (removeExpired s)

/-! ### Previews (R139 to R145) -/

/-- A preview end that leaves its event SPENT: the held record is replaced and line 1 marked with attention (R143, R144). -/
def holdEvent (id : Half) (cause : HeldCause) (s : State) : State :=
  markLine 1 true (updateEvent id (fun e => { e with preview := .spent })
    { s with account := { s.account with held := some { event := id, cause := cause } } })

/-- The end of a preview (R143). -/
def previewEnd (id : Half) (s : State) : State :=
  match (findEvent s id).bind fun e => tariffOf s e.tariffClass with
  | none => s
  | some t =>
    match t.mode with
    | .confirm => holdEvent id .confirm s
    | .auto =>
      match commit id none s with
      | (s', none) => s'
      | (s', some r) => holdEvent id (.refused r) s'

/-- Whether the second timer adds a viewed second to an event (R141). -/
def countsSecond (s : State) (e : EventRecord) : Bool :=
  s.account.freeView == .off && e.preview == .preview && (tariffOf s e.tariffClass).isSome
    && decide (s.settings.presenceThreshold ≤ e.cells.toNat)

/-- One more viewed second; where it reaches the allowance the preview end is handled at once (R141). -/
def addViewed (e : EventRecord) (s : State) : State :=
  let s1 := updateEvent e.id (fun e => { e with viewed := e.viewed + 1 }) s
  if (tariffOf s e.tariffClass).map Tariff.allowance = some (e.viewed + 1) then previewEnd e.id s1 else s1

/-- The second timer's handling of one event record (R141). -/
def meterEvent (id : Half) (s : State) : State :=
  match findEvent s id with
  | none => s
  | some e => updateEvent id (fun e => { e with cells := 0 }) (if countsSecond s e then addViewed e s else s)

/-- The second timer: the event records in the table's order, each on the state the one before left (R141). -/
def meterSecond (s : State) : State := (s.showings.events.map EventRecord.id).foldl (fun s id => meterEvent id s) s

/-- A class-change notice for an event (R81, R145). -/
def classChange (id : Half) (s : State) : State :=
  match findEvent s id with
  | none => s
  | some e =>
    match tariffOf s e.tariffClass with
    | none => s
    | some t =>
      let viewed := min e.viewed t.allowance
      let s1 := updateEvent id (fun e => { e with viewed := viewed }) s
      if e.preview = .preview ∧ viewed = t.allowance then previewEnd id s1 else s1

/-- A presentation note: 1 is added to the event's cells this second (R101, R140). -/
def presentationNote (id : Half) (s : State) : State := updateEvent id (fun e => { e with cells := bump e.cells }) s

/-- The beginning of a preview (R140). -/
def beginPreview (id : Half) (s : State) : State := updateEvent id (fun e => { e with preview := .preview }) s

/-! ### Tariffs, pricing, free-view (R129 to R131, R151) -/

/-- A TARIFF define; its class's events are treated as under a class change where the class is newly defined or its allowance
changes, one at a time in the table's order (R129, R130). -/
def tariffDefineMessage (cls : Nat) (t : Tariff) (s : State) : State :=
  let s1 := setTariff cls (some t) s
  if (tariffOf s cls).map Tariff.allowance = some t.allowance then s1
  else ((s1.showings.events.filter fun e => e.tariffClass == cls).map EventRecord.id).foldl (fun s id => classChange id s) s1

def tariffDeleteMessage (cls : Nat) (s : State) : State := setTariff cls none s

def pricingMessage (p : Pricing) (s : State) : State := { s with account := { s.account with pricing := some p } }

/-- A change of free-view marks line 0 without attention (R151). -/
def setFreeView (f : FreeView) (s : State) : State :=
  if s.account.freeView = f then s else markLine 0 false { s with account := { s.account with freeView := f } }

/-- The minute timer's end of free-view: on with an end, the clock valid and at or after it (R151). -/
def endFreeView (s : State) : State :=
  match s.account.freeView, s.time.clock with
  | .on (some m), some c => if m.count ≤ c.day.toNat * 1440 + c.minute then setFreeView .off s else s
  | _, _ => s

/-! ### Stays (R120 to R128) -/

/-- The Account Unit's part of a check-out (R125): the night index is kept, the held record is emptied (R144), line 1 is marked with
attention (R128). -/
def accountCheckOut (s : State) : State :=
  markLine 1 true (resetMetering (setPurchases [] { s with account := { s.account with
    stay := Stay.vacantWith s.account.stay.nightIndex, held := none } }))

/-- The end of a stay, in both owners (R111, R125). -/
def checkOut (s : State) : State := lockCheckOut (accountCheckOut s)

/-- The body of a CHECKIN (13, section 13.2). -/
structure CheckinBody where
  number : Half
  credit : Nat
  nightCeiling : Nat
  roomCeiling : Nat
  defaultCeiling : Nat
  pin : Option Pin
  deriving DecidableEq, Repr

/-- The Account Unit's part of a check-in (R124, R144); `night` is the Timebase's night index. -/
def accountCheckIn (b : CheckinBody) (night : Option Half) (s : State) : State :=
  markLine 1 true (resetMetering (setPurchases [] { s with account := { s.account with
    stay := {
      state := .occupied
      number := b.number
      granted := min b.credit moneyLimit
      remaining := min b.credit moneyLimit
      spent := 0
      nightCeiling := min b.nightCeiling moneyLimit
      nightSpent := 0
      nightIndex := night }
    held := none } }))

/-- A new stay starts, in both owners (R110, R124). -/
def checkIn (b : CheckinBody) (night : Option Half) (s : State) : State :=
  lockCheckIn b.roomCeiling b.defaultCeiling b.pin (accountCheckIn b night s)

/-- A CHECKIN (R123). -/
def checkinMessage (b : CheckinBody) (night : Option Half) (s : State) : State :=
  match s.account.stay.state with
  | .vacant => checkIn b night s
  | .occupied => if s.account.stay.number = b.number then countIgnored s else checkIn b night (checkOut s)

/-- A CHECKOUT (R125). -/
def checkoutMessage (number : Half) (s : State) : State :=
  if s.account.stay.state = .occupied ∧ s.account.stay.number = number then checkOut s else countIgnored s

/-- The greatest credit granted (R120). -/
def grantLimit : Nat := 16777215

/-- Credit remaining after a delta: below 0 taken as 0, above 999,999 as 999,999, above the grant limit less stay spent as that
figure (R126). -/
def creditAfter (remaining spent : Nat) (delta : Int) : Nat :=
  min (min ((remaining : Int) + delta).toNat moneyLimit) (grantLimit - spent)

/-- A new night ceiling: above 999,999 taken as 999,999; a non-zero value below night spent taken as night spent (R126). -/
def ceilingAfter (nightSpent value : Nat) : Nat :=
  let v := min value moneyLimit
  if v = 0 then 0 else max v nightSpent

/-- The stay after a CREDIT (R126). -/
def Stay.credited (y : Stay) (delta : Int) (ceiling : Option Nat) : Stay :=
  let remaining := creditAfter y.remaining y.spent delta
  { y with
    remaining := remaining
    granted := remaining + y.spent
    nightCeiling := match ceiling with
      | none => y.nightCeiling
      | some v => ceilingAfter y.nightSpent v }

/-- A CREDIT: ignored and counted while VACANT; one that changes the stay marks line 1 with attention (R126, R128). -/
def creditMessage (delta : Int) (ceiling : Option Nat) (s : State) : State :=
  match s.account.stay.state with
  | .vacant => countIgnored s
  | .occupied =>
    let y := s.account.stay.credited delta ceiling
    if s.account.stay = y then s else markLine 1 true (setStay y s)

/-- A rollover notice with the new night index (R127, R128). -/
def rolloverNotice (night : Half) (s : State) : State :=
  if s.account.stay.nightIndex = some night then s
  else startJob (raiseGeneration (markLine 1 false
    (setStay { s.account.stay with nightIndex := some night, nightSpent := 0 } s)))

/-! ### Pending buys (R153, R154) -/

/-- Entries whose two marks are both yes leave the list in its order, each with a DONE result for its slot (R153, R171). -/
def settlePendingBuys (s : State) : State :=
  (s.account.pendingBuys.filter fun e => e.journalMark && e.stayMark).foldl
    (fun s e => deliverResult e.slot { result := .done, reason := none } s)
    { s with account := { s.account with pendingBuys := s.account.pendingBuys.filter fun e => !(e.journalMark && e.stayMark) } }

/-- A JOURNAL job's completion marks the entry of its sequence (R153). -/
def markJournalDone (sequence : Nat) (s : State) : State :=
  let l := s.account.pendingBuys.map fun e => if e.sequence = some sequence then { e with journalMark := true } else e
  settlePendingBuys { s with account := { s.account with pendingBuys := l } }

/-- Whether generation g is at or above generation n (R152). -/
def generationReached (g n : BitVec 32) : Bool := decide ((g - n).toNat ≤ 2147483647)

/-- A STAY job's completion marks every entry whose generation needed its snapshot reaches (R153). -/
def markStayDone (generation : BitVec 32) (s : State) : State :=
  let l := s.account.pendingBuys.map fun e =>
    if generationReached generation e.needed then { e with stayMark := true } else e
  settlePendingBuys { s with account := { s.account with pendingBuys := l } }

/-- Every entry leaves the list in its order, each with a VOLATILE result for its slot (R154, R171). -/
def voidPendingBuys (s : State) : State :=
  s.account.pendingBuys.foldl (fun s e => deliverResult e.slot { result := .volatile, reason := some .storeFault } s)
    { s with account := { s.account with pendingBuys := [] } }

end Sys2Proof.Machine
end

