-- ==== Sys2Proof/Machine/Cipher.lean ====
section
/-! DEFINITION. The cell cipher: the mix round, the counter keystream, message unmasking and the message tag
(chapter 3, R37 to R42). -/

namespace Sys2Proof.Machine

/-- The four words of the cipher's state (03, section 3.1). -/
structure MixState where
  a : Half
  b : Half
  c : Half
  d : Half
  deriving DecidableEq, Repr

/-- One round with input byte `x` (R37); x = 0 is a blank round. -/
def mixRound (x : Byte) (m : MixState) : MixState :=
  let a := m.a + m.b + x.setWidth 16
  let d := (m.d ^^^ a).rotateLeft 5
  let c := m.c + d
  let b := (m.b ^^^ c).rotateLeft 11
  { a := a, b := b, c := c, d := d }

/-- Word K0 to K3 of a key, K0 most significant (03, section 3.1). -/
def keyWord (k : Key64) (i : Nat) : Half := k.extractLsb' (48 - 16 * i) 16

/-- The starting state for a key, a salt and an index (R38, R41). -/
def mixStart (k : Key64) (salt index : Half) : MixState where
  a := keyWord k 0 ^^^ salt
  b := keyWord k 1 ^^^ index
  c := keyWord k 2
  d := keyWord k 3 ^^^ salt.rotateLeft 8

/-- The keystream word for payload word `j` (R38). -/
def keystreamWord (k : Key64) (salt : Half) (j : Nat) : BitVec 32 :=
  let m := mixRound 0 (mixRound 0 (mixRound 0 (mixStart k salt (BitVec.ofNat 16 j))))
  (m.a ^^^ m.c) ++ (m.b ^^^ m.d)

/-- The four bytes of a keystream word, byte 0 its most significant (R38). -/
def keystreamBytes (k : Key64) (salt : Half) (j : Nat) : List Byte := bytesOf 4 (keystreamWord k salt j).toNat

/-- A payload word unscrambled or scrambled: each byte XORed with the keystream byte of its place (R39). -/
def xorWord (k : Key64) (salt : Half) (j : Nat) (word : List Byte) : List Byte :=
  List.zipWith (fun x y => x ^^^ y) word (keystreamBytes k salt j)

/-- Keystream byte of payload byte `p`: byte p mod 4 of the keystream word for p div 4 (R40). -/
def keystreamByte (k : Key64) (salt : Half) (p : Nat) : Byte := byteAt (keystreamBytes k salt (p / 4)) (p % 4)

/-- The plain body of a message: payload bytes 8 to 8 + L - 1, unmasked (R40). -/
def plainBody (k : Key64) (salt : Half) (payload : List Byte) (len : Nat) : List Byte :=
  (List.range len).map fun i => byteAt payload (8 + i) ^^^ keystreamByte k salt (8 + i)

/-- The tag over the message header and the plain body (R41). -/
def messageTag (k : Key64) (salt : Half) (bytes : List Byte) : Half :=
  let m := bytes.foldl (fun m x => mixRound x m) (mixStart k salt 0xFFFF)
  m.a ^^^ m.b ^^^ m.c ^^^ m.d

end Sys2Proof.Machine
end

