-- ==== Sys2Proof/Machine/Operands.lean ====
section
/-! DEFINITION. Reading what arrives: the cell header (R20, R21), the message header and bodies (13, section 13.2; R57 to R62), and the
request record (13, section 13.3). -/

namespace Sys2Proof.Machine

/-! ### The cell header -/

/-- The header check of twelve header bytes: the five 16-bit values of the first ten bytes, summed and XORed with FFFFh (R20). -/
def headerCheck (header : List Byte) : Half :=
  (BitVec.ofNat 16 (field header 0 2) + BitVec.ofNat 16 (field header 2 2) + BitVec.ofNat 16 (field header 4 2)
    + BitVec.ofNat 16 (field header 6 2) + BitVec.ofNat 16 (field header 8 2)) ^^^ 0xFFFF

/-- The four tests of a valid header (R20). -/
def headerValid (header : List Byte) : Bool :=
  byteAt header 0 == 0xB7 && byteAt header 9 == 1 && decide ((byteAt header 8).toNat ≤ 116)
    && headerCheck header == BitVec.ofNat 16 (field header 10 2)

/-- A written kind of 4 to 15 is recorded as FILLER (R21). -/
def cellKindOf : Nat → CellKind
  | 1 => .media
  | 2 => .message
  | 3 => .guide
  | _ => .filler

/-- The slot tag's fields from a valid header (R21; 13, section 13.1). -/
def headerFields (header : List Byte) : TagFields where
  kind := cellKindOf ((byteAt header 1).toNat / 16)
  scrambled := (byteAt header 1).toNat % 2 == 1
  epoch := BitVec.ofNat 4 ((byteAt header 2).toNat / 16)
  service := serviceField header 2
  eventTag := BitVec.ofNat 16 (field header 4 2)
  salt := BitVec.ofNat 16 (field header 6 2)
  payloadLength := (byteAt header 8).toNat

/-! ### Messages -/

/-- Address types (13, section 13.2). -/
inductive AddressType where
  | site
  | group
  | room
  deriving DecidableEq, Repr

def addressTypeOf : Nat → Option AddressType
  | 1 => some .site
  | 2 => some .group
  | 3 => some .room
  | _ => none

/-- Message kinds and their codes (13, section 13.2). -/
inductive MessageKind where
  | key
  | service
  | listing
  | tariff
  | pricing
  | time
  | freeview
  | checkin
  | checkout
  | credit
  | ack
  | ceiling
  | maint
  deriving DecidableEq, Repr

def messageKindOf : Nat → Option MessageKind
  | 1 => some .key
  | 2 => some .service
  | 3 => some .listing
  | 4 => some .tariff
  | 5 => some .pricing
  | 6 => some .time
  | 7 => some .freeview
  | 8 => some .checkin
  | 9 => some .checkout
  | 10 => some .credit
  | 11 => some .ack
  | 12 => some .ceiling
  | 13 => some .maint
  | _ => none

/-- The address types allowed for a kind (R60). -/
def kindAllowed : MessageKind → AddressType → Bool
  | .key, a => a != .room
  | .service, a => a != .room
  | .listing, a => a != .room
  | .tariff, a => a != .room
  | .pricing, a => a != .room
  | .time, a => a != .room
  | .freeview, a => a != .room
  | .checkin, a => a == .room
  | .checkout, a => a == .room
  | .credit, a => a == .room
  | .ack, a => a == .room
  | .ceiling, a => a != .site
  | .maint, a => a != .site

/-- An accepted message's content, one constructor per row of the table. -/
inductive Message where
  | key (service : BitVec 12) (epoch : BitVec 4) (key : Key64)
  | serviceAdd (record : ServiceRecord)
  | serviceDelete (service : BitVec 12)
  | listing (records : List ListingRecord)
  | tariffDefine (cls : Nat) (tariff : Tariff)
  | tariffDelete (cls : Nat)
  | pricing (pricing : Pricing)
  | time (clock : WallClock)
  | freeviewOn (finish : Option Moment)
  | freeviewOff
  | checkin (body : CheckinBody)
  | checkout (number : Half)
  | credit (delta : Int) (ceiling : Option Nat)
  | ack (sequence : Nat)
  | ceiling (level : Nat)
  | maint (tag : Half)
  deriving DecidableEq, Repr

/-- The reserved service number (R51, R61, R78). -/
def reservedService : BitVec 12 := 4095

def keyBody (b : List Byte) : Option Message :=
  if serviceField b 0 = reservedService then none
  else some (.key (serviceField b 0) (BitVec.ofNat 4 (byteAt b 2).toNat) (BitVec.ofNat 64 (field b 3 8)))

def serviceClassOf : Nat → Option ServiceClass
  | 0 => some .free
  | 1 => some .pay
  | _ => none

def serviceBody (b : List Byte) : Option Message :=
  if serviceField b 1 = reservedService then none
  else
    match (byteAt b 0).toNat with
    | 1 =>
      match serviceClassOf (byteAt b 3).toNat with
      | some c =>
        if (byteAt b 4).toNat ≤ 9 then
          some (.serviceAdd { service := serviceField b 1, cls := c, defaultRating := (byteAt b 4).toNat })
        else none
      | none => none
    | 2 => some (.serviceDelete (serviceField b 1))
    | _ => none

def momentField (b : List Byte) (offset : Nat) : Moment where
  day := BitVec.ofNat 16 (field b offset 2)
  minute := field b (offset + 2) 2

/-- One record of a LISTING body, or none where R78 makes the message ignored. -/
def listingRecord (b : List Byte) : Option ListingRecord :=
  let r : ListingRecord := {
    id := BitVec.ofNat 16 (field b 0 2)
    service := serviceField b 2
    start := momentField b 4
    finish := momentField b 8
    tariffClass := (byteAt b 12).toNat
    rating := (byteAt b 13).toNat
    title := BitVec.ofNat 32 (field b 14 4) }
  if r.id ≠ 0 ∧ r.service ≠ reservedService ∧ r.start.minute ≤ 1439 ∧ r.finish.minute ≤ 1439
      ∧ r.start.count < r.finish.count ∧ r.tariffClass ≤ 7 ∧ r.rating ≤ 9 then some r
  else none

/-- The records of a LISTING body, all or none (R78). -/
def listingRecords : Nat → List Byte → Option (List ListingRecord)
  | 0, _ => some []
  | n + 1, b =>
    match listingRecord (b.take 18), listingRecords n (b.drop 18) with
    | some r, some l => some (r :: l)
    | _, _ => none

def purchaseModeOf : Nat → Option PurchaseMode
  | 1 => some .confirm
  | 2 => some .auto
  | _ => none

/-- Rental hours of 0 are taken as 1, above 72 as 72 (R129). -/
def clampHours (n : Nat) : Nat := if n = 0 then 1 else min n 72

def tariffBody (b : List Byte) : Option Message :=
  let cls := (byteAt b 0).toNat
  if 7 < cls then none
  else
    match (byteAt b 1).toNat with
    | 1 =>
      match purchaseModeOf (byteAt b 4).toNat with
      | some m => some (.tariffDefine cls {
          base := field b 2 2
          mode := m
          allowance := min (field b 5 2) 3600
          hours := clampHours (byteAt b 7).toNat
          stepCode := (byteAt b 8).toNat % 8
          usesBand := flagAt b 9 })
      | none => none
    | 2 => some (.tariffDelete cls)
    | _ => none

def bandField (b : List Byte) (n : Nat) : Band where
  start := field b (1 + 3 * n) 2
  percent := min (byteAt b (3 + 3 * n)).toNat 250

def pricingBody (b : List Byte) : Option Message :=
  let p : Pricing := {
    tax := min (byteAt b 0).toNat 250
    band0 := bandField b 0
    band1 := bandField b 1
    band2 := bandField b 2
    band3 := bandField b 3 }
  if p.bands.all fun x => decide (x.start ≤ 1439) then some (.pricing p) else none

def timeBody (b : List Byte) : Option Message :=
  let c : WallClock := { day := BitVec.ofNat 16 (field b 0 2), minute := field b 2 2, second := (byteAt b 4).toNat }
  if c.minute ≤ 1439 ∧ c.second ≤ 59 then some (.time c) else none

/-- Bytes 2 to 5 are examined only for on with end present (13, section 13.2). -/
def freeviewBody (b : List Byte) : Option Message :=
  match (byteAt b 0).toNat with
  | 1 =>
    if flagAt b 1 then
      if (momentField b 2).minute ≤ 1439 then some (.freeviewOn (some (momentField b 2))) else none
    else some (.freeviewOn none)
  | 2 => some .freeviewOff
  | _ => none

def checkinBody (b : List Byte) : Option Message :=
  let number := BitVec.ofNat 16 (field b 0 2)
  if number = 0 then none
  else some (.checkin {
    number := number
    credit := field b 2 3
    nightCeiling := field b 5 3
    roomCeiling := (byteAt b 8).toNat
    defaultCeiling := (byteAt b 9).toNat
    pin := pinOf (byteAt b 10).toNat (byteAt b 11).toNat (byteAt b 12).toNat (byteAt b 13).toNat })

def checkoutBody (b : List Byte) : Option Message :=
  let number := BitVec.ofNat 16 (field b 0 2)
  if number = 0 then none else some (.checkout number)

/-- A signed 24-bit two's-complement field (13, section 13.2). -/
def signedField (b : List Byte) (offset : Nat) : Int := (BitVec.ofNat 24 (field b offset 3)).toInt

def creditBody (b : List Byte) : Option Message :=
  some (.credit (signedField b 2) (if flagAt b 5 then some (field b 6 3) else none))

/-- The body length a kind has (13, section 13.2). -/
def lengthAllowed : MessageKind → Nat → Bool
  | .key, n => n == 11
  | .service, n => n == 5
  | .listing, n => n == 18 || n == 36 || n == 54 || n == 72
  | .tariff, n => n == 10
  | .pricing, n => n == 13
  | .time, n => n == 5
  | .freeview, n => n == 6
  | .checkin, n => n == 14
  | .checkout, n => n == 2
  | .credit, n => n == 9
  | .ack, n => n == 4
  | .ceiling, n => n == 1
  | .maint, n => n == 2

/-- The content of a body of a kind, or none where the body test fails (R61, R72, R78, R129, R131, R151). -/
def bodyOf (k : MessageKind) (b : List Byte) : Option Message :=
  if lengthAllowed k b.length then
    match k with
    | .key => keyBody b
    | .service => serviceBody b
    | .listing => (listingRecords (b.length / 18) b).map Message.listing
    | .tariff => tariffBody b
    | .pricing => pricingBody b
    | .time => timeBody b
    | .freeview => freeviewBody b
    | .checkin => checkinBody b
    | .checkout => checkoutBody b
    | .credit => creditBody b
    | .ack => some (.ack (field b 0 4))
    | .ceiling => some (.ceiling (byteAt b 0).toNat)
    | .maint => some (.maint (BitVec.ofNat 16 (field b 0 2)))
  else none

/-- What the Message Decoder's tests find of a message handed off (R57). -/
inductive Finding where
  /-- Test 2 failed. -/
  | passedOver
  /-- Test 3 or 4 failed. -/
  | tagFailure
  /-- Test 1, 5 or 7 failed. -/
  | ignored
  /-- Test 6 failed. -/
  | stale
  /-- Every test passed; the address type and the room-message number are those of its header. -/
  | accepted (address : AddressType) (number : Half) (message : Message)
  deriving DecidableEq, Repr

/-- Whether a target matches this room (R58). -/
def targetMatches (c : Settings) (a : AddressType) (target : Half) : Bool :=
  match a with
  | .site => true
  | .group => target == c.groupId && c.groupId != 0
  | .room => target == c.roomId

/-- The message key of an address type (R40, R59). -/
def messageKey (c : Settings) : AddressType → Key64
  | .room => c.roomKey
  | _ => c.siteKey

/-- Whether a number lies in the window of L (R62). -/
def numberFresh (last : Option Half) (n : Half) : Bool :=
  match last with
  | none => true
  | some l => n != l && decide ((n - l).toNat ≤ 32767)

/-- Tests 5 to 7, on a message whose tag is correct (R57, R60, R61, R62). -/
def testContent (last : Option Half) (a : AddressType) (payload body : List Byte) : Finding :=
  match messageKindOf (byteAt payload 3).toNat with
  | none => .ignored
  | some k =>
    let n := BitVec.ofNat 16 (field payload 4 2)
    if !kindAllowed k a then .ignored
    else if a = .room ∧ numberFresh last n = false then .stale
    else
      match bodyOf k body with
      | none => .ignored
      | some m => .accepted a n m

/-- The seven tests in their order; the first that fails decides (R57). -/
def testMessage (c : Settings) (last : Option Half) (salt : Half) (payload : List Byte) : Finding :=
  match addressTypeOf (byteAt payload 0).toNat with
  | none => .ignored
  | some a =>
    let len := (byteAt payload 6).toNat
    if !targetMatches c a (BitVec.ofNat 16 (field payload 1 2)) then .passedOver
    else if 106 < len then .tagFailure
    else
      let body := plainBody (messageKey c a) salt payload len
      if messageTag (messageKey c a) salt (payload.take 8 ++ body) = BitVec.ofNat 16 (field payload (8 + len) 2) then
        testContent last a payload body
      else .tagFailure

/-- What the tests find of a message handed off, in this state. -/
def findingOf (s : State) (h : HandOff) : Finding := testMessage s.settings s.decoder.lastNumber h.salt h.bytes

/-! ### Request records (13, section 13.3) -/

/-- The request kinds of 11, section 11.1, on the bytes of a taken request. -/
inductive Request where
  | buy (event : Half)
  | unlock (digits : Pin) (minutes : Nat)
  | relock (level : Nat)
  | refresh
  | unknown
  deriving DecidableEq, Repr

def requestOf (record : List Byte) : Request :=
  match (byteAt record 0).toNat with
  | 1 => .buy (BitVec.ofNat 16 (field record 8 2))
  | 2 =>
    .unlock
      { first := (byteAt record 8).toNat, second := (byteAt record 9).toNat, third := (byteAt record 10).toNat,
        fourth := (byteAt record 11).toNat }
      (field record 12 2)
  | 3 => .relock (byteAt record 8).toNat
  | 4 => .refresh
  | _ => .unknown

def resultCode : Result → Byte
  | .pending => 1
  | .done => 2
  | .refused => 3
  | .volatile => 4

def reasonCode : Reason → Byte
  | .badKind => 1
  | .noPin => 2
  | .lockedOut => 3
  | .wrongPin => 4
  | .noStay => 5
  | .noEvent => 6
  | .noTariff => 7
  | .locked => 8
  | .already => 9
  | .storeFault => 10
  | .purchasesFull => 11
  | .journalFull => 12
  | .storeBusy => 13
  | .credit => 14
  | .ceiling => 15

/-- The reason byte of an answer; 0 where there is no reason. -/
def Answer.reasonByte (a : Answer) : Byte :=
  match a.reason with
  | some r => reasonCode r
  | none => 0

end Sys2Proof.Machine
end

