-- ==== Sys2Proof/Machine/Timebase.lean ====
section
/-! DEFINITION. The Timebase: the seconds count, the unit timers, the wall clock and the night index (chapter 4, R69 to R74). -/

namespace Sys2Proof.Machine

/-- The night index of a clock under a rollover minute (R73). -/
def nightOf (rollover : Nat) (c : WallClock) : Half := if rollover ≤ c.minute then c.day else c.day - 1

/-- The Timebase's night index: none while the clock is invalid (R73). -/
def nightIndex (s : State) : Option Half := s.time.clock.map (nightOf s.settings.rolloverMinute)

/-- The rollover notice, sent when the night index after an event differs from the one before it (R73). -/
def noticeIfChanged (before : Option Half) (s : State) : State :=
  match nightIndex s with
  | some night => if before = some night then s else rolloverNotice night s
  | none => s

/-- A TIME message: the clock holds its value and is valid; a change of the valid flag marks line 0 (R71, R72). -/
def timeMessage (c : WallClock) (s : State) : State :=
  let s1 := { s with time := { s.time with clock := some c } }
  noticeIfChanged (nightIndex s) (if s.time.clock.isSome then s1 else markLine 0 false s1)

/-- The wall clock one second on (R71). -/
def WallClock.tick (c : WallClock) : WallClock :=
  if c.second < 59 then { c with second := c.second + 1 }
  else if c.minute < 1439 then { c with second := 0, minute := c.minute + 1 }
  else { day := c.day + 1, minute := 0, second := 0 }

/-- The unit timers an advance to this count expires, in RUN (R70): the second timer always, the minute timers at a multiple
of 60. -/
def Timebase.expire (t : Timebase) : Timebase :=
  let m := if t.seconds % 60 = 0 then 1 else 0
  { t with
    secondDue := t.secondDue + 1
    accountMinuteDue := t.accountMinuteDue + m
    keyMinuteDue := t.keyMinuteDue + m
    showingMinuteDue := t.showingMinuteDue + m
    lockMinuteDue := t.lockMinuteDue + m }

/-- The seconds count and a valid wall clock one second on (R69, R71). -/
def Timebase.advance (t : Timebase) : Timebase :=
  { t with seconds := t.seconds + 1, clock := t.clock.map WallClock.tick }

/-- An advance of the seconds count, in every mode; in RUN it expires the unit timers (R69, R70), and a change of the night index
sends a notice (R73). -/
def advanceSecond (s : State) : State :=
  let t := s.time.advance
  noticeIfChanged (nightIndex s) { s with time := if s.path.mode = .run then t.expire else t }

end Sys2Proof.Machine
end

