-- ==== Sys2Proof/Machine/Messages.lean ====
section
/-! DEFINITION. The Message Decoder: acceptance, dispatch to the owners, the maintenance reset, and the rows of the message kinds
(chapter 4, R56 to R68; R76 to R82; R112; R123 to R131; R151; R163). -/

namespace Sys2Proof.Machine

/-! ### What the owners do -/

/-- One listing record of a LISTING (R80): an update of a listed id, with a class-change notice where its tariff class changes
(R81), or an insertion (R82). -/
def takeListing (r : ListingRecord) (s : State) : State :=
  match findEvent s r.id with
  | some e =>
    if e.tariffClass = r.tariffClass then relistEvent r e s else classChange r.id (relistEvent r e s)
  | none => listEvent r s

/-- A LISTING: its records one at a time, in the order of the body (R80). -/
def listingMessage (records : List ListingRecord) (s : State) : State := records.foldl (fun s r => takeListing r s) s

/-- A SERVICE delete, in the Showing Tables and in the Key Table (R53, R77). -/
def serviceDeleteMessage (service : BitVec 12) (s : State) : State := purgeKeys service (dropService service s)

/-- A maintenance reset, in every block at once (R19, R35, R54, R68, R88, R118, R138, R156). -/
def maintenanceReset (s : State) : State :=
  markAllLines { s with
    intake := { s.intake with tags := [] }
    keys := { pool := [] }
    showings := { services := [], events := [] }
    lock := s.lock.cleared
    account := { s.account with tariffs := [], pricing := none, freeView := .off } }

/-- A MAINT: a maintenance reset unless its tag is the last one (R67). -/
def maintMessage (tag : Half) (s : State) : State :=
  if s.decoder.lastMaintenanceTag = some tag then s
  else
    let s1 := maintenanceReset s
    { s1 with decoder := { s1.decoder with lastMaintenanceTag := some tag } }

/-- The owner acts on an accepted message (R60, R65). -/
def dispatch (a : AddressType) (m : Message) (s : State) : State :=
  match m with
  | .key service epoch key => keyMessage service epoch key s
  | .serviceAdd r => serviceAddMessage r s
  | .serviceDelete service => serviceDeleteMessage service s
  | .listing l => listingMessage l s
  | .tariffDefine cls t => tariffDefineMessage cls t s
  | .tariffDelete cls => tariffDeleteMessage cls s
  | .pricing p => pricingMessage p s
  | .time c => timeMessage c s
  | .freeviewOn finish => setFreeView (.on finish) s
  | .freeviewOff => setFreeView .off s
  | .checkin b => checkinMessage b (nightIndex s) s
  | .checkout number => checkoutMessage number s
  | .credit delta ceiling => creditMessage delta ceiling s
  | .ack sequence => ackMessage sequence s
  | .ceiling level => ceilingMessage (a == .room) level s
  | .maint tag => maintMessage tag s

/-! ### Acceptance -/

/-- The acceptance of a ROOM message: L becomes its number, and the stay generation rises by 1 (R63). -/
def acceptRoom (number : Half) (s : State) : State :=
  raiseGeneration { s with decoder := { s.decoder with lastNumber := some number } }

/-- An accepted message's whole dispatch (R63, R65), at the end of which a requested job begins (R182, log 25). -/
def acceptMessage (a : AddressType) (number : Half) (m : Message) (s : State) : State :=
  startJob (dispatch a m (if a = .room then acceptRoom number s else s))

/-- What a finding does (R57, R66). -/
def applyFinding (f : Finding) (s : State) : State :=
  match f with
  | .passedOver => s
  | .tagFailure => countTagFailure s
  | .ignored => countIgnored s
  | .stale => countIgnored s
  | .accepted a n m => acceptMessage a n m s

/-! ### The hand-off -/

/-- The Decoder has finished with the message. -/
def clearHandOff (s : State) : State := { s with decoder := { s.decoder with handOff := none } }

/-- The Decoder tests a message handed off to it and acts on it (R56). -/
def decodeHandOff (h : HandOff) (s : State) : State := applyFinding (findingOf s h) (clearHandOff s)

/-- A message handed off and not yet finished with is finished with now (R56; log 9). -/
def finishHandOff (s : State) : State :=
  match s.decoder.handOff with
  | some h => decodeHandOff h s
  | none => s

/-- An event of the part other than the Decoder's own: no message waits for it, so one handed off is finished with first, and then
the event acts (R56, R74; log 9). -/
def afterMessage (act : State → State) (s : State) : Host.Outcome State Fault Refusal := .next (act (finishHandOff s))

/-- The kind of finding that a message row of the table stands for. -/
def Finding.isRejection : Finding → Bool
  | .accepted _ _ _ => false
  | _ => true

/-- The message of an accepted finding. -/
def Finding.message : Finding → Option Message
  | .accepted _ _ m => some m
  | _ => none

/-- A message row: it takes the message handed off where the Decoder's finding of it is the row's, and has no occasion otherwise
(R56; logs 9 and 11). -/
def messageRow (is : Finding → Bool) (s : State) : State :=
  match s.decoder.handOff with
  | some h => if is (findingOf s h) then decodeHandOff h s else s
  | none => s

/-- The row that a message's content belongs to (spec/opcode_table.json). -/
inductive MessageRow where
  | key
  | serviceAdd
  | serviceDelete
  | listing
  | tariffDefine
  | tariffDelete
  | pricing
  | time
  | freeviewOn
  | freeviewOff
  | checkin
  | checkout
  | credit
  | ack
  | ceiling
  | maint
  deriving DecidableEq, Repr

def Message.row : Message → MessageRow
  | .key _ _ _ => .key
  | .serviceAdd _ => .serviceAdd
  | .serviceDelete _ => .serviceDelete
  | .listing _ => .listing
  | .tariffDefine _ _ => .tariffDefine
  | .tariffDelete _ => .tariffDelete
  | .pricing _ => .pricing
  | .time _ => .time
  | .freeviewOn _ => .freeviewOn
  | .freeviewOff => .freeviewOff
  | .checkin _ => .checkin
  | .checkout _ => .checkout
  | .credit _ _ => .credit
  | .ack _ => .ack
  | .ceiling _ => .ceiling
  | .maint _ => .maint

/-- Whether a finding is an acceptance of a message of a row. -/
def Finding.accepts (row : MessageRow) (f : Finding) : Bool := f.message.map Message.row == some row

/-! ### The rows -/

/-- MESSAGE_REJECTED (R57). -/
def execMessageRejected (s : State) : Host.Outcome State Fault Refusal := .next (messageRow Finding.isRejection s)

/-- KEY (R46 to R49). -/
def execKey (s : State) : Host.Outcome State Fault Refusal := .next (messageRow (Finding.accepts .key) s)

/-- SERVICE_ADD (R76). -/
def execServiceAdd (s : State) : Host.Outcome State Fault Refusal := .next (messageRow (Finding.accepts .serviceAdd) s)

/-- SERVICE_DELETE (R77). -/
def execServiceDelete (s : State) : Host.Outcome State Fault Refusal := .next (messageRow (Finding.accepts .serviceDelete) s)

/-- LISTING (R80). -/
def execListing (s : State) : Host.Outcome State Fault Refusal := .next (messageRow (Finding.accepts .listing) s)

/-- TARIFF_DEFINE (R129). -/
def execTariffDefine (s : State) : Host.Outcome State Fault Refusal := .next (messageRow (Finding.accepts .tariffDefine) s)

/-- TARIFF_DELETE (R129). -/
def execTariffDelete (s : State) : Host.Outcome State Fault Refusal := .next (messageRow (Finding.accepts .tariffDelete) s)

/-- PRICING (R131). -/
def execPricing (s : State) : Host.Outcome State Fault Refusal := .next (messageRow (Finding.accepts .pricing) s)

/-- TIME (R72). -/
def execTime (s : State) : Host.Outcome State Fault Refusal := .next (messageRow (Finding.accepts .time) s)

/-- FREEVIEW_ON (R151). -/
def execFreeviewOn (s : State) : Host.Outcome State Fault Refusal := .next (messageRow (Finding.accepts .freeviewOn) s)

/-- FREEVIEW_OFF (R151). -/
def execFreeviewOff (s : State) : Host.Outcome State Fault Refusal := .next (messageRow (Finding.accepts .freeviewOff) s)

/-- CHECKIN (R123). -/
def execCheckin (s : State) : Host.Outcome State Fault Refusal := .next (messageRow (Finding.accepts .checkin) s)

/-- CHECKOUT (R125). -/
def execCheckout (s : State) : Host.Outcome State Fault Refusal := .next (messageRow (Finding.accepts .checkout) s)

/-- CREDIT (R126). -/
def execCredit (s : State) : Host.Outcome State Fault Refusal := .next (messageRow (Finding.accepts .credit) s)

/-- ACK (R163). -/
def execAck (s : State) : Host.Outcome State Fault Refusal := .next (messageRow (Finding.accepts .ack) s)

/-- CEILING (R112). -/
def execCeiling (s : State) : Host.Outcome State Fault Refusal := .next (messageRow (Finding.accepts .ceiling) s)

/-- MAINT (R67). -/
def execMaint (s : State) : Host.Outcome State Fault Refusal := .next (messageRow (Finding.accepts .maint) s)

end Sys2Proof.Machine
end

