-- ==== Sys2Proof/Machine/Load.lean ====
section
/-! DEFINITION. The start-up load: the image, the journal, the stay, and the entry into RUN or PASS
(chapter 12, R184 to R188; R119, R190; layouts 13, section 13.5). -/

namespace Sys2Proof.Machine

def setMode (m : Mode) (s : State) : State := { s with path := { s.path with mode := m } }

def setPhase (p : LoadPhase) (s : State) : State := { s with store := { s.store with phase := p } }

/-! ### The image (R185) -/

/-- The image's bytes: pages 0 to 7. -/
def imageBytes (eeprom : List Host.Cell) : List Byte := readStore eeprom 0 256

def imageWindows (b : List Byte) : WindowTable where
  ring0Base := field b 22 4
  ring0Slots := field b 26 2
  ring1Base := field b 28 4
  ring1Slots := field b 32 2
  requestBase := field b 34 4
  requestSlots := field b 38 1
  reportBase := field b 40 4

/-- The image's fields, as it carries them. -/
def imageOf (b : List Byte) : Image where
  windows := imageWindows b
  roomId := BitVec.ofNat 16 (field b 2 2)
  groupId := BitVec.ofNat 16 (field b 4 2)
  siteKey := BitVec.ofNat 64 (field b 6 8)
  roomKey := BitVec.ofNat 64 (field b 14 8)
  presenceThreshold := field b 44 1
  historyDepth := field b 45 1
  shiftHorizon := field b 46 2
  retention := field b 48 2
  unknownRating := field b 50 1
  discreetLevel := field b 51 1
  discreetTitle := BitVec.ofNat 32 (field b 52 4)
  maxUnlock := field b 56 2
  lockoutBase := field b 58 1
  rolloverMinute := field b 60 2
  refreshPeriod := field b 62 1
  tokensPerPeriod := field b 63 1

/-- The bus's address space: 64 MB. -/
def busBytes : Nat := 67108864

/-- Whether two extents, each a base and a size, have no byte in common. -/
def apart (a m b n : Nat) : Bool := m == 0 || n == 0 || decide (a + m ≤ b) || decide (b + n ≤ a)

/-- A cell ring's slot count (R2). -/
def ringSlotsOk (n : Nat) : Bool := decide (64 ≤ n) && decide (n ≤ 4096)

/-- The conditions of R2 on a window table (log 34 on a ring 1 with no slots). -/
def WindowTable.ok (t : WindowTable) : Bool :=
  let size0 := 128 * t.ring0Slots
  let size1 := 128 * t.ring1Slots
  let sizeQ := 32 * t.requestSlots
  let sizeR := 32 * lineCount
  ringSlotsOk t.ring0Slots && (t.ring1Slots == 0 || ringSlotsOk t.ring1Slots)
    && decide (t.ring0Slots + t.ring1Slots ≤ 8192) && decide (4 ≤ t.requestSlots) && decide (t.requestSlots ≤ 16)
    && t.ring0Base % 128 == 0 && t.ring1Base % 128 == 0 && t.requestBase % 32 == 0 && t.reportBase % 32 == 0
    && decide (t.ring0Base + size0 ≤ busBytes) && (t.ring1Slots == 0 || decide (t.ring1Base + size1 ≤ busBytes))
    && decide (t.requestBase + sizeQ ≤ busBytes) && decide (t.reportBase + sizeR ≤ busBytes)
    && apart t.ring0Base size0 t.ring1Base size1 && apart t.ring0Base size0 t.requestBase sizeQ
    && apart t.ring0Base size0 t.reportBase sizeR && apart t.ring1Base size1 t.requestBase sizeQ
    && apart t.ring1Base size1 t.reportBase sizeR && apart t.requestBase sizeQ t.reportBase sizeR

/-- Whether the image is accepted (R185). -/
def imageOk (b : List Byte) : Bool := field b 0 2 == 0x47A1 && passesCheck b && (imageWindows b).ok

/-- The first step of the load: the image is held, or the part enters PASS (R184, R185), a change of the mode that marks line 0
(R174). -/
def loadImage (s : State) : State :=
  let b := imageBytes s.store.eeprom
  if imageOk b then setPhase .journal { s with store := { s.store with image := some (imageOf b) } }
  else setPhase .idle (markLine 0 false (setMode .pass s))

/-! ### The mark and the journal (R186) -/

/-- The greatest mark. -/
def markLimit : Nat := 4294967294

/-- The mark of the mark page, or 0. -/
def markOf (page : List Byte) : Nat :=
  if passesCheck page && decide (field page 0 4 ≤ markLimit) then field page 0 4 else 0

/-- The clock field of a stored charge record: `none` where it is neither valid nor "clock invalid". -/
def storedClock (page : List Byte) : Option (Option Moment) :=
  match (byteAt page 21).toNat with
  | 0 => some none
  | 1 => if field page 24 2 ≤ 1439 then some (some (momentField page 22)) else none
  | _ => none

/-- A stored charge record, its stored flag yes. -/
def storedRecord (page : List Byte) (clock : Option Moment) : ChargeRecord where
  sequence := field page 0 4
  stay := BitVec.ofNat 16 (field page 4 2)
  event := BitVec.ofNat 16 (field page 6 2)
  title := BitVec.ofNat 32 (field page 8 4)
  amount := field page 12 4
  base := field page 16 2
  percent := (byteAt page 18).toNat
  tax := (byteAt page 19).toNat
  tariffClass := (byteAt page 20).toNat
  clock := clock
  stored := true

/-- The record numbered `n`, if its slot's page holds it (R186). -/
def seekRecord (eeprom : List Host.Cell) (n : Nat) : Option ChargeRecord :=
  let page := readPage eeprom (journalPage n)
  match storedClock page with
  | none => none
  | some clock =>
    let r := storedRecord page clock
    if passesCheck page ∧ r.sequence = n ∧ r.stay ≠ 0 ∧ r.tariffClass ≤ 7 ∧ 1 ≤ r.amount ∧ r.amount ≤ 204750
        ∧ r.percent ≤ 250 ∧ r.tax ≤ 250 then some r
    else none

/-- The run of records found from number `n` upward; a slot holds one number at a time, so 65 seeks suffice (R186). -/
def seekRun (eeprom : List Host.Cell) : Nat → Nat → List ChargeRecord
  | 0, _ => []
  | fuel + 1, n =>
    match seekRecord eeprom n with
    | some r => r :: seekRun eeprom fuel (n + 1)
    | none => []

/-- The journal rebuilt: the last 32 records of the run, the mark and the next number (R186). -/
def rebuildJournal (eeprom : List Host.Cell) : Journal :=
  let mark := markOf (readPage eeprom 8)
  let run := seekRun eeprom 65 (mark + 1)
  { records := run.drop (run.length - journalPlaces)
    next := mark + run.length + 1
    mark := mark + (run.length - journalPlaces) }

/-- The second step of the load. -/
def loadJournal (s : State) : State := setPhase .stay { s with journal := rebuildJournal s.store.eeprom }

/-! ### The stay (R187) -/

/-- A stored purchase entry in use. -/
structure StoredPurchase where
  event : Half
  rating : Nat
  service : BitVec 12
  amount : Nat
  remaining : Nat
  sequence : Nat
  deriving DecidableEq, Repr

/-- An entry of fourteen bytes; one whose event id is 0 is free (R190). -/
def storedPurchase (b : List Byte) : Option StoredPurchase :=
  if field b 0 2 = 0 then none
  else some {
    event := BitVec.ofNat 16 (field b 0 2)
    rating := (byteAt b 2).toNat / 16
    service := serviceField b 2
    amount := field b 4 3
    remaining := field b 7 3
    sequence := field b 10 4 }

/-- The entries in use of pages 10 to 17, in entry order. -/
def storedPurchases (eeprom : List Host.Cell) : List StoredPurchase :=
  (List.range 16).filterMap fun n => storedPurchase (readStore eeprom (32 * (10 + n / 2) + 2 + 14 * (n % 2)) 14)

/-- The OCCUPIED test, on the stay header page. -/
def occupiedOk (h : List Byte) : Bool :=
  field h 4 2 != 0 && decide (field h 11 3 ≤ moneyLimit) && field h 8 3 == field h 11 3 + field h 14 3
    && decide (field h 8 3 ≤ grantLimit) && decide (field h 17 3 ≤ moneyLimit) && decide (field h 20 3 ≤ moneyLimit)
    && (field h 17 3 == 0 || decide (field h 20 3 ≤ field h 17 3))

/-- The VACANT test. -/
def vacantOk (h : List Byte) (l : List StoredPurchase) : Bool :=
  field h 4 2 == 0 && field h 8 3 == 0 && field h 11 3 == 0 && field h 14 3 == 0 && field h 17 3 == 0 && field h 20 3 == 0
    && l.isEmpty

/-- The state test, with the test of the state it names. -/
def stateOk (h : List Byte) (l : List StoredPurchase) : Bool :=
  match (byteAt h 0).toNat with
  | 0 => vacantOk h l
  | 1 => occupiedOk h
  | _ => false

/-- The purchases test. -/
def purchasesOk (l : List StoredPurchase) : Bool :=
  decide (l.map StoredPurchase.event).Nodup
    && l.all fun p => decide (p.amount ≤ 204750) && decide (p.remaining ≤ 259200)

/-- The page tests: every page passes its check, and pages 10 to 17 carry page 9's number. -/
def stayPagesOk (eeprom : List Host.Cell) : Bool :=
  (List.range 9).all fun k =>
    let page := readPage eeprom (9 + k)
    passesCheck page && (k == 0 || field page 0 2 == field (readPage eeprom 9) 2 2)

/-- Whether the stay pages are valid (R187). -/
def stayValid (eeprom : List Host.Cell) : Bool :=
  stayPagesOk eeprom && stateOk (readPage eeprom 9) (storedPurchases eeprom) && purchasesOk (storedPurchases eeprom)

/-- A bit of the presence byte of page 9. -/
def presenceBit (h : List Byte) (bit : Nat) : Bool := (byteAt h 1).getLsbD bit

/-- The stay fields of page 9 (R187). -/
def storedStay (h : List Byte) : Stay where
  state := if byteAt h 0 = 1 then .occupied else .vacant
  number := BitVec.ofNat 16 (field h 4 2)
  granted := field h 8 3
  remaining := field h 11 3
  spent := field h 14 3
  nightCeiling := field h 17 3
  nightSpent := field h 20 3
  nightIndex := if presenceBit h 1 then some (BitVec.ofNat 16 (field h 23 2)) else none

/-- The PIN of page 9; a digit above 9 makes it absent (R119). -/
def storedPin (h : List Byte) : Option Pin :=
  let hi := (byteAt h 28).toNat
  let lo := (byteAt h 29).toNat
  if presenceBit h 2 then pinOf (hi / 16) (hi % 16) (lo / 16) (lo % 16) else none

/-- The four lock fields of page 9 with the Lock Unit's clamps; periods and counts as power-on left them (R119). -/
def storedLock (h : List Byte) : Lock :=
  let room := min (byteAt h 25).toNat 9
  { Lock.reset with
    roomCeiling := room
    defaultCeiling := min (byteAt h 26).toNat room
    guestCeiling := min (byteAt h 27).toNat room
    pin := storedPin h }

/-- A purchase restored (R187, R190): its title code 0, its sequence number absent where a new charge will take it. -/
def StoredPurchase.restore (p : StoredPurchase) (now next : Nat) : Purchase where
  event := p.event
  service := p.service
  rating := p.rating
  title := 0
  amount := p.amount
  rentalEnd := now + p.remaining
  sequence := if p.sequence = 0 ∨ next ≤ p.sequence then none else some p.sequence

/-- The stay record restored from valid pages (R187). -/
def restoreStay (s : State) : State :=
  let h := readPage s.store.eeprom 9
  { s with
    decoder := { s.decoder with lastNumber := if presenceBit h 0 then some (BitVec.ofNat 16 (field h 6 2)) else none }
    lock := storedLock h
    account := { s.account with
      stay := storedStay h
      purchases := (storedPurchases s.store.eeprom).map fun p => p.restore s.time.seconds s.journal.next } }

/-- The stay page number found by the load (R187). -/
def storedPageNumber (eeprom : List Host.Cell) : Half :=
  if passesCheck (readPage eeprom 9) then BitVec.ofNat 16 (field (readPage eeprom 9) 2 2) else 0

/-! ### The entry into RUN (R5, R188) -/

/-- A value taken into a range. -/
def clampRange (lo hi n : Nat) : Nat := min (max n lo) hi

/-- The owners' values, each with its owner's clamps (R45, R73, R83, R106, R141, R159). -/
def Image.settings (i : Image) : Settings where
  roomId := i.roomId
  groupId := i.groupId
  siteKey := i.siteKey
  roomKey := i.roomKey
  presenceThreshold := clampRange 1 255 i.presenceThreshold
  historyDepth := clampRange 1 8 i.historyDepth
  shiftHorizon := clampRange 10 240 i.shiftHorizon
  retention := min i.retention 240
  unknownRating := min i.unknownRating 9
  discreetLevel := min i.discreetLevel 10
  discreetTitle := i.discreetTitle
  maxUnlock := clampRange 1 720 i.maxUnlock
  lockoutBase := clampRange 1 60 i.lockoutBase
  rolloverMinute := if 1439 < i.rolloverMinute then 0 else i.rolloverMinute

/-- RUN is entered with an image: LOAD_END (R5, R188, R190). -/
def enterRun (i : Image) (s : State) : State :=
  markAllLinesClear { s with
    settings := i.settings
    path := { s.path with
      mode := .run
      windows := some i.windows
      refreshPeriod := clampRange 1 255 i.refreshPeriod
      tokensPerPeriod := min i.tokensPerPeriod 15
      tokens := min i.tokensPerPeriod 15
      periodRunning := true }
    store := { s.store with phase := .idle, image := none } }

/-- The last step of the load: the stay, and RUN (R187, R188). -/
def loadStay (i : Image) (s : State) : State :=
  let s1 := { s with store := { s.store with pageNumber := storedPageNumber s.store.eeprom } }
  enterRun i (if stayValid s.store.eeprom then restoreStay s1 else s1)

/-! ### The rows: each acts at its own step of the load (R184; log 11) -/

/-- An event of the load, at its step. -/
def atPhase (p : LoadPhase) (act : State → State) (s : State) : State :=
  if s.path.mode = .load ∧ s.store.phase = p then act s else s

/-- The last step with the image held. -/
def loadStayHeld (s : State) : State :=
  match s.store.image with
  | some i => loadStay i s
  | none => s

/-- IMAGE_LOAD (R185). -/
def execImageLoad (s : State) : Host.Outcome State Fault Refusal := afterMessage (atPhase .image loadImage) s

/-- JOURNAL_LOAD (R186). -/
def execJournalLoad (s : State) : Host.Outcome State Fault Refusal := afterMessage (atPhase .journal loadJournal) s

/-- STAY_LOAD (R187). -/
def execStayLoad (s : State) : Host.Outcome State Fault Refusal := afterMessage (atPhase .stay loadStayHeld) s

end Sys2Proof.Machine
end

