-- ==== Sys2Proof/Machine/Intake.lean ====
section
/-! DEFINITION. The Intake Unit: slot tags, open cells, and the staging of message cells (chapter 2, R20 to R36). -/

namespace Sys2Proof.Machine

/-- A place in a cell ring: the slot, and the byte of the cell a transaction begins at (R3). -/
structure CellPlace where
  ring : Ring
  slot : Nat
  byte : Nat
  deriving DecidableEq, Repr

/-- The granule of the cell, 0 to 3 (R3). -/
def CellPlace.granule (p : CellPlace) : Nat := p.byte / 32

/-- The word of the cell, 0 to 31 (R3). -/
def CellPlace.word (p : CellPlace) : Nat := p.byte / 4

/-! ### The slot tag table (R22) -/

/-- A tag nothing has recorded: invalid, with no latch. -/
def blankTag : SlotTag := { fields := none, latch := none }

/-- The number of a slot's tag: ring 1's follow ring 0's (R22). -/
def tagNumber (s : State) (r : Ring) (slot : Nat) : Nat :=
  match r with
  | .ring0 => slot
  | .ring1 => (s.path.windows.map WindowTable.ring0Slots).getD 0 + slot

def readTag (s : State) (r : Ring) (slot : Nat) : SlotTag := Sparse.read blankTag s.intake.tags (tagNumber s r slot)

def setTag (r : Ring) (slot : Nat) (t : SlotTag) (s : State) : State :=
  { s with intake := { s.intake with tags := Sparse.write blankTag s.intake.tags (tagNumber s r slot) t } }

def setLatch (r : Ring) (slot : Nat) (v : Option Verdict) (s : State) : State :=
  setTag r slot { readTag s r slot with latch := v } s

/-! ### Contexts and staging buffers -/

def setContext (r : Ring) (c : Option OpenCell) (s : State) : State :=
  { s with intake := { s.intake with context := s.intake.context.set r c } }

def setStaging (r : Ring) (b : Option Staging) (s : State) : State :=
  { s with intake := { s.intake with staging := s.intake.staging.set r b } }

/-- A cell is abandoned: counted, and its staged message lost (R31, R33). -/
def abandonCell (r : Ring) (s : State) : State := countAbandoned (setStaging r none s)

/-- The early close of a ring's context (R29). -/
def closeEarly (r : Ring) (s : State) : State :=
  match s.intake.context.get r with
  | none => s
  | some c => setContext r none (if c.broken then s else abandonCell r s)

/-! ### Payload bytes of a message cell (R30): cell byte 12 + p is payload byte p -/

/-- The lanes forwarded to memory: an enabled payload byte is zero. `byte` is the cell byte of the first lane. A reserved byte or bit of
a message header or body is a payload byte like the others: R30 zeroes it, where R191 has it passed to memory as written, and the
model follows R30 (log 36). -/
def zeroPayload (byte : Nat) : List Lane → List Lane
  | [] => []
  | l :: rest => (if 12 ≤ byte ∧ l.enabled then { l with data := 0 } else l) :: zeroPayload (byte + 1) rest

/-- The staging buffer after a write: each enabled payload byte at its payload index. -/
def stagePayload (byte : Nat) : List Lane → List Byte → List Byte
  | [], b => b
  | l :: rest, b => stagePayload (byte + 1) rest (if 12 ≤ byte ∧ l.enabled then b.set (byte - 12) l.data else b)

/-- A write into granule 0, or an in-order write, while the ring's context is as it stands: in a message context its payload bytes
are zeroed and, while a message is held, staged (R25, R30, R31). -/
def stageWrite (p : CellPlace) (w : BusWrite) (s : State) : State × BusWrite :=
  match s.intake.context.get p.ring with
  | some c =>
    if c.message then
      (setStaging p.ring ((s.intake.staging.get p.ring).map fun b =>
          { b with bytes := stagePayload p.byte w.lanes b.bytes }) s,
        { w with lanes := zeroPayload p.byte w.lanes })
    else (s, w)
  | none => (s, w)

/-! ### Granule 0 (R24) -/

/-- Whether a granule-0 write covers the header: words 0 to 2 with all twelve enables on. -/
def coversHeader (p : CellPlace) (w : BusWrite) : Bool :=
  p.byte == 0 && decide (12 ≤ w.lanes.length) && (w.lanes.take 12).all Lane.enabled

/-- The twelve header bytes of a write that covers them. -/
def headerOf (w : BusWrite) : List Byte := (w.lanes.take 12).map Lane.data

/-- The opening of a ring's context on a slot, with its tag (R21, R24, R30). -/
def openCell (p : CellPlace) (w : BusWrite) (s : State) : State :=
  if coversHeader p w && headerValid (headerOf w) then
    let f := headerFields (headerOf w)
    let message := f.kind == .message
    setTag p.ring p.slot { fields := some f, latch := none }
      (setContext p.ring (some { slot := p.slot, next := 1, message := message, broken := false })
        (setStaging p.ring (if message then some { salt := f.salt, bytes := List.replicate 116 0 } else none) s))
  else
    countHeaderError (setTag p.ring p.slot blankTag
      (setContext p.ring (some { slot := p.slot, next := 1, message := false, broken := false }) s))

/-! ### Granules 1 to 3 -/

/-- The close of a context by an in-order granule 3: an unbroken message context's staged message is handed off (R28, R32). -/
def closeWhole (p : CellPlace) (c : OpenCell) (s : State) : State :=
  let s1 := setContext p.ring none (setStaging p.ring none s)
  match s.intake.staging.get p.ring with
  | some b =>
    if c.message && !c.broken then
      { s1 with decoder := { s1.decoder with
          handOff := some { ring := p.ring, slot := p.slot, salt := b.salt, bytes := b.bytes } } }
    else s1
  | none => s1

/-- An out-of-order granule of the open cell: the cell is abandoned once, and granule 3 closes the context (R26, R28). -/
def breakCell (p : CellPlace) (c : OpenCell) (s : State) : State :=
  setContext p.ring (if p.granule = 3 then none else some { c with broken := true })
    (if c.broken then s else abandonCell p.ring s)

/-- An in-order granule after its bytes are handled (R25, R28). -/
def advanceCell (p : CellPlace) (c : OpenCell) (s : State) : State :=
  if p.granule = 3 then closeWhole p c s else setContext p.ring (some { c with next := p.granule + 1 }) s

/-- A write into granule 1, 2 or 3 (R25 to R29). -/
def payloadGranule (p : CellPlace) (w : BusWrite) (s : State) : State × BusWrite :=
  match s.intake.context.get p.ring with
  | none => (countAbandoned s, w)
  | some c =>
    if c.slot ≠ p.slot then (countAbandoned (closeEarly p.ring s), w)
    else if p.granule = c.next then
      let r := stageWrite p w s
      (advanceCell p c r.1, r.2)
    else (breakCell p c s, w)

/-- A ring write, taken in at its acceptance: the state after it and the data to forward (R7, R23 to R32). -/
def intakeWrite (p : CellPlace) (w : BusWrite) (s : State) : State × BusWrite :=
  let s1 := setLatch p.ring p.slot none s
  if p.granule = 0 then stageWrite p w (openCell p w (closeEarly p.ring s1))
  else payloadGranule p w s1

end Sys2Proof.Machine
end

