-- ==== Sys2Proof/Machine/Presentation.lean ====
section
/-! DEFINITION. The Presentation Unit: the evaluation of a verdict, the rewriting of the words of a ring read, notes and summaries
(chapter 6, R89 to R104). -/

namespace Sys2Proof.Machine

/-! ### The steps of an evaluation (R92 to R95) -/

/-- Step 10 (R95). -/
def previewStep (e : EventRecord) (t : Tariff) (s : State) : State × Verdict :=
  match e.preview with
  | .preview => (presentationNote e.id s, .opened .preview)
  | .spent => (s, .voided .hold)
  | .paid => (s, .voided .hold)
  | .untouched =>
    if 0 < t.allowance then (presentationNote e.id (beginPreview e.id s), .opened .preview)
    else
      let s1 := previewEnd e.id s
      (s1, if (findEvent s1 e.id).map EventRecord.preview = some .paid then .opened .paid else .voided .hold)

/-- Steps 9 and 10 (R94, R95). -/
def payStep (e : Option EventRecord) (s : State) : State × Verdict :=
  match s.account.stay.state, e, e.bind fun x => tariffOf s x.tariffClass with
  | .occupied, some x, some t => previewStep x t s
  | _, _, _ => (s, .voided .hold)

/-- Whether a service's class is FREE, an unknown service included (R92). -/
def isFreeService (s : State) (service : BitVec 12) : Bool :=
  match findService s service with
  | some r => r.cls == .free
  | none => true

/-- Steps 2 to 10, on a valid MEDIA tag: the state after the evaluation's effects on the Account Unit, and the verdict. -/
def judge (f : TagFields) (s : State) : State × Verdict :=
  let e := findShowing s f.service f.eventTag
  if effectiveCeiling s.lock < ratingOf s f.service e then (s, .voided .lock)
  else if !f.scrambled then (s, .clear)
  else if (lookupKey s.keys.pool f.service f.epoch).isNone then (s, .voided .noKey)
  else if isFreeService s f.service then (s, .opened .free)
  else if livePurchase s f.eventTag then (s, .opened .paid)
  else if s.account.freeView ≠ .off then (s, .opened .freeView)
  else payStep e s

/-- The ten steps on a slot tag (R92): step 1 gives RAW. -/
def verdictOf (t : SlotTag) (s : State) : State × Verdict :=
  match t.fields with
  | none => (s, .raw)
  | some f => if f.kind = .media then judge f s else (s, .raw)

/-! ### Summaries (R102, R103) -/

/-- The summary of a verdict, taken after the evaluation's effects. -/
def summaryOf (s : State) (f : TagFields) (v : Verdict) : Summary :=
  let e := findShowing s f.service f.eventTag
  { service := f.service
    event := f.eventTag
    listed := e.isSome
    verdict := v
    metering := e.bind fun x => (tariffOf s x.tariffClass).map fun t => { viewed := x.viewed, allowance := t.allowance } }

/-- The report line of a ring's summary (R103). -/
def summaryLine : Ring → Nat
  | .ring0 => 3
  | .ring1 => 4

/-- A summary is set; a change marks its line without attention (R103). -/
def setSummary (r : Ring) (x : Summary) (s : State) : State :=
  if s.presentation.summary.get r = some x then s
  else markLine (summaryLine r) false { s with presentation := { s.presentation with
    summary := s.presentation.summary.set r (some x) } }

/-! ### The latch (R90, R91) -/

/-- A latch is set: VOID NOKEY is counted, and a verdict other than RAW sets the ring's summary (R102, R103). -/
def latchVerdict (r : Ring) (slot : Nat) (v : Verdict) (s : State) : State :=
  let s1 := setLatch r slot (some v) s
  let s2 := if v = .voided .noKey then countNoKey s1 else s1
  match (readTag s r slot).fields with
  | some f => if v = .raw then s2 else setSummary r (summaryOf s2 f v) s2
  | none => s2

/-- An evaluation of a slot, taken whole (R90, R96). -/
def evaluate (r : Ring) (slot : Nat) (s : State) : State :=
  let e := verdictOf (readTag s r slot) s
  latchVerdict r slot e.2 e.1

/-! ### Rewriting (R97 to R100) -/

/-- A header word under a verdict (R97). -/
def headerWord (v : Verdict) (w : Nat) (word : List Byte) : List Byte :=
  match v, w with
  | .opened _, 0 => word.set 1 (byteAt word 1 &&& 0xFE)
  | .opened _, 2 => word.take 2 ++ bytesOf 2 (BitVec.ofNat 16 (field word 2 2) + 1 : Half).toNat
  | .voided _, 0 => word.set 1 ((byteAt word 1 &&& 0x0F) ||| 0xF0)
  | .voided _, 2 => word.take 2 ++ bytesOf 2 (BitVec.ofNat 16 (field word 2 2) - 0xE0 : Half).toNat
  | _, _ => word

/-- Payload word `j` under an OPEN latch (R98, R99): unscrambled under the key held at this word, or, the key lost, zero with the
latch turned to VOID NOKEY. -/
def openedWord (r : Ring) (slot j : Nat) (word : List Byte) (s : State) : State × List Byte :=
  match (readTag s r slot).fields with
  | some f =>
    match lookupKey s.keys.pool f.service f.epoch with
    | some k => (s, if 4 * j < f.payloadLength then xorWord k f.salt j word else word)
    | none => (latchVerdict r slot (.voided .noKey) s, List.replicate 4 0)
  | none => (latchVerdict r slot (.voided .noKey) s, List.replicate 4 0)

/-- Payload word `j` under a verdict (R98 to R100). -/
def payloadWord (v : Verdict) (r : Ring) (slot j : Nat) (word : List Byte) (s : State) : State × List Byte :=
  match v with
  | .raw => (s, word)
  | .clear => (s, word)
  | .opened _ => openedWord r slot j word s
  | .voided _ => (s, List.replicate 4 0)

/-- A word of a cell under the latch as it stands (R97 to R100). -/
def rewriteWord (r : Ring) (slot w : Nat) (word : List Byte) (s : State) : State × List Byte :=
  match (readTag s r slot).latch with
  | some v => if w < 3 then (s, headerWord v w word) else payloadWord v r slot (w - 3) word s
  | none => (s, word)

/-- One word of a ring read: an evaluation at word 0 or where no verdict is latched, then the rewriting (R90). -/
def presentWord (r : Ring) (slot w : Nat) (word : List Byte) (s : State) : State × List Byte :=
  rewriteWord r slot w word
    (if w = 0 ∨ (readTag s r slot).latch = none then evaluate r slot s else s)

/-- The words of a ring read in address order, `n` of them from word `w` of the cell (R8). -/
def presentWords (r : Ring) (slot : Nat) : Nat → Nat → List Byte → State → State × List Byte
  | 0, _, _, s => (s, [])
  | n + 1, w, data, s =>
    let x := presentWord r slot w (data.take 4) s
    let rest := presentWords r slot n (w + 1) (data.drop 4) x.1
    (rest.1, x.2 ++ rest.2)

end Sys2Proof.Machine
end

