-- ==== Sys2Proof/Machine/Report.lean ====
section
/-! DEFINITION. The Report Writer: the 32 bytes of each report line, composed from live state (R165, R174, R175; 13, section 13.4). -/

namespace Sys2Proof.Machine

/-- Unused bytes, written as 0 (R191). -/
def zeroBytes (n : Nat) : List Byte := List.replicate n 0

/-- A whole-number field. -/
def numberBytes (len n : Nat) : List Byte := bytesOf len n

/-- A 16-bit field. -/
def halfBytes (h : Half) : List Byte := bytesOf 2 h.toNat

def modeCode : Mode → Byte
  | .load => 0
  | .run => 1
  | .pass => 2

def storeCode : StoreState → Byte
  | .absent => 0
  | .ready => 1
  | .busy => 2
  | .fault => 3

/-- Free-view's code, and its end or zeros. -/
def freeViewBytes : FreeView → List Byte
  | .off => 0 :: zeroBytes 4
  | .on none => 1 :: zeroBytes 4
  | .on (some m) => 2 :: (halfBytes m.day ++ numberBytes 2 m.minute)

/-- Line 0 (R174). -/
def statusLine (s : State) : List Byte :=
  [modeCode s.path.mode, storeCode s.store.state, flagByte s.time.clock.isSome] ++ freeViewBytes s.account.freeView
    ++ numberBytes 4 s.time.seconds ++ halfBytes s.path.dropped ++ halfBytes s.intake.headerErrors
    ++ halfBytes s.intake.abandoned ++ halfBytes s.decoder.tagFailures ++ halfBytes s.decoder.ignored
    ++ halfBytes s.presentation.noKey ++ zeroBytes 8

def heldCode : Option HeldRecord → Byte
  | none => 0
  | some h =>
    match h.cause with
    | .confirm => 16
    | .refused r => reasonCode r

/-- Line 1 (R175). -/
def stayLine (s : State) : List Byte :=
  let y := s.account.stay
  [flagByte (y.state == .occupied), heldCode s.account.held] ++ halfBytes y.number ++ numberBytes 4 y.granted
    ++ numberBytes 4 y.remaining ++ numberBytes 4 y.spent ++ numberBytes 4 y.nightCeiling ++ numberBytes 4 y.nightSpent
    ++ halfBytes (y.nightIndex.getD 0) ++ [flagByte y.nightIndex.isSome, 0]
    ++ halfBytes ((s.account.held.map HeldRecord.event).getD 0) ++ zeroBytes 2

/-- A period of line 2: running, a reserved byte, its minutes and its end; zeros while it does not run. -/
def periodBytes : Option Period → List Byte
  | none => zeroBytes 8
  | some p => [1, 0] ++ numberBytes 2 p.minutes ++ numberBytes 4 p.finish

/-- Line 2 (R175). -/
def lockLine (s : State) : List Byte :=
  let l := s.lock
  numberBytes 1 l.roomCeiling ++ numberBytes 1 l.defaultCeiling ++ numberBytes 1 l.guestCeiling
    ++ numberBytes 1 (effectiveCeiling l) ++ [flagByte l.pin.isSome] ++ numberBytes 1 l.wrongAttempts
    ++ numberBytes 1 l.lockouts ++ zeroBytes 1 ++ periodBytes l.unlock ++ periodBytes l.lockout ++ zeroBytes 8

/-- The verdict's code, and the code of its basis or reason (13, section 13.4). -/
def verdictCodes : Verdict → List Byte
  | .raw => [0, 0]
  | .clear => [1, 0]
  | .opened .free => [2, 1]
  | .opened .paid => [2, 2]
  | .opened .freeView => [2, 3]
  | .opened .preview => [2, 4]
  | .voided .lock => [3, 1]
  | .voided .noKey => [3, 2]
  | .voided .hold => [3, 3]

/-- Lines 3 and 4 (R175). -/
def summaryBytes : Option Summary → List Byte
  | none => zeroBytes 32
  | some x =>
    1 :: (verdictCodes x.verdict ++ [flagByte x.listed] ++ numberBytes 2 x.service.toNat ++ halfBytes x.event
      ++ numberBytes 2 ((x.metering.map ShownMetering.viewed).getD 0)
      ++ numberBytes 2 ((x.metering.map ShownMetering.allowance).getD 0) ++ [flagByte x.metering.isSome] ++ zeroBytes 19)

/-- Lines 5 to 20 (R175). -/
def purchaseBytes : Option Purchase → List Byte
  | none => zeroBytes 32
  | some p =>
    1 :: (numberBytes 1 p.rating ++ halfBytes p.event ++ numberBytes 2 p.service.toNat ++ [flagByte p.sequence.isSome, 0]
      ++ numberBytes 4 p.title.toNat ++ numberBytes 4 p.amount ++ numberBytes 4 p.rentalEnd
      ++ numberBytes 4 (p.sequence.getD 0) ++ zeroBytes 8)

/-- Lines 21 to 52 (R165). -/
def recordBytes : Option ChargeRecord → List Byte
  | none => zeroBytes 32
  | some r =>
    [1, flagByte r.stored] ++ numberBytes 1 r.tariffClass ++ [flagByte r.clock.isSome] ++ numberBytes 4 r.sequence
      ++ halfBytes r.stay ++ halfBytes r.event ++ numberBytes 4 r.title.toNat ++ numberBytes 4 r.amount
      ++ numberBytes 2 r.base ++ numberBytes 1 r.percent ++ numberBytes 1 r.tax
      ++ halfBytes ((r.clock.map Moment.day).getD 0) ++ numberBytes 2 ((r.clock.map Moment.minute).getD 0) ++ zeroBytes 4

/-- The record shown on a journal line: the one held whose number falls there (R165). -/
def recordOnLine (s : State) (n : Nat) : Option ChargeRecord :=
  s.journal.records.find? fun r => journalLine r.sequence == n

/-- The contents of a report line (11, section 11.5). -/
def composeLine (s : State) (n : Nat) : List Byte :=
  if n = 0 then statusLine s
  else if n = 1 then stayLine s
  else if n = 2 then lockLine s
  else if n = 3 then summaryBytes s.presentation.summary.ring0
  else if n = 4 then summaryBytes s.presentation.summary.ring1
  else if n ≤ 20 then purchaseBytes s.account.purchases[n - 5]?
  else recordBytes (recordOnLine s n)

end Sys2Proof.Machine
end

