-- ==== Sys2Proof/Machine/Requests.lean ====
section
/-! DEFINITION. The Request Unit: which writes are taken, what each request does, and its answer (chapter 11, R168 to R173). -/

namespace Sys2Proof.Machine

/-- A burst of 8 words with all 32 byte enables on (R169). -/
def wholeGranule (w : BusWrite) : Bool := w.lanes.length == 32 && w.lanes.all Lane.enabled

/-- The bytes a write carries. -/
def recordOf (w : BusWrite) : List Byte := w.lanes.map Lane.data

/-- Whether a write into a slot that is not pending is taken as a request (R169). -/
def isTaken (w : BusWrite) : Bool := wholeGranule w && byteAt (recordOf w) 0 != 0

def answerDone : Answer := { result := .done, reason := none }

def answerPending : Answer := { result := .pending, reason := none }

def answerRefused (r : Reason) : Answer := { result := .refused, reason := some r }

/-- A BUY (R149, R171): refused, or committed with its slot pending. -/
def buyRequest (event : Half) (slot : Nat) (s : State) : State × Answer :=
  match commit event (some slot) s with
  | (s1, none) => (setSlotPending slot true s1, answerPending)
  | (s1, some r) => (s1, answerRefused r)

/-- A taken request, acted on whole at its acceptance (R169, R170). -/
def answerRequest (slot : Nat) (q : Request) (s : State) : State × Answer :=
  match q with
  | .buy event => buyRequest event slot s
  | .unlock digits minutes => unlockRequest digits minutes s
  | .relock level => (relockRequest level s, answerDone)
  | .refresh => (markAllLines s, answerDone)
  | .unknown => (s, answerRefused .badKind)

def enabledLane (b : Byte) : Lane := { data := b, enabled := true }

/-- The passing data with the result and reason bytes rewritten (R169). -/
def rewriteResult (a : Answer) (w : BusWrite) : BusWrite :=
  { w with lanes := (w.lanes.set 4 (enabledLane (resultCode a.result))).set 5 (enabledLane a.reasonByte) }

end Sys2Proof.Machine
end

