-- ==== Sys2Proof/WellFormed.lean ====
section
/-! DEFINITION. What a command's operands must be: a bus row carries a transaction as R1 defines one. -/

namespace Sys2Proof

/-- A run of `len` bytes from byte address `a`: word aligned, one to eight whole words, inside one 32-byte granule (R1). -/
def spanWellFormed (a : BitVec 26) (len : Nat) : Bool :=
  a.toNat % 4 == 0 && len % 4 == 0 && 4 ≤ len && len ≤ 32 && a.toNat % 32 + len ≤ 32

def BusRead.wellFormed (r : BusRead) : Bool := spanWellFormed r.address (4 * r.words)

def BusWrite.wellFormed (w : BusWrite) : Bool := spanWellFormed w.address w.lanes.length

def Transaction.wellFormed : Transaction → Bool
  | .read r => r.wellFormed
  | .write w => w.wellFormed

/-- The transaction a bus row carries. -/
def Instr.transaction : Instr → Option Transaction
  | .busPassThrough t => some t
  | .ringWrite w => some (.write w)
  | .ringRead r => some (.read r)
  | .reportRead r => some (.read r)
  | .reportWriteDropped w => some (.write w)
  | .otherWindowAccess t => some t
  | .requestWriteDropped w => some (.write w)
  | .requestWriteNotTaken w => some (.write w)
  | .buy w => some (.write w)
  | .unlock w => some (.write w)
  | .relock w => some (.write w)
  | .refresh w => some (.write w)
  | .unknownRequestKind w => some (.write w)
  | .powerOn _ _ => none
  | .setReset => none
  | .imageLoad => none
  | .journalLoad => none
  | .stayLoad => none
  | .messageRejected => none
  | .key => none
  | .serviceAdd => none
  | .serviceDelete => none
  | .listing => none
  | .tariffDefine => none
  | .tariffDelete => none
  | .pricing => none
  | .time => none
  | .freeviewOn => none
  | .freeviewOff => none
  | .checkin => none
  | .checkout => none
  | .credit => none
  | .ack => none
  | .ceiling => none
  | .maint => none
  | .portGrant => none
  | .insertedWriteComplete => none
  | .passingWriteComplete => none
  | .refreshPeriodStart => none
  | .secondsAdvance => none
  | .accountSecondTimer => none
  | .accountMinuteTimer => none
  | .keyMinuteTimer => none
  | .showingMinuteTimer => none
  | .lockMinuteTimer => none
  | .pageWriteComplete => none
  | .storeJobComplete => none
  | .storeFault => none

/-- A command is well formed when the transaction it carries, if any, is one. -/
def Instr.wellFormed (i : Instr) : Bool :=
  match i.transaction with
  | some t => t.wellFormed
  | none => true

end Sys2Proof
end

