-- ==== Sys2Proof/Machine/Path.lean ====
section
/-! DEFINITION. The Path Unit: windows, acceptance of bus transactions, the insertion queue, the arbiter, completions and ATTN
(chapter 1, R1 to R17; R171, R172), and the rows of the bus and of the memory port. -/

namespace Sys2Proof.Machine

/-! ### Placing a transaction (R3) -/

/-- The window of an address, and the position in it: in a cell ring the slot and the byte of the cell, which gives granule and word;
in the request ring the slot and the word of the slot; in the report area the line and the word of the line (R3). -/
inductive Window where
  | ring (p : CellPlace)
  | request (slot word : Nat)
  | report (line word : Nat)
  | other
  deriving DecidableEq, Repr

/-- Whether an address lies in the `size` bytes from a base. -/
def within (base size a : Nat) : Bool := decide (base ≤ a) && decide (a < base + size)

/-- The bytes of the report area: 53 lines of 32 (R2). -/
def reportSize : Nat := 32 * lineCount

/-- The window of an address (R2, R3). -/
def placeOf (t : WindowTable) (a : Nat) : Window :=
  if within t.ring0Base (128 * t.ring0Slots) a then
    .ring { ring := .ring0, slot := (a - t.ring0Base) / 128, byte := (a - t.ring0Base) % 128 }
  else if within t.ring1Base (128 * t.ring1Slots) a then
    .ring { ring := .ring1, slot := (a - t.ring1Base) / 128, byte := (a - t.ring1Base) % 128 }
  else if within t.requestBase (32 * t.requestSlots) a then
    .request ((a - t.requestBase) / 32) ((a - t.requestBase) / 4 % 8)
  else if within t.reportBase reportSize a then .report ((a - t.reportBase) / 32) ((a - t.reportBase) / 4 % 8)
  else .other

/-- The window in force for an address: none of the four while the mode is not RUN or the table is empty (R2, R4). -/
def windowFor (s : State) (a : Nat) : Window :=
  match s.path.mode, s.path.windows with
  | .run, some t => placeOf t a
  | _, _ => .other

/-! ### Acceptance (R4, R6 to R10) -/

def setPassing (p : Option Passing) (s : State) : State := { s with path := { s.path with passing := p } }

def setPort (p : Port) (s : State) : State := { s with path := { s.path with port := p } }

/-- A write into a request slot (R10, R169, R170). -/
def acceptRequest (slot : Nat) (w : BusWrite) (s : State) : State :=
  if slotPending s slot then countDropped s
  else if isTaken w then
    let r := answerRequest slot (requestOf (recordOf w)) s
    setPassing (some (.write (rewriteResult r.2 w) (some slot))) r.1
  else setPassing (some (.write w (some slot))) s

/-- A write, by its window (R6). -/
def acceptWrite (w : BusWrite) (s : State) : State :=
  match windowFor s w.address.toNat with
  | .ring p =>
    let r := intakeWrite p w s
    setPassing (some (.write r.2 none)) r.1
  | .request slot _ => acceptRequest slot w s
  | .report _ _ => countDropped s
  | .other => setPassing (some (.write w none)) s

/-- Where a read's words go when they come back (R6). -/
def readPlace (s : State) (r : BusRead) : Place :=
  match windowFor s r.address.toNat with
  | .ring p => .cell p.ring p.slot p.word
  | .report n _ => .line n
  | .request _ _ => .plain
  | .other => .plain

/-- The acceptance of a transaction at the upstream port (R1, R4). -/
def acceptTransaction (t : Transaction) (s : State) : State :=
  match t with
  | .read r => setPassing (some (.read r (readPlace s r))) s
  | .write w => acceptWrite w s

/-! ### Completion of a passing transaction -/

/-- Words handed to the reader (R1). -/
def giveBack (a : BitVec 26) (data : List Byte) (s : State) : State :=
  { s with path := { s.path with returned := s.path.returned ++ [{ address := a, data := data }] } }

/-- The words of a read returned upstream (R8, R9, R17). -/
def returnRead (r : BusRead) (place : Place) (s : State) : State :=
  let data := readBytes s r.address.toNat (4 * r.words)
  match place with
  | .plain => giveBack r.address data s
  | .line n =>
    giveBack r.address data { s with path := { s.path with attn := if n = 0 then false else s.path.attn } }
  | .cell ring slot w =>
    let x := presentWords ring slot r.words w data s
    giveBack r.address x.2 x.1

/-- A held result of a slot is appended when the write placed in the slot completes (R171). -/
def releaseHeld (slot : Option Nat) (s : State) : State :=
  match slot with
  | none => s
  | some k =>
    match heldResult s k with
    | some a => appendResult k a (setHeldResult k none s)
    | none => s

/-- The passing write completes in memory (R1, R171). -/
def completePassing (w : BusWrite) (slot : Option Nat) (s : State) : State :=
  releaseHeld slot (setPort .free (setPassing none (writeMemory w s)))

/-! ### The insertion queue (R12, R13) -/

/-- The lowest line in the dirty set. -/
def firstDirty (s : State) : Option Nat := (List.range lineCount).find? fun n => (lineMark s n).isSome

/-- Whether the head of the insertion queue waits (R4, R16). -/
def headWaiting (s : State) : Bool := s.path.mode == .run && (!s.path.results.isEmpty || (firstDirty s).isSome)

/-- An address of a window, as the bus carries it. -/
def busAddress (n : Nat) : BitVec 26 := BitVec.ofNat 26 n

/-- The one-word write of a result: enables on the result and reason bytes alone (R13; 13, section 13.3). -/
def resultWrite (s : State) (slot : Nat) (a : Answer) : BusWrite where
  address := busAddress ((s.path.windows.map WindowTable.requestBase).getD 0 + 32 * slot + 4)
  lanes := [enabledLane (resultCode a.result), enabledLane a.reasonByte, { data := 0, enabled := false },
    { data := 0, enabled := false }]

/-- The burst of a report line's whole granule (R13). -/
def lineWrite (s : State) (n : Nat) : BusWrite where
  address := busAddress ((s.path.windows.map WindowTable.reportBase).getD 0 + 32 * n)
  lanes := (composeLine s n).map enabledLane

/-- A line leaves the dirty set. -/
def unmarkLine (n : Nat) (s : State) : State := { s with report := Sparse.write none s.report n none }

/-- The head is taken from the queue, and its write composed and issued (R13). -/
def issueHead (s : State) : State :=
  match s.path.results with
  | e :: rest =>
    setPort (.inserted { source := .result e.slot, write := resultWrite s e.slot e.answer, attention := e.attention })
      { s with path := { s.path with results := rest } }
  | [] =>
    match firstDirty s with
    | some n =>
      setPort (.inserted { source := .line n, write := lineWrite s n, attention := (lineMark s n).getD false })
        (unmarkLine n s)
    | none => s

/-! ### The arbiter (R15, R16) -/

/-- The passing transaction takes the port: a write holds it until it completes; a read's words return (log 7). -/
def grantPassing (s : State) : State :=
  match s.path.passing with
  | some (.read r place) => returnRead r place (setPassing none s)
  | some (.write _ _) => setPort .passing s
  | none => s

def spendToken (s : State) : State := { s with path := { s.path with tokens := s.path.tokens - 1 } }

/-- The arbiter's grant of a free port (R16). -/
def arbitrate (s : State) : State :=
  match headWaiting s, s.path.passing with
  | false, none => s
  | false, some _ => grantPassing s
  | true, none => issueHead s
  | true, some _ => if 0 < s.path.tokens then issueHead (spendToken s) else grantPassing s

/-- A grant, if the port is free. -/
def grantPort (s : State) : State :=
  match s.path.port with
  | .free => arbitrate s
  | _ => s

/-- Whether the head of the queue takes a free port ahead of a passing transaction (R16). -/
def headGoesFirst (s : State) : Bool := headWaiting s && decide (0 < s.path.tokens)

/-- The grant an acceptance brings at once: of a free port to the passing transaction, unless the head goes first. The head's
writes are issued at PORT_GRANT (log 7). A write that hands a message off waits for its grant: the Decoder finishes with the message
within the hand-off, before the write begins to wait for the port (R7, R32, R56; log 9). -/
def grantAtOnce (s : State) : State :=
  if s.path.port = .free ∧ headGoesFirst s = false ∧ s.decoder.handOff = none then grantPassing s else s

/-! ### The upstream port (R1) -/

/-- The upstream port takes a transaction. -/
def takeTransaction (t : Transaction) (s : State) : State := grantAtOnce (acceptTransaction t s)

/-- A transaction presented upstream: taken, or left waiting while another is in progress (log 5). -/
def present (t : Transaction) (s : State) : State :=
  match s.path.passing with
  | none => takeTransaction t s
  | some _ => { s with path := { s.path with waiting := s.path.waiting ++ [t] } }

/-- The waiting transactions are presented again, in their order. -/
def presentWaiting (s : State) : State :=
  s.path.waiting.foldl (fun s t => present t s) { s with path := { s.path with waiting := [] } }

/-! ### Events of the memory port -/

/-- Whether a result of a slot is still to come: its pending mark then stays (R13, R168; log 20). -/
def resultToCome (s : State) (slot : Nat) : Bool :=
  s.account.pendingBuys.any (fun e => e.slot == slot) || (heldResult s slot).isSome
    || s.path.results.any (fun e => e.slot == slot)

/-- The completion of an inserted write, as reported to its owner (R14, R168). -/
def reportInserted (x : Source) (s : State) : State :=
  match x with
  | .result slot => if resultToCome s slot then s else setSlotPending slot false s
  | .line _ => s

/-- An inserted write completes: memory, ATTN, the owner (R14, R17). -/
def completeInserted (i : Inserted) (s : State) : State :=
  let s1 := writeMemory i.write s
  reportInserted i.source { s1 with path := { s1.path with port := .free, attn := i.attention || s1.path.attn } }

/-- The inserted write on the port, if there is one, completes. -/
def insertedComplete (s : State) : State :=
  match s.path.port with
  | .inserted i => completeInserted i s
  | _ => s

/-- The passing write on the port, if there is one, completes; what waits upstream is then presented. -/
def passingComplete (s : State) : State :=
  match s.path.port, s.path.passing with
  | .passing, some (.write w slot) => presentWaiting (completePassing w slot s)
  | _, _ => s

/-- The tokens of a new refresh period; no period runs outside RUN (R15). -/
def renewTokens (s : State) : State :=
  if s.path.periodRunning ∧ s.path.mode = .run then { s with path := { s.path with tokens := s.path.tokensPerPeriod } } else s

/-- PORT_GRANT (R16). -/
def execPortGrant (s : State) : Host.Outcome State Fault Refusal :=
  afterMessage (fun s => presentWaiting (grantPort s)) s

/-- INSERTED_WRITE_COMPLETE (R14). -/
def execInsertedWriteComplete (s : State) : Host.Outcome State Fault Refusal := afterMessage insertedComplete s

/-- PASSING_WRITE_COMPLETE (R171). -/
def execPassingWriteComplete (s : State) : Host.Outcome State Fault Refusal := afterMessage passingComplete s

/-- REFRESH_PERIOD_START (R15). -/
def execRefreshPeriodStart (s : State) : Host.Outcome State Fault Refusal := afterMessage renewTokens s

/-! ### The rows of the bus: the part judges the transaction itself (R4, R6; log 6) -/

/-- A transaction presented upstream, if it is one (R1; log 8). -/
def busRow (t : Transaction) (s : State) : Host.Outcome State Fault Refusal :=
  if t.wellFormed then afterMessage (present t) s else .fault .notATransaction

/-- BUS_PASS_THROUGH (R4). -/
def execBusPassThrough (t : Transaction) (s : State) : Host.Outcome State Fault Refusal := busRow t s

/-- RING_WRITE (R7). -/
def execRingWrite (w : BusWrite) (s : State) : Host.Outcome State Fault Refusal := busRow (.write w) s

/-- RING_READ (R8). -/
def execRingRead (r : BusRead) (s : State) : Host.Outcome State Fault Refusal := busRow (.read r) s

/-- REPORT_READ (R17). -/
def execReportRead (r : BusRead) (s : State) : Host.Outcome State Fault Refusal := busRow (.read r) s

/-- REPORT_WRITE_DROPPED (R9). -/
def execReportWriteDropped (w : BusWrite) (s : State) : Host.Outcome State Fault Refusal := busRow (.write w) s

/-- OTHER_WINDOW_ACCESS (R6). -/
def execOtherWindowAccess (t : Transaction) (s : State) : Host.Outcome State Fault Refusal := busRow t s

/-- REQUEST_WRITE_DROPPED (R10). -/
def execRequestWriteDropped (w : BusWrite) (s : State) : Host.Outcome State Fault Refusal := busRow (.write w) s

/-- REQUEST_WRITE_NOT_TAKEN (R169). -/
def execRequestWriteNotTaken (w : BusWrite) (s : State) : Host.Outcome State Fault Refusal := busRow (.write w) s

/-- BUY (R149). -/
def execBuy (w : BusWrite) (s : State) : Host.Outcome State Fault Refusal := busRow (.write w) s

/-- UNLOCK (R114). -/
def execUnlock (w : BusWrite) (s : State) : Host.Outcome State Fault Refusal := busRow (.write w) s

/-- RELOCK (R113). -/
def execRelock (w : BusWrite) (s : State) : Host.Outcome State Fault Refusal := busRow (.write w) s

/-- REFRESH (R173). -/
def execRefresh (w : BusWrite) (s : State) : Host.Outcome State Fault Refusal := busRow (.write w) s

/-- UNKNOWN_REQUEST_KIND (R169). -/
def execUnknownRequestKind (w : BusWrite) (s : State) : Host.Outcome State Fault Refusal := busRow (.write w) s

end Sys2Proof.Machine
end

