-- ==== Sys2Proof/Machine/Resets.lean ====
section
/-! DEFINITION. Power-on and set reset (R18, R34, R36, R54, R74, R88, R104, R138, R156, R167, R168, R184, R189). -/

namespace Sys2Proof.Machine

/-! ### What power-on cuts short (R1, R179, R189; log 15) -/

/-- A byte of a write cut short: the new byte or the old one, a free choice. -/
def cutByte (count i : Nat) (old new : Byte) : Byte := if Config.cutShortTakesNew count i then new else old

/-- The page whose write power-on abandons: any mix of old and new bytes. -/
def tornPage (count : Nat) (p : PageWrite) (eeprom : List Host.Cell) : PageWrite :=
  { p with bytes := (List.range 32).map fun i =>
      cutByte count i (byteAt (readPage eeprom p.page) i) (byteAt p.bytes i) }

/-- The lanes of a memory write power-on abandons: those that take the new byte. -/
def cutLanes (count : Nat) (i : Nat) : List Lane → List Lane
  | [] => []
  | l :: rest => { l with enabled := l.enabled && Config.cutShortTakesNew count i } :: cutLanes count (i + 1) rest

/-- The write that holds the memory port. -/
def portWrite (s : State) : Option BusWrite :=
  match s.path.port, s.path.passing with
  | .inserted i, _ => some i.write
  | .passing, some (.write w _) => some w
  | _, _ => none

/-- The memory write in progress is abandoned. -/
def cutMemory (s : State) : State :=
  match portWrite s with
  | some w => { writeMemory { w with lanes := cutLanes s.freeCount 0 w.lanes } s with freeCount := s.freeCount + 1 }
  | none => s

/-- The page write in progress is abandoned. -/
def cutPage (s : State) : State :=
  match s.store.inFlight with
  | some f =>
    { s with
      store := { s.store with eeprom := writePage (tornPage s.freeCount f.current s.store.eeprom) s.store.eeprom }
      freeCount := s.freeCount + 1 }
  | none => s

/-! ### Power-on -/

/-- The mode power-on leads to: LOAD with the load begun, or PASS by the straps (R4, R184). -/
def powerOnMode (storePresent bypass : Bool) : Mode := if storePresent && !bypass then .load else .pass

/-- Power-on with the straps at these levels: everything but the two memories, the command queue and the count of free values is
as at reset. -/
def powerOn (storePresent bypass : Bool) (s : State) : State :=
  let s1 := cutPage (cutMemory s)
  { State.reset with
    pending := s.pending
    memory := s1.memory
    memorySize := s.memorySize
    freeCount := s1.freeCount
    store := Store.poweredOn storePresent bypass s1.store.eeprom
    path := { Path.reset with mode := powerOnMode storePresent bypass } }

/-! ### Set reset -/

/-- An inserted write that holds the port asserts no ATTN when it completes (R18). -/
def Port.quiet : Port → Port
  | .inserted i => .inserted { i with attention := false }
  | p => p

/-- The path's part in RUN; in LOAD and PASS the path is left untouched (R18; log 19). -/
def setResetPath (s : State) : State :=
  if s.path.mode = .run then
    markAllLinesClear { s with path := { s.path with port := s.path.port.quiet, results := [], attn := false, dropped := 0 } }
  else s

/-- The units' parts: the Intake Unit (R34), the Decoder (R74), the Presentation Unit (R104), the Request Unit (R168), the
pending-buy list (R155). -/
def setResetUnits (s : State) : State :=
  { s with
    intake := Intake.reset
    decoder := { s.decoder with tagFailures := 0, ignored := 0 }
    presentation := { s.presentation with noKey := 0 }
    requests := { pendingMarks := [], heldResults := [] }
    account := { s.account with pendingBuys := [] } }

/-- A set reset. -/
def setReset (s : State) : State := setResetPath (setResetUnits s)

/-! ### The rows -/

/-- POWER_ON (R184). -/
def execPowerOn (storePresent bypass : Bool) (s : State) : Host.Outcome State Fault Refusal :=
  afterMessage (powerOn storePresent bypass) s

/-- SET_RESET (R18); a message handed off before it has been dispatched whole (R74). -/
def execSetReset (s : State) : Host.Outcome State Fault Refusal := afterMessage setReset s

end Sys2Proof.Machine
end

