-- ==== Sys2Proof/Machine/StoreEvents.lean ====
section
/-! DEFINITION. The rows of the serial store: a page written, a job completed, an overrun (R153, R154, R162, R177, R178, R183). -/

namespace Sys2Proof.Machine

def setEeprom (m : List Host.Cell) (s : State) : State := { s with store := { s.store with eeprom := m } }

/-- The completion of a job is reported to its owners (R183). -/
def reportJob (r : JobReport) (s : State) : State :=
  match r with
  | .stay generation => markStayDone generation s
  | .journal sequence => markJournalDone sequence (markStored sequence s)
  | .mark => s

/-- A job completes: the report, and in the same event the next job's begin or the return to READY (R180, R183). -/
def completeJob (f : InFlight) (s : State) : State :=
  nextJob (reportJob f.report (setEeprom (writePage f.current s.store.eeprom) s))

/-- A page write completes within the limit: the job's next page write begins, or the job completes (R177, R183). -/
def completePage (f : InFlight) (s : State) : State :=
  match f.later with
  | p :: rest =>
    setInFlight (some { f with current := p, later := rest }) (setEeprom (writePage f.current s.store.eeprom) s)
  | [] => completeJob f s

/-- What the EEPROM left in the page that overran: free bytes (R178; log 16). -/
def overrunPage (count page : Nat) : PageWrite where
  page := page
  bytes := (List.range 32).map fun i => Config.overrunByte count i

/-- The entry into FAULT (R154, R178). -/
def enterFault (f : InFlight) (s : State) : State :=
  let s1 := setEeprom (writePage (overrunPage s.freeCount f.current.page) s.store.eeprom) { s with freeCount := s.freeCount + 1 }
  voidPendingBuys (setStoreState .fault
    { s1 with store := { s1.store with queue := [], heldOver := [], inFlight := none } })

/-- An event of the page write in progress, if there is one. -/
def onPageWrite (act : InFlight → State → State) (s : State) : State :=
  match s.store.inFlight with
  | some f => act f s
  | none => s

/-- A job's last page write completes; on an earlier page the event has no occasion (logs 11 and 29). -/
def completeLastPage (f : InFlight) (s : State) : State := if f.later = [] then completeJob f s else s

/-- PAGE_WRITE_COMPLETE (R177), of whichever page is being written (log 29). -/
def execPageWriteComplete (s : State) : Host.Outcome State Fault Refusal := afterMessage (onPageWrite completePage) s

/-- STORE_JOB_COMPLETE (R183). -/
def execStoreJobComplete (s : State) : Host.Outcome State Fault Refusal := afterMessage (onPageWrite completeLastPage) s

/-- STORE_FAULT (R178). -/
def execStoreFault (s : State) : Host.Outcome State Fault Refusal := afterMessage (onPageWrite enterFault) s

end Sys2Proof.Machine
end

