-- ==== Sys2Proof/Machine/Timers.lean ====
section
/-! DEFINITION. The rows of time: the advance of the seconds count and the unit timers (R50, R69, R70, R84, R117, R141, R147, R151). -/

namespace Sys2Proof.Machine

/-- SECONDS_ADVANCE (R69). -/
def execSecondsAdvance (s : State) : Host.Outcome State Fault Refusal := afterMessage advanceSecond s

/-- An expiry of a unit timer is taken: in RUN, and only where one is due (R70; logs 10 and 11). -/
def takeExpiry (due : Timebase → Nat) (taken : Timebase → Timebase) (act : State → State) (s : State) : State :=
  if s.path.mode = .run ∧ 0 < due s.time then act { s with time := taken s.time } else s

/-- The Account Unit's part of a minute expiry (R147, R151). -/
def accountMinute (s : State) : State := endFreeView (removeExpired s)

/-- The Lock Unit's part of a minute expiry (R117). -/
def lockMinute (s : State) : State := endLockout (endUnlock s)

/-- ACCOUNT_SECOND_TIMER (R141). -/
def execAccountSecondTimer (s : State) : Host.Outcome State Fault Refusal :=
  afterMessage (takeExpiry Timebase.secondDue (fun t => { t with secondDue := t.secondDue - 1 }) meterSecond) s

/-- ACCOUNT_MINUTE_TIMER (R147). -/
def execAccountMinuteTimer (s : State) : Host.Outcome State Fault Refusal :=
  afterMessage (takeExpiry Timebase.accountMinuteDue (fun t => { t with accountMinuteDue := t.accountMinuteDue - 1 }) accountMinute) s

/-- KEY_MINUTE_TIMER (R50). -/
def execKeyMinuteTimer (s : State) : Host.Outcome State Fault Refusal :=
  afterMessage (takeExpiry Timebase.keyMinuteDue (fun t => { t with keyMinuteDue := t.keyMinuteDue - 1 }) ageKeys) s

/-- SHOWING_MINUTE_TIMER (R84). -/
def execShowingMinuteTimer (s : State) : Host.Outcome State Fault Refusal :=
  afterMessage (takeExpiry Timebase.showingMinuteDue (fun t => { t with showingMinuteDue := t.showingMinuteDue - 1 }) retireEvents) s

/-- LOCK_MINUTE_TIMER (R117). -/
def execLockMinuteTimer (s : State) : Host.Outcome State Fault Refusal :=
  afterMessage (takeExpiry Timebase.lockMinuteDue (fun t => { t with lockMinuteDue := t.lockMinuteDue - 1 }) lockMinute) s

end Sys2Proof.Machine
end

