-- ==== Sys2Proof/Machine/Dispatch.lean ====
section
/-! DEFINITION. One arm per command. -/

namespace Sys2Proof.Machine

def exec (i : Instr) (s : State) : Host.Outcome State Fault Refusal :=
  match i with
  | .powerOn storePresent bypass => Sys2Proof.Machine.execPowerOn storePresent bypass s
  | .setReset => Sys2Proof.Machine.execSetReset s
  | .imageLoad => Sys2Proof.Machine.execImageLoad s
  | .journalLoad => Sys2Proof.Machine.execJournalLoad s
  | .stayLoad => Sys2Proof.Machine.execStayLoad s
  | .busPassThrough t => Sys2Proof.Machine.execBusPassThrough t s
  | .ringWrite w => Sys2Proof.Machine.execRingWrite w s
  | .messageRejected => Sys2Proof.Machine.execMessageRejected s
  | .key => Sys2Proof.Machine.execKey s
  | .serviceAdd => Sys2Proof.Machine.execServiceAdd s
  | .serviceDelete => Sys2Proof.Machine.execServiceDelete s
  | .listing => Sys2Proof.Machine.execListing s
  | .tariffDefine => Sys2Proof.Machine.execTariffDefine s
  | .tariffDelete => Sys2Proof.Machine.execTariffDelete s
  | .pricing => Sys2Proof.Machine.execPricing s
  | .time => Sys2Proof.Machine.execTime s
  | .freeviewOn => Sys2Proof.Machine.execFreeviewOn s
  | .freeviewOff => Sys2Proof.Machine.execFreeviewOff s
  | .checkin => Sys2Proof.Machine.execCheckin s
  | .checkout => Sys2Proof.Machine.execCheckout s
  | .credit => Sys2Proof.Machine.execCredit s
  | .ack => Sys2Proof.Machine.execAck s
  | .ceiling => Sys2Proof.Machine.execCeiling s
  | .maint => Sys2Proof.Machine.execMaint s
  | .ringRead r => Sys2Proof.Machine.execRingRead r s
  | .reportRead r => Sys2Proof.Machine.execReportRead r s
  | .reportWriteDropped w => Sys2Proof.Machine.execReportWriteDropped w s
  | .otherWindowAccess t => Sys2Proof.Machine.execOtherWindowAccess t s
  | .requestWriteDropped w => Sys2Proof.Machine.execRequestWriteDropped w s
  | .requestWriteNotTaken w => Sys2Proof.Machine.execRequestWriteNotTaken w s
  | .buy w => Sys2Proof.Machine.execBuy w s
  | .unlock w => Sys2Proof.Machine.execUnlock w s
  | .relock w => Sys2Proof.Machine.execRelock w s
  | .refresh w => Sys2Proof.Machine.execRefresh w s
  | .unknownRequestKind w => Sys2Proof.Machine.execUnknownRequestKind w s
  | .portGrant => Sys2Proof.Machine.execPortGrant s
  | .insertedWriteComplete => Sys2Proof.Machine.execInsertedWriteComplete s
  | .passingWriteComplete => Sys2Proof.Machine.execPassingWriteComplete s
  | .refreshPeriodStart => Sys2Proof.Machine.execRefreshPeriodStart s
  | .secondsAdvance => Sys2Proof.Machine.execSecondsAdvance s
  | .accountSecondTimer => Sys2Proof.Machine.execAccountSecondTimer s
  | .accountMinuteTimer => Sys2Proof.Machine.execAccountMinuteTimer s
  | .keyMinuteTimer => Sys2Proof.Machine.execKeyMinuteTimer s
  | .showingMinuteTimer => Sys2Proof.Machine.execShowingMinuteTimer s
  | .lockMinuteTimer => Sys2Proof.Machine.execLockMinuteTimer s
  | .pageWriteComplete => Sys2Proof.Machine.execPageWriteComplete s
  | .storeJobComplete => Sys2Proof.Machine.execStoreJobComplete s
  | .storeFault => Sys2Proof.Machine.execStoreFault s

end Sys2Proof.Machine
end

