-- ==== Sys2Proof/Safety.lean ====
section
/-! DEFINITION. The laws the manual calls "the device's law", and the other invariants the statements speak of, as predicates on a
state. -/

namespace Sys2Proof

open Machine

/-- The law for ceilings (R105, R108). -/
def LockLaw (s : State) : Prop :=
  s.lock.roomCeiling ≤ 9 ∧ s.lock.defaultCeiling ≤ s.lock.roomCeiling ∧ s.lock.guestCeiling ≤ s.lock.roomCeiling

/-- The law for credit (R121). -/
def CreditLaw (s : State) : Prop :=
  s.account.stay.remaining + s.account.stay.spent = s.account.stay.granted
    ∧ (s.account.stay.state = .vacant →
      s.account.stay.remaining = 0 ∧ s.account.stay.spent = 0 ∧ s.account.stay.granted = 0)

/-- The law for the night ceiling (R122). -/
def NightLaw (s : State) : Prop :=
  0 < s.account.stay.nightCeiling → s.account.stay.nightSpent ≤ s.account.stay.nightCeiling

/-- The law for the journal, but for the course of the next number over time (R157). -/
def JournalLaw (s : State) : Prop :=
  s.journal.records.map ChargeRecord.sequence = (List.range s.journal.records.length).map (fun i => s.journal.mark + 1 + i)
    ∧ s.journal.next = s.journal.mark + s.journal.records.length + 1
    ∧ s.journal.records.length ≤ journalPlaces

/-- The law for key histories and the pool (R43, R44), with what makes a new depth at start-up safe: in LOAD the pool is empty and
no message is handed off (R54, R56). -/
def KeyLaw (s : State) : Prop :=
  s.keys.pool.length ≤ poolSize
    ∧ (s.keys.pool.map fun e => (e.service, e.epoch)).Nodup
    ∧ (∀ service, (history s.keys.pool service).length ≤ s.settings.historyDepth)
    ∧ 1 ≤ s.settings.historyDepth
    ∧ (s.path.mode = .load → s.keys.pool = [] ∧ s.decoder.handOff = none)

/-- The law for purchases (R146): at most 16, no event id twice, and an event with a live purchase is not in PREVIEW; with what makes
a restored list safe: in LOAD no event is listed and no message is handed off (R56, R88). -/
def PurchaseLaw (s : State) : Prop :=
  s.account.purchases.length ≤ purchasePlaces ∧ (s.account.purchases.map Purchase.event).Nodup
    ∧ (∀ e ∈ s.showings.events, e.preview = .preview → livePurchase s e.id = false)
    ∧ (s.path.mode = .load → s.showings.events = [] ∧ s.decoder.handOff = none)

/-- The showing table holds at most 64 records, no event id twice, in ascending order of start and of event id (R79). -/
def ShowingLaw (s : State) : Prop :=
  s.showings.events.length ≤ tableSize ∧ (s.showings.events.map EventRecord.id).Nodup
    ∧ s.showings.events.Pairwise fun a b => a.before b = true

/-- The law for previews (R139): viewed seconds lie within the allowance of a defined class, below it in PREVIEW, and are 0 in
NONE. -/
def PreviewLaw (s : State) : Prop :=
  ∀ e ∈ s.showings.events,
    (e.preview = .untouched → e.viewed = 0) ∧
      ∀ t, tariffOf s e.tariffClass = some t →
        e.viewed ≤ t.allowance ∧ (e.preview = .preview → e.viewed < t.allowance)

/-- The service table holds at most 64 records, no service twice (R75). -/
def ServiceLaw (s : State) : Prop :=
  s.showings.services.length ≤ tableSize ∧ (s.showings.services.map ServiceRecord.service).Nodup

/-- The store queue: at most 8 waiting jobs, one STAY and one MARK at most; a request is held over only while the queue is full,
and none of its kind then waits (R181). -/
def QueueLaw (s : State) : Prop :=
  s.store.queue.length ≤ queuePlaces ∧ s.store.queue.count .stay ≤ 1 ∧ s.store.queue.count .mark ≤ 1
    ∧ s.store.heldOver.Nodup
    ∧ (s.store.heldOver ≠ [] → s.store.queue.length = queuePlaces)
    ∧ ∀ h ∈ s.store.heldOver, h.job ∉ s.store.queue

/-- Both memories are listed in canonical form. -/
def MemoryLaw (s : State) : Prop := Memory.wf s.memory = true ∧ Eeprom.wf s.store.eeprom = true

/-- The tables over slots, lines and classes are listed in canonical form. -/
def TablesLaw (s : State) : Prop :=
  Sparse.wf blankTag s.intake.tags = true ∧ Sparse.wf none s.report = true ∧ Sparse.wf none s.account.tariffs = true
    ∧ Sparse.wf false s.requests.pendingMarks = true ∧ Sparse.wf none s.requests.heldResults = true

/-- Outside RUN, ATTN is deasserted and no inserted write holds the port (R4). -/
def QuietOutsideRun (s : State) : Prop :=
  s.path.mode ≠ .run → s.path.attn = false ∧ ∀ i, s.path.port ≠ .inserted i

/-! ### Situations the statements speak of -/

/-- The upstream port is free, and no message waits for the Decoder. -/
def UpstreamFree (s : State) : Prop := s.path.passing = none ∧ s.decoder.handOff = none

/-- The upstream port is free, no message waits for the Decoder, and a passing transaction would take the memory port at once. -/
def PathFree (s : State) : Prop := UpstreamFree s ∧ s.path.port = .free ∧ headGoesFirst s = false

/-- Whether a transaction accepted in `s`, with effects that leave `t`, takes the memory port at once (R16; log 7): the port is free, the head
of the insertion queue does not go first, and no message was handed off (log 9). -/
def takesPort (s t : State) : Bool := s.path.port == .free && !headGoesFirst t && t.decoder.handOff.isNone

/-- The memory port after the acceptance of a write in `s`, with effects that leave `t`. -/
def portAfter (s t : State) : Port := if takesPort s t then .passing else s.path.port

/-- The accepting message rows, each with what it accepts. -/
def acceptingRows : List (Instr × MessageRow) :=
  [(.key, .key), (.serviceAdd, .serviceAdd), (.serviceDelete, .serviceDelete), (.listing, .listing),
    (.tariffDefine, .tariffDefine), (.tariffDelete, .tariffDelete), (.pricing, .pricing), (.time, .time),
    (.freeviewOn, .freeviewOn), (.freeviewOff, .freeviewOff), (.checkin, .checkin), (.checkout, .checkout),
    (.credit, .credit), (.ack, .ack), (.ceiling, .ceiling), (.maint, .maint)]

/-- A message is handed off, and this is what the Decoder finds of it. -/
def Handed (s : State) (f : Finding) : Prop := ∃ h, s.decoder.handOff = some h ∧ findingOf s h = f

/-- All 53 lines stand in the dirty set with clear marks. -/
def AllLinesClear (s : State) : Prop := ∀ n, lineMark s n = if n < lineCount then some false else none

/-- All 53 lines stand in the dirty set; marks held in `s` are kept, and a line added carries a clear mark. -/
def AllLinesAdded (s t : State) : Prop :=
  ∀ n, lineMark t n = if n < lineCount then some ((lineMark s n).getD false) else none

/-- From `s` to `t` the lines `lines` join the dirty set, each with the mark it had or a clear one, the lines `attention` join it with
a set mark, and no other line changes (R12). -/
def Marks (s t : State) (lines attention : Nat → Prop) : Prop :=
  ∀ n, (attention n → lineMark t n = some true) ∧
    (¬ attention n → lines n → lineMark t n = some ((lineMark s n).getD false)) ∧
    (¬ attention n → ¬ lines n → lineMark t n = lineMark s n)

/-- The end of an event's preview, from `s` to `t` (R143, R144): under CONFIRM the event is SPENT and held; under AUTO a commit is made, and a
refused one leaves it SPENT and held with the reason. A hold marks line 1 with attention. -/
def EndsPreview (id : Half) (mode : PurchaseMode) (s t : State) : Prop :=
  let holds := fun (u : State) (cause : HeldCause) =>
    t = { u with
      showings := { u.showings with events := u.showings.events.map fun x => if x.id = id then { x with preview := .spent } else x }
      account := { u.account with held := some { event := id, cause := cause } }
      report := t.report } ∧ (TablesLaw s → Marks u t (fun _ => False) fun n => n = 1)
  (mode = .confirm → holds s .confirm) ∧
    (mode = .auto → ((commit id none s).2 = none → t = (commit id none s).1) ∧
      ∀ r, (commit id none s).2 = some r → holds (commit id none s).1 (.refused r))

/-- A record carries each of these numbers, given as (offset, bytes, number), most significant byte first (00, section 0.7). -/
def Shows (record : List Byte) (fields : List (Nat × Nat × Nat)) : Prop :=
  ∀ x ∈ fields, field record x.1 x.2.1 = x.2.2 % 256 ^ x.2.1

/-- 1 for yes, 0 for no. -/
def yes (b : Bool) : Nat := if b then 1 else 0

/-- What a ring read returns from word `w` of a cell on under a verdict (R97, R98, R100): byte `k` of the read is byte `4 * w + k` of
the cell.
RAW and CLEAR return memory.
OPEN clears the scrambled flag, adds 1 to the check, and XORs the payload words below the payload length with the keystream of the key
held; VOID writes kind 15, takes E0h from the check and returns the payload as zeros. -/
def ReadsUnder (s : State) (v : Verdict) (fields : Option TagFields) (w : Nat) (stored data : List Byte) : Prop :=
  data.length = stored.length ∧ ∀ k, k < stored.length →
    let c := 4 * w + k
    let x := byteAt stored k
    (v = .raw ∨ v = .clear → byteAt data k = x) ∧
    (∀ b, v = .opened b →
      (c < 10 → byteAt data k = if c = 1 then x &&& 0xFE else x) ∧
      (c = 10 → field data k 2 = (field stored k 2 + 1) % 65536) ∧
      (12 ≤ c → ∀ f key, fields = some f → lookupKey s.keys.pool f.service f.epoch = some key →
        byteAt data k = if 4 * ((c - 12) / 4) < f.payloadLength then x ^^^ keystreamByte key f.salt (c - 12) else x)) ∧
    ∀ r, v = .voided r →
      (c < 10 → byteAt data k = if c = 1 then (x &&& 0x0F) ||| 0xF0 else x) ∧
      (c = 10 → field data k 2 = (field stored k 2 + 65536 - 0xE0) % 65536) ∧
      (12 ≤ c → byteAt data k = 0)

/-- The moment two fields of a body carry. -/
def momentAt (b : List Byte) (offset : Nat) : Moment :=
  { day := BitVec.ofNat 16 (field b offset 2), minute := field b (offset + 2) 2 }

/-- The record of a LISTING body at this offset, as section 13.2 lays it out. -/
def listingAt (b : List Byte) (i : Nat) : ListingRecord where
  id := BitVec.ofNat 16 (field b i 2)
  service := BitVec.ofNat 12 (field b (i + 2) 2)
  start := momentAt b (i + 4)
  finish := momentAt b (i + 8)
  tariffClass := field b (i + 12) 1
  rating := field b (i + 13) 1
  title := BitVec.ofNat 32 (field b (i + 14) 4)

/-- What R78 asks of a LISTING record. -/
def ListingFits (r : ListingRecord) : Prop :=
  r.id ≠ 0 ∧ r.service ≠ 4095 ∧ r.start.minute ≤ 1439 ∧ r.finish.minute ≤ 1439
    ∧ r.start.day.toNat * 1440 + r.start.minute < r.finish.day.toNat * 1440 + r.finish.minute ∧ r.tariffClass ≤ 7 ∧ r.rating ≤ 9

/-- Test 7 and the contents of a body of each kind (R61, R72, R78, R129, R131, R151; 13, section 13.2). -/
def BodiesRead (b : List Byte) : Prop :=
  (bodyOf .key b = if b.length = 11 ∧ field b 0 2 % 4096 ≠ 4095 then
      some (.key (BitVec.ofNat 12 (field b 0 2)) (BitVec.ofNat 4 (field b 2 1)) (BitVec.ofNat 64 (field b 3 8))) else none) ∧
  (bodyOf .service b = if b.length = 5 ∧ field b 1 2 % 4096 ≠ 4095 then
      if field b 0 1 = 1 ∧ field b 3 1 ≤ 1 ∧ field b 4 1 ≤ 9 then
        some (.serviceAdd {
          service := BitVec.ofNat 12 (field b 1 2)
          cls := if field b 3 1 = 0 then .free else .pay
          defaultRating := field b 4 1 })
      else if field b 0 1 = 2 then some (.serviceDelete (BitVec.ofNat 12 (field b 1 2))) else none
    else none) ∧
  (∀ m, bodyOf .listing b = some m ↔ ∃ n, 1 ≤ n ∧ n ≤ 4 ∧ b.length = 18 * n ∧ (∀ i, i < n → ListingFits (listingAt b (18 * i))) ∧
    m = .listing ((List.range n).map fun i => listingAt b (18 * i))) ∧
  (bodyOf .tariff b = if b.length = 10 ∧ field b 0 1 ≤ 7 then
      if field b 1 1 = 1 ∧ (field b 4 1 = 1 ∨ field b 4 1 = 2) then
        some (.tariffDefine (field b 0 1) {
          base := field b 2 2
          mode := if field b 4 1 = 1 then .confirm else .auto
          allowance := min (field b 5 2) 3600
          hours := max 1 (min (field b 7 1) 72)
          stepCode := field b 8 1 % 8
          usesBand := decide (field b 9 1 ≠ 0) })
      else if field b 1 1 = 2 then some (.tariffDelete (field b 0 1)) else none
    else none) ∧
  (let band : Nat → Band := fun n => { start := field b (1 + 3 * n) 2, percent := min (field b (3 + 3 * n) 1) 250 }
   bodyOf .pricing b =
      if b.length = 13 ∧ field b 1 2 ≤ 1439 ∧ field b 4 2 ≤ 1439 ∧ field b 7 2 ≤ 1439 ∧ field b 10 2 ≤ 1439 then
        some (.pricing { tax := min (field b 0 1) 250, band0 := band 0, band1 := band 1, band2 := band 2, band3 := band 3 })
      else none) ∧
  (bodyOf .time b = if b.length = 5 ∧ field b 2 2 ≤ 1439 ∧ field b 4 1 ≤ 59 then
      some (.time { day := BitVec.ofNat 16 (field b 0 2), minute := field b 2 2, second := field b 4 1 }) else none) ∧
  (bodyOf .freeview b = if b.length = 6 then
      if field b 0 1 = 1 ∧ field b 1 1 = 0 then some (.freeviewOn none)
      else if field b 0 1 = 1 ∧ field b 4 2 ≤ 1439 then some (.freeviewOn (some (momentAt b 2)))
      else if field b 0 1 = 2 then some .freeviewOff else none
    else none) ∧
  (bodyOf .checkin b = if b.length = 14 ∧ field b 0 2 ≠ 0 then
      some (.checkin {
        number := BitVec.ofNat 16 (field b 0 2)
        credit := field b 2 3
        nightCeiling := field b 5 3
        roomCeiling := field b 8 1
        defaultCeiling := field b 9 1
        pin := if field b 10 1 ≤ 9 ∧ field b 11 1 ≤ 9 ∧ field b 12 1 ≤ 9 ∧ field b 13 1 ≤ 9 then
            some { first := field b 10 1, second := field b 11 1, third := field b 12 1, fourth := field b 13 1 }
          else none })
    else none) ∧
  (bodyOf .checkout b = if b.length = 2 ∧ field b 0 2 ≠ 0 then some (.checkout (BitVec.ofNat 16 (field b 0 2))) else none) ∧
  (bodyOf .credit b = if b.length = 9 then
      some (.credit (if field b 2 3 < 8388608 then (field b 2 3 : Int) else (field b 2 3 : Int) - 16777216)
        (if field b 5 1 = 0 then none else some (field b 6 3)))
    else none) ∧
  (bodyOf .ack b = if b.length = 4 then some (.ack (field b 0 4)) else none) ∧
  (bodyOf .ceiling b = if b.length = 1 then some (.ceiling (field b 0 1)) else none) ∧
  (bodyOf .maint b = if b.length = 2 then some (.maint (BitVec.ofNat 16 (field b 0 2))) else none)

/-- A byte of the serial store. -/
def storeByte (s : State) (a : Nat) : Byte := Sparse.read Config.storeUnlisted s.store.eeprom a

/-- The passing write carries an answer: the result and reason bytes rewritten, every other lane as written (R169). -/
def CarriesAnswer (w : BusWrite) (a : Answer) (w' : BusWrite) : Prop :=
  w'.address = w.address ∧ w'.lanes.length = w.lanes.length
    ∧ w'.lanes[4]? = some { data := resultCode a.result, enabled := true }
    ∧ w'.lanes[5]? = some { data := a.reasonByte, enabled := true }
    ∧ ∀ k, k ≠ 4 → k ≠ 5 → w'.lanes[k]? = w.lanes[k]?

end Sys2Proof
end

