-- ==== Sys2Proof/Certificates/Slice0/Obligations.lean ====
section
/-! DEFINITION. The statements for the provers. -/

open Sys2Proof Sys2Proof.Machine

/-! ### The queue of commands -/

/-- A step takes the command at the front of the queue; on an empty queue the block idles (log 12). -/
def Obligations.StepTakesFrontCommand : Prop :=
  (∀ (c : Instr) (rest : List Instr) (s : State), s.pending = c :: rest → step s = exec c (s.withPending rest))
    ∧ ∀ s : State, s.pending = [] → step s = .next s

/-- The bus rows (R1; logs 5, 6 and 8): the part judges a transaction by itself, not by the row that presents it.
An operand that is no transaction faults; a transaction presented while another is in progress upstream waits, and changes nothing
else. A message handed off is finished with first (MessageFinishedFirst). -/
def Obligations.BusRowsJudgeTheTransaction : Prop :=
  (∀ (i : Instr) (s : State), i.wellFormed = false → exec i s = .fault .notATransaction) ∧
    (∀ (i j : Instr) (x : Transaction) (s : State), i.transaction = some x → j.transaction = some x → exec i s = exec j s) ∧
    ∀ (i : Instr) (x : Transaction) (s : State), i.transaction = some x → x.wellFormed = true → s.decoder.handOff = none →
      s.path.passing ≠ none → exec i s = .next { s with path := { s.path with waiting := s.path.waiting ++ [x] } }

/-- No message waits within the part (R56, R74; log 9): at every row but the Decoder's own, a message handed off is finished with
first, and the row then acts on the state that leaves. -/
def Obligations.MessageFinishedFirst : Prop :=
  ∀ (h : HandOff) (s : State), s.decoder.handOff = some h →
    (decodeHandOff h s).decoder.handOff = none ∧
      ∀ i : Instr, i ∉ [Instr.messageRejected, .key, .serviceAdd, .serviceDelete, .listing, .tariffDefine, .tariffDelete, .pricing,
        .time, .freeviewOn, .freeviewOff, .checkin, .checkout, .credit, .ack, .ceiling, .maint] →
        exec i s = exec i (decodeHandOff h s)

/-! ### Resets -/

/-- The state after reset is the state after power-on, with the load about to begin. -/
def Obligations.ResetIsPowerOnState : Prop :=
  State.reset.path.mode = .load ∧ State.reset.path.windows = none ∧ State.reset.path.tokens = 0
    ∧ State.reset.path.periodRunning = false ∧ State.reset.path.passing = none ∧ State.reset.path.port = .free
    ∧ State.reset.path.results = [] ∧ State.reset.path.attn = false ∧ State.reset.path.dropped = 0
    ∧ (∀ r k, readTag State.reset r k = blankTag) ∧ (∀ r, State.reset.intake.context.get r = none)
    ∧ (∀ r, State.reset.intake.staging.get r = none) ∧ State.reset.intake.headerErrors = 0
    ∧ State.reset.intake.abandoned = 0 ∧ State.reset.decoder.lastNumber = none
    ∧ State.reset.decoder.lastMaintenanceTag = none ∧ State.reset.decoder.tagFailures = 0
    ∧ State.reset.decoder.ignored = 0 ∧ State.reset.time.seconds = 0 ∧ State.reset.time.clock = none
    ∧ State.reset.keys.pool = [] ∧ State.reset.showings.services = [] ∧ State.reset.showings.events = []
    ∧ (∀ r, State.reset.presentation.summary.get r = none) ∧ State.reset.presentation.noKey = 0
    ∧ State.reset.lock.roomCeiling = 0 ∧ State.reset.lock.defaultCeiling = 0 ∧ State.reset.lock.guestCeiling = 0
    ∧ State.reset.lock.pin = none ∧ State.reset.lock.unlock = none ∧ State.reset.lock.lockout = none
    ∧ State.reset.lock.wrongAttempts = 0 ∧ State.reset.lock.lockouts = 0
    ∧ State.reset.account.stay = Stay.mk .vacant 0 0 0 0 0 0 none
    ∧ State.reset.account.purchases = [] ∧ (∀ c, tariffOf State.reset c = none) ∧ State.reset.account.pricing = none
    ∧ State.reset.account.held = none ∧ State.reset.account.freeView = .off ∧ State.reset.account.generation = 0
    ∧ State.reset.account.pendingBuys = [] ∧ State.reset.journal.records = [] ∧ State.reset.journal.next = 1
    ∧ State.reset.journal.mark = 0 ∧ (∀ k, slotPending State.reset k = false) ∧ (∀ k, heldResult State.reset k = none)
    ∧ (∀ n, lineMark State.reset n = none) ∧ State.reset.store.state = .ready ∧ State.reset.store.queue = []
    ∧ State.reset.store.heldOver = [] ∧ State.reset.store.inFlight = none ∧ State.reset.store.pageNumber = 0

/-- Every law of Safety.lean holds at reset. -/
def Obligations.LawsHoldAtReset : Prop :=
  LockLaw State.reset ∧ CreditLaw State.reset ∧ NightLaw State.reset ∧ JournalLaw State.reset ∧ KeyLaw State.reset
    ∧ PurchaseLaw State.reset ∧ ShowingLaw State.reset ∧ ServiceLaw State.reset ∧ PreviewLaw State.reset
    ∧ QueueLaw State.reset ∧ MemoryLaw State.reset ∧ TablesLaw State.reset ∧ QuietOutsideRun State.reset

/-- Power-on, no message waiting for the Decoder, clears all state but the two memories (beside the model's own queue and count, and the size fitted), samples the
straps, and begins the load or enters PASS.
A page write in progress leaves in its own page any mix of old and new bytes, and nothing elsewhere; a write in progress on the
memory port likewise (log 15). The write on the port is the inserted one, or the passing one. -/
def Obligations.PowerOnClearsState : Prop :=
  (∀ (s : State) (w : BusWrite), portWrite s = some w ↔
    (∃ i, s.path.port = .inserted i ∧ i.write = w) ∨ s.path.port = .passing ∧ ∃ k, s.path.passing = some (.write w k)) ∧
  ∀ (storePresent bypass : Bool) (s : State), s.decoder.handOff = none → ∃ t, exec (.powerOn storePresent bypass) s = .next t ∧
    t = { State.reset with
      pending := s.pending
      path := { Path.reset with mode := if storePresent && !bypass then .load else .pass }
      store := Store.poweredOn storePresent bypass t.store.eeprom
      memory := t.memory
      memorySize := s.memorySize
      freeCount := t.freeCount } ∧
    (s.store.inFlight = none → t.store.eeprom = s.store.eeprom) ∧
    (portWrite s = none → t.memory = s.memory) ∧
    (MemoryLaw s → ∀ f, s.store.inFlight = some f → ∀ a,
      (a / 32 ≠ f.current.page → storeByte t a = storeByte s a) ∧
      (a / 32 = f.current.page → storeByte t a = storeByte s a ∨ storeByte t a = byteAt f.current.bytes (a % 32))) ∧
    (MemoryLaw s → ∀ w, portWrite s = some w → ∀ a, readByte t a = readByte s a ∨
      ∃ k l, w.lanes[k]? = some l ∧ l.enabled = true ∧ (w.address.toNat + k) % s.memorySize.bytes = a % s.memorySize.bytes
        ∧ readByte t a = l.data)

/-- Set reset, no message waiting for the Decoder: in RUN the path's part, in LOAD and PASS the path untouched (log 19); in every
mode the units' parts; everything else is kept. -/
def Obligations.SetResetRestartsTheSet : Prop :=
  ∀ s : State, s.decoder.handOff = none → ∃ t, exec .setReset s = .next t ∧
    t = { s with
      path := t.path
      intake := Intake.reset
      decoder := { s.decoder with tagFailures := 0, ignored := 0 }
      presentation := { s.presentation with noKey := 0 }
      account := { s.account with pendingBuys := [] }
      requests := { pendingMarks := [], heldResults := [] }
      report := t.report } ∧
    (s.path.mode ≠ .run → t.path = s.path ∧ t.report = s.report) ∧
    (s.path.mode = .run → AllLinesClear t ∧
      t.path = { s.path with port := t.path.port, results := [], attn := false, dropped := 0 } ∧
      ((∀ i, s.path.port ≠ .inserted i) → t.path.port = s.path.port) ∧
      ∀ i, s.path.port = .inserted i → t.path.port = .inserted { i with attention := false })

/-! ### The start-up load -/

/-- What the load accepts as an image (R2, R185): the signature, the check, the counts, the bases, the extents, and no address in two
windows; the check of a record is the sum of its 16-bit words (R179). For a ring 1 of no slots the base must still be a multiple of 128 and no end is tested: the model's reading (log 34).
IMAGE_LOAD at its step holds an accepted image, its fields read where section 13.5 has them, and the load goes on; otherwise the mode
becomes PASS, which marks line 0 (R174). -/
def Obligations.ImageLoadHoldsOrPasses : Prop :=
  (∀ b : List Byte, wordSum b = BitVec.ofNat 16 ((List.range (b.length / 2)).map fun k => field b (2 * k) 2).sum) ∧
  (∀ base size a : Nat, within base size a = true ↔ base ≤ a ∧ a < base + size) ∧
  (∀ b : List Byte, imageWindows b = (imageOf b).windows) ∧
  (∀ b : List Byte, let w := imageWindows b
    imageOk b = true ↔
      (field b 0 2 = 0x47A1 ∧ wordSum b = 0xA55A ∧ 64 ≤ w.ring0Slots ∧ w.ring0Slots ≤ 4096 ∧
        (w.ring1Slots = 0 ∨ 64 ≤ w.ring1Slots ∧ w.ring1Slots ≤ 4096) ∧ w.ring0Slots + w.ring1Slots ≤ 8192 ∧
        4 ≤ w.requestSlots ∧ w.requestSlots ≤ 16 ∧ w.ring0Base % 128 = 0 ∧ w.ring1Base % 128 = 0 ∧
        w.requestBase % 32 = 0 ∧ w.reportBase % 32 = 0 ∧ w.ring0Base + 128 * w.ring0Slots ≤ 67108864 ∧
        (w.ring1Slots ≠ 0 → w.ring1Base + 128 * w.ring1Slots ≤ 67108864) ∧
        w.requestBase + 32 * w.requestSlots ≤ 67108864 ∧ w.reportBase + 1696 ≤ 67108864 ∧
        ∀ a : Nat,
          ¬ (within w.ring0Base (128 * w.ring0Slots) a ∧ within w.ring1Base (128 * w.ring1Slots) a) ∧
          ¬ (within w.ring0Base (128 * w.ring0Slots) a ∧ within w.requestBase (32 * w.requestSlots) a) ∧
          ¬ (within w.ring0Base (128 * w.ring0Slots) a ∧ within w.reportBase 1696 a) ∧
          ¬ (within w.ring1Base (128 * w.ring1Slots) a ∧ within w.requestBase (32 * w.requestSlots) a) ∧
          ¬ (within w.ring1Base (128 * w.ring1Slots) a ∧ within w.reportBase 1696 a) ∧
          ¬ (within w.requestBase (32 * w.requestSlots) a ∧ within w.reportBase 1696 a))) ∧
  (∀ b : List Byte, imageOf b = {
    windows := {
      ring0Base := field b 22 4, ring0Slots := field b 26 2, ring1Base := field b 28 4, ring1Slots := field b 32 2
      requestBase := field b 34 4, requestSlots := field b 38 1, reportBase := field b 40 4 }
    roomId := BitVec.ofNat 16 (field b 2 2)
    groupId := BitVec.ofNat 16 (field b 4 2)
    siteKey := BitVec.ofNat 64 (field b 6 8)
    roomKey := BitVec.ofNat 64 (field b 14 8)
    presenceThreshold := field b 44 1
    historyDepth := field b 45 1
    shiftHorizon := field b 46 2
    retention := field b 48 2
    unknownRating := field b 50 1
    discreetLevel := field b 51 1
    discreetTitle := BitVec.ofNat 32 (field b 52 4)
    maxUnlock := field b 56 2
    lockoutBase := field b 58 1
    rolloverMinute := field b 60 2
    refreshPeriod := field b 62 1
    tokensPerPeriod := field b 63 1 }) ∧
  ∀ s : State, s.decoder.handOff = none → s.path.mode = .load → s.store.phase = .image →
    (imageOk (imageBytes s.store.eeprom) = true → exec .imageLoad s = .next { s with
      store := { s.store with phase := .journal, image := some (imageOf (imageBytes s.store.eeprom)) } }) ∧
    (imageOk (imageBytes s.store.eeprom) = false → ∃ t, exec .imageLoad s = .next t ∧
      t = { s with path := { s.path with mode := .pass }, store := { s.store with phase := .idle }, report := t.report } ∧
      (TablesLaw s → Marks s t (fun n => n = 0) fun _ => False))

/-- The mark and a record as the load finds them in their pages (R186; 13, section 13.5), and JOURNAL_LOAD at its step: with `k` numbers
found from the mark plus 1 and the next not found, the last 32 at most are the journal, all stored, the mark rises past those let go,
and the next number is one past the last found. -/
def Obligations.JournalLoadRebuilds : Prop :=
  (∀ page : List Byte, markOf page = if wordSum page = 0xA55A ∧ field page 0 4 ≤ 4294967294 then field page 0 4 else 0) ∧
  (∀ (eeprom : List Host.Cell) (n : Nat) (r : ChargeRecord), let page := readPage eeprom (18 + n % 64)
    seekRecord eeprom n = some r ↔
      wordSum page = 0xA55A ∧ field page 0 4 = n ∧ field page 4 2 ≠ 0 ∧ field page 20 1 ≤ 7 ∧ 1 ≤ field page 12 4 ∧
        field page 12 4 ≤ 204750 ∧ field page 18 1 ≤ 250 ∧ field page 19 1 ≤ 250 ∧
        (field page 21 1 = 0 ∨ field page 21 1 = 1 ∧ field page 24 2 ≤ 1439) ∧
        r = {
          sequence := n
          stay := BitVec.ofNat 16 (field page 4 2)
          event := BitVec.ofNat 16 (field page 6 2)
          title := BitVec.ofNat 32 (field page 8 4)
          amount := field page 12 4
          base := field page 16 2
          percent := field page 18 1
          tax := field page 19 1
          tariffClass := field page 20 1
          clock := if field page 21 1 = 1 then some (momentAt page 22) else none
          stored := true }) ∧
  ∀ s : State, s.decoder.handOff = none → s.path.mode = .load → s.store.phase = .journal →
    ∃ t k, let m := markOf (readPage s.store.eeprom 8)
      exec .journalLoad s = .next t ∧ t = { s with journal := t.journal, store := { s.store with phase := .stay } } ∧
      k ≤ 64 ∧ (∀ i, i < k → (seekRecord s.store.eeprom (m + 1 + i)).isSome = true) ∧
      seekRecord s.store.eeprom (m + 1 + k) = none ∧
      t.journal.next = m + k + 1 ∧ t.journal.mark = m + (k - 32) ∧ t.journal.records.length = k - (k - 32) ∧
      ∀ i, i < t.journal.records.length →
        t.journal.records[i]? = seekRecord s.store.eeprom (t.journal.mark + 1 + i)
          ∧ (t.journal.records[i]?).map ChargeRecord.stored = some true
          ∧ (t.journal.records[i]?).map ChargeRecord.sequence = some (t.journal.mark + 1 + i)

/-- STAY_LOAD at its step (R5, R187, R188, R190): RUN is entered with the image's values, each with its owner's clamps (R45, R73, R83,
R106, R141, R159), and the stay is restored if its pages are valid, the lock fields with the Lock Unit's clamps (R119). -/
def Obligations.StayLoadEntersRun : Prop :=
  ∀ (i : Image) (s : State), s.decoder.handOff = none → s.path.mode = .load → s.store.phase = .stay → s.store.image = some i →
    ∃ t, let h := readPage s.store.eeprom 9
      let entry := fun n : Nat => readStore s.store.eeprom (32 * (10 + n / 2) + 2 + 14 * (n % 2)) 14
      let used := fun n : Nat => decide (field (entry n) 0 2 ≠ 0)
      let occupied := field h 4 2 ≠ 0 ∧ field h 11 3 ≤ 999999 ∧ field h 8 3 = field h 11 3 + field h 14 3 ∧
        field h 8 3 ≤ 16777215 ∧ field h 17 3 ≤ 999999 ∧ field h 20 3 ≤ 999999 ∧
        (0 < field h 17 3 → field h 20 3 ≤ field h 17 3)
      let vacant := field h 4 2 = 0 ∧ field h 8 3 = 0 ∧ field h 11 3 = 0 ∧ field h 14 3 = 0 ∧ field h 17 3 = 0 ∧
        field h 20 3 = 0 ∧ ∀ n, n < 16 → used n = false
      let valid := (∀ k, k < 9 → wordSum (readPage s.store.eeprom (9 + k)) = 0xA55A) ∧
        (∀ k, k < 8 → field (readPage s.store.eeprom (10 + k)) 0 2 = field h 2 2) ∧
        (field h 0 1 = 1 ∧ occupied ∨ field h 0 1 = 0 ∧ vacant) ∧
        ∀ n, n < 16 → used n = true → field (entry n) 4 3 ≤ 204750 ∧ field (entry n) 7 3 ≤ 259200 ∧
          ∀ m, m < 16 → used m = true → m ≠ n → field (entry m) 0 2 ≠ field (entry n) 0 2
      let bit := fun k : Nat => field h 1 1 / 2 ^ k % 2 = 1
      let room := min (field h 25 1) 9
      exec .stayLoad s = .next t ∧
      t = { s with
        path := { s.path with
          mode := .run
          windows := some i.windows
          refreshPeriod := min (max i.refreshPeriod 1) 255
          tokensPerPeriod := min i.tokensPerPeriod 15
          tokens := min i.tokensPerPeriod 15
          periodRunning := true }
        decoder := t.decoder
        lock := t.lock
        account := t.account
        report := t.report
        settings := {
          roomId := i.roomId
          groupId := i.groupId
          siteKey := i.siteKey
          roomKey := i.roomKey
          presenceThreshold := min (max i.presenceThreshold 1) 255
          historyDepth := min (max i.historyDepth 1) 8
          shiftHorizon := min (max i.shiftHorizon 10) 240
          retention := min i.retention 240
          unknownRating := min i.unknownRating 9
          discreetLevel := min i.discreetLevel 10
          discreetTitle := i.discreetTitle
          maxUnlock := min (max i.maxUnlock 1) 720
          lockoutBase := min (max i.lockoutBase 1) 60
          rolloverMinute := if i.rolloverMinute ≤ 1439 then i.rolloverMinute else 0 }
        store := { s.store with
          phase := .idle
          image := none
          pageNumber := if wordSum h = 0xA55A then BitVec.ofNat 16 (field h 2 2) else 0 } } ∧
      AllLinesClear t ∧
      (¬ valid → t.decoder = s.decoder ∧ t.lock = s.lock ∧ t.account = s.account) ∧
      (valid →
        t.decoder = { s.decoder with lastNumber := if bit 0 then some (BitVec.ofNat 16 (field h 6 2)) else none } ∧
        t.lock = {
          roomCeiling := room
          defaultCeiling := min (field h 26 1) room
          guestCeiling := min (field h 27 1) room
          pin := if bit 2 ∧ field h 28 1 / 16 ≤ 9 ∧ field h 28 1 % 16 ≤ 9 ∧ field h 29 1 / 16 ≤ 9 ∧ field h 29 1 % 16 ≤ 9 then
              some { first := field h 28 1 / 16, second := field h 28 1 % 16, third := field h 29 1 / 16
                     fourth := field h 29 1 % 16 }
            else none
          unlock := none
          lockout := none
          wrongAttempts := 0
          lockouts := 0 } ∧
        t.account = { s.account with
          stay := {
            state := if field h 0 1 = 1 then .occupied else .vacant
            number := BitVec.ofNat 16 (field h 4 2)
            granted := field h 8 3
            remaining := field h 11 3
            spent := field h 14 3
            nightCeiling := field h 17 3
            nightSpent := field h 20 3
            nightIndex := if bit 1 then some (BitVec.ofNat 16 (field h 23 2)) else none }
          purchases := ((List.range 16).filter used).map fun n => {
            event := BitVec.ofNat 16 (field (entry n) 0 2)
            service := BitVec.ofNat 12 (field (entry n) 2 2)
            rating := field (entry n) 2 1 / 16
            title := 0
            amount := field (entry n) 4 3
            rentalEnd := s.time.seconds + field (entry n) 7 3
            sequence := if field (entry n) 10 4 = 0 ∨ s.journal.next ≤ field (entry n) 10 4 then none
              else some (field (entry n) 10 4) } })

/-- Rows with no occasion change nothing, no message waiting for the Decoder: load rows out of their step, message rows without a
message, timer rows without an expiry due, port rows with nothing to complete, store rows with no page write in progress (log 11).
A message row that is not the one the Decoder's finding calls for leaves the message where it is (log 9): MESSAGE_REJECTED an accepted one,
and each accepting row a rejected one and an accepted one of another row. -/
def Obligations.NoOccasionNoChange : Prop :=
  (∀ s : State, s.decoder.handOff = none →
    ((s.path.mode ≠ .load ∨ s.store.phase ≠ .image) → exec .imageLoad s = .next s) ∧
    ((s.path.mode ≠ .load ∨ s.store.phase ≠ .journal) → exec .journalLoad s = .next s) ∧
    ((s.path.mode ≠ .load ∨ s.store.phase ≠ .stay ∨ s.store.image = none) → exec .stayLoad s = .next s) ∧
    (∀ i ∈ [Instr.messageRejected, .key, .serviceAdd, .serviceDelete, .listing, .tariffDefine, .tariffDelete, .pricing, .time,
      .freeviewOn, .freeviewOff, .checkin, .checkout, .credit, .ack, .ceiling, .maint], exec i s = .next s) ∧
    ((s.path.mode ≠ .run ∨ s.time.secondDue = 0) → exec .accountSecondTimer s = .next s) ∧
    ((s.path.mode ≠ .run ∨ s.time.accountMinuteDue = 0) → exec .accountMinuteTimer s = .next s) ∧
    ((s.path.mode ≠ .run ∨ s.time.keyMinuteDue = 0) → exec .keyMinuteTimer s = .next s) ∧
    ((s.path.mode ≠ .run ∨ s.time.showingMinuteDue = 0) → exec .showingMinuteTimer s = .next s) ∧
    ((s.path.mode ≠ .run ∨ s.time.lockMinuteDue = 0) → exec .lockMinuteTimer s = .next s) ∧
    ((∀ i, s.path.port ≠ .inserted i) → exec .insertedWriteComplete s = .next s) ∧
    (s.path.port ≠ .passing → exec .passingWriteComplete s = .next s) ∧
    (s.store.inFlight = none → exec .pageWriteComplete s = .next s ∧ exec .storeJobComplete s = .next s
      ∧ exec .storeFault s = .next s) ∧
    (∀ f, s.store.inFlight = some f → f.later ≠ [] → exec .storeJobComplete s = .next s)) ∧
  ∀ (s : State) (f : Finding), Handed s f →
    (∀ a n m, f = .accepted a n m → exec .messageRejected s = .next s) ∧
    ∀ i row, (i, row) ∈ acceptingRows → (∀ a n m, f = .accepted a n m → m.row ≠ row) → exec i s = .next s

/-! ### Bus transactions outside the rings -/

/-- The window of an address in RUN and the position in it (R2, R3), where the windows do not overlap there, as R2 has it of every table the
load accepts (ImageLoadHoldsOrPasses); no window while the mode is not RUN or the table is empty (R4).
Accesses outside the cell rings (R4, R6, R9, R10, R17): a read returns memory as it is, after every read returned before it, and
one that covers report line 0 deasserts ATTN; a write placed in no window is forwarded as it was received.
An access that cannot take the port at once, the port held or the head of the insertion queue going first, waits for it with its place,
a read of a ring (R8, R16) or of the report area among them: that a port which the head is to have stays free until a PORT_GRANT row is the model's choice (log 7; R16 grants it at once). -/
def Obligations.PlainAccessPasses : Prop :=
  (∀ (s : State) (t : WindowTable) (a : Nat), s.path.mode = .run → s.path.windows = some t →
    let lies := fun (base size : Nat) => base ≤ a ∧ a < base + size
    let ring0 := lies t.ring0Base (128 * t.ring0Slots)
    let ring1 := lies t.ring1Base (128 * t.ring1Slots)
    let requests := lies t.requestBase (32 * t.requestSlots)
    let report := lies t.reportBase 1696
    let cell := fun (r : Ring) (base : Nat) => ∃ p : CellPlace, windowFor s a = .ring p ∧ p.ring = r ∧ p.slot = (a - base) / 128 ∧
      p.byte = (a - base) % 128 ∧ p.granule = (a - base) / 32 % 4 ∧ p.word = (a - base) / 4 % 32
    (ring0 ∧ ¬ ring1 ∧ ¬ requests ∧ ¬ report → cell .ring0 t.ring0Base) ∧
    (ring1 ∧ ¬ ring0 ∧ ¬ requests ∧ ¬ report → cell .ring1 t.ring1Base) ∧
    (requests ∧ ¬ ring0 ∧ ¬ ring1 ∧ ¬ report →
      windowFor s a = .request ((a - t.requestBase) / 32) ((a - t.requestBase) / 4 % 8)) ∧
    (report ∧ ¬ ring0 ∧ ¬ ring1 ∧ ¬ requests →
      windowFor s a = .report ((a - t.reportBase) / 32) ((a - t.reportBase) / 4 % 8)) ∧
    (¬ ring0 ∧ ¬ ring1 ∧ ¬ requests ∧ ¬ report → windowFor s a = .other)) ∧
  (∀ (s : State) (a : Nat), s.path.mode ≠ .run ∨ s.path.windows = none → windowFor s a = .other) ∧
  (∀ s : State, headGoesFirst s = true ↔ s.path.mode = .run ∧ 0 < s.path.tokens ∧
    (s.path.results ≠ [] ∨ ∃ n, n < 53 ∧ lineMark s n ≠ none)) ∧
  (∀ (i : Instr) (r : BusRead) (s : State), i.transaction = some (.read r) → r.wellFormed = true → UpstreamFree s →
    (windowFor s r.address.toNat = .other ∨ ∃ k j, windowFor s r.address.toNat = .request k j) →
    (PathFree s → exec i s = .next { s with path := { s.path with
      returned := s.path.returned ++ [{ address := r.address, data := readBytes s r.address.toNat (4 * r.words) }] } }) ∧
    (¬ PathFree s → exec i s = .next { s with path := { s.path with passing := some (.read r .plain) } })) ∧
  (∀ (i : Instr) (r : BusRead) (n j : Nat) (s : State), i.transaction = some (.read r) → r.wellFormed = true → UpstreamFree s →
    windowFor s r.address.toNat = .report n j →
    (PathFree s → exec i s = .next { s with path := { s.path with
      returned := s.path.returned ++ [{ address := r.address, data := readBytes s r.address.toNat (4 * r.words) }]
      attn := if n = 0 then false else s.path.attn } }) ∧
    (¬ PathFree s → exec i s = .next { s with path := { s.path with passing := some (.read r (.line n)) } })) ∧
  (∀ (i : Instr) (r : BusRead) (p : CellPlace) (s : State), i.transaction = some (.read r) → r.wellFormed = true →
    UpstreamFree s → ¬ PathFree s → windowFor s r.address.toNat = .ring p →
    exec i s = .next { s with path := { s.path with passing := some (.read r (.cell p.ring p.slot p.word)) } }) ∧
  ∀ (i : Instr) (w : BusWrite) (s : State), i.transaction = some (.write w) → w.wellFormed = true → UpstreamFree s →
    windowFor s w.address.toNat = .other →
    exec i s = .next { s with path := { s.path with
      passing := some (.write w none), port := portAfter s s } }

/-- A write into the report area, and any write into a pending request slot, is dropped whole and counted (R9, R10, R11). -/
def Obligations.DroppedWritesAreCounted : Prop :=
  ∀ (w : BusWrite) (s : State), w.wellFormed = true → UpstreamFree s → TablesLaw s →
    ((∃ n j, windowFor s w.address.toNat = .report n j) ∨
      ∃ k j, windowFor s w.address.toNat = .request k j ∧ slotPending s k = true) →
    ∃ t, exec (.reportWriteDropped w) s = .next t ∧ exec (.requestWriteDropped w) s = .next t ∧
      (s.path.dropped = 65535 → t = s) ∧
      (s.path.dropped ≠ 65535 →
        t = { s with path := { s.path with dropped := s.path.dropped + 1 }, report := t.report } ∧
          Marks s t (fun n => n = 0) fun _ => False)

/-! ### Requests -/

/-- The writes into a request slot that is not pending (R169, R170, R173): one that is not taken passes as written; a taken one is
answered in its own write, every other byte kept.
A kind of 5 to 255 is refused with BADKIND and a REFRESH adds every line; neither changes anything else.
The codes of results and reasons are those of section 11.2, and the kinds and arguments of a record those of section 13.3.
A write that cannot take the port at once waits for it, its effects made all the same (portAfter; log 7). -/
def Obligations.RequestWritesAreAnswered : Prop :=
  ([Result.pending, .done, .refused, .volatile].map (fun r => (resultCode r).toNat) = [1, 2, 3, 4]) ∧
  ([Reason.badKind, .noPin, .lockedOut, .wrongPin, .noStay, .noEvent, .noTariff, .locked, .already, .storeFault, .purchasesFull,
    .journalFull, .storeBusy, .credit, .ceiling].map (fun r => (reasonCode r).toNat) = List.range' 1 15) ∧
  (∀ b : List Byte,
    (field b 0 1 = 1 → requestOf b = .buy (BitVec.ofNat 16 (field b 8 2))) ∧
    (field b 0 1 = 2 → requestOf b = .unlock { first := field b 8 1, second := field b 9 1, third := field b 10 1
                                               fourth := field b 11 1 } (field b 12 2)) ∧
    (field b 0 1 = 3 → requestOf b = .relock (field b 8 1)) ∧
    (field b 0 1 = 4 → requestOf b = .refresh) ∧
    (field b 0 1 = 0 ∨ 5 ≤ field b 0 1 → requestOf b = .unknown)) ∧
  (∀ w : BusWrite, recordOf w = w.lanes.map Lane.data) ∧
  ∀ (w : BusWrite) (k j : Nat) (s : State), w.wellFormed = true → UpstreamFree s → windowFor s w.address.toNat = .request k j →
    slotPending s k = false →
    (¬ (w.lanes.length = 32 ∧ (∀ l ∈ w.lanes, l.enabled = true) ∧ byteAt (recordOf w) 0 ≠ 0) →
      isTaken w = false ∧ exec (.requestWriteNotTaken w) s = .next { s with path := { s.path with
        passing := some (.write w (some k)), port := portAfter s s } }) ∧
    (w.lanes.length = 32 → (∀ l ∈ w.lanes, l.enabled = true) → byteAt (recordOf w) 0 ≠ 0 →
      isTaken w = true ∧
      (5 ≤ (byteAt (recordOf w) 0).toNat → ∃ w', CarriesAnswer w { result := .refused, reason := some .badKind } w' ∧
        exec (.unknownRequestKind w) s = .next { s with path := { s.path with
          passing := some (.write w' (some k)), port := portAfter s s } }) ∧
      (byteAt (recordOf w) 0 = 4 → ∃ w' t, CarriesAnswer w { result := .done, reason := none } w' ∧
        exec (.refresh w) s = .next t ∧ AllLinesAdded s t ∧
        t = { s with
          path := { s.path with passing := some (.write w' (some k)), port := portAfter s t }, report := t.report }))

/-- A RELOCK (R113): DONE; the guest ceiling falls to the level if it lies above it, any unlock period ends, and only a fall of the
guest ceiling raises the stay generation, whose STAY job (RoomAcceptance) may begin at the end of the event (log 25). A change marks line 2
without attention (R109). -/
def Obligations.RelockLowersTheCeiling : Prop :=
  ∀ (w : BusWrite) (k j : Nat) (s : State), w.wellFormed = true → UpstreamFree s → TablesLaw s →
    windowFor s w.address.toNat = .request k j → slotPending s k = false → isTaken w = true → byteAt (recordOf w) 0 = 3 →
    ∃ w' t u, let level := (byteAt (recordOf w) 8).toNat
      let falls := level < s.lock.guestCeiling
      CarriesAnswer w { result := .done, reason := none } w' ∧ exec (.relock w) s = .next t ∧
      u = { s with
        lock := { s.lock with guestCeiling := min level s.lock.guestCeiling, unlock := none }
        account := { s.account with generation := s.account.generation + (if falls then 1 else 0) }
        store := if falls then (raiseGeneration s).store else s.store
        report := u.report } ∧
      Marks s u (fun n => n = 2 ∧ u.lock ≠ s.lock) (fun _ => False) ∧
      t = { (if falls then startJob u else u) with
        path := { s.path with passing := some (.write w' (some k)), port := portAfter s t } }

/-- An UNLOCK (R114, R115, R116): refused NOPIN, LOCKEDOUT or WRONGPIN in that order, or an unlock period. A wrong PIN counts, and
the third in a row starts a lockout.
A change of the lock marks line 2 without attention, and no other line (R109); NOPIN and LOCKEDOUT mark none. -/
def Obligations.UnlockOutcomes : Prop :=
  ∀ (w : BusWrite) (k j : Nat) (s : State) (digits : Pin) (minutes : Nat), w.wellFormed = true → UpstreamFree s →
    windowFor s w.address.toNat = .request k j → slotPending s k = false → isTaken w = true →
    requestOf (recordOf w) = .unlock digits minutes →
    ∃ w' t a, CarriesAnswer w a w' ∧ exec (.unlock w) s = .next t ∧
      t = { s with
        path := { s.path with passing := some (.write w' (some k)), port := portAfter s t }
        lock := t.lock, report := t.report } ∧
      (a.reason = some .noPin ∨ a.reason = some .lockedOut → t.report = s.report) ∧
      (a.result = .done ∨ a.reason = some .wrongPin → TablesLaw s →
        ∀ n, lineMark t n = if n = 2 then some ((lineMark s 2).getD false) else lineMark s n) ∧
      ((s.account.stay.state = .vacant ∨ s.lock.pin = none) →
        a = { result := .refused, reason := some .noPin } ∧ t.lock = s.lock) ∧
      ∀ pin, s.account.stay.state = .occupied → s.lock.pin = some pin →
        (s.lock.lockout ≠ none → a = { result := .refused, reason := some .lockedOut } ∧ t.lock = s.lock) ∧
        (s.lock.lockout = none → digits = pin →
          let m := if minutes = 0 then 1 else min minutes s.settings.maxUnlock
          a = { result := .done, reason := none } ∧ t.lock = { s.lock with
            unlock := some { finish := s.time.seconds + 60 * m, minutes := m }, wrongAttempts := 0, lockouts := 0 }) ∧
        (s.lock.lockout = none → digits ≠ pin → a = { result := .refused, reason := some .wrongPin } ∧
          (s.lock.wrongAttempts < 2 → t.lock = { s.lock with wrongAttempts := s.lock.wrongAttempts + 1 }) ∧
          (2 ≤ s.lock.wrongAttempts →
            let m := s.settings.lockoutBase * (if s.lock.lockouts ≤ 2 then 2 ^ s.lock.lockouts else 8)
            t.lock = { s.lock with
              wrongAttempts := 0
              lockouts := min (s.lock.lockouts + 1) 3
              lockout := some { finish := s.time.seconds + 60 * m, minutes := m }
              unlock := none }))

/-- A BUY that a check refuses (R135, R136, R149): the first check that fails gives the reason; a refusal before check 7 changes
nothing beside the passing write, a later one leaves the removals of check 7 alone. So answers the commit itself, and for a preview
end as for a BUY (R134).
The lookups it rests on are spelled: the event by its id alone (R86), a live purchase (R135), the total (R134, over ChargeStages and
BandInForce), the removals of check 7 with the lines they mark (R136, R146) and the places that check 9 asks of the queue; the rating is
spelled in VerdictSteps. -/
def Obligations.BuyIsRefusedInOrder : Prop :=
  (∀ (s : State) (id : Half) (e : EventRecord), ShowingLaw s →
    (findEvent s id = some e ↔ e ∈ s.showings.events ∧ e.id = id)) ∧
  (∀ (s : State) (id : Half), findEvent s id = none ↔ ∀ e ∈ s.showings.events, e.id ≠ id) ∧
  (∀ (s : State) (id : Half), livePurchase s id = true ↔
    ∃ p ∈ s.account.purchases, p.event = id ∧ s.time.seconds < p.rentalEnd) ∧
  (∀ (s : State) (c : Tariff), totalOf s c =
    chargeTotal c.base (bandPercent s c) (stepUnits c.stepCode) ((s.account.pricing.map Pricing.tax).getD 0)) ∧
  (∀ s : State, let kept := s.account.purchases.filter fun p => decide (s.time.seconds < p.rentalEnd)
    removeExpired s = { s with
      account := { s.account with purchases := kept }
      showings := { s.showings with
        events := s.showings.events.map fun e =>
          if s.account.purchases.any (fun p => p.event == e.id && decide (p.rentalEnd ≤ s.time.seconds))
          then { e with preview := .spent } else e }
      report := (removeExpired s).report } ∧
    (TablesLaw s → ∀ k, lineMark (removeExpired s) k =
      if 5 ≤ k ∧ k < 21 ∧ s.account.purchases[k - 5]? ≠ kept[k - 5]? then some ((lineMark s k).getD false) else lineMark s k)) ∧
  (∀ (s : State) (total : Nat), lacksRoom s total = true ↔
    8 < s.store.queue.length + (if 0 < total then 1 else 0) + (if Job.stay ∈ s.store.queue then 0 else 1)) ∧
  ∀ (w : BusWrite) (k j : Nat) (s : State) (id : Half), w.wellFormed = true → UpstreamFree s →
    windowFor s w.address.toNat = .request k j → slotPending s k = false → isTaken w = true →
    requestOf (recordOf w) = .buy id →
    let early := fun r => ∃ w', (∀ slot, commit id slot s = (s, some r)) ∧
      CarriesAnswer w { result := .refused, reason := some r } w' ∧
      exec (.buy w) s = .next { s with path := { s.path with passing := some (.write w' (some k)), port := portAfter s s } }
    let late := fun r => ∃ w' t, (∀ slot, commit id slot s = (removeExpired s, some r)) ∧
      CarriesAnswer w { result := .refused, reason := some r } w' ∧ exec (.buy w) s = .next t ∧
      t = { removeExpired s with path := { s.path with passing := some (.write w' (some k)), port := portAfter s t } }
    (s.account.stay.state = .vacant → early .noStay) ∧
    (s.account.stay.state = .occupied →
      (findEvent s id = none → early .noEvent) ∧
      ∀ e, findEvent s id = some e →
        (tariffOf s e.tariffClass = none → early .noTariff) ∧
        ∀ c, tariffOf s e.tariffClass = some c →
          (effectiveCeiling s.lock < ratingOf s e.service (some e) → early .locked) ∧
          (ratingOf s e.service (some e) ≤ effectiveCeiling s.lock →
            (livePurchase s id = true → early .already) ∧
            (livePurchase s id = false →
              (s.store.state = .fault ∨ s.store.state = .absent → early .storeFault) ∧
              (s.store.state = .ready ∨ s.store.state = .busy →
                let live := (s.account.purchases.filter fun p => decide (s.time.seconds < p.rentalEnd)).length
                (16 ≤ live → late .purchasesFull) ∧
                (live < 16 →
                  (0 < totalOf s c ∧ 32 ≤ s.journal.records.length → late .journalFull) ∧
                  (¬ (0 < totalOf s c ∧ 32 ≤ s.journal.records.length) →
                    (lacksRoom s (totalOf s c) = true → late .storeBusy) ∧
                    (lacksRoom s (totalOf s c) = false →
                      (s.account.stay.remaining < totalOf s c → late .credit) ∧
                      (totalOf s c ≤ s.account.stay.remaining → 0 < s.account.stay.nightCeiling →
                        s.account.stay.nightCeiling < s.account.stay.nightSpent + totalOf s c → late .ceiling))))))))

/-- A BUY that passes every check (R137, R149, R153, R158 to R160, R171, R181, R182): PENDING, and every effect of the commit: credit and
night, the purchase and the charge record with their lines, the event PAID, the pending-buy entry, the slot pending, and the jobs.
The JOURNAL job, for a total above 0, and then the STAY job, unless one waits, join the queue; the oldest job begins unless one is in
flight (its pages: PageWriteCompletes), at the end of the event (log 25).
The lines marked, none with attention, are line 1, the record's, those of the places that change in the purchase list at the removals and
at the new purchase (R146), and line 0 where the store state changes (R180).
A commit by a preview end, which has no slot, has the same effects but for the pending-buy entry (R143). -/
def Obligations.BuyCommits : Prop :=
  ∀ (w : BusWrite) (k j : Nat) (s : State) (id : Half) (e : EventRecord) (c : Tariff), w.wellFormed = true → UpstreamFree s →
    TablesLaw s → windowFor s w.address.toNat = .request k j → slotPending s k = false → isTaken w = true →
    requestOf (recordOf w) = .buy id → findEvent s id = some e → tariffOf s e.tariffClass = some c →
    s.account.stay.state = .occupied → ratingOf s e.service (some e) ≤ effectiveCeiling s.lock →
    livePurchase s id = false → (s.store.state = .ready ∨ s.store.state = .busy) →
    (s.account.purchases.filter fun p => decide (s.time.seconds < p.rentalEnd)).length < 16 →
    (0 < totalOf s c → s.journal.records.length < 32) → lacksRoom s (totalOf s c) = false →
    totalOf s c ≤ s.account.stay.remaining →
    (0 < s.account.stay.nightCeiling → s.account.stay.nightSpent + totalOf s c ≤ s.account.stay.nightCeiling) →
    ∃ w' t, let total := totalOf s c
      let kept := s.account.purchases.filter fun p => decide (s.time.seconds < p.rentalEnd)
      let record : ChargeRecord := {
        sequence := s.journal.next
        stay := s.account.stay.number
        event := id
        tariffClass := e.tariffClass
        title := if s.settings.discreetLevel ≤ ratingOf s e.service (some e) then s.settings.discreetTitle else e.title
        amount := total
        base := c.base
        percent := bandPercent s c
        tax := (s.account.pricing.map Pricing.tax).getD 0
        clock := s.time.clock.map fun x => { day := x.day, minute := x.minute }
        stored := false }
      let queue := s.store.queue ++ (if 0 < total then [.journal record] else []) ++
        (if Job.stay ∈ s.store.queue then [] else [.stay])
      CarriesAnswer w { result := .pending, reason := none } w' ∧ exec (.buy w) s = .next t ∧
      t = { s with
        path := { s.path with passing := some (.write w' (some k)), port := portAfter s t }
        account := { s.account with
          stay := { s.account.stay with
            remaining := s.account.stay.remaining - total
            spent := s.account.stay.spent + total
            nightSpent := min (s.account.stay.nightSpent + total) 999999 }
          purchases := kept ++ [{
            event := id
            service := e.service
            rating := ratingOf s e.service (some e)
            title := e.title
            amount := total
            rentalEnd := s.time.seconds + 3600 * c.hours
            sequence := if 0 < total then some s.journal.next else none }]
          generation := s.account.generation + 1
          pendingBuys := s.account.pendingBuys ++ [{
            slot := k
            sequence := if 0 < total then some s.journal.next else none
            needed := s.account.generation + 1
            journalMark := !decide (0 < total)
            stayMark := false }] }
        showings := t.showings
        journal := if total = 0 then s.journal else { s.journal with
          records := s.journal.records ++ [record], next := s.journal.next + 1 }
        requests := t.requests, report := t.report, store := t.store } ∧
      slotPending t k = true ∧ (∀ i, i ≠ k → slotPending t i = slotPending s i) ∧ (∀ i, heldResult t i = heldResult s i) ∧
      t.showings.services = s.showings.services ∧
      t.showings.events = s.showings.events.map (fun x =>
        if x.id = id then { x with preview := .paid }
        else if s.account.purchases.any (fun p => p.event == x.id && decide (p.rentalEnd ≤ s.time.seconds))
        then { x with preview := .spent } else x) ∧
      (s.store.inFlight ≠ none → t.store = { s.store with queue := queue }) ∧
      (s.store.inFlight = none → ∀ x rest, queue = x :: rest →
        t.store = { (launchJob x { t with store := s.store }).store with
          state := .busy
          queue := rest ++ (s.store.heldOver.take 1).map HeldJob.job
          heldOver := s.store.heldOver.drop 1 }) ∧
      Marks s t (fun n => n = 1 ∨ 0 < total ∧ n = 21 + s.journal.next % 32 ∨ n = 0 ∧ t.store.state ≠ s.store.state ∨
        5 ≤ n ∧ n < 21 ∧ (s.account.purchases[n - 5]? ≠ kept[n - 5]? ∨ kept[n - 5]? ≠ t.account.purchases[n - 5]?))
        (fun _ => False) ∧
      commit id (some k) s = ({ t with path := s.path, requests := s.requests }, none) ∧
      commit id none s = ({ t with
        path := s.path, requests := s.requests, account := { t.account with pendingBuys := s.account.pendingBuys } }, none)

/-! ### Cell intake -/

/-- A ring write is never dropped: every lane is forwarded, enables unchanged, and its slot's latch is cleared (R7, R23, R25, R30).
A write into granule 1, 2 or 3 changes nothing else in the slot's tag, and no write changes the tag of another slot (R23).
Only an in-order granule 3 of an unbroken message context hands a message off (WholeMessageIsHandedOff; R28, R31, R32).
At a granule 0 with a valid MESSAGE header, and at an in-order granule of a message context, every enabled payload byte goes to memory
as zero and every other byte as written.
Every other write goes to memory just as written: cells of the other kinds, an out-of-order granule (R26), a granule outside any open
cell (R27), an invalid header (R24).
Reserved fields of a message's header and body are payload bytes like the others, and go to memory as zeros (log 36). -/
def Obligations.RingWriteIsForwarded : Prop :=
  ∀ (w : BusWrite) (p : CellPlace) (s : State), w.wellFormed = true → UpstreamFree s → TablesLaw s →
    windowFor s w.address.toNat = .ring p →
    ∃ t w', let zeroed :=
        (p.granule = 0 ∧ coversHeader p w = true ∧ headerValid (headerOf w) = true ∧
          (headerFields (headerOf w)).kind = .message) ∨
        (p.granule ≠ 0 ∧ ∃ c, s.intake.context.get p.ring = some c ∧ c.slot = p.slot ∧ c.next = p.granule ∧ c.message = true)
      exec (.ringWrite w) s = .next t ∧
      t = { s with
        path := { s.path with passing := some (.write w' none), port := portAfter s t }
        intake := t.intake
        decoder := { s.decoder with handOff := t.decoder.handOff }
        report := t.report } ∧
      w'.address = w.address ∧ w'.lanes.length = w.lanes.length ∧
      (zeroed → ∀ n l, w.lanes[n]? = some l →
        w'.lanes[n]? = some (if l.enabled = true ∧ 12 ≤ p.byte + n then { data := 0, enabled := true } else l)) ∧
      (¬ zeroed → w' = w) ∧
      (readTag t p.ring p.slot).latch = none ∧
      (p.granule ≠ 0 → (readTag t p.ring p.slot).fields = (readTag s p.ring p.slot).fields) ∧
      (¬ (p.granule = 3 ∧ ∃ c, s.intake.context.get p.ring = some c ∧ c.slot = p.slot ∧ c.next = 3 ∧ c.message = true ∧
        c.broken = false ∧ s.intake.staging.get p.ring ≠ none) → t.decoder = s.decoder) ∧
      ∀ q k, tagNumber s q k ≠ tagNumber s p.ring p.slot → readTag t q k = readTag s q k

/-- A granule-0 write opens its ring's context and records the tag, or leaves the tag invalid and counts (R23, R24, R29, R33).
On a valid MESSAGE header the ring's staging buffer holds 116 zeros with the header's salt, and over them this write's enabled payload
bytes, cell byte 12 + j at index j; on any other valid header it is free (R30, R31). The other ring's context and buffer stay.
The header itself is spelled: its check and the four tests (R20), its fields (R21; 13, section 13.1), what it is to cover it (R24), and
the number of a slot's tag (R22). A change of either counter marks line 0 without attention, and no other line is marked (R33). -/
def Obligations.GranuleZeroRecordsTheTag : Prop :=
  (∀ b : List Byte, headerCheck b = BitVec.ofNat 16
    (field b 0 2 + field b 2 2 + field b 4 2 + field b 6 2 + field b 8 2) ^^^ 0xFFFF) ∧
  (∀ b : List Byte, headerValid b = true ↔ field b 0 1 = 0xB7 ∧ field b 9 1 = 1 ∧ field b 8 1 ≤ 116 ∧
    (headerCheck b).toNat = field b 10 2) ∧
  (∀ b : List Byte, let f := headerFields b
    let kind := field b 1 1 / 16
    (kind = 1 → f.kind = .media) ∧ (kind = 2 → f.kind = .message) ∧ (kind = 3 → f.kind = .guide) ∧
    (kind = 0 ∨ 4 ≤ kind → f.kind = .filler) ∧ (f.scrambled = true ↔ field b 1 1 % 2 = 1) ∧
    f.epoch.toNat = field b 2 1 / 16 ∧ f.service.toNat = field b 2 2 % 4096 ∧ f.eventTag.toNat = field b 4 2 ∧
    f.salt.toNat = field b 6 2 ∧ f.payloadLength = field b 8 1) ∧
  (∀ (p : CellPlace) (w : BusWrite), coversHeader p w = true ↔
    p.byte = 0 ∧ ∀ n, n < 12 → ∃ l, w.lanes[n]? = some l ∧ l.enabled = true) ∧
  (∀ w : BusWrite, (headerOf w).length = min 12 w.lanes.length ∧
    ∀ n l, n < 12 → w.lanes[n]? = some l → byteAt (headerOf w) n = l.data) ∧
  (∀ (s : State) (k : Nat), tagNumber s .ring0 k = k ∧
    ∀ t, s.path.windows = some t → tagNumber s .ring1 k = t.ring0Slots + k) ∧
  ∀ (w : BusWrite) (p : CellPlace) (s : State), w.wellFormed = true → UpstreamFree s → TablesLaw s →
    windowFor s w.address.toNat = .ring p → p.granule = 0 →
    ∃ t, exec (.ringWrite w) s = .next t ∧
      (coversHeader p w = true → headerValid (headerOf w) = true →
        let f := headerFields (headerOf w)
        readTag t p.ring p.slot = { fields := some f, latch := none } ∧
        t.intake.context.get p.ring = some { slot := p.slot, next := 1, message := f.kind == .message, broken := false } ∧
        t.intake.headerErrors = s.intake.headerErrors ∧
        (f.kind ≠ .message → t.intake.staging.get p.ring = none) ∧
        (f.kind = .message → ∃ bytes, t.intake.staging.get p.ring = some { salt := f.salt, bytes := bytes } ∧
          bytes.length = 116 ∧
          ∀ j, j < 116 → bytes[j]? = some (match w.lanes[12 + j]? with
            | some l => if l.enabled then l.data else 0
            | none => 0))) ∧
      (¬ (coversHeader p w = true ∧ headerValid (headerOf w) = true) →
        readTag t p.ring p.slot = { fields := none, latch := none } ∧
        t.intake.context.get p.ring = some { slot := p.slot, next := 1, message := false, broken := false } ∧
        t.intake.headerErrors = bump s.intake.headerErrors ∧
        (∀ c, s.intake.context.get p.ring = some c → c.broken = false → t.intake.staging.get p.ring = none) ∧
        ((∀ c, s.intake.context.get p.ring = some c → c.broken = true) →
          t.intake.staging.get p.ring = s.intake.staging.get p.ring)) ∧
      (∀ q, q ≠ p.ring → t.intake.context.get q = s.intake.context.get q ∧
        t.intake.staging.get q = s.intake.staging.get q) ∧
      (TablesLaw s → Marks s t (fun n => n = 0 ∧ (t.intake.headerErrors ≠ s.intake.headerErrors ∨
        t.intake.abandoned ≠ s.intake.abandoned)) fun _ => False) ∧
      (t.intake.headerErrors = s.intake.headerErrors → t.intake.abandoned = s.intake.abandoned → t.report = s.report) ∧
      (s.intake.context.get p.ring = none → t.intake.abandoned = s.intake.abandoned) ∧
      (∀ c, s.intake.context.get p.ring = some c →
        t.intake.abandoned = if c.broken then s.intake.abandoned else bump s.intake.abandoned)

/-- A payload granule by its ring's context (R25 to R31, R33).
An in-order granule 1 or 2 of an unbroken message context stages its enabled bytes, cell byte 12 + j at index j, and no other context stages;
granule 3 frees the buffer (WholeMessageIsHandedOff). The other ring's context and buffer stay, and so does the header-error counter.
A change of the abandoned-cell counter marks line 0 without attention, and no other line is marked. -/
def Obligations.PayloadGranulesFollowTheCell : Prop :=
  ∀ (w : BusWrite) (p : CellPlace) (s : State), w.wellFormed = true → UpstreamFree s →
    windowFor s w.address.toNat = .ring p → p.granule ≠ 0 →
    ∃ t, exec (.ringWrite w) s = .next t ∧ t.intake.headerErrors = s.intake.headerErrors ∧
      (TablesLaw s → Marks s t (fun n => n = 0 ∧ (t.intake.headerErrors ≠ s.intake.headerErrors ∨
        t.intake.abandoned ≠ s.intake.abandoned)) fun _ => False) ∧
      (t.intake.headerErrors = s.intake.headerErrors → t.intake.abandoned = s.intake.abandoned → t.report = s.report) ∧
      (∀ q, q ≠ p.ring → t.intake.context.get q = s.intake.context.get q ∧
        t.intake.staging.get q = s.intake.staging.get q) ∧
      (s.intake.context.get p.ring = none →
        t.intake.context.get p.ring = none ∧ t.intake.abandoned = bump s.intake.abandoned) ∧
      ∀ c, s.intake.context.get p.ring = some c →
        (c.slot ≠ p.slot → t.intake.context.get p.ring = none ∧ t.intake.staging.get p.ring =
            (if c.broken then s.intake.staging.get p.ring else none) ∧
          t.intake.abandoned = if c.broken then bump s.intake.abandoned else bump (bump s.intake.abandoned)) ∧
        (c.slot = p.slot → p.granule = c.next → t.intake.abandoned = s.intake.abandoned ∧
          t.intake.context.get p.ring = (if p.granule = 3 then none else some { c with next := p.granule + 1 }) ∧
          (p.granule = 3 → t.intake.staging.get p.ring = none) ∧
          (p.granule ≠ 3 → c.message = false ∨ s.intake.staging.get p.ring = none →
            t.intake.staging.get p.ring = s.intake.staging.get p.ring) ∧
          (p.granule ≠ 3 → c.message = true → c.broken = false → ∀ b, s.intake.staging.get p.ring = some b →
            b.bytes.length = 116 → ∃ bytes, t.intake.staging.get p.ring = some { salt := b.salt, bytes := bytes } ∧
              bytes.length = 116 ∧
              ∀ j, j < 116 → bytes[j]? =
                (match w.lanes[12 + j - p.byte]? with
                | some l => if p.byte ≤ 12 + j ∧ l.enabled then some l.data else b.bytes[j]?
                | none => b.bytes[j]?))) ∧
        (c.slot = p.slot → p.granule ≠ c.next →
          t.intake.abandoned = (if c.broken then s.intake.abandoned else bump s.intake.abandoned) ∧
          (c.broken = false → t.intake.staging.get p.ring = none) ∧
          t.intake.context.get p.ring = if p.granule = 3 then none else some { c with broken := true })

/-- An in-order granule 3 of an unbroken message context hands the staged message off with its salt (R28, R32). -/
def Obligations.WholeMessageIsHandedOff : Prop :=
  ∀ (w : BusWrite) (p : CellPlace) (s : State) (c : OpenCell) (b : Staging), w.wellFormed = true → UpstreamFree s →
    windowFor s w.address.toNat = .ring p → p.granule = 3 → s.intake.context.get p.ring = some c → c.slot = p.slot →
    c.next = 3 → c.message = true → c.broken = false → s.intake.staging.get p.ring = some b → b.bytes.length = 116 →
    ∃ t bytes, exec (.ringWrite w) s = .next t ∧
      t.decoder.handOff = some { ring := p.ring, slot := p.slot, salt := b.salt, bytes := bytes } ∧
      t.intake.context.get p.ring = none ∧ t.intake.staging.get p.ring = none ∧
      ∀ j, j < 116 → bytes[j]? =
        (match w.lanes[12 + j - p.byte]? with
        | some l => if p.byte ≤ 12 + j ∧ l.enabled then some l.data else b.bytes[j]?
        | none => b.bytes[j]?)

/-! ### Presentation -/

/-- A read that begins at word 0, or of a slot with no latch, judges the slot afresh (R8, R90, R92, R96): the slot's latch is the verdict
of the ten steps (VerdictSteps), the evaluation's effects on the Account Unit stand, and the words are returned as that verdict has
them (R97, R98, R100).
VOID NOKEY is counted; a verdict other than RAW sets the ring's summary, and a change of it marks line 3 or 4 (R102, R103).
A read that cannot take the port at once waits for it with its place in the cell (log 7), and what is said here is then said of its
return at the grant (ArbiterGrants; judged from the state of that moment, log 24). -/
def Obligations.HeaderReadEvaluates : Prop :=
  ∀ (r : BusRead) (p : CellPlace) (s : State), r.wellFormed = true → UpstreamFree s → TablesLaw s →
    windowFor s r.address.toNat = .ring p → (p.word = 0 ∨ (readTag s p.ring p.slot).latch = none) →
    let tag := readTag s p.ring p.slot
    let judged := (verdictOf tag s).1
    let v := (verdictOf tag s).2
    ∃ t data, returnRead r (.cell p.ring p.slot p.word) s = t ∧
      exec (.ringRead r) s = .next (if takesPort s s then t
        else { s with path := { s.path with passing := some (.read r (.cell p.ring p.slot p.word)) } }) ∧
      ReadsUnder s v tag.fields p.word (readBytes s r.address.toNat (4 * r.words)) data ∧
      (∀ b, v = .opened b → ∃ f, tag.fields = some f ∧ lookupKey s.keys.pool f.service f.epoch ≠ none) ∧
      t = { judged with
        path := { s.path with returned := s.path.returned ++ [{ address := r.address, data := data }] }
        intake := { s.intake with tags := t.intake.tags }
        presentation := t.presentation
        report := t.report } ∧
      t.memory = s.memory ∧ t.lock = s.lock ∧ t.keys = s.keys ∧ t.requests = s.requests ∧ t.decoder = s.decoder ∧
      readTag t p.ring p.slot = { fields := tag.fields, latch := some v } ∧
      (∀ q k, tagNumber s q k ≠ tagNumber s p.ring p.slot → readTag t q k = readTag s q k) ∧
      (v = .raw → t.presentation = s.presentation ∧ t.report = s.report) ∧
      t.presentation.noKey = (if v = .voided .noKey then bump s.presentation.noKey else s.presentation.noKey) ∧
      (∀ q, q ≠ p.ring → t.presentation.summary.get q = s.presentation.summary.get q) ∧
      ∀ f, tag.fields = some f → v ≠ .raw →
        let x : Summary := {
          service := f.service
          event := f.eventTag
          listed := (findShowing s f.service f.eventTag).isSome
          verdict := v
          metering := (findShowing judged f.service f.eventTag).bind fun e =>
            (tariffOf s e.tariffClass).map fun c => { viewed := e.viewed, allowance := c.allowance } }
        t.presentation.summary.get p.ring = some x ∧
          Marks judged t (fun n => n = 0 ∧ v = .voided .noKey ∧ s.presentation.noKey ≠ 65535 ∨
            n = (if p.ring = .ring0 then 3 else 4) ∧ s.presentation.summary.get p.ring ≠ some x) (fun _ => False) ∧
          (s.presentation.summary.get p.ring = some x → v ≠ .voided .noKey → t.report = judged.report)

/-- The ten steps of an evaluation (R92 to R95), with the verdict of each and its effects on the Account Unit (R96).
A verdict of OPEN PREVIEW notes one cell of the event, saturating (R101, R140), and from NONE begins the preview.
From NONE with an allowance of 0 the preview ends at once (R143, R144): under CONFIRM the event is SPENT and held, and line 1 marked
with attention; under AUTO a commit is made, and a refused one leaves it SPENT and held with the reason.
Every other step changes nothing. The latch a tag holds plays no part.
The lookups the steps rest on are spelled: a service and a showing (R85, R86), the class of an unknown service (R92), the rating (R107),
a key and a live purchase. -/
def Obligations.VerdictSteps : Prop :=
  (∀ (s : State) (v : BitVec 12), (findService s v = none ↔ ∀ r ∈ s.showings.services, r.service ≠ v) ∧
    (ServiceLaw s → ∀ r, findService s v = some r ↔ r ∈ s.showings.services ∧ r.service = v) ∧
    (isFreeService s v = true ↔ findService s v = none ∨ ∃ r, findService s v = some r ∧ r.cls = .free)) ∧
  (∀ (s : State) (v : BitVec 12) (tag : Half), ShowingLaw s →
    (findShowing s v tag = none ↔ ∀ e ∈ s.showings.events, ¬ (e.id = tag ∧ e.service = v)) ∧
    ∀ e, findShowing s v tag = some e ↔ e ∈ s.showings.events ∧ e.id = tag ∧ e.service = v) ∧
  (∀ (s : State) (v : BitVec 12) (e : Option EventRecord),
    (findService s v = none → ratingOf s v e = s.settings.unknownRating) ∧
    ∀ r, findService s v = some r →
      (r.cls = .free → ratingOf s v e = r.defaultRating) ∧
      (r.cls = .pay → e = none → ratingOf s v e = r.defaultRating) ∧
      ∀ x, r.cls = .pay → e = some x → ratingOf s v e = x.rating) ∧
  (∀ (s : State) (v : BitVec 12) (epoch : BitVec 4), KeyLaw s →
    (lookupKey s.keys.pool v epoch = none ↔ ∀ x ∈ s.keys.pool, ¬ (x.service = v ∧ x.epoch = epoch)) ∧
    ∀ k, lookupKey s.keys.pool v epoch = some k ↔ ∃ x ∈ s.keys.pool, x.service = v ∧ x.epoch = epoch ∧ x.key = k) ∧
  (∀ (s : State) (id : Half), livePurchase s id = true ↔
    ∃ p ∈ s.account.purchases, p.event = id ∧ s.time.seconds < p.rentalEnd) ∧
  ∀ (f : TagFields) (latch : Option Verdict) (s : State), TablesLaw s →
    verdictOf { fields := none, latch := latch } s = (s, .raw) ∧
    (f.kind ≠ .media → verdictOf { fields := some f, latch := latch } s = (s, .raw)) ∧
    (f.kind = .media →
      let e := findShowing s f.service f.eventTag
      let judged := verdictOf { fields := some f, latch := latch } s
      let v := fun x : Verdict => judged = (s, x)
      let events := fun g : EventRecord → EventRecord =>
        { s.showings with events := s.showings.events.map fun x => if x.id = f.eventTag then g x else x }
      (effectiveCeiling s.lock < ratingOf s f.service e → v (.voided .lock)) ∧
      (ratingOf s f.service e ≤ effectiveCeiling s.lock →
        (f.scrambled = false → v .clear) ∧
        (f.scrambled = true →
          (lookupKey s.keys.pool f.service f.epoch = none → v (.voided .noKey)) ∧
          (lookupKey s.keys.pool f.service f.epoch ≠ none →
            (isFreeService s f.service = true → v (.opened .free)) ∧
            (isFreeService s f.service = false →
              (livePurchase s f.eventTag = true → v (.opened .paid)) ∧
              (livePurchase s f.eventTag = false →
                (s.account.freeView ≠ .off → v (.opened .freeView)) ∧
                (s.account.freeView = .off →
                  ((s.account.stay.state = .vacant ∨ e = none) → v (.voided .hold)) ∧
                  ∀ x, e = some x → s.account.stay.state = .occupied →
                    (tariffOf s x.tariffClass = none → v (.voided .hold)) ∧
                    ∀ c, tariffOf s x.tariffClass = some c →
                      (x.preview = .preview → judged =
                        ({ s with showings := events fun y => { y with cells := bump y.cells } }, .opened .preview)) ∧
                      (x.preview = .spent ∨ x.preview = .paid → v (.voided .hold)) ∧
                      (x.preview = .untouched → 0 < c.allowance → judged =
                        ({ s with showings := events fun y => { y with preview := .preview, cells := bump y.cells } },
                          .opened .preview)) ∧
                      (x.preview = .untouched → c.allowance = 0 → c.mode = .confirm → ∃ t, judged = (t, .voided .hold) ∧
                        t = { s with
                          showings := events fun y => { y with preview := .spent }
                          account := { s.account with held := some { event := f.eventTag, cause := .confirm } }
                          report := t.report } ∧ Marks s t (fun _ => False) fun n => n = 1) ∧
                      (x.preview = .untouched → c.allowance = 0 → c.mode = .auto →
                        ((commit f.eventTag none s).2 = none → judged = ((commit f.eventTag none s).1, .opened .paid)) ∧
                        ∀ r, (commit f.eventTag none s).2 = some r → ∃ t, judged = (t, .voided .hold) ∧
                          let u := (commit f.eventTag none s).1
                          t = { u with
                            showings := { u.showings with events := u.showings.events.map fun y =>
                              if y.id = f.eventTag then { y with preview := .spent } else y }
                            account := { u.account with held := some { event := f.eventTag, cause := .refused r } }
                            report := t.report } ∧ Marks u t (fun _ => False) fun n => n = 1))))))))

/-- A read that begins past word 0 of a slot under a latched verdict (R90, R97, R98, R100): the words are returned as that verdict has
them, and nothing else changes.
Under OPEN with the key no longer held the payload words are zeros, the latch turns to VOID NOKEY, which is counted, and the summary is
set (R99, R102, R103), composed from lookups made at that word (log 23); a change of the count marks line 0 and one of the summary line 3 or 4.
A read that cannot take the port at once waits for it with its place in the cell (log 7), and what is said here is then said of its
return at the grant (ArbiterGrants; log 24). -/
def Obligations.LatchedPayloadReads : Prop :=
  ∀ (r : BusRead) (p : CellPlace) (s : State) (v : Verdict), r.wellFormed = true → UpstreamFree s →
    windowFor s r.address.toNat = .ring p → p.word ≠ 0 → (readTag s p.ring p.slot).latch = some v →
    let tag := readTag s p.ring p.slot
    let stored := readBytes s r.address.toNat (4 * r.words)
    let place : Place := .cell p.ring p.slot p.word
    let grants := fun t : State => returnRead r place s = t ∧ exec (.ringRead r) s = .next (if takesPort s s then t
      else { s with path := { s.path with passing := some (.read r place) } })
    ((∀ b, v = .opened b → (∃ f, tag.fields = some f ∧ lookupKey s.keys.pool f.service f.epoch ≠ none) ∨
        4 * (p.word + r.words) ≤ 12) →
      ∃ data, ReadsUnder s v tag.fields p.word stored data ∧ grants { s with path := { s.path with
        returned := s.path.returned ++ [{ address := r.address, data := data }] } }) ∧
    (∀ b f, v = .opened b → tag.fields = some f → lookupKey s.keys.pool f.service f.epoch = none →
      12 < 4 * (p.word + r.words) → TablesLaw s → ∃ t x data, grants t ∧
        ReadsUnder s v none p.word stored data ∧ (∀ n, n < 4 * r.words → 12 ≤ 4 * p.word + n → byteAt data n = 0) ∧
        t = { s with
          path := { s.path with returned := s.path.returned ++ [{ address := r.address, data := data }] }
          intake := { s.intake with tags := t.intake.tags }
          presentation := t.presentation
          report := t.report } ∧
        readTag t p.ring p.slot = { fields := some f, latch := some (.voided .noKey) } ∧
        (∀ q k, tagNumber s q k ≠ tagNumber s p.ring p.slot → readTag t q k = readTag s q k) ∧
        t.presentation.noKey = bump s.presentation.noKey ∧ t.presentation.summary.get p.ring = some x ∧
        (∀ q, q ≠ p.ring → t.presentation.summary.get q = s.presentation.summary.get q) ∧
        x = {
          service := f.service
          event := f.eventTag
          listed := (findShowing s f.service f.eventTag).isSome
          verdict := .voided .noKey
          metering := (findShowing s f.service f.eventTag).bind fun e =>
            (tariffOf s e.tariffClass).map fun c => { viewed := e.viewed, allowance := c.allowance } } ∧
        Marks s t (fun n => n = 0 ∧ s.presentation.noKey ≠ 65535 ∨
          n = (if p.ring = .ring0 then 3 else 4) ∧ s.presentation.summary.get p.ring ≠ some x) fun _ => False)

/-! ### Messages -/

/-- The seven tests in their order, the first that fails deciding (R57 to R61; 13, section 13.2), and what a message that fails one
changes: nothing but the one counter named (R66).
Test 1 is the address type, 2 the target, 3 the body length, 4 the tag, 5 the kind and its address types, 6 the number (NumberWindow),
7 the body (BodiesRead). -/
def Obligations.RejectedMessagesAreCounted : Prop :=
  (∀ (s : State) (h : HandOff), findingOf s h = testMessage s.settings s.decoder.lastNumber h.salt h.bytes) ∧
  (∀ (c : Settings) (last : Option Half) (salt : Half) (payload : List Byte),
    let found := testMessage c last salt payload
    let code := field payload 0 1
    (code = 0 ∨ 3 < code → found = .ignored) ∧
    ∀ a, (a, code) ∈ [(AddressType.site, 1), (.group, 2), (.room, 3)] →
      let target := BitVec.ofNat 16 (field payload 1 2)
      let named := a = .site ∨ a = .group ∧ target = c.groupId ∧ c.groupId ≠ 0 ∨ a = .room ∧ target = c.roomId
      let key := if a = .room then c.roomKey else c.siteKey
      let len := field payload 6 1
      let body := plainBody key salt payload len
      let tagged := messageTag key salt (payload.take 8 ++ body) = BitVec.ofNat 16 (field payload (8 + len) 2)
      let number := BitVec.ofNat 16 (field payload 4 2)
      (¬ named → found = .passedOver) ∧
      (named → 106 < len ∨ ¬ tagged → found = .tagFailure) ∧
      (named → len ≤ 106 → tagged →
        let kind := field payload 3 1
        (kind = 0 ∨ 13 < kind → found = .ignored) ∧
        ∀ k, (k, kind) ∈ [(MessageKind.key, 1), (.service, 2), (.listing, 3), (.tariff, 4), (.pricing, 5), (.time, 6),
            (.freeview, 7), (.checkin, 8), (.checkout, 9), (.credit, 10), (.ack, 11), (.ceiling, 12), (.maint, 13)] →
          let allowed := if kind ≤ 7 then a ≠ .room else if kind ≤ 11 then a = .room else a ≠ .site
          (¬ allowed → found = .ignored) ∧
          (allowed → a = .room → numberFresh last number = false → found = .stale) ∧
          (allowed → a ≠ .room ∨ numberFresh last number = true →
            (bodyOf k body = none → found = .ignored) ∧ ∀ m, bodyOf k body = some m → found = .accepted a number m))) ∧
  (∀ b : List Byte, BodiesRead b) ∧
  ∀ s : State, TablesLaw s →
    (Handed s .passedOver → exec .messageRejected s = .next (clearHandOff s)) ∧
    (Handed s .tagFailure → ∃ t, exec .messageRejected s = .next t ∧
      t = { s with
        decoder := { s.decoder with handOff := none, tagFailures := bump s.decoder.tagFailures }, report := t.report } ∧
      Marks s t (fun n => n = 0 ∧ s.decoder.tagFailures ≠ 65535) (fun _ => False) ∧ (s.decoder.tagFailures = 65535 → t.report = s.report)) ∧
    (Handed s .ignored ∨ Handed s .stale → ∃ t, exec .messageRejected s = .next t ∧
      t = { s with decoder := { s.decoder with handOff := none, ignored := bump s.decoder.ignored }, report := t.report } ∧
      Marks s t (fun n => n = 0 ∧ s.decoder.ignored ≠ 65535) (fun _ => False) ∧ (s.decoder.ignored = 65535 → t.report = s.report))

/-- Test 6 on ROOM messages (R62): any number passes while L is none, otherwise the numbers 1 to 32767 past L; the rest are stale and
counted.
SITE and GROUP messages neither test nor move L. -/
def Obligations.NumberWindow : Prop :=
  (∀ n l : Half, numberFresh none n = true ∧
    (numberFresh (some l) n = true ↔
      1 ≤ (n.toNat + 65536 - l.toNat) % 65536 ∧ (n.toNat + 65536 - l.toNat) % 65536 ≤ 32767)) ∧
  (∀ (last : Option Half) (payload body : List Byte) (k : MessageKind), messageKindOf (byteAt payload 3).toNat = some k →
    kindAllowed k .room = true →
    (numberFresh last (BitVec.ofNat 16 (field payload 4 2)) = false → testContent last .room payload body = .stale) ∧
    (numberFresh last (BitVec.ofNat 16 (field payload 4 2)) = true →
      testContent last .room payload body ≠ .stale ∧
      testContent last .room payload body = testContent none .room payload body)) ∧
  (∀ s : State, (applyFinding .stale s).decoder.ignored = bump s.decoder.ignored) ∧
  ∀ a : AddressType, a ≠ .room →
    (∀ (l l' : Option Half) (payload body : List Byte), testContent l a payload body = testContent l' a payload body) ∧
    ∀ (n : Half) (m : Message) (s : State), (acceptMessage a n m s).decoder.lastNumber = s.decoder.lastNumber

/-- An accepted ROOM message (R63): L becomes its number and the stay generation rises by exactly 1, whatever the owner does.
A rise requests a STAY job (R152, R181): it coalesces into one waiting, else it joins the end of the queue, or is held over in a full
one; in FAULT and ABSENT it finds no queue (R178). -/
def Obligations.RoomAcceptance : Prop :=
  (∀ (s : State) (n : Half) (m : Message) (i : Instr), Handed s (.accepted .room n m) →
    (i, m.row) ∈ [(Instr.checkin, MessageRow.checkin), (.checkout, .checkout), (.credit, .credit), (.ack, .ack),
      (.ceiling, .ceiling), (.maint, .maint)] →
    ∃ t, exec i s = .next t ∧ t.decoder.lastNumber = some n ∧ t.decoder.handOff = none ∧
      t.account.generation = s.account.generation + 1) ∧
  ∀ s : State,
    let asked := (s.store.state = .ready ∨ s.store.state = .busy) ∧ Job.stay ∉ s.store.queue
    raiseGeneration s = { s with
      account := { s.account with generation := s.account.generation + 1 }
      store := { s.store with
        queue := if asked ∧ s.store.queue.length < 8 then s.store.queue ++ [.stay] else s.store.queue
        heldOver := if asked ∧ 8 ≤ s.store.queue.length ∧ HeldJob.stay ∉ s.store.heldOver then s.store.heldOver ++ [.stay]
          else s.store.heldOver } }

/-- An accepted KEY (R46 to R49): the entry stands at the newest end with this key and arrival, and at most one other leaves. A
job that waits begins at the end of the dispatch (startJob, spelled in PageWriteCompletes; log 25). -/
def Obligations.KeyMessageSetsTheKey : Prop :=
  ∀ (s : State) (a : AddressType) (n : Half) (service : BitVec 12) (epoch : BitVec 4) (key : Key64), KeyLaw s → a ≠ .room →
    Handed s (.accepted a n (.key service epoch key)) →
    ∃ kept, exec .key s = .next (startJob { s with
        decoder := { s.decoder with handOff := none }
        keys := { pool := kept ++ [{ service := service, epoch := epoch, key := key, arrival := s.time.seconds }] } }) ∧
      let same := fun e : KeyEntry => e.service = service ∧ e.epoch = epoch
      ((∃ e ∈ s.keys.pool, same e) → ∃ l e r, s.keys.pool = l ++ e :: r ∧ same e ∧ kept = l ++ r) ∧
      ((∀ e ∈ s.keys.pool, ¬ same e) →
        (s.settings.historyDepth ≤ (history s.keys.pool service).length →
          ∃ l e r, s.keys.pool = l ++ e :: r ∧ e.service = service ∧ (∀ x ∈ l, x.service ≠ service) ∧ kept = l ++ r) ∧
        ((history s.keys.pool service).length < s.settings.historyDepth →
          kept = if s.keys.pool.length = 128 then s.keys.pool.tail else s.keys.pool))

/-- SERVICE add and delete (R53, R76, R77): one record per service, the message's for its own, or, in a full table, the message is
ignored and counted. A job that waits begins at the end of the dispatch (startJob, spelled in PageWriteCompletes; log 25). -/
def Obligations.ServiceMessages : Prop :=
  ∀ (s : State) (a : AddressType) (n : Half), a ≠ .room →
    (∀ r, ServiceLaw s → Handed s (.accepted a n (.serviceAdd r)) → ∃ u, exec .serviceAdd s = .next (startJob u) ∧
      (findService s r.service ≠ none ∨ s.showings.services.length < 64 →
        u = { s with
          decoder := { s.decoder with handOff := none }
          showings := { s.showings with services := u.showings.services } } ∧
        ServiceLaw u ∧ ∀ x, x ∈ u.showings.services ↔ x = r ∨ (x ∈ s.showings.services ∧ x.service ≠ r.service)) ∧
      (findService s r.service = none → 64 ≤ s.showings.services.length →
        u = { s with
          decoder := { s.decoder with handOff := none, ignored := bump s.decoder.ignored }, report := u.report } ∧
        (TablesLaw s → Marks s u (fun n => n = 0 ∧ s.decoder.ignored ≠ 65535) fun _ => False))) ∧
    (∀ service, Handed s (.accepted a n (.serviceDelete service)) → exec .serviceDelete s = .next (startJob { s with
        decoder := { s.decoder with handOff := none }
        keys := { pool := s.keys.pool.filter fun e => decide (e.service ≠ service) }
        showings := {
          services := s.showings.services.filter fun r => decide (r.service ≠ service)
          events := s.showings.events.filter fun e => decide (e.service ≠ service) } }))

/-- A LISTING takes its records one at a time, in the order of the body (R80); a job that waits begins at the end of the dispatch
(log 25).
For one record (R81, R82): an update keeps the metering fields, and one that changes the tariff class then has the class change handled
(R145, spelled in AllowanceHoldsViewedSeconds), an insertion starts them afresh, and of 65 records the last of the
order is dropped. The order is by start and then by event id (R79), and a new record has preview state NONE, no viewed second and no
cell (R80). -/
def Obligations.ListingTakesRecords : Prop :=
  (∀ a b : EventRecord, let start := fun e : EventRecord => e.start.day.toNat * 1440 + e.start.minute
    a.before b = true ↔ start a < start b ∨ start a = start b ∧ a.id.toNat < b.id.toNat) ∧
  (∀ r : ListingRecord, r.fresh = EventRecord.mk r.id r.service r.start r.finish r.tariffClass r.rating r.title .untouched 0 0) ∧
  (∀ (s : State) (a : AddressType) (n : Half) (l : List ListingRecord), a ≠ .room → Handed s (.accepted a n (.listing l)) →
    exec .listing s = .next (startJob (l.foldl (fun s r => takeListing r s) (clearHandOff s)))) ∧
  ∀ (s : State) (r : ListingRecord), ShowingLaw s →
    let t := takeListing r s
    t.showings.services = s.showings.services ∧ t.keys = s.keys ∧ t.lock = s.lock ∧ t.memory = s.memory ∧
      t.decoder = s.decoder ∧ t.account.stay.number = s.account.stay.number ∧
      (∀ e, findEvent s r.id = some e → e.tariffClass = r.tariffClass →
        findEvent t r.id = some (EventRecord.mk r.id r.service r.start r.finish r.tariffClass r.rating r.title
          e.preview e.viewed e.cells) ∧
        t.showings.events.length = s.showings.events.length ∧
        t = { s with showings := { s.showings with events := t.showings.events } } ∧ ShowingLaw t ∧
        ∀ x, x ∈ t.showings.events ↔ x = { r.fresh with preview := e.preview, viewed := e.viewed, cells := e.cells } ∨
          (x ∈ s.showings.events ∧ x.id ≠ r.id)) ∧
      (∀ e, findEvent s r.id = some e → e.tariffClass ≠ r.tariffClass → ∃ e', findEvent t r.id = some e' ∧
        e'.service = r.service ∧ e'.start = r.start ∧ e'.finish = r.finish ∧ e'.tariffClass = r.tariffClass ∧
        e'.rating = r.rating ∧ e'.title = r.title ∧ e'.cells = e.cells ∧
        (∃ u, u = { s with showings := { s.showings with events := u.showings.events } } ∧ ShowingLaw u ∧
          (∀ x, x ∈ u.showings.events ↔ x = { r.fresh with preview := e.preview, viewed := e.viewed, cells := e.cells } ∨
            (x ∈ s.showings.events ∧ x.id ≠ r.id)) ∧ t = classChange r.id u) ∧
        (∀ c, tariffOf s r.tariffClass = some c → e'.viewed = min e.viewed c.allowance ∧
          (¬ (e.preview = .preview ∧ c.allowance ≤ e.viewed) → e'.preview = e.preview ∧ t.account = s.account) ∧
          (e.preview = .preview → c.allowance ≤ e.viewed →
            (c.mode = .confirm → e'.preview = .spent ∧
              t.account = { s.account with held := some { event := r.id, cause := .confirm } }) ∧
            (c.mode = .auto → (e'.preview = .paid ∧ t.account.held = s.account.held) ∨
              e'.preview = .spent ∧ ∃ x, t.account.held = some { event := r.id, cause := .refused x }))) ∧
        (tariffOf s r.tariffClass = none → e'.viewed = e.viewed ∧ e'.preview = e.preview ∧ t.account = s.account)) ∧
      (findEvent s r.id = none → t = { s with showings := { s.showings with events := t.showings.events } } ∧ ShowingLaw t ∧
        (s.showings.events.length < 64 → findEvent t r.id = some r.fresh ∧
          t.showings.events.length = s.showings.events.length + 1 ∧
          ∀ x, x ∈ t.showings.events ↔ x = r.fresh ∨ (x ∈ s.showings.events ∧ x.id ≠ r.id)) ∧
        (s.showings.events.length = 64 → ∃ last ∈ r.fresh :: s.showings.events,
          (∀ e ∈ r.fresh :: s.showings.events, e ≠ last → e.before last = true) ∧
          ∀ e, e ∈ t.showings.events ↔ e ∈ r.fresh :: s.showings.events ∧ e ≠ last))

/-- TARIFF, PRICING and FREEVIEW (R129 to R131, R151): a define that keeps the allowance, or meets no listed event of its class,
sets the class and does nothing else.
A job that waits begins at the end of the dispatch (log 25). -/
def Obligations.PriceMessages : Prop :=
  ∀ (s : State) (a : AddressType) (n : Half), a ≠ .room → TablesLaw s →
    (∀ cls c, Handed s (.accepted a n (.tariffDefine cls c)) →
      ((tariffOf s cls).map Tariff.allowance = some c.allowance ∨ ∀ e ∈ s.showings.events, e.tariffClass ≠ cls) →
      ∃ t, exec .tariffDefine s = .next (startJob t) ∧
        t = { s with
          decoder := { s.decoder with handOff := none }, account := { s.account with tariffs := t.account.tariffs } } ∧
        tariffOf t cls = some c ∧ ∀ x, x ≠ cls → tariffOf t x = tariffOf s x) ∧
    (∀ cls, Handed s (.accepted a n (.tariffDelete cls)) → ∃ t, exec .tariffDelete s = .next (startJob t) ∧
      t = { s with
        decoder := { s.decoder with handOff := none }, account := { s.account with tariffs := t.account.tariffs } } ∧
      tariffOf t cls = none ∧ ∀ x, x ≠ cls → tariffOf t x = tariffOf s x) ∧
    (∀ p, Handed s (.accepted a n (.pricing p)) → exec .pricing s = .next (startJob { s with
      decoder := { s.decoder with handOff := none }, account := { s.account with pricing := some p } })) ∧
    (∀ x, Handed s (.accepted a n (.freeviewOn x)) → ∃ t, exec .freeviewOn s = .next (startJob t) ∧
      t = { s with
        decoder := { s.decoder with handOff := none }, account := { s.account with freeView := .on x }, report := t.report } ∧
      (s.account.freeView = .on x → t.report = s.report) ∧ (s.account.freeView ≠ .on x → Marks s t (fun n => n = 0) fun _ => False)) ∧
    (Handed s (.accepted a n .freeviewOff) → ∃ t, exec .freeviewOff s = .next (startJob t) ∧
      t = { s with
        decoder := { s.decoder with handOff := none }, account := { s.account with freeView := .off }, report := t.report } ∧
      (s.account.freeView = .off → t.report = s.report) ∧ (s.account.freeView ≠ .off → Marks s t (fun n => n = 0) fun _ => False)) ∧
    (s.store.queue = [] → startJob s = s) ∧
    startJob s = { s with report := (startJob s).report, store := (startJob s).store } ∧
    (startJob s).store.eeprom = s.store.eeprom

/-- A TARIFF define that newly defines its class or changes its allowance (R130, R145): the viewed seconds of the events of its class are
held to it, and no event of another class is touched.
Under CONFIRM an event in PREVIEW that then stands at the allowance is SPENT.
Under AUTO, shown for a table of one event: its preview end makes a commit, and a refused one leaves it SPENT, held with the reason,
line 1 marked with attention (R143, R144). A job that waits begins at the end of the dispatch (log 25).
For every table and both modes: the events of the class are taken one at a time in the table's order, each by a class change on the
state the one before left (R130), and a class change is spelled on every state (R145). -/
def Obligations.AllowanceHoldsViewedSeconds : Prop :=
  (∀ (s : State) (id : Half), ((findEvent s id).bind fun e => tariffOf s e.tariffClass) = none → classChange id s = s) ∧
  (∀ (s : State) (id : Half) (e : EventRecord) (c : Tariff), findEvent s id = some e → tariffOf s e.tariffClass = some c →
    let held := { s with showings := { s.showings with events := s.showings.events.map fun x =>
      if x.id = id then { x with viewed := min e.viewed c.allowance } else x } }
    (¬ (e.preview = .preview ∧ c.allowance ≤ e.viewed) → classChange id s = held) ∧
    (e.preview = .preview → c.allowance ≤ e.viewed → EndsPreview id c.mode held (classChange id s))) ∧
  ∀ (s : State) (a : AddressType) (n : Half) (cls : Nat) (c : Tariff), a ≠ .room → TablesLaw s → ShowingLaw s →
    Handed s (.accepted a n (.tariffDefine cls c)) →
    ∃ t, let set := setTariff cls (some c) (clearHandOff s)
      exec .tariffDefine s = .next (startJob t) ∧ tariffOf t cls = some c ∧
      t = (if (tariffOf s cls).map Tariff.allowance = some c.allowance then set
        else ((s.showings.events.filter fun e => e.tariffClass == cls).map EventRecord.id).foldl (fun s id => classChange id s) set) ∧
      t.showings.events.map EventRecord.id = s.showings.events.map EventRecord.id ∧
      (c.mode = .confirm → (tariffOf s cls).map Tariff.allowance ≠ some c.allowance →
        ∀ e ∈ s.showings.events, ∃ e' ∈ t.showings.events, e'.id = e.id ∧
          (e.tariffClass ≠ cls → e' = e) ∧
          (e.tariffClass = cls → e' = { e with
            viewed := min e.viewed c.allowance
            preview := if e.preview = .preview ∧ c.allowance ≤ e.viewed then .spent else e.preview })) ∧
      (∀ e, c.mode = .auto → (tariffOf s cls).map Tariff.allowance ≠ some c.allowance → s.showings.events = [e] →
        e.tariffClass = cls → e.preview = .preview → c.allowance ≤ e.viewed →
        let held := setEvents [{ e with viewed := c.allowance }] (setTariff cls (some c) (clearHandOff s))
        let u := (commit e.id none held).1
        ((commit e.id none held).2 = none → t = u) ∧
        ∀ r, (commit e.id none held).2 = some r →
          t = { u with
            showings := { u.showings with events := [{ e with viewed := c.allowance, preview := .spent }] }
            account := { u.account with held := some { event := e.id, cause := .refused r } }
            report := t.report } ∧ Marks u t (fun _ => False) fun n => n = 1)

/-- The night index of a state, none while the clock is invalid (R73), and a TIME message (R71, R72, R73, R127). A night that
turns, from the index before and from the stay's own, marks line 1 without attention and raises the stay generation (R128); the clock's
becoming valid marks line 0 (R174). A job that waits begins at the end of the dispatch (log 25). -/
def Obligations.TimeSetsTheClock : Prop :=
  (∀ s : State, (s.time.clock = none → nightIndex s = none) ∧ ∀ c, s.time.clock = some c →
    nightIndex s = some (if s.settings.rolloverMinute ≤ c.minute then c.day else c.day - 1)) ∧
  ∀ (s : State) (a : AddressType) (n : Half) (c : WallClock), a ≠ .room → TablesLaw s → Handed s (.accepted a n (.time c)) →
    ∃ u, let night := if s.settings.rolloverMinute ≤ c.minute then c.day else c.day - 1
      let turns := nightIndex s ≠ some night ∧ s.account.stay.nightIndex ≠ some night
      exec .time s = .next (startJob u) ∧
      u = { s with
        decoder := { s.decoder with handOff := none }
        time := { s.time with clock := some c }
        account := { s.account with
          stay := if turns then { s.account.stay with nightIndex := some night, nightSpent := 0 } else s.account.stay
          generation := s.account.generation + (if turns then 1 else 0) }
        store := if turns then (raiseGeneration s).store else s.store
        report := u.report } ∧
      Marks s u (fun n => n = 0 ∧ s.time.clock = none ∨ n = 1 ∧ turns) fun _ => False

/-- A CHECKIN (R110, R123, R124): ignored and counted while the room is OCCUPIED under its number, else a new stay.
The acceptance comes first (R63), and a job that waits begins at the end of the dispatch (log 25). A new stay marks lines 1 and 2 with
attention, whether or not a field changes (log 22), and the lines of the purchases that leave. -/
def Obligations.CheckinStartsAStay : Prop :=
  ∀ (s : State) (n : Half) (b : CheckinBody), TablesLaw s → Handed s (.accepted .room n (.checkin b)) →
    ∃ u, let accepted := { s with
        decoder := { s.decoder with handOff := none, lastNumber := some n }
        account := { s.account with generation := s.account.generation + 1 }
        store := (raiseGeneration s).store }
      exec .checkin s = .next (startJob u) ∧
      (s.account.stay.state = .occupied → s.account.stay.number = b.number →
        u = { accepted with decoder := { accepted.decoder with ignored := bump s.decoder.ignored }, report := u.report } ∧
        Marks s u (fun n => n = 0 ∧ s.decoder.ignored ≠ 65535) fun _ => False) ∧
      (s.account.stay.state = .vacant ∨ s.account.stay.number ≠ b.number →
        u = { accepted with
          account := { accepted.account with
            stay := {
              state := .occupied
              number := b.number
              granted := min b.credit 999999
              remaining := min b.credit 999999
              spent := 0
              nightCeiling := min b.nightCeiling 999999
              nightSpent := 0
              nightIndex := nightIndex s }
            purchases := []
            held := none }
          lock := {
            roomCeiling := min b.roomCeiling 9
            defaultCeiling := min b.defaultCeiling (min b.roomCeiling 9)
            guestCeiling := min b.defaultCeiling (min b.roomCeiling 9)
            pin := b.pin
            unlock := none
            lockout := none
            wrongAttempts := 0
            lockouts := 0 }
          showings := { s.showings with
            events := s.showings.events.map fun e => { e with preview := .untouched, viewed := 0, cells := 0 } }
          report := u.report } ∧
        Marks s u (fun n => 5 ≤ n ∧ n < 21 ∧ s.account.purchases[n - 5]? ≠ none) fun n => n = 1 ∨ n = 2)

/-- A CHECKOUT (R111, R125): the stay it names ends, and any other is ignored and counted. The acceptance comes first (R63), and a job that
waits begins at the end of the dispatch (log 25). An end marks lines 1 and 2 with attention, whether or not a field changes (log 22), and the
lines of the purchases that leave. -/
def Obligations.CheckoutEndsTheStay : Prop :=
  ∀ (s : State) (n number : Half), TablesLaw s → Handed s (.accepted .room n (.checkout number)) →
    ∃ u, let accepted := { s with
        decoder := { s.decoder with handOff := none, lastNumber := some n }
        account := { s.account with generation := s.account.generation + 1 }
        store := (raiseGeneration s).store }
      exec .checkout s = .next (startJob u) ∧
      (s.account.stay.state = .occupied → s.account.stay.number = number →
        u = { accepted with
          account := { accepted.account with
            stay := Stay.mk .vacant 0 0 0 0 0 0 s.account.stay.nightIndex, purchases := [], held := none }
          lock := { s.lock with
            guestCeiling := s.lock.defaultCeiling
            pin := none
            unlock := none
            lockout := none
            wrongAttempts := 0
            lockouts := 0 }
          showings := { s.showings with
            events := s.showings.events.map fun e => { e with preview := .untouched, viewed := 0, cells := 0 } }
          report := u.report } ∧
        Marks s u (fun n => 5 ≤ n ∧ n < 21 ∧ s.account.purchases[n - 5]? ≠ none) fun n => n = 1 ∨ n = 2) ∧
      (s.account.stay.state = .vacant ∨ s.account.stay.number ≠ number →
        u = { accepted with decoder := { accepted.decoder with ignored := bump s.decoder.ignored }, report := u.report } ∧
        Marks s u (fun n => n = 0 ∧ s.decoder.ignored ≠ 65535) fun _ => False)

/-- A CREDIT (R126): ignored and counted while VACANT, else the clamped stay; a change marks line 1 with attention (R128). The acceptance
comes first (R63), and a job that waits begins at the end of the dispatch (log 25). -/
def Obligations.CreditAdjustsTheStay : Prop :=
  ∀ (s : State) (n : Half) (delta : Int) (ceiling : Option Nat), TablesLaw s →
    Handed s (.accepted .room n (.credit delta ceiling)) →
    ∃ u, let accepted := { s with
        decoder := { s.decoder with handOff := none, lastNumber := some n }
        account := { s.account with generation := s.account.generation + 1 }
        store := (raiseGeneration s).store }
      exec .credit s = .next (startJob u) ∧
      (s.account.stay.state = .vacant →
        u = { accepted with decoder := { accepted.decoder with ignored := bump s.decoder.ignored }, report := u.report } ∧
        Marks s u (fun n => n = 0 ∧ s.decoder.ignored ≠ 65535) fun _ => False) ∧
      (s.account.stay.state = .occupied →
        let sum := max 0 ((s.account.stay.remaining : Int) + delta)
        let remaining := min (min sum 999999) (16777215 - s.account.stay.spent : Nat)
        (u.account.stay.remaining : Int) = remaining ∧ (u.account.stay.granted : Int) = remaining + s.account.stay.spent ∧
        u = { accepted with
          account := { accepted.account with
            stay := { s.account.stay with
              remaining := u.account.stay.remaining
              granted := u.account.stay.granted
              nightCeiling := match ceiling with
                | none => s.account.stay.nightCeiling
                | some v => if v = 0 then 0 else max (min v 999999) s.account.stay.nightSpent } }
          report := u.report } ∧
        Marks s u (fun _ => False) fun n => n = 1 ∧ u.account.stay ≠ s.account.stay)

/-- An ACK (R163): the four cases.
One that removes records marks their lines and requests a MARK job (R164, R165, R181): it coalesces into one waiting, else joins the end of
the queue, or is held over in a full one; in FAULT and ABSENT it finds no queue. One that removes none requests none.
The acceptance comes first (R63), and a job that waits begins at the end of the dispatch (log 25). -/
def Obligations.AckRemovesRecords : Prop :=
  (∀ s : State,
    let asked := (s.store.state = .ready ∨ s.store.state = .busy) ∧ Job.mark ∉ s.store.queue
    requestMark s = { s with store := { s.store with
      queue := if asked ∧ s.store.queue.length < 8 then s.store.queue ++ [.mark] else s.store.queue
      heldOver := if asked ∧ 8 ≤ s.store.queue.length ∧ HeldJob.mark ∉ s.store.heldOver then s.store.heldOver ++ [.mark]
        else s.store.heldOver } }) ∧
  ∀ (s : State) (n : Half) (a : Nat), JournalLaw s → TablesLaw s → Handed s (.accepted .room n (.ack a)) →
    ∃ t u, let accepted := { s with
        decoder := { s.decoder with handOff := none, lastNumber := some n }
        account := { s.account with generation := s.account.generation + 1 }
        store := (raiseGeneration s).store }
      exec .ack s = .next t ∧ t = startJob u ∧
      (a ≤ s.journal.mark ∨ s.journal.records = [] →
        u = { accepted with decoder := { accepted.decoder with ignored := bump s.decoder.ignored }, report := u.report } ∧
        Marks s u (fun n => n = 0 ∧ s.decoder.ignored ≠ 65535) fun _ => False) ∧
      (s.journal.mark < a → s.journal.records ≠ [] →
        u = { accepted with
          journal := { s.journal with
            records := s.journal.records.filter fun r => decide (a < r.sequence), mark := min a (s.journal.next - 1) }
          store := (requestMark accepted).store
          report := u.report } ∧
        Marks s u (fun k => ∃ r ∈ s.journal.records, r.sequence ≤ a ∧ 21 + r.sequence % 32 = k) fun _ => False) ∧
      t.memory = s.memory ∧ t.lock = s.lock ∧ t.showings = s.showings ∧
      t.account = { s.account with generation := t.account.generation } ∧ t.journal.next = s.journal.next ∧
      (a ≤ s.journal.mark ∨ s.journal.records = [] →
        t.journal = s.journal ∧ t.decoder.ignored = bump s.decoder.ignored) ∧
      (s.journal.mark < a → a < s.journal.next → s.journal.records ≠ [] → t.journal.mark = a ∧
        t.journal.records = s.journal.records.drop (a - s.journal.mark) ∧ t.decoder.ignored = s.decoder.ignored) ∧
      (s.journal.next ≤ a → s.journal.records ≠ [] → t.journal.mark = s.journal.next - 1 ∧ t.journal.records = [] ∧
        t.decoder.ignored = s.decoder.ignored)

/-- A CEILING (R112): the room ceiling becomes the level, both guest ceilings fall to it where they lie above; a GROUP one that
changes a field raises the stay generation. A change marks line 2 without attention (R109), and a job that waits begins at the end of the
dispatch (log 25). -/
def Obligations.CeilingSetsTheRoom : Prop :=
  ∀ (s : State) (a : AddressType) (n : Half) (level : Nat), TablesLaw s → Handed s (.accepted a n (.ceiling level)) →
    ∃ u, let room := min level 9
      let lock := { s.lock with
        roomCeiling := room
        defaultCeiling := min s.lock.defaultCeiling room
        guestCeiling := min s.lock.guestCeiling room }
      let raises := a = .room ∨ lock ≠ s.lock
      exec .ceiling s = .next (startJob u) ∧
      u = { s with
        decoder := { s.decoder with
          handOff := none, lastNumber := if a = .room then some n else s.decoder.lastNumber }
        lock := lock
        account := { s.account with generation := s.account.generation + (if raises then 1 else 0) }
        store := if raises then (raiseGeneration s).store else s.store
        report := u.report } ∧
      Marks s u (fun n => n = 2 ∧ lock ≠ s.lock) fun _ => False

/-- A MAINT (R67, R68), to the GROUP or to the ROOM, whose acceptance comes first (R63): a maintenance reset unless its tag is the last
one. A job that waits begins at the end of the dispatch (log 25). -/
def Obligations.MaintenanceReset : Prop :=
  ∀ (s : State) (a : AddressType) (n tag : Half), Handed s (.accepted a n (.maint tag)) →
    let x := if a = .room then acceptRoom n (clearHandOff s) else clearHandOff s
    (a = .room → x = { s with
        decoder := { s.decoder with handOff := none, lastNumber := some n }
        account := { s.account with generation := s.account.generation + 1 }
        store := (raiseGeneration s).store }) ∧
    (s.decoder.lastMaintenanceTag = some tag → exec .maint s = .next (startJob x)) ∧
    (s.decoder.lastMaintenanceTag ≠ some tag → ∃ t, exec .maint s = .next (startJob t) ∧ AllLinesAdded s t ∧
      t = { x with
        intake := { s.intake with tags := [] }
        decoder := { x.decoder with lastMaintenanceTag := some tag }
        keys := { pool := [] }
        showings := { services := [], events := [] }
        lock := { s.lock with unlock := none, lockout := none, wrongAttempts := 0, lockouts := 0 }
        account := { x.account with tariffs := [], pricing := none, freeView := .off }
        report := t.report })

/-! ### The memory port -/

/-- The arbiter's grant of a free port, no message waiting for the Decoder (R13, R15, R16); the start of a refresh period renews the
tokens.
A read returns its words in the step of its grant: plain, or of report line 0 with ATTN deasserted (R9, R17), or of a cell
(HeaderReadEvaluates, LatchedPayloadReads).
A result becomes a one-word write to word 1 of its slot, with byte enables on the result and reason bytes alone; a line becomes a burst
of its whole granule, composed now (ReportLinesAreWhole).
After the grant, the transactions that wait upstream are presented again in their order, each as its row presents it (log 5); while
another is still in progress they go on waiting. -/
def Obligations.ArbiterGrants : Prop :=
  (∀ s : State, headWaiting s = true ↔ s.path.mode = .run ∧ (s.path.results ≠ [] ∨ ∃ n, n < 53 ∧ lineMark s n ≠ none)) ∧
  (∀ (r : BusRead) (s : State),
    let words : Returned := { address := r.address, data := readBytes s r.address.toNat (4 * r.words) }
    returnRead r .plain s = { s with path := { s.path with returned := s.path.returned ++ [words] } } ∧
    ∀ n, returnRead r (.line n) s = { s with path := { s.path with
      returned := s.path.returned ++ [words], attn := if n = 0 then false else s.path.attn } }) ∧
  (∀ s : State, s.decoder.handOff = none → exec .refreshPeriodStart s = .next { s with path := { s.path with
    tokens := if s.path.periodRunning = true ∧ s.path.mode = .run then s.path.tokensPerPeriod else s.path.tokens } }) ∧
  (∀ s : State, presentWaiting s = s.path.waiting.foldl (fun s x => present x s) { s with path := { s.path with waiting := [] } }) ∧
  (∀ (i : Instr) (x : Transaction) (s : State), i.transaction = some x → x.wellFormed = true → s.decoder.handOff = none →
    exec i s = .next (present x s)) ∧
  (∀ s : State, s.path.passing ≠ none ∨ s.path.waiting = [] → presentWaiting s = s) ∧
  ∀ s : State, s.decoder.handOff = none → TablesLaw s → ∃ t, exec .portGrant s = .next (presentWaiting t) ∧
    t.path.waiting = s.path.waiting ∧
    (s.path.port ≠ .free → t = s) ∧
    (s.path.port = .free → headWaiting s = false → s.path.passing = none → t = s) ∧
    (∀ w k, s.path.port = .free → s.path.passing = some (.write w k) → (headWaiting s = false ∨ s.path.tokens = 0) →
      t = { s with path := { s.path with port := .passing } }) ∧
    (∀ r x, s.path.port = .free → s.path.passing = some (.read r x) → (headWaiting s = false ∨ s.path.tokens = 0) →
      t = returnRead r x { s with path := { s.path with passing := none } }) ∧
    (∀ e rest, s.path.port = .free → s.path.mode = .run → s.path.results = e :: rest →
      (s.path.passing = none ∨ 0 < s.path.tokens) →
      t = { s with path := { s.path with
        port := .inserted { source := .result e.slot, attention := e.attention, write := {
          address := BitVec.ofNat 26 ((s.path.windows.map WindowTable.requestBase).getD 0 + 32 * e.slot + 4)
          lanes := [{ data := resultCode e.answer.result, enabled := true }, { data := e.answer.reasonByte, enabled := true },
            { data := 0, enabled := false }, { data := 0, enabled := false }] } }
        results := rest
        tokens := if s.path.passing = none then s.path.tokens else s.path.tokens - 1 } }) ∧
    ∀ n m, s.path.port = .free → s.path.mode = .run → s.path.results = [] → n < lineCount → lineMark s n = some m →
      (∀ j, j < n → lineMark s j = none) → (s.path.passing = none ∨ 0 < s.path.tokens) →
      t = { s with
        path := { s.path with
          port := .inserted { source := .line n, attention := m, write := {
            address := BitVec.ofNat 26 ((s.path.windows.map WindowTable.reportBase).getD 0 + 32 * n)
            lanes := (composeLine s n).map fun b => { data := b, enabled := true } } }
          tokens := if s.path.passing = none then s.path.tokens else s.path.tokens - 1 }
        report := t.report } ∧
      lineMark t n = none ∧ ∀ j, j ≠ n → lineMark t j = lineMark s j

/-- The report lines (R165, R174, R175, R191; 13, section 13.4): 32 bytes each, every field in its place and reserved bytes 0.
That a number wider than its field is taken modulo the field's width is the model's choice (log 32; the unbounded counts: log 18).
An absent field is 0, and an empty summary, purchase or journal line is zeros. -/
def Obligations.ReportLinesAreWhole : Prop :=
  ∀ s : State, (∀ n, (composeLine s n).length = 32) ∧
    Shows (composeLine s 0) [
      (0, 1, match s.path.mode with
        | .load => 0
        | .run => 1
        | .pass => 2),
      (1, 1, match s.store.state with
        | .absent => 0
        | .ready => 1
        | .busy => 2
        | .fault => 3),
      (2, 1, yes s.time.clock.isSome),
      (3, 1, match s.account.freeView with
        | .off => 0
        | .on none => 1
        | .on (some _) => 2),
      (4, 2, match s.account.freeView with
        | .on (some m) => m.day.toNat
        | _ => 0),
      (6, 2, match s.account.freeView with
        | .on (some m) => m.minute
        | _ => 0),
      (8, 4, s.time.seconds), (12, 2, s.path.dropped.toNat), (14, 2, s.intake.headerErrors.toNat),
      (16, 2, s.intake.abandoned.toNat), (18, 2, s.decoder.tagFailures.toNat), (20, 2, s.decoder.ignored.toNat),
      (22, 2, s.presentation.noKey.toNat), (24, 8, 0)] ∧
    (let y := s.account.stay
     Shows (composeLine s 1) [
      (0, 1, yes (y.state == .occupied)),
      (1, 1, match s.account.held with
        | none => 0
        | some { event := _, cause := .confirm } => 16
        | some { event := _, cause := .refused r } => (reasonCode r).toNat),
      (2, 2, y.number.toNat), (4, 4, y.granted), (8, 4, y.remaining), (12, 4, y.spent), (16, 4, y.nightCeiling),
      (20, 4, y.nightSpent), (24, 2, (y.nightIndex.map BitVec.toNat).getD 0), (26, 1, yes y.nightIndex.isSome), (27, 1, 0),
      (28, 2, (s.account.held.map fun x => x.event.toNat).getD 0), (30, 2, 0)]) ∧
    Shows (composeLine s 2) [
      (0, 1, s.lock.roomCeiling), (1, 1, s.lock.defaultCeiling), (2, 1, s.lock.guestCeiling), (3, 1, effectiveCeiling s.lock),
      (4, 1, yes s.lock.pin.isSome), (5, 1, s.lock.wrongAttempts), (6, 1, s.lock.lockouts), (7, 1, 0),
      (8, 1, yes s.lock.unlock.isSome), (9, 1, 0), (10, 2, (s.lock.unlock.map Period.minutes).getD 0),
      (12, 4, (s.lock.unlock.map Period.finish).getD 0),
      (16, 1, yes s.lock.lockout.isSome), (17, 1, 0), (18, 2, (s.lock.lockout.map Period.minutes).getD 0),
      (20, 4, (s.lock.lockout.map Period.finish).getD 0), (24, 8, 0)] ∧
    (∀ r : Ring, let l := composeLine s (if r = .ring0 then 3 else 4)
      (s.presentation.summary.get r = none → l = List.replicate 32 0) ∧
      ∀ x, s.presentation.summary.get r = some x → x.verdict ≠ .raw → Shows l [
        (0, 1, 1),
        (1, 1, match x.verdict with
          | .raw => 0
          | .clear => 1
          | .opened _ => 2
          | .voided _ => 3),
        (2, 1, match x.verdict with
          | .opened .free => 1
          | .opened .paid => 2
          | .opened .freeView => 3
          | .opened .preview => 4
          | .voided .lock => 1
          | .voided .noKey => 2
          | .voided .hold => 3
          | _ => 0),
        (3, 1, yes x.listed), (4, 2, x.service.toNat), (6, 2, x.event.toNat),
        (8, 2, (x.metering.map ShownMetering.viewed).getD 0), (10, 2, (x.metering.map ShownMetering.allowance).getD 0),
        (12, 1, yes x.metering.isSome), (13, 19, 0)]) ∧
    (∀ n, n < 16 → let l := composeLine s (5 + n)
      (s.account.purchases[n]? = none → l = List.replicate 32 0) ∧
      ∀ p, s.account.purchases[n]? = some p → Shows l [
        (0, 1, 1), (1, 1, p.rating), (2, 2, p.event.toNat), (4, 2, p.service.toNat), (6, 1, yes p.sequence.isSome), (7, 1, 0),
        (8, 4, p.title.toNat), (12, 4, p.amount), (16, 4, p.rentalEnd), (20, 4, p.sequence.getD 0), (24, 8, 0)]) ∧
    ∀ n, n < 32 → let l := composeLine s (21 + n)
      ((∀ r ∈ s.journal.records, r.sequence % 32 ≠ n) → l = List.replicate 32 0) ∧
      ∀ r ∈ s.journal.records, r.sequence % 32 = n → (∀ q ∈ s.journal.records, q.sequence % 32 = n → q = r) → Shows l [
        (0, 1, 1), (1, 1, yes r.stored), (2, 1, r.tariffClass), (3, 1, yes r.clock.isSome), (4, 4, r.sequence),
        (8, 2, r.stay.toNat), (10, 2, r.event.toNat), (12, 4, r.title.toNat), (16, 4, r.amount), (20, 2, r.base),
        (22, 1, r.percent), (23, 1, r.tax), (24, 2, (r.clock.map fun m => m.day.toNat).getD 0),
        (26, 2, (r.clock.map Moment.minute).getD 0), (28, 4, 0)]

/-- An inserted write completes (R14, R17, R168): memory takes its enabled lanes, the port comes free, ATTN rises if it carries the
mark, and a result write returns its slot's pending mark to no unless a result of the slot is still to come (log 20): a pending buy, a
held result or a result in the insertion queue. -/
def Obligations.InsertedWriteCompletes : Prop :=
  (∀ (s : State) (k : Nat), resultToCome s k = true ↔ (∃ e ∈ s.account.pendingBuys, e.slot = k) ∨ heldResult s k ≠ none ∨
    ∃ e ∈ s.path.results, e.slot = k) ∧
  ∀ (s : State) (i : Inserted), s.decoder.handOff = none → s.path.port = .inserted i → TablesLaw s →
    ∃ t, exec .insertedWriteComplete s = .next t ∧
      t = { s with
        path := { s.path with port := .free, attn := i.attention || s.path.attn }
        requests := { s.requests with pendingMarks := t.requests.pendingMarks }
        memory := (writeMemory i.write s).memory } ∧
      (∀ n, i.source = .line n → t.requests = s.requests) ∧
      (∀ k, i.source = .result k → (∀ j, j ≠ k → slotPending t j = slotPending s j) ∧
        slotPending t k = (slotPending s k && resultToCome s k))

/-- A passing write completes (R1, R171): memory takes its enabled lanes, the port and the upstream come free, and a result held for
its slot is appended; then what waits upstream is presented (presentWaiting, spelled in ArbiterGrants; log 5). -/
def Obligations.PassingWriteCompletes : Prop :=
  ∀ (s : State) (w : BusWrite) (slot : Option Nat), s.decoder.handOff = none → s.path.port = .passing →
    s.path.passing = some (.write w slot) → TablesLaw s →
    ∃ t, exec .passingWriteComplete s = .next (presentWaiting t) ∧ (s.path.waiting = [] → presentWaiting t = t) ∧
      t = { s with
        path := { s.path with port := .free, passing := none, results := t.path.results }
        requests := { s.requests with heldResults := t.requests.heldResults }
        memory := (writeMemory w s).memory } ∧
      (slot = none → t.path.results = s.path.results ∧ t.requests = s.requests) ∧
      ∀ k, slot = some k →
        (heldResult s k = none → t.path.results = s.path.results ∧ t.requests = s.requests) ∧
        ∀ a, heldResult s k = some a →
          t.path.results = s.path.results ++ [{ slot := k, answer := a, attention := true }] ∧ heldResult t k = none ∧
          ∀ j, j ≠ k → heldResult t j = heldResult s j

/-- A write reaching memory changes exactly the bytes of its enabled lanes (R1).
Memory changes only where a write completes on the port, or power-on cuts one short; the serial store only where a page write
completes, overruns or is cut short (R1, R8, R177, R178, R189). -/
def Obligations.MemoryFrame : Prop :=
  (∀ (w : BusWrite) (s : State), MemoryLaw s → w.wellFormed = true →
    (∀ n l, w.lanes[n]? = some l → readByte (writeMemory w s) (w.address.toNat + n) =
      if l.enabled then l.data else readByte s (w.address.toNat + n)) ∧
    ∀ a, (∀ n, n < w.lanes.length → a % s.memorySize.bytes ≠ (w.address.toNat + n) % s.memorySize.bytes) →
      readByte (writeMemory w s) a = readByte s a) ∧
  ∀ (i : Instr) (s t : State), exec i s = .next t →
    (i ≠ .insertedWriteComplete → i ≠ .passingWriteComplete → (∀ a b, i ≠ .powerOn a b) →
      ∀ a, readByte t a = readByte s a) ∧
    (i ≠ .pageWriteComplete → i ≠ .storeJobComplete → i ≠ .storeFault → (∀ a b, i ≠ .powerOn a b) →
      ∀ a, storeByte t a = storeByte s a)

/-! ### Time -/

/-- An advance of the seconds count (R69, R70, R71, R73, R127). An index that stays, or that becomes the stay's own, changes nothing more;
any other starts a night, marks line 1 without attention and raises the stay generation (R128), whose STAY job may begin at the end of the
event (log 25). -/
def Obligations.SecondsAdvance : Prop :=
  ∀ s : State, s.decoder.handOff = none → ∃ t, exec .secondsAdvance s = .next t ∧
    t.time.seconds = s.time.seconds + 1 ∧
    (s.time.clock = none → t.time.clock = none) ∧
    (∀ c, s.time.clock = some c → t.time.clock = some (
      if c.second < 59 then { c with second := c.second + 1 }
      else if c.minute < 1439 then { c with second := 0, minute := c.minute + 1 }
      else { day := c.day + 1, minute := 0, second := 0 })) ∧
    (let n := if s.path.mode = .run then 1 else 0
     let m := if s.path.mode = .run ∧ t.time.seconds % 60 = 0 then 1 else 0
     t.time.secondDue = s.time.secondDue + n ∧ t.time.accountMinuteDue = s.time.accountMinuteDue + m ∧
      t.time.keyMinuteDue = s.time.keyMinuteDue + m ∧ t.time.showingMinuteDue = s.time.showingMinuteDue + m ∧
      t.time.lockMinuteDue = s.time.lockMinuteDue + m) ∧
    (nightIndex t = nightIndex s ∨ nightIndex t = s.account.stay.nightIndex → t = { s with time := t.time }) ∧
    (nightIndex t ≠ nightIndex s → nightIndex t ≠ s.account.stay.nightIndex → ∃ u, t = startJob u ∧
      u = { s with
        time := t.time
        account := { s.account with
          stay := { s.account.stay with nightIndex := nightIndex t, nightSpent := 0 }
          generation := s.account.generation + 1 }
        store := (raiseGeneration s).store
        report := u.report } ∧
      (TablesLaw s → Marks s u (fun n => n = 1) fun _ => False))

/-- The Account Unit's second timer (R141): each counted event gains one viewed second, and every count returns to 0. An event counts
where free-view is off, it is in PREVIEW, its class is defined and its cells are at or above the threshold.
Where one reaches its allowance the preview ends at once (R143, R144), shown for the one listed event of a table.
Under CONFIRM: SPENT, held, line 1 with attention. Under AUTO: a commit, and a refused one leaves it SPENT and held with the reason.
For every table: the events are taken one at a time in the table's order, each on the state the one before left, and what is done for
one is spelled on every state. -/
def Obligations.SecondTimerMeters : Prop :=
  (∀ (s : State) (e : EventRecord), countsSecond s e = true ↔
    s.account.freeView = .off ∧ e.preview = .preview ∧ (∃ c, tariffOf s e.tariffClass = some c) ∧
      s.settings.presenceThreshold ≤ e.cells.toNat) ∧
  (∀ s : State, s.decoder.handOff = none → s.path.mode = .run → 0 < s.time.secondDue → ShowingLaw s →
    (∀ e ∈ s.showings.events, countsSecond s e = true →
      (tariffOf s e.tariffClass).map Tariff.allowance ≠ some (e.viewed + 1)) →
    exec .accountSecondTimer s = .next { s with
      time := { s.time with secondDue := s.time.secondDue - 1 }
      showings := { s.showings with events := s.showings.events.map fun e =>
        { e with viewed := if countsSecond s e then e.viewed + 1 else e.viewed, cells := 0 } } }) ∧
  (∀ s : State, s.decoder.handOff = none → s.path.mode = .run → 0 < s.time.secondDue →
    exec .accountSecondTimer s = .next ((s.showings.events.map EventRecord.id).foldl (fun s id => meterEvent id s)
      { s with time := { s.time with secondDue := s.time.secondDue - 1 } })) ∧
  (∀ (s : State) (id : Half), findEvent s id = none → meterEvent id s = s) ∧
  (∀ (s : State) (id : Half) (e : EventRecord), findEvent s id = some e →
    let change := fun (f : EventRecord → EventRecord) (s : State) => { s with showings := { s.showings with
      events := s.showings.events.map fun x => if x.id = id then f x else x } }
    let counted := change (fun x => { x with viewed := x.viewed + 1 }) s
    (countsSecond s e = false → meterEvent id s = change (fun x => { x with cells := 0 }) s) ∧
    (countsSecond s e = true → (tariffOf s e.tariffClass).map Tariff.allowance ≠ some (e.viewed + 1) →
      meterEvent id s = change (fun x => { x with viewed := x.viewed + 1, cells := 0 }) s) ∧
    ∀ c, countsSecond s e = true → tariffOf s e.tariffClass = some c → c.allowance = e.viewed + 1 →
      ∃ t, EndsPreview id c.mode counted t ∧ meterEvent id s = change (fun x => { x with cells := 0 }) t) ∧
  ∀ (s : State) (e : EventRecord) (c : Tariff), s.decoder.handOff = none → s.path.mode = .run → 0 < s.time.secondDue →
    TablesLaw s → s.showings.events = [e] → countsSecond s e = true → tariffOf s e.tariffClass = some c →
    c.allowance = e.viewed + 1 →
    let timed := { s.time with secondDue := s.time.secondDue - 1 }
    (c.mode = .confirm → ∃ t, exec .accountSecondTimer s = .next t ∧
      t = { s with
        time := timed
        showings := { s.showings with events := [{ e with preview := .spent, viewed := c.allowance, cells := 0 }] }
        account := { s.account with held := some { event := e.id, cause := .confirm } }
        report := t.report } ∧
      Marks s t (fun _ => False) fun n => n = 1) ∧
    (c.mode = .auto →
      let met := { s with time := timed, showings := { s.showings with events := [{ e with viewed := c.allowance }] } }
      let u := (commit e.id none met).1
      ((commit e.id none met).2 = none → exec .accountSecondTimer s = .next { u with
        showings := { u.showings with events := [{ e with preview := .paid, viewed := c.allowance, cells := 0 }] } }) ∧
      ∀ r, (commit e.id none met).2 = some r → ∃ t, exec .accountSecondTimer s = .next t ∧
        t = { u with
          showings := { u.showings with events := [{ e with preview := .spent, viewed := c.allowance, cells := 0 }] }
          account := { u.account with held := some { event := e.id, cause := .refused r } }
          report := t.report } ∧
        Marks u t (fun _ => False) fun n => n = 1)

/-- The minute timers of the Account Unit, the Key Table, the Showing Tables and the Lock Unit (R50, R84, R117, R147, R151).
A purchase that leaves marks each line of the list whose content changes (R146), the end of free-view line 0 (R151), without attention;
the end of an unlock period marks line 2 with attention, that of a lockout without (R117). -/
def Obligations.MinuteTimers : Prop :=
  ∀ s : State, s.decoder.handOff = none → s.path.mode = .run → TablesLaw s →
    (0 < s.time.accountMinuteDue → ∃ t, exec .accountMinuteTimer s = .next t ∧
      t = { s with
        time := { s.time with accountMinuteDue := s.time.accountMinuteDue - 1 }
        showings := { s.showings with
          events := s.showings.events.map fun e =>
            if s.account.purchases.any (fun p => p.event == e.id && decide (p.rentalEnd ≤ s.time.seconds))
            then { e with preview := .spent } else e }
        account := { s.account with
          purchases := s.account.purchases.filter fun p => decide (s.time.seconds < p.rentalEnd)
          freeView := t.account.freeView }
        report := t.report } ∧
      (∀ m c, s.account.freeView = .on (some m) → s.time.clock = some c →
        t.account.freeView =
          if m.day.toNat * 1440 + m.minute ≤ c.day.toNat * 1440 + c.minute then .off else s.account.freeView) ∧
      Marks s t (fun n => n = 0 ∧ t.account.freeView ≠ s.account.freeView ∨
        5 ≤ n ∧ n < 21 ∧ t.account.purchases[n - 5]? ≠ s.account.purchases[n - 5]?) (fun _ => False) ∧
      (s.time.clock = none ∨ s.account.freeView = .off ∨ s.account.freeView = .on none →
        t.account.freeView = s.account.freeView)) ∧
    (0 < s.time.keyMinuteDue → exec .keyMinuteTimer s = .next { s with
      time := { s.time with keyMinuteDue := s.time.keyMinuteDue - 1 }
      keys := {
        pool := s.keys.pool.filter fun e => decide (s.time.seconds - e.arrival ≤ 60 * s.settings.shiftHorizon) } }) ∧
    (0 < s.time.showingMinuteDue → exec .showingMinuteTimer s = .next { s with
      time := { s.time with showingMinuteDue := s.time.showingMinuteDue - 1 }
      showings := { s.showings with
        events := match s.time.clock with
          | none => s.showings.events
          | some c => s.showings.events.filter fun e =>
            !decide (e.finish.day.toNat * 1440 + e.finish.minute + s.settings.retention < c.day.toNat * 1440 + c.minute) } }) ∧
    (0 < s.time.lockMinuteDue → ∃ t, exec .lockMinuteTimer s = .next t ∧
      t = { s with
        time := { s.time with lockMinuteDue := s.time.lockMinuteDue - 1 }
        lock := { s.lock with
          unlock := s.lock.unlock.filter fun p => decide (s.time.seconds < p.finish)
          lockout := s.lock.lockout.filter fun p => decide (s.time.seconds < p.finish) }
        report := t.report } ∧
      Marks s t (fun n => n = 2 ∧ t.lock ≠ s.lock) fun n => n = 2 ∧ t.lock.unlock ≠ s.lock.unlock)

/-! ### The serial store -/

/-- What a job writes (R179, R182, R190, R191; 13, section 13.5) and when it begins, and the completion of a page write (R177).
Every page is 32 bytes that sum to A55Ah. That a number wider than its field is taken modulo the field's width is the model's choice
(log 32; sequence numbers, the mark and rental ends: log 18). A STAY job raises the stay page number and writes it into pages 10 to 17, two purchases each,
and then page 9; a JOURNAL job writes its record's slot, a MARK job page 8.
A job begins in RUN with none in flight and the store READY or BUSY: the oldest leaves the queue, and the request first held over takes
the place it frees (R181); a change of the store state marks line 0 without attention (R180). A completed page is stored, and the job's next page write begins. -/
def Obligations.PageWriteCompletes : Prop :=
  (∀ s : State, let n := s.store.pageNumber + 1
    ∃ (pages : Nat → PageWrite) (header : PageWrite), launchJob .stay s = { s with store := { s.store with
        pageNumber := n
        inFlight := some { report := .stay s.account.generation, current := pages 0, later := [pages 1, pages 2, pages 3, pages 4,
          pages 5, pages 6, pages 7, header] } } } ∧
      (∀ k, k < 8 → (pages k).page = 10 + k ∧ (pages k).bytes.length = 32 ∧ wordSum (pages k).bytes = 0xA55A ∧
        field (pages k).bytes 0 2 = n.toNat ∧
        ∀ i, i < 2 → let at' := 2 + 14 * i
          (s.account.purchases[2 * k + i]? = none → Shows (pages k).bytes [(at', 14, 0)]) ∧
          ∀ p, s.account.purchases[2 * k + i]? = some p → Shows (pages k).bytes [
            (at', 2, p.event.toNat), (at' + 2, 2, p.rating * 4096 + p.service.toNat), (at' + 4, 3, p.amount),
            (at' + 7, 3, p.rentalEnd - s.time.seconds), (at' + 10, 4, p.sequence.getD 0)]) ∧
      header.page = 9 ∧ header.bytes.length = 32 ∧ wordSum header.bytes = 0xA55A ∧
      let y := s.account.stay
      Shows header.bytes [
        (0, 1, yes (y.state == .occupied)),
        (1, 1, yes s.decoder.lastNumber.isSome + 2 * yes y.nightIndex.isSome + 4 * yes s.lock.pin.isSome),
        (2, 2, n.toNat), (4, 2, y.number.toNat), (6, 2, (s.decoder.lastNumber.map BitVec.toNat).getD 0), (8, 3, y.granted),
        (11, 3, y.remaining), (14, 3, y.spent), (17, 3, y.nightCeiling), (20, 3, y.nightSpent),
        (23, 2, (y.nightIndex.map BitVec.toNat).getD 0), (25, 1, s.lock.roomCeiling), (26, 1, s.lock.defaultCeiling),
        (27, 1, s.lock.guestCeiling),
        (28, 2, (s.lock.pin.map fun x => ((x.first * 16 + x.second) * 16 + x.third) * 16 + x.fourth).getD 0)]) ∧
  (∀ (s : State) (r : ChargeRecord), ∃ p, launchJob (.journal r) s = { s with store := { s.store with
        inFlight := some { report := .journal r.sequence, current := p, later := [] } } } ∧
      p.page = 18 + r.sequence % 64 ∧ p.bytes.length = 32 ∧ wordSum p.bytes = 0xA55A ∧ Shows p.bytes [
        (0, 4, r.sequence), (4, 2, r.stay.toNat), (6, 2, r.event.toNat), (8, 4, r.title.toNat), (12, 4, r.amount), (16, 2, r.base),
        (18, 1, r.percent), (19, 1, r.tax), (20, 1, r.tariffClass), (21, 1, yes r.clock.isSome),
        (22, 2, (r.clock.map fun m => m.day.toNat).getD 0), (24, 2, (r.clock.map Moment.minute).getD 0), (26, 4, 0)]) ∧
  (∀ s : State, ∃ p, launchJob .mark s = { s with store := { s.store with
        inFlight := some { report := .mark, current := p, later := [] } } } ∧
      p.page = 8 ∧ p.bytes.length = 32 ∧ wordSum p.bytes = 0xA55A ∧ Shows p.bytes [(0, 4, s.journal.mark), (4, 26, 0)]) ∧
  (∀ s : State,
    (∀ j rest, s.path.mode = .run → s.store.inFlight = none → (s.store.state = .ready ∨ s.store.state = .busy) →
      s.store.queue = j :: rest → startJob s = { s with
        report := (startJob s).report
        store := { (launchJob j s).store with
          state := .busy
          queue := rest ++ (s.store.heldOver.take 1).map HeldJob.job
          heldOver := s.store.heldOver.drop 1 } }) ∧
    (s.path.mode ≠ .run ∨ s.store.inFlight ≠ none ∨ s.store.state = .fault ∨ s.store.state = .absent ∨ s.store.queue = [] →
      startJob s = s) ∧
    (TablesLaw s → Marks s (startJob s) (fun n => n = 0 ∧ (startJob s).store.state ≠ s.store.state) fun _ => False)) ∧
  ∀ (s : State) (f : InFlight), s.decoder.handOff = none → s.store.inFlight = some f → MemoryLaw s →
    f.current.bytes.length = 32 →
    ∃ t, exec .pageWriteComplete s = .next t ∧ t.memory = s.memory ∧
      (∀ a, storeByte t a = if a / 32 = f.current.page then byteAt f.current.bytes (a % 32) else storeByte s a) ∧
      ∀ p rest, f.later = p :: rest →
        t = { s with store := { s.store with
          eeprom := t.store.eeprom, inFlight := some { f with current := p, later := rest } } }

/-- A job's last page write completes (R153, R162, R171, R180, R183): the report reaches its owners, and the next waiting job begins or
the state returns to READY.
Each pending-buy entry whose two marks are then both yes leaves in the order of the list with a DONE result: appended to the insertion
queue, or held while the write that carried its BUY is in progress.
A stored record marks its line (R162) and a change of the store state line 0 (R180), without attention.
On a job's last page PAGE_WRITE_COMPLETE is this same event (log 29). -/
def Obligations.StoreJobCompletes : Prop :=
  ∀ (s : State) (f : InFlight), s.decoder.handOff = none → s.store.inFlight = some f → f.later = [] → s.store.state = .busy →
    QueueLaw s → TablesLaw s →
    (∀ k, carrierInProgress s k = true ↔ ∃ w, s.path.passing = some (.write w (some k))) ∧
    ∃ t, let whole := fun e : PendingBuy => e.journalMark && e.stayMark
      let settles := fun l : List PendingBuy =>
        t.account.pendingBuys = (l.filter fun e => !whole e) ∧
        t.path = { s.path with
          results := s.path.results ++ ((l.filter whole).filter fun e => !carrierInProgress s e.slot).map fun e =>
            { slot := e.slot, answer := { result := .done, reason := none }, attention := true } } ∧
        t.requests = { s.requests with heldResults := t.requests.heldResults } ∧
        ∀ k, heldResult t k = if carrierInProgress s k && (l.filter whole).any (fun e => e.slot == k) then
          some { result := .done, reason := none } else heldResult s k
      exec .storeJobComplete s = .next t ∧ exec .pageWriteComplete s = .next t ∧
      t = { s with
        path := t.path
        account := { s.account with pendingBuys := t.account.pendingBuys }
        journal := { s.journal with records := t.journal.records }
        requests := t.requests, report := t.report, store := t.store } ∧
      Marks s t (fun n => n = 0 ∧ t.store.state ≠ s.store.state ∨
        ∃ r ∈ s.journal.records, f.report = .journal r.sequence ∧ n = 21 + r.sequence % 32) (fun _ => False) ∧
      (s.store.queue = [] → t.store = { s.store with inFlight := none, state := .ready, eeprom := t.store.eeprom }) ∧
      (∀ j rest, s.store.queue = j :: rest → t.store = { (launchJob j { t with store := s.store }).store with
        state := .busy
        queue := rest ++ (s.store.heldOver.take 1).map HeldJob.job
        heldOver := s.store.heldOver.drop 1
        eeprom := t.store.eeprom }) ∧
      (f.report = .mark → t.account = s.account ∧ t.journal = s.journal ∧ t.path = s.path ∧ t.requests = s.requests) ∧
      (∀ n, f.report = .journal n →
        t.journal.records = s.journal.records.map (fun r => if r.sequence = n then { r with stored := true } else r) ∧
        settles (s.account.pendingBuys.map fun e => if e.sequence = some n then { e with journalMark := true } else e)) ∧
      (∀ g, f.report = .stay g → t.journal = s.journal ∧
        settles (s.account.pendingBuys.map fun e =>
          if (g - e.needed).toNat ≤ 2147483647 then { e with stayMark := true } else e))

/-- The entry into FAULT (R154, R171, R178, R180): the job in flight, the waiting jobs and the held-over requests are discarded, line 0
is marked with attention, and the page that overran keeps free bytes (log 16).
Every pending buy leaves in the order of the list with a VOLATILE result, reason STOREFAULT: appended to the insertion queue, or held
while the write that carried its BUY is in progress. -/
def Obligations.StoreFaultDiscardsJobs : Prop :=
  ∀ (s : State) (f : InFlight), s.decoder.handOff = none → s.store.inFlight = some f → TablesLaw s → s.store.state ≠ .fault →
    ∃ t, let lost : Answer := { result := .volatile, reason := some .storeFault }
      exec .storeFault s = .next t ∧
      t = { s with
        path := { s.path with
          results := s.path.results ++ (s.account.pendingBuys.filter fun e => !carrierInProgress s e.slot).map fun e =>
            { slot := e.slot, answer := lost, attention := true } }
        account := { s.account with pendingBuys := [] }
        requests := { s.requests with heldResults := t.requests.heldResults }
        store := { s.store with
          state := .fault, queue := [], heldOver := [], inFlight := none, eeprom := t.store.eeprom }
        report := t.report
        freeCount := t.freeCount } ∧
      (∀ k, heldResult t k = if carrierInProgress s k && s.account.pendingBuys.any (fun e => e.slot == k) then some lost
        else heldResult s k) ∧
      Marks s t (fun _ => False) (fun n => n = 0) ∧
      (MemoryLaw s → ∀ a, a / 32 ≠ f.current.page → storeByte t a = storeByte s a)

/-! ### Arithmetic -/

/-- The charge (R133), on inputs in range. -/
def Obligations.ChargeStages : Prop :=
  ∀ P p code t : Nat, P ≤ 65535 → p ≤ 250 → code ≤ 7 → t ≤ 250 →
    ∃ R banded rounded tax, [1, 2, 5, 10, 20, 25, 50, 100][code]? = some R ∧ R = stepUnits code ∧
      banded = (P * p + 50) / 100 ∧ rounded = ((banded + R / 2) / R) * R ∧ tax = (rounded * t + 500) / 1000 ∧
      chargeTotal P p (stepUnits code) t = rounded + tax ∧
      banded ≤ 163838 ∧ chargeTotal P p (stepUnits code) t < 16777216 ∧
      (P = 0 ∨ p = 0 ∨ banded < R / 2 → chargeTotal P p (stepUnits code) t = 0)

/-- The band in force (R132): of the bands at or before the minute, or of all four if there is none, one of greatest start, the
highest numbered among equals.
The band percent is its percent at the clock's minute, and 100 where the class uses no bands, the clock is invalid or the pricing is
not set. -/
def Obligations.BandInForce : Prop :=
  (∀ (p : Pricing) (m : Nat), ∃ k, ∃ b, p.bands[k]? = some b ∧ p.bandAt m = b ∧
    ((∃ x ∈ p.bands, x.start ≤ m) → b.start ≤ m ∧
      ∀ (j : Nat) (x : Band), p.bands[j]? = some x → x.start ≤ m → x.start < b.start ∨ (x.start = b.start ∧ j ≤ k)) ∧
    ((∀ x ∈ p.bands, m < x.start) →
      ∀ (j : Nat) (x : Band), p.bands[j]? = some x → x.start < b.start ∨ (x.start = b.start ∧ j ≤ k))) ∧
  ∀ (s : State) (t : Tariff),
    (∀ c p, t.usesBand = true → s.time.clock = some c → s.account.pricing = some p →
      bandPercent s t = (p.bandAt c.minute).percent) ∧
    (t.usesBand = false ∨ s.time.clock = none ∨ s.account.pricing = none → bandPercent s t = 100)

/-- The cell cipher: one round (R37; a left rotation by 11 places is a right rotation by 5), the starting state, the three blank rounds
and the keystream word (R38), the unmasking of a message body (R40), and the tag with its order of rounds (R41). -/
def Obligations.MixRound : Prop :=
  (∀ (x : Byte) (m : MixState), let n := mixRound x m
    n.a.toNat = (m.a.toNat + m.b.toNat + x.toNat) % 65536 ∧
    n.d = (m.d ^^^ n.a).rotateLeft 5 ∧
    n.c.toNat = (m.c.toNat + n.d.toNat) % 65536 ∧
    n.b = (m.b ^^^ n.c).rotateLeft 11 ∧
    n.b = (m.b ^^^ n.c).rotateRight 5) ∧
  (∀ (k : Key64) (salt index : Half), ∃ k0 k1 k2 k3 : Half, k = k0 ++ k1 ++ k2 ++ k3 ∧
    mixStart k salt index = { a := k0 ^^^ salt, b := k1 ^^^ index, c := k2, d := k3 ^^^ salt.rotateLeft 8 }) ∧
  (∀ (k : Key64) (salt : Half) (j : Nat), let m := mixRound 0 (mixRound 0 (mixRound 0 (mixStart k salt (BitVec.ofNat 16 j))))
    keystreamWord k salt j = (m.a ^^^ m.c) ++ (m.b ^^^ m.d)) ∧
  (∀ (k : Key64) (salt : Half) (p : Nat),
    (keystreamByte k salt p).toNat = (keystreamWord k salt (p / 4)).toNat / 256 ^ (3 - p % 4) % 256) ∧
  (∀ (k : Key64) (salt : Half) (payload : List Byte) (len : Nat), (plainBody k salt payload len).length = len ∧
    ∀ i, i < len → byteAt (plainBody k salt payload len) i = byteAt payload (8 + i) ^^^ keystreamByte k salt (8 + i)) ∧
  (∀ (k : Key64) (salt : Half) (bytes : List Byte),
    let m := bytes.foldl (fun m x => mixRound x m) (mixStart k salt 0xFFFF)
    messageTag k salt bytes = m.a ^^^ m.b ^^^ m.c ^^^ m.d) ∧
  ∀ (k : Key64) (salt : Half) (j : Nat), j ≤ 28 → mixStart k salt (BitVec.ofNat 16 j) ≠ mixStart k salt 0xFFFF

/-! ### Invariants -/

/-- Every step keeps the law for ceilings (R108); under it the effective ceiling is the guest ceiling, or the room ceiling while an
unlock period runs. -/
def Obligations.LockLawKept : Prop :=
  (∀ s t : State, LockLaw s → step s = .next t → LockLaw t) ∧
    (∀ l : Lock, effectiveCeiling l = if l.unlock.isSome then l.roomCeiling else min l.roomCeiling l.guestCeiling) ∧
    ∀ s : State, LockLaw s → effectiveCeiling s.lock ≤ s.lock.roomCeiling ∧
      effectiveCeiling s.lock = if s.lock.unlock.isSome then s.lock.roomCeiling else s.lock.guestCeiling

/-- Every step keeps the laws for credit and for the night ceiling (R121, R122). -/
def Obligations.StayLawsKept : Prop :=
  ∀ s t : State, CreditLaw s → NightLaw s → step s = .next t → CreditLaw t ∧ NightLaw t

/-- Every step keeps the law for the journal, and the next number falls only at power-on and at the journal's load (R157). -/
def Obligations.JournalLawKept : Prop :=
  ∀ s t : State, JournalLaw s → step s = .next t → JournalLaw t ∧
    (s.journal.next ≤ t.journal.next ∨ ∃ c rest, s.pending = c :: rest ∧ (c = .journalLoad ∨ ∃ a b, c = .powerOn a b))

/-- Every step keeps the laws for key histories, purchases and the previews of their events, the showing table, the service table and the store queue
(R43, R44, R75, R79, R146, R181). -/
def Obligations.TableLawsKept : Prop :=
  ∀ s t : State, step s = .next t →
    (KeyLaw s → KeyLaw t) ∧ (PurchaseLaw s → PurchaseLaw t) ∧ (ShowingLaw s → ShowingLaw t) ∧ (ServiceLaw s → ServiceLaw t) ∧
      (QueueLaw s → QueueLaw t)

/-- Every step keeps the law for previews (R139). -/
def Obligations.PreviewLawKept : Prop :=
  ∀ s t : State, ShowingLaw s → TablesLaw s → PreviewLaw s → step s = .next t → PreviewLaw t

/-- Every step keeps both memories and every table in canonical form, and outside RUN the path stays quiet (R4). -/
def Obligations.FormKept : Prop :=
  ∀ s t : State, step s = .next t →
    (MemoryLaw s → MemoryLaw t) ∧ (TablesLaw s → TablesLaw t) ∧ (QuietOutsideRun s → QuietOutsideRun t)
end

