-- ==== Sys2Proof/Laws/State.lean ====
section
/-! SUPPORT. What each named update of State leaves unchanged, field by field, true by definition. -/

namespace Sys2Proof.Machine

@[simp] theorem State.withPending_frame (s : State) (q : List Instr):
    (s.withPending q).path = s.path ∧ (s.withPending q).intake = s.intake ∧ (s.withPending q).decoder = s.decoder
    ∧ (s.withPending q).time = s.time ∧ (s.withPending q).keys = s.keys ∧ (s.withPending q).showings = s.showings
    ∧ (s.withPending q).presentation = s.presentation ∧ (s.withPending q).lock = s.lock
    ∧ (s.withPending q).account = s.account ∧ (s.withPending q).journal = s.journal
    ∧ (s.withPending q).requests = s.requests ∧ (s.withPending q).report = s.report
    ∧ (s.withPending q).store = s.store ∧ (s.withPending q).settings = s.settings
    ∧ (s.withPending q).memory = s.memory ∧ (s.withPending q).memorySize = s.memorySize
    ∧ (s.withPending q).freeCount = s.freeCount := by and_intros <;> rfl

@[simp] theorem writeByte_frame (a : Nat) (b : Byte) (s : State):
    (writeByte a b s).pending = s.pending ∧ (writeByte a b s).path = s.path ∧ (writeByte a b s).intake = s.intake
    ∧ (writeByte a b s).decoder = s.decoder ∧ (writeByte a b s).time = s.time ∧ (writeByte a b s).keys = s.keys
    ∧ (writeByte a b s).showings = s.showings ∧ (writeByte a b s).presentation = s.presentation
    ∧ (writeByte a b s).lock = s.lock ∧ (writeByte a b s).account = s.account ∧ (writeByte a b s).journal = s.journal
    ∧ (writeByte a b s).requests = s.requests ∧ (writeByte a b s).report = s.report
    ∧ (writeByte a b s).store = s.store ∧ (writeByte a b s).settings = s.settings
    ∧ (writeByte a b s).memorySize = s.memorySize ∧ (writeByte a b s).freeCount = s.freeCount := by and_intros <;> rfl

@[simp] theorem markLine_frame (n : Nat) (b : Bool) (s : State):
    (markLine n b s).pending = s.pending ∧ (markLine n b s).path = s.path ∧ (markLine n b s).intake = s.intake
    ∧ (markLine n b s).decoder = s.decoder ∧ (markLine n b s).time = s.time ∧ (markLine n b s).keys = s.keys
    ∧ (markLine n b s).showings = s.showings ∧ (markLine n b s).presentation = s.presentation
    ∧ (markLine n b s).lock = s.lock ∧ (markLine n b s).account = s.account ∧ (markLine n b s).journal = s.journal
    ∧ (markLine n b s).requests = s.requests ∧ (markLine n b s).store = s.store
    ∧ (markLine n b s).settings = s.settings ∧ (markLine n b s).memory = s.memory
    ∧ (markLine n b s).memorySize = s.memorySize ∧ (markLine n b s).freeCount = s.freeCount := by and_intros <;> rfl

@[simp] theorem markAllLines_frame (s : State):
    (markAllLines s).pending = s.pending ∧ (markAllLines s).path = s.path ∧ (markAllLines s).intake = s.intake
    ∧ (markAllLines s).decoder = s.decoder ∧ (markAllLines s).time = s.time ∧ (markAllLines s).keys = s.keys
    ∧ (markAllLines s).showings = s.showings ∧ (markAllLines s).presentation = s.presentation
    ∧ (markAllLines s).lock = s.lock ∧ (markAllLines s).account = s.account ∧ (markAllLines s).journal = s.journal
    ∧ (markAllLines s).requests = s.requests ∧ (markAllLines s).store = s.store
    ∧ (markAllLines s).settings = s.settings ∧ (markAllLines s).memory = s.memory
    ∧ (markAllLines s).memorySize = s.memorySize ∧ (markAllLines s).freeCount = s.freeCount := by and_intros <;> rfl

@[simp] theorem markAllLinesClear_frame (s : State):
    (markAllLinesClear s).pending = s.pending ∧ (markAllLinesClear s).path = s.path
    ∧ (markAllLinesClear s).intake = s.intake ∧ (markAllLinesClear s).decoder = s.decoder
    ∧ (markAllLinesClear s).time = s.time ∧ (markAllLinesClear s).keys = s.keys
    ∧ (markAllLinesClear s).showings = s.showings ∧ (markAllLinesClear s).presentation = s.presentation
    ∧ (markAllLinesClear s).lock = s.lock ∧ (markAllLinesClear s).account = s.account
    ∧ (markAllLinesClear s).journal = s.journal ∧ (markAllLinesClear s).requests = s.requests
    ∧ (markAllLinesClear s).store = s.store ∧ (markAllLinesClear s).settings = s.settings
    ∧ (markAllLinesClear s).memory = s.memory ∧ (markAllLinesClear s).memorySize = s.memorySize
    ∧ (markAllLinesClear s).freeCount = s.freeCount := by and_intros <;> rfl

@[simp] theorem unmarkLine_frame (n : Nat) (s : State):
    (unmarkLine n s).pending = s.pending ∧ (unmarkLine n s).path = s.path ∧ (unmarkLine n s).intake = s.intake
    ∧ (unmarkLine n s).decoder = s.decoder ∧ (unmarkLine n s).time = s.time ∧ (unmarkLine n s).keys = s.keys
    ∧ (unmarkLine n s).showings = s.showings ∧ (unmarkLine n s).presentation = s.presentation
    ∧ (unmarkLine n s).lock = s.lock ∧ (unmarkLine n s).account = s.account ∧ (unmarkLine n s).journal = s.journal
    ∧ (unmarkLine n s).requests = s.requests ∧ (unmarkLine n s).store = s.store
    ∧ (unmarkLine n s).settings = s.settings ∧ (unmarkLine n s).memory = s.memory
    ∧ (unmarkLine n s).memorySize = s.memorySize ∧ (unmarkLine n s).freeCount = s.freeCount := by and_intros <;> rfl

@[simp] theorem setSlotPending_frame (k : Nat) (b : Bool) (s : State):
    (setSlotPending k b s).pending = s.pending ∧ (setSlotPending k b s).path = s.path
    ∧ (setSlotPending k b s).intake = s.intake ∧ (setSlotPending k b s).decoder = s.decoder
    ∧ (setSlotPending k b s).time = s.time ∧ (setSlotPending k b s).keys = s.keys
    ∧ (setSlotPending k b s).showings = s.showings ∧ (setSlotPending k b s).presentation = s.presentation
    ∧ (setSlotPending k b s).lock = s.lock ∧ (setSlotPending k b s).account = s.account
    ∧ (setSlotPending k b s).journal = s.journal
    ∧ (setSlotPending k b s).requests.heldResults = s.requests.heldResults ∧ (setSlotPending k b s).report = s.report
    ∧ (setSlotPending k b s).store = s.store ∧ (setSlotPending k b s).settings = s.settings
    ∧ (setSlotPending k b s).memory = s.memory ∧ (setSlotPending k b s).memorySize = s.memorySize
    ∧ (setSlotPending k b s).freeCount = s.freeCount := by and_intros <;> rfl

@[simp] theorem setHeldResult_frame (k : Nat) (a : Option Answer) (s : State):
    (setHeldResult k a s).pending = s.pending ∧ (setHeldResult k a s).path = s.path
    ∧ (setHeldResult k a s).intake = s.intake ∧ (setHeldResult k a s).decoder = s.decoder
    ∧ (setHeldResult k a s).time = s.time ∧ (setHeldResult k a s).keys = s.keys
    ∧ (setHeldResult k a s).showings = s.showings ∧ (setHeldResult k a s).presentation = s.presentation
    ∧ (setHeldResult k a s).lock = s.lock ∧ (setHeldResult k a s).account = s.account
    ∧ (setHeldResult k a s).journal = s.journal
    ∧ (setHeldResult k a s).requests.pendingMarks = s.requests.pendingMarks ∧ (setHeldResult k a s).report = s.report
    ∧ (setHeldResult k a s).store = s.store ∧ (setHeldResult k a s).settings = s.settings
    ∧ (setHeldResult k a s).memory = s.memory ∧ (setHeldResult k a s).memorySize = s.memorySize
    ∧ (setHeldResult k a s).freeCount = s.freeCount := by and_intros <;> rfl

@[simp] theorem appendResult_frame (k : Nat) (a : Answer) (s : State):
    (appendResult k a s).pending = s.pending ∧ (appendResult k a s).path.mode = s.path.mode
    ∧ (appendResult k a s).path.windows = s.path.windows
    ∧ (appendResult k a s).path.refreshPeriod = s.path.refreshPeriod
    ∧ (appendResult k a s).path.tokensPerPeriod = s.path.tokensPerPeriod
    ∧ (appendResult k a s).path.periodRunning = s.path.periodRunning
    ∧ (appendResult k a s).path.tokens = s.path.tokens ∧ (appendResult k a s).path.waiting = s.path.waiting
    ∧ (appendResult k a s).path.passing = s.path.passing ∧ (appendResult k a s).path.port = s.path.port
    ∧ (appendResult k a s).path.attn = s.path.attn ∧ (appendResult k a s).path.dropped = s.path.dropped
    ∧ (appendResult k a s).path.returned = s.path.returned ∧ (appendResult k a s).intake = s.intake
    ∧ (appendResult k a s).decoder = s.decoder ∧ (appendResult k a s).time = s.time
    ∧ (appendResult k a s).keys = s.keys ∧ (appendResult k a s).showings = s.showings
    ∧ (appendResult k a s).presentation = s.presentation ∧ (appendResult k a s).lock = s.lock
    ∧ (appendResult k a s).account = s.account ∧ (appendResult k a s).journal = s.journal
    ∧ (appendResult k a s).requests = s.requests ∧ (appendResult k a s).report = s.report
    ∧ (appendResult k a s).store = s.store ∧ (appendResult k a s).settings = s.settings
    ∧ (appendResult k a s).memory = s.memory ∧ (appendResult k a s).memorySize = s.memorySize
    ∧ (appendResult k a s).freeCount = s.freeCount := by and_intros <;> rfl

@[simp] theorem keyMessage_frame (v : BitVec 12) (e : BitVec 4) (k : Key64) (s : State):
    (keyMessage v e k s).pending = s.pending ∧ (keyMessage v e k s).path = s.path
    ∧ (keyMessage v e k s).intake = s.intake ∧ (keyMessage v e k s).decoder = s.decoder
    ∧ (keyMessage v e k s).time = s.time ∧ (keyMessage v e k s).showings = s.showings
    ∧ (keyMessage v e k s).presentation = s.presentation ∧ (keyMessage v e k s).lock = s.lock
    ∧ (keyMessage v e k s).account = s.account ∧ (keyMessage v e k s).journal = s.journal
    ∧ (keyMessage v e k s).requests = s.requests ∧ (keyMessage v e k s).report = s.report
    ∧ (keyMessage v e k s).store = s.store ∧ (keyMessage v e k s).settings = s.settings
    ∧ (keyMessage v e k s).memory = s.memory ∧ (keyMessage v e k s).memorySize = s.memorySize
    ∧ (keyMessage v e k s).freeCount = s.freeCount := by and_intros <;> rfl

@[simp] theorem ageKeys_frame (s : State):
    (ageKeys s).pending = s.pending ∧ (ageKeys s).path = s.path ∧ (ageKeys s).intake = s.intake
    ∧ (ageKeys s).decoder = s.decoder ∧ (ageKeys s).time = s.time ∧ (ageKeys s).showings = s.showings
    ∧ (ageKeys s).presentation = s.presentation ∧ (ageKeys s).lock = s.lock ∧ (ageKeys s).account = s.account
    ∧ (ageKeys s).journal = s.journal ∧ (ageKeys s).requests = s.requests ∧ (ageKeys s).report = s.report
    ∧ (ageKeys s).store = s.store ∧ (ageKeys s).settings = s.settings ∧ (ageKeys s).memory = s.memory
    ∧ (ageKeys s).memorySize = s.memorySize ∧ (ageKeys s).freeCount = s.freeCount := by and_intros <;> rfl

@[simp] theorem purgeKeys_frame (v : BitVec 12) (s : State):
    (purgeKeys v s).pending = s.pending ∧ (purgeKeys v s).path = s.path ∧ (purgeKeys v s).intake = s.intake
    ∧ (purgeKeys v s).decoder = s.decoder ∧ (purgeKeys v s).time = s.time ∧ (purgeKeys v s).showings = s.showings
    ∧ (purgeKeys v s).presentation = s.presentation ∧ (purgeKeys v s).lock = s.lock
    ∧ (purgeKeys v s).account = s.account ∧ (purgeKeys v s).journal = s.journal
    ∧ (purgeKeys v s).requests = s.requests ∧ (purgeKeys v s).report = s.report ∧ (purgeKeys v s).store = s.store
    ∧ (purgeKeys v s).settings = s.settings ∧ (purgeKeys v s).memory = s.memory
    ∧ (purgeKeys v s).memorySize = s.memorySize ∧ (purgeKeys v s).freeCount = s.freeCount := by and_intros <;> rfl

@[simp] theorem setInFlight_frame (f : Option InFlight) (s : State):
    (setInFlight f s).pending = s.pending ∧ (setInFlight f s).path = s.path ∧ (setInFlight f s).intake = s.intake
    ∧ (setInFlight f s).decoder = s.decoder ∧ (setInFlight f s).time = s.time ∧ (setInFlight f s).keys = s.keys
    ∧ (setInFlight f s).showings = s.showings ∧ (setInFlight f s).presentation = s.presentation
    ∧ (setInFlight f s).lock = s.lock ∧ (setInFlight f s).account = s.account ∧ (setInFlight f s).journal = s.journal
    ∧ (setInFlight f s).requests = s.requests ∧ (setInFlight f s).report = s.report
    ∧ (setInFlight f s).store.state = s.store.state ∧ (setInFlight f s).store.queue = s.store.queue
    ∧ (setInFlight f s).store.heldOver = s.store.heldOver ∧ (setInFlight f s).store.pageNumber = s.store.pageNumber
    ∧ (setInFlight f s).store.storePresent = s.store.storePresent ∧ (setInFlight f s).store.bypass = s.store.bypass
    ∧ (setInFlight f s).store.phase = s.store.phase ∧ (setInFlight f s).store.image = s.store.image
    ∧ (setInFlight f s).store.eeprom = s.store.eeprom ∧ (setInFlight f s).settings = s.settings
    ∧ (setInFlight f s).memory = s.memory ∧ (setInFlight f s).memorySize = s.memorySize
    ∧ (setInFlight f s).freeCount = s.freeCount := by and_intros <;> rfl

@[simp] theorem setServices_frame (l : List ServiceRecord) (s : State):
    (setServices l s).pending = s.pending ∧ (setServices l s).path = s.path ∧ (setServices l s).intake = s.intake
    ∧ (setServices l s).decoder = s.decoder ∧ (setServices l s).time = s.time ∧ (setServices l s).keys = s.keys
    ∧ (setServices l s).showings.events = s.showings.events ∧ (setServices l s).presentation = s.presentation
    ∧ (setServices l s).lock = s.lock ∧ (setServices l s).account = s.account ∧ (setServices l s).journal = s.journal
    ∧ (setServices l s).requests = s.requests ∧ (setServices l s).report = s.report
    ∧ (setServices l s).store = s.store ∧ (setServices l s).settings = s.settings
    ∧ (setServices l s).memory = s.memory ∧ (setServices l s).memorySize = s.memorySize
    ∧ (setServices l s).freeCount = s.freeCount := by and_intros <;> rfl

@[simp] theorem setEvents_frame (l : List EventRecord) (s : State):
    (setEvents l s).pending = s.pending ∧ (setEvents l s).path = s.path ∧ (setEvents l s).intake = s.intake
    ∧ (setEvents l s).decoder = s.decoder ∧ (setEvents l s).time = s.time ∧ (setEvents l s).keys = s.keys
    ∧ (setEvents l s).showings.services = s.showings.services ∧ (setEvents l s).presentation = s.presentation
    ∧ (setEvents l s).lock = s.lock ∧ (setEvents l s).account = s.account ∧ (setEvents l s).journal = s.journal
    ∧ (setEvents l s).requests = s.requests ∧ (setEvents l s).report = s.report ∧ (setEvents l s).store = s.store
    ∧ (setEvents l s).settings = s.settings ∧ (setEvents l s).memory = s.memory
    ∧ (setEvents l s).memorySize = s.memorySize ∧ (setEvents l s).freeCount = s.freeCount := by and_intros <;> rfl

@[simp] theorem updateEvent_frame (id : Half) (f : EventRecord → EventRecord) (s : State):
    (updateEvent id f s).pending = s.pending ∧ (updateEvent id f s).path = s.path
    ∧ (updateEvent id f s).intake = s.intake ∧ (updateEvent id f s).decoder = s.decoder
    ∧ (updateEvent id f s).time = s.time ∧ (updateEvent id f s).keys = s.keys
    ∧ (updateEvent id f s).showings.services = s.showings.services
    ∧ (updateEvent id f s).presentation = s.presentation ∧ (updateEvent id f s).lock = s.lock
    ∧ (updateEvent id f s).account = s.account ∧ (updateEvent id f s).journal = s.journal
    ∧ (updateEvent id f s).requests = s.requests ∧ (updateEvent id f s).report = s.report
    ∧ (updateEvent id f s).store = s.store ∧ (updateEvent id f s).settings = s.settings
    ∧ (updateEvent id f s).memory = s.memory ∧ (updateEvent id f s).memorySize = s.memorySize
    ∧ (updateEvent id f s).freeCount = s.freeCount := by and_intros <;> rfl

@[simp] theorem dropService_frame (v : BitVec 12) (s : State):
    (dropService v s).pending = s.pending ∧ (dropService v s).path = s.path ∧ (dropService v s).intake = s.intake
    ∧ (dropService v s).decoder = s.decoder ∧ (dropService v s).time = s.time ∧ (dropService v s).keys = s.keys
    ∧ (dropService v s).presentation = s.presentation ∧ (dropService v s).lock = s.lock
    ∧ (dropService v s).account = s.account ∧ (dropService v s).journal = s.journal
    ∧ (dropService v s).requests = s.requests ∧ (dropService v s).report = s.report
    ∧ (dropService v s).store = s.store ∧ (dropService v s).settings = s.settings
    ∧ (dropService v s).memory = s.memory ∧ (dropService v s).memorySize = s.memorySize
    ∧ (dropService v s).freeCount = s.freeCount := by and_intros <;> rfl

@[simp] theorem relistEvent_frame (r : ListingRecord) (e : EventRecord) (s : State):
    (relistEvent r e s).pending = s.pending ∧ (relistEvent r e s).path = s.path
    ∧ (relistEvent r e s).intake = s.intake ∧ (relistEvent r e s).decoder = s.decoder
    ∧ (relistEvent r e s).time = s.time ∧ (relistEvent r e s).keys = s.keys
    ∧ (relistEvent r e s).showings.services = s.showings.services ∧ (relistEvent r e s).presentation = s.presentation
    ∧ (relistEvent r e s).lock = s.lock ∧ (relistEvent r e s).account = s.account
    ∧ (relistEvent r e s).journal = s.journal ∧ (relistEvent r e s).requests = s.requests
    ∧ (relistEvent r e s).report = s.report ∧ (relistEvent r e s).store = s.store
    ∧ (relistEvent r e s).settings = s.settings ∧ (relistEvent r e s).memory = s.memory
    ∧ (relistEvent r e s).memorySize = s.memorySize ∧ (relistEvent r e s).freeCount = s.freeCount := by and_intros <;> rfl

@[simp] theorem listEvent_frame (r : ListingRecord) (s : State):
    (listEvent r s).pending = s.pending ∧ (listEvent r s).path = s.path ∧ (listEvent r s).intake = s.intake
    ∧ (listEvent r s).decoder = s.decoder ∧ (listEvent r s).time = s.time ∧ (listEvent r s).keys = s.keys
    ∧ (listEvent r s).showings.services = s.showings.services ∧ (listEvent r s).presentation = s.presentation
    ∧ (listEvent r s).lock = s.lock ∧ (listEvent r s).account = s.account ∧ (listEvent r s).journal = s.journal
    ∧ (listEvent r s).requests = s.requests ∧ (listEvent r s).report = s.report ∧ (listEvent r s).store = s.store
    ∧ (listEvent r s).settings = s.settings ∧ (listEvent r s).memory = s.memory
    ∧ (listEvent r s).memorySize = s.memorySize ∧ (listEvent r s).freeCount = s.freeCount := by and_intros <;> rfl

@[simp] theorem resetMetering_frame (s : State):
    (resetMetering s).pending = s.pending ∧ (resetMetering s).path = s.path ∧ (resetMetering s).intake = s.intake
    ∧ (resetMetering s).decoder = s.decoder ∧ (resetMetering s).time = s.time ∧ (resetMetering s).keys = s.keys
    ∧ (resetMetering s).showings.services = s.showings.services ∧ (resetMetering s).presentation = s.presentation
    ∧ (resetMetering s).lock = s.lock ∧ (resetMetering s).account = s.account ∧ (resetMetering s).journal = s.journal
    ∧ (resetMetering s).requests = s.requests ∧ (resetMetering s).report = s.report
    ∧ (resetMetering s).store = s.store ∧ (resetMetering s).settings = s.settings
    ∧ (resetMetering s).memory = s.memory ∧ (resetMetering s).memorySize = s.memorySize
    ∧ (resetMetering s).freeCount = s.freeCount := by and_intros <;> rfl

@[simp] theorem presentationNote_frame (id : Half) (s : State):
    (presentationNote id s).pending = s.pending ∧ (presentationNote id s).path = s.path
    ∧ (presentationNote id s).intake = s.intake ∧ (presentationNote id s).decoder = s.decoder
    ∧ (presentationNote id s).time = s.time ∧ (presentationNote id s).keys = s.keys
    ∧ (presentationNote id s).showings.services = s.showings.services
    ∧ (presentationNote id s).presentation = s.presentation ∧ (presentationNote id s).lock = s.lock
    ∧ (presentationNote id s).account = s.account ∧ (presentationNote id s).journal = s.journal
    ∧ (presentationNote id s).requests = s.requests ∧ (presentationNote id s).report = s.report
    ∧ (presentationNote id s).store = s.store ∧ (presentationNote id s).settings = s.settings
    ∧ (presentationNote id s).memory = s.memory ∧ (presentationNote id s).memorySize = s.memorySize
    ∧ (presentationNote id s).freeCount = s.freeCount := by and_intros <;> rfl

@[simp] theorem beginPreview_frame (id : Half) (s : State):
    (beginPreview id s).pending = s.pending ∧ (beginPreview id s).path = s.path
    ∧ (beginPreview id s).intake = s.intake ∧ (beginPreview id s).decoder = s.decoder
    ∧ (beginPreview id s).time = s.time ∧ (beginPreview id s).keys = s.keys
    ∧ (beginPreview id s).showings.services = s.showings.services ∧ (beginPreview id s).presentation = s.presentation
    ∧ (beginPreview id s).lock = s.lock ∧ (beginPreview id s).account = s.account
    ∧ (beginPreview id s).journal = s.journal ∧ (beginPreview id s).requests = s.requests
    ∧ (beginPreview id s).report = s.report ∧ (beginPreview id s).store = s.store
    ∧ (beginPreview id s).settings = s.settings ∧ (beginPreview id s).memory = s.memory
    ∧ (beginPreview id s).memorySize = s.memorySize ∧ (beginPreview id s).freeCount = s.freeCount := by and_intros <;> rfl

@[simp] theorem setStay_frame (y : Stay) (s : State):
    (setStay y s).pending = s.pending ∧ (setStay y s).path = s.path ∧ (setStay y s).intake = s.intake
    ∧ (setStay y s).decoder = s.decoder ∧ (setStay y s).time = s.time ∧ (setStay y s).keys = s.keys
    ∧ (setStay y s).showings = s.showings ∧ (setStay y s).presentation = s.presentation ∧ (setStay y s).lock = s.lock
    ∧ (setStay y s).account.purchases = s.account.purchases ∧ (setStay y s).account.tariffs = s.account.tariffs
    ∧ (setStay y s).account.pricing = s.account.pricing ∧ (setStay y s).account.held = s.account.held
    ∧ (setStay y s).account.freeView = s.account.freeView ∧ (setStay y s).account.generation = s.account.generation
    ∧ (setStay y s).account.pendingBuys = s.account.pendingBuys ∧ (setStay y s).journal = s.journal
    ∧ (setStay y s).requests = s.requests ∧ (setStay y s).report = s.report ∧ (setStay y s).store = s.store
    ∧ (setStay y s).settings = s.settings ∧ (setStay y s).memory = s.memory ∧ (setStay y s).memorySize = s.memorySize
    ∧ (setStay y s).freeCount = s.freeCount := by and_intros <;> rfl

@[simp] theorem setTariff_frame (c : Nat) (t : Option Tariff) (s : State):
    (setTariff c t s).pending = s.pending ∧ (setTariff c t s).path = s.path ∧ (setTariff c t s).intake = s.intake
    ∧ (setTariff c t s).decoder = s.decoder ∧ (setTariff c t s).time = s.time ∧ (setTariff c t s).keys = s.keys
    ∧ (setTariff c t s).showings = s.showings ∧ (setTariff c t s).presentation = s.presentation
    ∧ (setTariff c t s).lock = s.lock ∧ (setTariff c t s).account.stay = s.account.stay
    ∧ (setTariff c t s).account.purchases = s.account.purchases
    ∧ (setTariff c t s).account.pricing = s.account.pricing ∧ (setTariff c t s).account.held = s.account.held
    ∧ (setTariff c t s).account.freeView = s.account.freeView
    ∧ (setTariff c t s).account.generation = s.account.generation
    ∧ (setTariff c t s).account.pendingBuys = s.account.pendingBuys ∧ (setTariff c t s).journal = s.journal
    ∧ (setTariff c t s).requests = s.requests ∧ (setTariff c t s).report = s.report
    ∧ (setTariff c t s).store = s.store ∧ (setTariff c t s).settings = s.settings
    ∧ (setTariff c t s).memory = s.memory ∧ (setTariff c t s).memorySize = s.memorySize
    ∧ (setTariff c t s).freeCount = s.freeCount := by and_intros <;> rfl

@[simp] theorem pricingMessage_frame (p : Pricing) (s : State):
    (pricingMessage p s).pending = s.pending ∧ (pricingMessage p s).path = s.path
    ∧ (pricingMessage p s).intake = s.intake ∧ (pricingMessage p s).decoder = s.decoder
    ∧ (pricingMessage p s).time = s.time ∧ (pricingMessage p s).keys = s.keys
    ∧ (pricingMessage p s).showings = s.showings ∧ (pricingMessage p s).presentation = s.presentation
    ∧ (pricingMessage p s).lock = s.lock ∧ (pricingMessage p s).account.stay = s.account.stay
    ∧ (pricingMessage p s).account.purchases = s.account.purchases
    ∧ (pricingMessage p s).account.tariffs = s.account.tariffs ∧ (pricingMessage p s).account.held = s.account.held
    ∧ (pricingMessage p s).account.freeView = s.account.freeView
    ∧ (pricingMessage p s).account.generation = s.account.generation
    ∧ (pricingMessage p s).account.pendingBuys = s.account.pendingBuys ∧ (pricingMessage p s).journal = s.journal
    ∧ (pricingMessage p s).requests = s.requests ∧ (pricingMessage p s).report = s.report
    ∧ (pricingMessage p s).store = s.store ∧ (pricingMessage p s).settings = s.settings
    ∧ (pricingMessage p s).memory = s.memory ∧ (pricingMessage p s).memorySize = s.memorySize
    ∧ (pricingMessage p s).freeCount = s.freeCount := by and_intros <;> rfl

@[simp] theorem setTag_frame (r : Ring) (k : Nat) (t : SlotTag) (s : State):
    (setTag r k t s).pending = s.pending ∧ (setTag r k t s).path = s.path
    ∧ (setTag r k t s).intake.context = s.intake.context ∧ (setTag r k t s).intake.staging = s.intake.staging
    ∧ (setTag r k t s).intake.headerErrors = s.intake.headerErrors
    ∧ (setTag r k t s).intake.abandoned = s.intake.abandoned ∧ (setTag r k t s).decoder = s.decoder
    ∧ (setTag r k t s).time = s.time ∧ (setTag r k t s).keys = s.keys ∧ (setTag r k t s).showings = s.showings
    ∧ (setTag r k t s).presentation = s.presentation ∧ (setTag r k t s).lock = s.lock
    ∧ (setTag r k t s).account = s.account ∧ (setTag r k t s).journal = s.journal
    ∧ (setTag r k t s).requests = s.requests ∧ (setTag r k t s).report = s.report ∧ (setTag r k t s).store = s.store
    ∧ (setTag r k t s).settings = s.settings ∧ (setTag r k t s).memory = s.memory
    ∧ (setTag r k t s).memorySize = s.memorySize ∧ (setTag r k t s).freeCount = s.freeCount := by and_intros <;> rfl

@[simp] theorem setLatch_frame (r : Ring) (k : Nat) (v : Option Verdict) (s : State):
    (setLatch r k v s).pending = s.pending ∧ (setLatch r k v s).path = s.path
    ∧ (setLatch r k v s).intake.context = s.intake.context ∧ (setLatch r k v s).intake.staging = s.intake.staging
    ∧ (setLatch r k v s).intake.headerErrors = s.intake.headerErrors
    ∧ (setLatch r k v s).intake.abandoned = s.intake.abandoned ∧ (setLatch r k v s).decoder = s.decoder
    ∧ (setLatch r k v s).time = s.time ∧ (setLatch r k v s).keys = s.keys ∧ (setLatch r k v s).showings = s.showings
    ∧ (setLatch r k v s).presentation = s.presentation ∧ (setLatch r k v s).lock = s.lock
    ∧ (setLatch r k v s).account = s.account ∧ (setLatch r k v s).journal = s.journal
    ∧ (setLatch r k v s).requests = s.requests ∧ (setLatch r k v s).report = s.report
    ∧ (setLatch r k v s).store = s.store ∧ (setLatch r k v s).settings = s.settings
    ∧ (setLatch r k v s).memory = s.memory ∧ (setLatch r k v s).memorySize = s.memorySize
    ∧ (setLatch r k v s).freeCount = s.freeCount := by and_intros <;> rfl

@[simp] theorem setContext_frame (r : Ring) (c : Option OpenCell) (s : State):
    (setContext r c s).pending = s.pending ∧ (setContext r c s).path = s.path
    ∧ (setContext r c s).intake.tags = s.intake.tags ∧ (setContext r c s).intake.staging = s.intake.staging
    ∧ (setContext r c s).intake.headerErrors = s.intake.headerErrors
    ∧ (setContext r c s).intake.abandoned = s.intake.abandoned ∧ (setContext r c s).decoder = s.decoder
    ∧ (setContext r c s).time = s.time ∧ (setContext r c s).keys = s.keys ∧ (setContext r c s).showings = s.showings
    ∧ (setContext r c s).presentation = s.presentation ∧ (setContext r c s).lock = s.lock
    ∧ (setContext r c s).account = s.account ∧ (setContext r c s).journal = s.journal
    ∧ (setContext r c s).requests = s.requests ∧ (setContext r c s).report = s.report
    ∧ (setContext r c s).store = s.store ∧ (setContext r c s).settings = s.settings
    ∧ (setContext r c s).memory = s.memory ∧ (setContext r c s).memorySize = s.memorySize
    ∧ (setContext r c s).freeCount = s.freeCount := by and_intros <;> rfl

@[simp] theorem setStaging_frame (r : Ring) (b : Option Staging) (s : State):
    (setStaging r b s).pending = s.pending ∧ (setStaging r b s).path = s.path
    ∧ (setStaging r b s).intake.tags = s.intake.tags ∧ (setStaging r b s).intake.context = s.intake.context
    ∧ (setStaging r b s).intake.headerErrors = s.intake.headerErrors
    ∧ (setStaging r b s).intake.abandoned = s.intake.abandoned ∧ (setStaging r b s).decoder = s.decoder
    ∧ (setStaging r b s).time = s.time ∧ (setStaging r b s).keys = s.keys ∧ (setStaging r b s).showings = s.showings
    ∧ (setStaging r b s).presentation = s.presentation ∧ (setStaging r b s).lock = s.lock
    ∧ (setStaging r b s).account = s.account ∧ (setStaging r b s).journal = s.journal
    ∧ (setStaging r b s).requests = s.requests ∧ (setStaging r b s).report = s.report
    ∧ (setStaging r b s).store = s.store ∧ (setStaging r b s).settings = s.settings
    ∧ (setStaging r b s).memory = s.memory ∧ (setStaging r b s).memorySize = s.memorySize
    ∧ (setStaging r b s).freeCount = s.freeCount := by and_intros <;> rfl

@[simp] theorem clearHandOff_frame (s : State):
    (clearHandOff s).pending = s.pending ∧ (clearHandOff s).path = s.path ∧ (clearHandOff s).intake = s.intake
    ∧ (clearHandOff s).decoder.lastNumber = s.decoder.lastNumber
    ∧ (clearHandOff s).decoder.lastMaintenanceTag = s.decoder.lastMaintenanceTag
    ∧ (clearHandOff s).decoder.tagFailures = s.decoder.tagFailures
    ∧ (clearHandOff s).decoder.ignored = s.decoder.ignored ∧ (clearHandOff s).time = s.time
    ∧ (clearHandOff s).keys = s.keys ∧ (clearHandOff s).showings = s.showings
    ∧ (clearHandOff s).presentation = s.presentation ∧ (clearHandOff s).lock = s.lock
    ∧ (clearHandOff s).account = s.account ∧ (clearHandOff s).journal = s.journal
    ∧ (clearHandOff s).requests = s.requests ∧ (clearHandOff s).report = s.report ∧ (clearHandOff s).store = s.store
    ∧ (clearHandOff s).settings = s.settings ∧ (clearHandOff s).memory = s.memory
    ∧ (clearHandOff s).memorySize = s.memorySize ∧ (clearHandOff s).freeCount = s.freeCount := by and_intros <;> rfl

@[simp] theorem setPassing_frame (p : Option Passing) (s : State):
    (setPassing p s).pending = s.pending ∧ (setPassing p s).path.mode = s.path.mode
    ∧ (setPassing p s).path.windows = s.path.windows ∧ (setPassing p s).path.refreshPeriod = s.path.refreshPeriod
    ∧ (setPassing p s).path.tokensPerPeriod = s.path.tokensPerPeriod
    ∧ (setPassing p s).path.periodRunning = s.path.periodRunning ∧ (setPassing p s).path.tokens = s.path.tokens
    ∧ (setPassing p s).path.waiting = s.path.waiting ∧ (setPassing p s).path.port = s.path.port
    ∧ (setPassing p s).path.results = s.path.results ∧ (setPassing p s).path.attn = s.path.attn
    ∧ (setPassing p s).path.dropped = s.path.dropped ∧ (setPassing p s).path.returned = s.path.returned
    ∧ (setPassing p s).intake = s.intake ∧ (setPassing p s).decoder = s.decoder ∧ (setPassing p s).time = s.time
    ∧ (setPassing p s).keys = s.keys ∧ (setPassing p s).showings = s.showings
    ∧ (setPassing p s).presentation = s.presentation ∧ (setPassing p s).lock = s.lock
    ∧ (setPassing p s).account = s.account ∧ (setPassing p s).journal = s.journal
    ∧ (setPassing p s).requests = s.requests ∧ (setPassing p s).report = s.report ∧ (setPassing p s).store = s.store
    ∧ (setPassing p s).settings = s.settings ∧ (setPassing p s).memory = s.memory
    ∧ (setPassing p s).memorySize = s.memorySize ∧ (setPassing p s).freeCount = s.freeCount := by and_intros <;> rfl

@[simp] theorem setPort_frame (p : Port) (s : State):
    (setPort p s).pending = s.pending ∧ (setPort p s).path.mode = s.path.mode
    ∧ (setPort p s).path.windows = s.path.windows ∧ (setPort p s).path.refreshPeriod = s.path.refreshPeriod
    ∧ (setPort p s).path.tokensPerPeriod = s.path.tokensPerPeriod
    ∧ (setPort p s).path.periodRunning = s.path.periodRunning ∧ (setPort p s).path.tokens = s.path.tokens
    ∧ (setPort p s).path.waiting = s.path.waiting ∧ (setPort p s).path.passing = s.path.passing
    ∧ (setPort p s).path.results = s.path.results ∧ (setPort p s).path.attn = s.path.attn
    ∧ (setPort p s).path.dropped = s.path.dropped ∧ (setPort p s).path.returned = s.path.returned
    ∧ (setPort p s).intake = s.intake ∧ (setPort p s).decoder = s.decoder ∧ (setPort p s).time = s.time
    ∧ (setPort p s).keys = s.keys ∧ (setPort p s).showings = s.showings ∧ (setPort p s).presentation = s.presentation
    ∧ (setPort p s).lock = s.lock ∧ (setPort p s).account = s.account ∧ (setPort p s).journal = s.journal
    ∧ (setPort p s).requests = s.requests ∧ (setPort p s).report = s.report ∧ (setPort p s).store = s.store
    ∧ (setPort p s).settings = s.settings ∧ (setPort p s).memory = s.memory ∧ (setPort p s).memorySize = s.memorySize
    ∧ (setPort p s).freeCount = s.freeCount := by and_intros <;> rfl

@[simp] theorem spendToken_frame (s : State):
    (spendToken s).pending = s.pending ∧ (spendToken s).path.mode = s.path.mode
    ∧ (spendToken s).path.windows = s.path.windows ∧ (spendToken s).path.refreshPeriod = s.path.refreshPeriod
    ∧ (spendToken s).path.tokensPerPeriod = s.path.tokensPerPeriod
    ∧ (spendToken s).path.periodRunning = s.path.periodRunning ∧ (spendToken s).path.waiting = s.path.waiting
    ∧ (spendToken s).path.passing = s.path.passing ∧ (spendToken s).path.port = s.path.port
    ∧ (spendToken s).path.results = s.path.results ∧ (spendToken s).path.attn = s.path.attn
    ∧ (spendToken s).path.dropped = s.path.dropped ∧ (spendToken s).path.returned = s.path.returned
    ∧ (spendToken s).intake = s.intake ∧ (spendToken s).decoder = s.decoder ∧ (spendToken s).time = s.time
    ∧ (spendToken s).keys = s.keys ∧ (spendToken s).showings = s.showings
    ∧ (spendToken s).presentation = s.presentation ∧ (spendToken s).lock = s.lock ∧ (spendToken s).account = s.account
    ∧ (spendToken s).journal = s.journal ∧ (spendToken s).requests = s.requests ∧ (spendToken s).report = s.report
    ∧ (spendToken s).store = s.store ∧ (spendToken s).settings = s.settings ∧ (spendToken s).memory = s.memory
    ∧ (spendToken s).memorySize = s.memorySize ∧ (spendToken s).freeCount = s.freeCount := by and_intros <;> rfl

@[simp] theorem setEeprom_frame (m : List Host.Cell) (s : State):
    (setEeprom m s).pending = s.pending ∧ (setEeprom m s).path = s.path ∧ (setEeprom m s).intake = s.intake
    ∧ (setEeprom m s).decoder = s.decoder ∧ (setEeprom m s).time = s.time ∧ (setEeprom m s).keys = s.keys
    ∧ (setEeprom m s).showings = s.showings ∧ (setEeprom m s).presentation = s.presentation
    ∧ (setEeprom m s).lock = s.lock ∧ (setEeprom m s).account = s.account ∧ (setEeprom m s).journal = s.journal
    ∧ (setEeprom m s).requests = s.requests ∧ (setEeprom m s).report = s.report
    ∧ (setEeprom m s).store.state = s.store.state ∧ (setEeprom m s).store.queue = s.store.queue
    ∧ (setEeprom m s).store.heldOver = s.store.heldOver ∧ (setEeprom m s).store.inFlight = s.store.inFlight
    ∧ (setEeprom m s).store.pageNumber = s.store.pageNumber
    ∧ (setEeprom m s).store.storePresent = s.store.storePresent ∧ (setEeprom m s).store.bypass = s.store.bypass
    ∧ (setEeprom m s).store.phase = s.store.phase ∧ (setEeprom m s).store.image = s.store.image
    ∧ (setEeprom m s).settings = s.settings ∧ (setEeprom m s).memory = s.memory
    ∧ (setEeprom m s).memorySize = s.memorySize ∧ (setEeprom m s).freeCount = s.freeCount := by and_intros <;> rfl

@[simp] theorem setMode_frame (m : Mode) (s : State):
    (setMode m s).pending = s.pending ∧ (setMode m s).path.windows = s.path.windows
    ∧ (setMode m s).path.refreshPeriod = s.path.refreshPeriod
    ∧ (setMode m s).path.tokensPerPeriod = s.path.tokensPerPeriod
    ∧ (setMode m s).path.periodRunning = s.path.periodRunning ∧ (setMode m s).path.tokens = s.path.tokens
    ∧ (setMode m s).path.waiting = s.path.waiting ∧ (setMode m s).path.passing = s.path.passing
    ∧ (setMode m s).path.port = s.path.port ∧ (setMode m s).path.results = s.path.results
    ∧ (setMode m s).path.attn = s.path.attn ∧ (setMode m s).path.dropped = s.path.dropped
    ∧ (setMode m s).path.returned = s.path.returned ∧ (setMode m s).intake = s.intake
    ∧ (setMode m s).decoder = s.decoder ∧ (setMode m s).time = s.time ∧ (setMode m s).keys = s.keys
    ∧ (setMode m s).showings = s.showings ∧ (setMode m s).presentation = s.presentation ∧ (setMode m s).lock = s.lock
    ∧ (setMode m s).account = s.account ∧ (setMode m s).journal = s.journal ∧ (setMode m s).requests = s.requests
    ∧ (setMode m s).report = s.report ∧ (setMode m s).store = s.store ∧ (setMode m s).settings = s.settings
    ∧ (setMode m s).memory = s.memory ∧ (setMode m s).memorySize = s.memorySize
    ∧ (setMode m s).freeCount = s.freeCount := by and_intros <;> rfl

@[simp] theorem setPhase_frame (p : LoadPhase) (s : State):
    (setPhase p s).pending = s.pending ∧ (setPhase p s).path = s.path ∧ (setPhase p s).intake = s.intake
    ∧ (setPhase p s).decoder = s.decoder ∧ (setPhase p s).time = s.time ∧ (setPhase p s).keys = s.keys
    ∧ (setPhase p s).showings = s.showings ∧ (setPhase p s).presentation = s.presentation
    ∧ (setPhase p s).lock = s.lock ∧ (setPhase p s).account = s.account ∧ (setPhase p s).journal = s.journal
    ∧ (setPhase p s).requests = s.requests ∧ (setPhase p s).report = s.report
    ∧ (setPhase p s).store.state = s.store.state ∧ (setPhase p s).store.queue = s.store.queue
    ∧ (setPhase p s).store.heldOver = s.store.heldOver ∧ (setPhase p s).store.inFlight = s.store.inFlight
    ∧ (setPhase p s).store.pageNumber = s.store.pageNumber ∧ (setPhase p s).store.storePresent = s.store.storePresent
    ∧ (setPhase p s).store.bypass = s.store.bypass ∧ (setPhase p s).store.image = s.store.image
    ∧ (setPhase p s).store.eeprom = s.store.eeprom ∧ (setPhase p s).settings = s.settings
    ∧ (setPhase p s).memory = s.memory ∧ (setPhase p s).memorySize = s.memorySize
    ∧ (setPhase p s).freeCount = s.freeCount := by and_intros <;> rfl

@[simp] theorem setResetUnits_frame (s : State):
    (setResetUnits s).pending = s.pending ∧ (setResetUnits s).path = s.path
    ∧ (setResetUnits s).decoder.lastNumber = s.decoder.lastNumber
    ∧ (setResetUnits s).decoder.lastMaintenanceTag = s.decoder.lastMaintenanceTag
    ∧ (setResetUnits s).decoder.handOff = s.decoder.handOff ∧ (setResetUnits s).time = s.time
    ∧ (setResetUnits s).keys = s.keys ∧ (setResetUnits s).showings = s.showings
    ∧ (setResetUnits s).presentation.summary = s.presentation.summary ∧ (setResetUnits s).lock = s.lock
    ∧ (setResetUnits s).account.stay = s.account.stay ∧ (setResetUnits s).account.purchases = s.account.purchases
    ∧ (setResetUnits s).account.tariffs = s.account.tariffs ∧ (setResetUnits s).account.pricing = s.account.pricing
    ∧ (setResetUnits s).account.held = s.account.held ∧ (setResetUnits s).account.freeView = s.account.freeView
    ∧ (setResetUnits s).account.generation = s.account.generation ∧ (setResetUnits s).journal = s.journal
    ∧ (setResetUnits s).report = s.report ∧ (setResetUnits s).store = s.store
    ∧ (setResetUnits s).settings = s.settings ∧ (setResetUnits s).memory = s.memory
    ∧ (setResetUnits s).memorySize = s.memorySize ∧ (setResetUnits s).freeCount = s.freeCount := by and_intros <;> rfl

/-! ### What the updates write -/

@[simp] theorem State.withPending_pending (s : State) (q : List Instr) : (s.withPending q).pending = q := rfl

@[simp] theorem setStay_stay (y : Stay) (s : State) : (setStay y s).account.stay = y := rfl

@[simp] theorem setServices_services (l : List ServiceRecord) (s : State) : (setServices l s).showings.services = l := rfl

@[simp] theorem setEvents_events (l : List EventRecord) (s : State) : (setEvents l s).showings.events = l := rfl

@[simp] theorem setPassing_passing (p : Option Passing) (s : State) : (setPassing p s).path.passing = p := rfl

@[simp] theorem setPort_port (p : Port) (s : State) : (setPort p s).path.port = p := rfl

@[simp] theorem setEeprom_eeprom (m : List Host.Cell) (s : State) : (setEeprom m s).store.eeprom = m := rfl

@[simp] theorem setInFlight_inFlight (f : Option InFlight) (s : State) : (setInFlight f s).store.inFlight = f := rfl

@[simp] theorem setMode_mode (m : Mode) (s : State) : (setMode m s).path.mode = m := rfl

@[simp] theorem setPhase_phase (p : LoadPhase) (s : State) : (setPhase p s).store.phase = p := rfl

@[simp] theorem clearHandOff_handOff (s : State) : (clearHandOff s).decoder.handOff = none := rfl

@[simp] theorem appendResult_results (k : Nat) (a : Answer) (s : State) :
    (appendResult k a s).path.results = s.path.results ++ [{ slot := k, answer := a, attention := true }] := rfl

end Sys2Proof.Machine
end

