-- ==== Sys2Proof/Laws/Memory.lean ====
section
/-! SUPPORT. The sparse tables: what a write reads back as, and that it keeps the canonical form; then the two memories. -/

namespace Sys2Proof.Machine

/-! ### Sparse tables -/

theorem Sparse.read_of_lt {α : Type} (d : α) (l : List (Nat × α)) (a : Nat) (h : ∀ e ∈ l, a < e.1) : Sparse.read d l a = d := by
  induction l with
  | nil => rfl
  | cons e rest ih =>
    have h1 : a ≠ e.1 := Nat.ne_of_lt (h e (by simp))
    simp only [Sparse.read, if_neg h1]
    exact ih fun x hx => h x (by simp [hx])

/-- The parts of the canonical form. -/
theorem Sparse.wf_cons {α : Type} [DecidableEq α] (d : α) (k : Nat) (v : α) (rest : List (Nat × α)) :
    Sparse.wf d ((k, v) :: rest) = true ↔ v ≠ d ∧ (∀ e ∈ rest, k < e.1) ∧ Sparse.wf d rest = true := by
  simp [Sparse.wf, and_assoc]

theorem Sparse.mem_write {α : Type} [DecidableEq α] (d : α) (l : List (Nat × α)) (a : Nat) (v : α) :
    ∀ e ∈ Sparse.write d l a v, e.1 = a ∨ e ∈ l := by
  induction l with
  | nil =>
    intro e he
    by_cases hv : v = d <;> simp_all [Sparse.write]
  | cons x rest ih =>
    obtain ⟨k, y⟩ := x
    intro e he
    simp only [Sparse.write] at he
    split at he <;> split at he
    · exact Or.inr he
    · simp only [List.mem_cons] at he ⊢
      rcases he with he | he
      · exact Or.inl (by simp [he])
      · exact Or.inr he
    · rename_i hk
      split at he
      · exact Or.inr (by simp [he])
      · simp only [List.mem_cons] at he ⊢
        rcases he with he | he
        · exact Or.inl (by simp [he])
        · exact Or.inr (Or.inr he)
    · simp only [List.mem_cons] at he ⊢
      rcases he with he | he
      · exact Or.inr (Or.inl he)
      · rcases ih e he with h | h
        · exact Or.inl h
        · exact Or.inr (Or.inr h)

/-- A write keeps the canonical form. -/
theorem Sparse.write_wf {α : Type} [DecidableEq α] (d : α) (l : List (Nat × α)) (a : Nat) (v : α)
    (h : Sparse.wf d l = true) : Sparse.wf d (Sparse.write d l a v) = true := by
  induction l with
  | nil => by_cases hv : v = d <;> simp [Sparse.write, Sparse.wf, hv]
  | cons x rest ih =>
    obtain ⟨k, y⟩ := x
    rw [Sparse.wf_cons] at h
    obtain ⟨hy, hk, hr⟩ := h
    have hall : Sparse.wf d ((k, y) :: rest) = true := (Sparse.wf_cons d k y rest).2 ⟨hy, hk, hr⟩
    simp only [Sparse.write]
    split
    · rename_i hak
      split
      · exact hall
      · rename_i hv
        refine (Sparse.wf_cons d a v _).2 ⟨hv, ?_, hall⟩
        intro e he
        simp only [List.mem_cons] at he
        rcases he with he | he
        · simp [he, hak]
        · exact Nat.lt_trans hak (hk e he)
    · split
      · rename_i hak
        split
        · exact hr
        · rename_i hv
          exact (Sparse.wf_cons d a v _).2 ⟨hv, hak ▸ hk, hr⟩
      · rename_i h1 h2
        refine (Sparse.wf_cons d k y _).2 ⟨hy, ?_, ih hr⟩
        intro e he
        rcases Sparse.mem_write d rest a v e he with h | h
        · omega
        · exact hk e h

/-- A read of the written key, in canonical form. -/
theorem Sparse.read_write_same {α : Type} [DecidableEq α] (d : α) (l : List (Nat × α)) (a : Nat) (v : α)
    (h : Sparse.wf d l = true) : Sparse.read d (Sparse.write d l a v) a = v := by
  induction l with
  | nil => by_cases hv : v = d <;> simp [Sparse.write, Sparse.read, hv]
  | cons x rest ih =>
    obtain ⟨k, y⟩ := x
    rw [Sparse.wf_cons] at h
    obtain ⟨-, hk, hr⟩ := h
    simp only [Sparse.write]
    split
    · rename_i hak
      split
      · rename_i hv
        rw [hv]
        refine Sparse.read_of_lt d _ a fun e he => ?_
        simp only [List.mem_cons] at he
        rcases he with he | he
        · simp [he, hak]
        · exact Nat.lt_trans hak (hk e he)
      · simp [Sparse.read]
    · split
      · rename_i hak
        split
        · rename_i hv
          rw [hv]
          exact Sparse.read_of_lt d _ a fun e he => hak ▸ hk e he
        · simp [Sparse.read]
      · rename_i h1 h2
        simp only [Sparse.read, if_neg h2]
        exact ih hr

/-- A read of any other key. -/
theorem Sparse.read_write_other {α : Type} [DecidableEq α] (d : α) (l : List (Nat × α)) (a b : Nat) (v : α)
    (h : Sparse.wf d l = true) (hab : b ≠ a) : Sparse.read d (Sparse.write d l a v) b = Sparse.read d l b := by
  induction l with
  | nil => by_cases hv : v = d <;> simp [Sparse.write, Sparse.read, hv, hab]
  | cons x rest ih =>
    obtain ⟨k, y⟩ := x
    rw [Sparse.wf_cons] at h
    obtain ⟨-, hk, hr⟩ := h
    simp only [Sparse.write]
    split
    · split
      · rfl
      · simp [Sparse.read, hab]
    · split
      · rename_i hak
        subst hak
        split
        · simp only [Sparse.read, if_neg hab]
        · simp only [Sparse.read, if_neg hab]
      · simp only [Sparse.read]
        split
        · rfl
        · exact ih hr

/-! ### The stream-buffer memory -/

/-- Everything the completion of a write in memory leaves unchanged. -/
theorem writeLanes_eq (a : Nat) (l : List Lane) (s : State) :
    writeLanes a l s = { s with memory := (writeLanes a l s).memory } := by
  induction l generalizing a s with
  | nil => rfl
  | cons x rest ih =>
    simp only [writeLanes]
    rw [ih]
    split <;> rfl

theorem writeMemory_eq (w : BusWrite) (s : State) : writeMemory w s = { s with memory := (writeMemory w s).memory } :=
  writeLanes_eq _ _ _

theorem writeByte_wf (a : Nat) (b : Byte) (s : State) (h : Memory.wf s.memory = true) :
    Memory.wf (writeByte a b s).memory = true := Sparse.write_wf _ _ _ _ h

theorem writeLanes_wf (a : Nat) (l : List Lane) (s : State) (h : Memory.wf s.memory = true) :
    Memory.wf (writeLanes a l s).memory = true := by
  induction l generalizing a s with
  | nil => exact h
  | cons x rest ih =>
    simp only [writeLanes]
    apply ih
    split
    · exact writeByte_wf _ _ _ h
    · exact h

/-- The memory's canonical form is kept by the completion of a write. -/
theorem writeMemory_wf (w : BusWrite) (s : State) (h : Memory.wf s.memory = true) :
    Memory.wf (writeMemory w s).memory = true := writeLanes_wf _ _ _ h

theorem readByte_writeByte_same (a : Nat) (b : Byte) (s : State) (h : Memory.wf s.memory = true) :
    readByte (writeByte a b s) a = b := Sparse.read_write_same _ _ _ _ h

theorem readByte_writeByte_other (a c : Nat) (b : Byte) (s : State) (h : Memory.wf s.memory = true)
    (hc : c % s.memorySize.bytes ≠ a % s.memorySize.bytes) : readByte (writeByte a b s) c = readByte s c :=
  Sparse.read_write_other _ _ _ _ _ h hc

@[simp] theorem writeLanes_memorySize (a : Nat) (l : List Lane) (s : State) : (writeLanes a l s).memorySize = s.memorySize := by
  rw [writeLanes_eq]

/-- A byte after a write reached memory is an enabled lane's, or as before. -/
theorem readByte_writeLanes (a : Nat) (l : List Lane) (s : State) (x : Nat) (h : Memory.wf s.memory = true) :
    readByte (writeLanes a l s) x = readByte s x ∨
      ∃ k y, l[k]? = some y ∧ y.enabled = true ∧ (a + k) % s.memorySize.bytes = x % s.memorySize.bytes
        ∧ readByte (writeLanes a l s) x = y.data := by
  induction l generalizing a s with
  | nil => exact Or.inl rfl
  | cons y rest ih =>
    simp only [writeLanes]
    by_cases hy : y.enabled = true
    · rw [if_pos hy]
      have hs : (writeByte a y.data s).memorySize = s.memorySize := rfl
      rcases ih (a + 1) (writeByte a y.data s) (writeByte_wf _ _ _ h) with h1 | ⟨k, z, hk, hz, he, hr⟩
      · rw [h1]
        by_cases hx : x % s.memorySize.bytes = a % s.memorySize.bytes
        · refine Or.inr ⟨0, y, rfl, hy, hx.symm, ?_⟩
          unfold readByte writeByte
          rw [hx]
          exact Sparse.read_write_same _ _ _ _ h
        · exact Or.inl (readByte_writeByte_other _ _ _ _ h hx)
      · refine Or.inr ⟨k + 1, z, by simpa using hk, hz, ?_, hr⟩
        rw [hs] at he
        rw [← he]
        congr 1
        omega
    · rw [if_neg hy]
      rcases ih (a + 1) s h with h1 | ⟨k, z, hk, hz, he, hr⟩
      · exact Or.inl h1
      · refine Or.inr ⟨k + 1, z, by simpa using hk, hz, ?_, hr⟩
        rw [← he]
        congr 1
        omega

/-! ### The serial store -/

theorem writeStore_wf (a : Nat) (l : List Byte) (m : List Host.Cell) (h : Eeprom.wf m = true) :
    Eeprom.wf (writeStore a l m) = true := by
  induction l generalizing a m with
  | nil => exact h
  | cons b rest ih => exact ih _ _ (Sparse.write_wf _ _ _ _ h)

/-- The store's canonical form is kept by a page write. -/
theorem writePage_wf (p : PageWrite) (m : List Host.Cell) (h : Eeprom.wf m = true) : Eeprom.wf (writePage p m) = true :=
  writeStore_wf _ _ _ h

/-- A byte after a page write: the page's bytes in their places, every other byte as before. -/
theorem read_writeStore (a : Nat) (l : List Byte) (m : List Host.Cell) (x : Nat) (h : Eeprom.wf m = true) :
    Sparse.read Config.storeUnlisted (writeStore a l m) x =
      if a ≤ x ∧ x < a + l.length then byteAt l (x - a) else Sparse.read Config.storeUnlisted m x := by
  induction l generalizing a m with
  | nil => simp [writeStore]
  | cons b rest ih =>
    simp only [writeStore]
    rw [ih (a + 1) _ (Sparse.write_wf _ _ _ _ h)]
    by_cases hx : x = a
    · subst hx
      have h1 : ¬ (x + 1 ≤ x ∧ x < x + 1 + rest.length) := by omega
      rw [if_neg h1, Sparse.read_write_same _ _ _ _ h, if_pos (by simp)]
      simp [byteAt]
    · rw [Sparse.read_write_other _ _ _ _ _ h hx]
      by_cases h1 : a + 1 ≤ x ∧ x < a + 1 + rest.length
      · rw [if_pos h1, if_pos (by simp only [List.length_cons]; omega)]
        have h2 : x - a = (x - (a + 1)) + 1 := by omega
        rw [h2]
        simp [byteAt]
      · rw [if_neg h1, if_neg (by simp only [List.length_cons]; omega)]

/-! ### Marks, slots, classes -/

/-- A line's mark after a line joins the dirty set. -/
theorem lineMark_markLine (n k : Nat) (b : Bool) (s : State) (h : Sparse.wf none s.report = true) :
    lineMark (markLine n b s) k = if k = n then some (b || (lineMark s n).getD false) else lineMark s k := by
  unfold lineMark markLine
  split
  · rename_i hk
    subst hk
    exact Sparse.read_write_same _ _ _ _ h
  · rename_i hk
    exact Sparse.read_write_other _ _ _ _ _ h hk

/-- The table of marks over the first lines. -/
theorem read_range (f : Nat → Option Bool) (m : Nat) (k : Nat) (c : Nat) :
    Sparse.read none ((List.range' c m).map fun n => (n, f n)) k = if c ≤ k ∧ k < c + m then f k else none := by
  induction m generalizing c with
  | zero => simp [Sparse.read]
  | succ m ih =>
    simp only [List.range'_succ, List.map_cons, Sparse.read]
    by_cases hk : k = c
    · subst hk
      rw [if_pos rfl, if_pos (by omega)]
    · rw [if_neg hk, ih]
      by_cases h1 : c + 1 ≤ k ∧ k < c + 1 + m
      · rw [if_pos h1, if_pos (by omega)]
      · rw [if_neg h1, if_neg (by omega)]

theorem lineMark_markAllLines (k : Nat) (s : State) :
    lineMark (markAllLines s) k = if k < lineCount then some ((lineMark s k).getD false) else none := by
  have h := read_range (fun n => some ((lineMark s n).getD false)) lineCount k 0
  simpa [lineMark, markAllLines, List.range_eq_range'] using h

theorem lineMark_markAllLinesClear (k : Nat) (s : State) :
    lineMark (markAllLinesClear s) k = if k < lineCount then some false else none := by
  have h := read_range (fun _ => some false) lineCount k 0
  simpa [lineMark, markAllLinesClear, List.range_eq_range'] using h

/-- A line that stands in the dirty set, with a set attention mark if `b` says so, still does after any line joins. -/
theorem lineMark_kept (n k : Nat) (b c : Bool) (s : State) (h : Sparse.wf none s.report = true)
    (hk : ∃ m, lineMark s k = some m ∧ (c = true → m = true)) :
    ∃ m, lineMark (markLine n b s) k = some m ∧ (c = true → m = true) := by
  rw [lineMark_markLine n k b s h]
  obtain ⟨m, hm, hc⟩ := hk
  split
  · rename_i e
    subst e
    exact ⟨_, rfl, fun h => by simp [hm, hc h]⟩
  · exact ⟨m, hm, hc⟩

theorem markLine_wf (n : Nat) (b : Bool) (s : State) (h : Sparse.wf none s.report = true) :
    Sparse.wf none (markLine n b s).report = true := Sparse.write_wf _ _ _ _ h

end Sys2Proof.Machine
end

