-- ==== Sys2Proof/Laws/Frames.lean ====
section
/-! SUPPORT. What each shared operation leaves unchanged, field by field (the fields it may change are those not listed). -/

namespace Sys2Proof.Machine

@[simp] theorem countDropped_frame (s : State):
    (countDropped s).pending = s.pending ∧ (countDropped s).path.mode = s.path.mode
    ∧ (countDropped s).path.windows = s.path.windows ∧ (countDropped s).path.refreshPeriod = s.path.refreshPeriod
    ∧ (countDropped s).path.tokensPerPeriod = s.path.tokensPerPeriod
    ∧ (countDropped s).path.periodRunning = s.path.periodRunning ∧ (countDropped s).path.tokens = s.path.tokens
    ∧ (countDropped s).path.waiting = s.path.waiting ∧ (countDropped s).path.passing = s.path.passing
    ∧ (countDropped s).path.port = s.path.port ∧ (countDropped s).path.results = s.path.results
    ∧ (countDropped s).path.attn = s.path.attn ∧ (countDropped s).path.returned = s.path.returned
    ∧ (countDropped s).intake = s.intake ∧ (countDropped s).decoder = s.decoder ∧ (countDropped s).time = s.time
    ∧ (countDropped s).keys = s.keys ∧ (countDropped s).showings = s.showings
    ∧ (countDropped s).presentation = s.presentation ∧ (countDropped s).lock = s.lock
    ∧ (countDropped s).account = s.account ∧ (countDropped s).journal = s.journal
    ∧ (countDropped s).requests = s.requests ∧ (countDropped s).store = s.store
    ∧ (countDropped s).settings = s.settings ∧ (countDropped s).memory = s.memory
    ∧ (countDropped s).memorySize = s.memorySize ∧ (countDropped s).freeCount = s.freeCount := by
  unfold countDropped
  try dsimp only
  repeat' split
  all_goals simp

@[simp] theorem countHeaderError_frame (s : State):
    (countHeaderError s).pending = s.pending ∧ (countHeaderError s).path = s.path
    ∧ (countHeaderError s).intake.tags = s.intake.tags ∧ (countHeaderError s).intake.context = s.intake.context
    ∧ (countHeaderError s).intake.staging = s.intake.staging
    ∧ (countHeaderError s).intake.abandoned = s.intake.abandoned ∧ (countHeaderError s).decoder = s.decoder
    ∧ (countHeaderError s).time = s.time ∧ (countHeaderError s).keys = s.keys
    ∧ (countHeaderError s).showings = s.showings ∧ (countHeaderError s).presentation = s.presentation
    ∧ (countHeaderError s).lock = s.lock ∧ (countHeaderError s).account = s.account
    ∧ (countHeaderError s).journal = s.journal ∧ (countHeaderError s).requests = s.requests
    ∧ (countHeaderError s).store = s.store ∧ (countHeaderError s).settings = s.settings
    ∧ (countHeaderError s).memory = s.memory ∧ (countHeaderError s).memorySize = s.memorySize
    ∧ (countHeaderError s).freeCount = s.freeCount := by
  unfold countHeaderError
  try dsimp only
  repeat' split
  all_goals simp

@[simp] theorem countAbandoned_frame (s : State):
    (countAbandoned s).pending = s.pending ∧ (countAbandoned s).path = s.path
    ∧ (countAbandoned s).intake.tags = s.intake.tags ∧ (countAbandoned s).intake.context = s.intake.context
    ∧ (countAbandoned s).intake.staging = s.intake.staging
    ∧ (countAbandoned s).intake.headerErrors = s.intake.headerErrors ∧ (countAbandoned s).decoder = s.decoder
    ∧ (countAbandoned s).time = s.time ∧ (countAbandoned s).keys = s.keys ∧ (countAbandoned s).showings = s.showings
    ∧ (countAbandoned s).presentation = s.presentation ∧ (countAbandoned s).lock = s.lock
    ∧ (countAbandoned s).account = s.account ∧ (countAbandoned s).journal = s.journal
    ∧ (countAbandoned s).requests = s.requests ∧ (countAbandoned s).store = s.store
    ∧ (countAbandoned s).settings = s.settings ∧ (countAbandoned s).memory = s.memory
    ∧ (countAbandoned s).memorySize = s.memorySize ∧ (countAbandoned s).freeCount = s.freeCount := by
  unfold countAbandoned
  try dsimp only
  repeat' split
  all_goals simp

@[simp] theorem countTagFailure_frame (s : State):
    (countTagFailure s).pending = s.pending ∧ (countTagFailure s).path = s.path
    ∧ (countTagFailure s).intake = s.intake ∧ (countTagFailure s).decoder.lastNumber = s.decoder.lastNumber
    ∧ (countTagFailure s).decoder.lastMaintenanceTag = s.decoder.lastMaintenanceTag
    ∧ (countTagFailure s).decoder.ignored = s.decoder.ignored
    ∧ (countTagFailure s).decoder.handOff = s.decoder.handOff ∧ (countTagFailure s).time = s.time
    ∧ (countTagFailure s).keys = s.keys ∧ (countTagFailure s).showings = s.showings
    ∧ (countTagFailure s).presentation = s.presentation ∧ (countTagFailure s).lock = s.lock
    ∧ (countTagFailure s).account = s.account ∧ (countTagFailure s).journal = s.journal
    ∧ (countTagFailure s).requests = s.requests ∧ (countTagFailure s).store = s.store
    ∧ (countTagFailure s).settings = s.settings ∧ (countTagFailure s).memory = s.memory
    ∧ (countTagFailure s).memorySize = s.memorySize ∧ (countTagFailure s).freeCount = s.freeCount := by
  unfold countTagFailure
  try dsimp only
  repeat' split
  all_goals simp

@[simp] theorem countIgnored_frame (s : State):
    (countIgnored s).pending = s.pending ∧ (countIgnored s).path = s.path ∧ (countIgnored s).intake = s.intake
    ∧ (countIgnored s).decoder.lastNumber = s.decoder.lastNumber
    ∧ (countIgnored s).decoder.lastMaintenanceTag = s.decoder.lastMaintenanceTag
    ∧ (countIgnored s).decoder.tagFailures = s.decoder.tagFailures
    ∧ (countIgnored s).decoder.handOff = s.decoder.handOff ∧ (countIgnored s).time = s.time
    ∧ (countIgnored s).keys = s.keys ∧ (countIgnored s).showings = s.showings
    ∧ (countIgnored s).presentation = s.presentation ∧ (countIgnored s).lock = s.lock
    ∧ (countIgnored s).account = s.account ∧ (countIgnored s).journal = s.journal
    ∧ (countIgnored s).requests = s.requests ∧ (countIgnored s).store = s.store
    ∧ (countIgnored s).settings = s.settings ∧ (countIgnored s).memory = s.memory
    ∧ (countIgnored s).memorySize = s.memorySize ∧ (countIgnored s).freeCount = s.freeCount := by
  unfold countIgnored
  try dsimp only
  repeat' split
  all_goals simp

@[simp] theorem countNoKey_frame (s : State):
    (countNoKey s).pending = s.pending ∧ (countNoKey s).path = s.path ∧ (countNoKey s).intake = s.intake
    ∧ (countNoKey s).decoder = s.decoder ∧ (countNoKey s).time = s.time ∧ (countNoKey s).keys = s.keys
    ∧ (countNoKey s).showings = s.showings ∧ (countNoKey s).presentation.summary = s.presentation.summary
    ∧ (countNoKey s).lock = s.lock ∧ (countNoKey s).account = s.account ∧ (countNoKey s).journal = s.journal
    ∧ (countNoKey s).requests = s.requests ∧ (countNoKey s).store = s.store ∧ (countNoKey s).settings = s.settings
    ∧ (countNoKey s).memory = s.memory ∧ (countNoKey s).memorySize = s.memorySize
    ∧ (countNoKey s).freeCount = s.freeCount := by
  unfold countNoKey
  try dsimp only
  repeat' split
  all_goals simp

@[simp] theorem deliverResult_frame (k : Nat) (a : Answer) (s : State):
    (deliverResult k a s).pending = s.pending ∧ (deliverResult k a s).path.mode = s.path.mode
    ∧ (deliverResult k a s).path.windows = s.path.windows
    ∧ (deliverResult k a s).path.refreshPeriod = s.path.refreshPeriod
    ∧ (deliverResult k a s).path.tokensPerPeriod = s.path.tokensPerPeriod
    ∧ (deliverResult k a s).path.periodRunning = s.path.periodRunning
    ∧ (deliverResult k a s).path.tokens = s.path.tokens ∧ (deliverResult k a s).path.waiting = s.path.waiting
    ∧ (deliverResult k a s).path.passing = s.path.passing ∧ (deliverResult k a s).path.port = s.path.port
    ∧ (deliverResult k a s).path.attn = s.path.attn ∧ (deliverResult k a s).path.dropped = s.path.dropped
    ∧ (deliverResult k a s).path.returned = s.path.returned ∧ (deliverResult k a s).intake = s.intake
    ∧ (deliverResult k a s).decoder = s.decoder ∧ (deliverResult k a s).time = s.time
    ∧ (deliverResult k a s).keys = s.keys ∧ (deliverResult k a s).showings = s.showings
    ∧ (deliverResult k a s).presentation = s.presentation ∧ (deliverResult k a s).lock = s.lock
    ∧ (deliverResult k a s).account = s.account ∧ (deliverResult k a s).journal = s.journal
    ∧ (deliverResult k a s).requests.pendingMarks = s.requests.pendingMarks ∧ (deliverResult k a s).report = s.report
    ∧ (deliverResult k a s).store = s.store ∧ (deliverResult k a s).settings = s.settings
    ∧ (deliverResult k a s).memory = s.memory ∧ (deliverResult k a s).memorySize = s.memorySize
    ∧ (deliverResult k a s).freeCount = s.freeCount := by
  unfold deliverResult
  try dsimp only
  repeat' split
  all_goals simp

/-! ### The store queue -/

@[simp] theorem joinQueue_frame (j : Job) (h : HeldJob) (s : State):
    (joinQueue j h s).pending = s.pending ∧ (joinQueue j h s).path = s.path ∧ (joinQueue j h s).intake = s.intake
    ∧ (joinQueue j h s).decoder = s.decoder ∧ (joinQueue j h s).time = s.time ∧ (joinQueue j h s).keys = s.keys
    ∧ (joinQueue j h s).showings = s.showings ∧ (joinQueue j h s).presentation = s.presentation
    ∧ (joinQueue j h s).lock = s.lock ∧ (joinQueue j h s).account = s.account ∧ (joinQueue j h s).journal = s.journal
    ∧ (joinQueue j h s).requests = s.requests ∧ (joinQueue j h s).report = s.report
    ∧ (joinQueue j h s).store.state = s.store.state ∧ (joinQueue j h s).store.inFlight = s.store.inFlight
    ∧ (joinQueue j h s).store.pageNumber = s.store.pageNumber
    ∧ (joinQueue j h s).store.storePresent = s.store.storePresent ∧ (joinQueue j h s).store.bypass = s.store.bypass
    ∧ (joinQueue j h s).store.phase = s.store.phase ∧ (joinQueue j h s).store.image = s.store.image
    ∧ (joinQueue j h s).store.eeprom = s.store.eeprom ∧ (joinQueue j h s).settings = s.settings
    ∧ (joinQueue j h s).memory = s.memory ∧ (joinQueue j h s).memorySize = s.memorySize
    ∧ (joinQueue j h s).freeCount = s.freeCount := by
  unfold joinQueue
  try dsimp only
  repeat' split
  all_goals simp

@[simp] theorem requestStay_frame (s : State):
    (requestStay s).pending = s.pending ∧ (requestStay s).path = s.path ∧ (requestStay s).intake = s.intake
    ∧ (requestStay s).decoder = s.decoder ∧ (requestStay s).time = s.time ∧ (requestStay s).keys = s.keys
    ∧ (requestStay s).showings = s.showings ∧ (requestStay s).presentation = s.presentation
    ∧ (requestStay s).lock = s.lock ∧ (requestStay s).account = s.account ∧ (requestStay s).journal = s.journal
    ∧ (requestStay s).requests = s.requests ∧ (requestStay s).report = s.report
    ∧ (requestStay s).store.state = s.store.state ∧ (requestStay s).store.inFlight = s.store.inFlight
    ∧ (requestStay s).store.pageNumber = s.store.pageNumber
    ∧ (requestStay s).store.storePresent = s.store.storePresent ∧ (requestStay s).store.bypass = s.store.bypass
    ∧ (requestStay s).store.phase = s.store.phase ∧ (requestStay s).store.image = s.store.image
    ∧ (requestStay s).store.eeprom = s.store.eeprom ∧ (requestStay s).settings = s.settings
    ∧ (requestStay s).memory = s.memory ∧ (requestStay s).memorySize = s.memorySize
    ∧ (requestStay s).freeCount = s.freeCount := by
  unfold requestStay
  try dsimp only
  repeat' split
  all_goals simp

@[simp] theorem requestMark_frame (s : State):
    (requestMark s).pending = s.pending ∧ (requestMark s).path = s.path ∧ (requestMark s).intake = s.intake
    ∧ (requestMark s).decoder = s.decoder ∧ (requestMark s).time = s.time ∧ (requestMark s).keys = s.keys
    ∧ (requestMark s).showings = s.showings ∧ (requestMark s).presentation = s.presentation
    ∧ (requestMark s).lock = s.lock ∧ (requestMark s).account = s.account ∧ (requestMark s).journal = s.journal
    ∧ (requestMark s).requests = s.requests ∧ (requestMark s).report = s.report
    ∧ (requestMark s).store.state = s.store.state ∧ (requestMark s).store.inFlight = s.store.inFlight
    ∧ (requestMark s).store.pageNumber = s.store.pageNumber
    ∧ (requestMark s).store.storePresent = s.store.storePresent ∧ (requestMark s).store.bypass = s.store.bypass
    ∧ (requestMark s).store.phase = s.store.phase ∧ (requestMark s).store.image = s.store.image
    ∧ (requestMark s).store.eeprom = s.store.eeprom ∧ (requestMark s).settings = s.settings
    ∧ (requestMark s).memory = s.memory ∧ (requestMark s).memorySize = s.memorySize
    ∧ (requestMark s).freeCount = s.freeCount := by
  unfold requestMark
  try dsimp only
  repeat' split
  all_goals simp

@[simp] theorem requestJournal_frame (r : ChargeRecord) (s : State):
    (requestJournal r s).pending = s.pending ∧ (requestJournal r s).path = s.path
    ∧ (requestJournal r s).intake = s.intake ∧ (requestJournal r s).decoder = s.decoder
    ∧ (requestJournal r s).time = s.time ∧ (requestJournal r s).keys = s.keys
    ∧ (requestJournal r s).showings = s.showings ∧ (requestJournal r s).presentation = s.presentation
    ∧ (requestJournal r s).lock = s.lock ∧ (requestJournal r s).account = s.account
    ∧ (requestJournal r s).journal = s.journal ∧ (requestJournal r s).requests = s.requests
    ∧ (requestJournal r s).report = s.report ∧ (requestJournal r s).store.state = s.store.state
    ∧ (requestJournal r s).store.heldOver = s.store.heldOver ∧ (requestJournal r s).store.inFlight = s.store.inFlight
    ∧ (requestJournal r s).store.pageNumber = s.store.pageNumber
    ∧ (requestJournal r s).store.storePresent = s.store.storePresent
    ∧ (requestJournal r s).store.bypass = s.store.bypass ∧ (requestJournal r s).store.phase = s.store.phase
    ∧ (requestJournal r s).store.image = s.store.image ∧ (requestJournal r s).store.eeprom = s.store.eeprom
    ∧ (requestJournal r s).settings = s.settings ∧ (requestJournal r s).memory = s.memory
    ∧ (requestJournal r s).memorySize = s.memorySize ∧ (requestJournal r s).freeCount = s.freeCount := by
  unfold requestJournal
  try dsimp only
  repeat' split
  all_goals simp

@[simp] theorem raiseGeneration_frame (s : State):
    (raiseGeneration s).pending = s.pending ∧ (raiseGeneration s).path = s.path
    ∧ (raiseGeneration s).intake = s.intake ∧ (raiseGeneration s).decoder = s.decoder
    ∧ (raiseGeneration s).time = s.time ∧ (raiseGeneration s).keys = s.keys
    ∧ (raiseGeneration s).showings = s.showings ∧ (raiseGeneration s).presentation = s.presentation
    ∧ (raiseGeneration s).lock = s.lock ∧ (raiseGeneration s).account.stay = s.account.stay
    ∧ (raiseGeneration s).account.purchases = s.account.purchases
    ∧ (raiseGeneration s).account.tariffs = s.account.tariffs
    ∧ (raiseGeneration s).account.pricing = s.account.pricing ∧ (raiseGeneration s).account.held = s.account.held
    ∧ (raiseGeneration s).account.freeView = s.account.freeView
    ∧ (raiseGeneration s).account.pendingBuys = s.account.pendingBuys ∧ (raiseGeneration s).journal = s.journal
    ∧ (raiseGeneration s).requests = s.requests ∧ (raiseGeneration s).report = s.report
    ∧ (raiseGeneration s).store.state = s.store.state ∧ (raiseGeneration s).store.inFlight = s.store.inFlight
    ∧ (raiseGeneration s).store.pageNumber = s.store.pageNumber
    ∧ (raiseGeneration s).store.storePresent = s.store.storePresent
    ∧ (raiseGeneration s).store.bypass = s.store.bypass ∧ (raiseGeneration s).store.phase = s.store.phase
    ∧ (raiseGeneration s).store.image = s.store.image ∧ (raiseGeneration s).store.eeprom = s.store.eeprom
    ∧ (raiseGeneration s).settings = s.settings ∧ (raiseGeneration s).memory = s.memory
    ∧ (raiseGeneration s).memorySize = s.memorySize ∧ (raiseGeneration s).freeCount = s.freeCount := by
  unfold raiseGeneration
  try dsimp only
  repeat' split
  all_goals simp

@[simp] theorem setStoreState_frame (x : StoreState) (s : State):
    (setStoreState x s).pending = s.pending ∧ (setStoreState x s).path = s.path
    ∧ (setStoreState x s).intake = s.intake ∧ (setStoreState x s).decoder = s.decoder
    ∧ (setStoreState x s).time = s.time ∧ (setStoreState x s).keys = s.keys
    ∧ (setStoreState x s).showings = s.showings ∧ (setStoreState x s).presentation = s.presentation
    ∧ (setStoreState x s).lock = s.lock ∧ (setStoreState x s).account = s.account
    ∧ (setStoreState x s).journal = s.journal ∧ (setStoreState x s).requests = s.requests
    ∧ (setStoreState x s).store.queue = s.store.queue ∧ (setStoreState x s).store.heldOver = s.store.heldOver
    ∧ (setStoreState x s).store.inFlight = s.store.inFlight
    ∧ (setStoreState x s).store.pageNumber = s.store.pageNumber
    ∧ (setStoreState x s).store.storePresent = s.store.storePresent
    ∧ (setStoreState x s).store.bypass = s.store.bypass ∧ (setStoreState x s).store.phase = s.store.phase
    ∧ (setStoreState x s).store.image = s.store.image ∧ (setStoreState x s).store.eeprom = s.store.eeprom
    ∧ (setStoreState x s).settings = s.settings ∧ (setStoreState x s).memory = s.memory
    ∧ (setStoreState x s).memorySize = s.memorySize ∧ (setStoreState x s).freeCount = s.freeCount := by
  unfold setStoreState
  try dsimp only
  repeat' split
  all_goals simp

@[simp] theorem launchJob_frame (j : Job) (s : State):
    (launchJob j s).pending = s.pending ∧ (launchJob j s).path = s.path ∧ (launchJob j s).intake = s.intake
    ∧ (launchJob j s).decoder = s.decoder ∧ (launchJob j s).time = s.time ∧ (launchJob j s).keys = s.keys
    ∧ (launchJob j s).showings = s.showings ∧ (launchJob j s).presentation = s.presentation
    ∧ (launchJob j s).lock = s.lock ∧ (launchJob j s).account = s.account ∧ (launchJob j s).journal = s.journal
    ∧ (launchJob j s).requests = s.requests ∧ (launchJob j s).report = s.report
    ∧ (launchJob j s).store.state = s.store.state ∧ (launchJob j s).store.queue = s.store.queue
    ∧ (launchJob j s).store.heldOver = s.store.heldOver ∧ (launchJob j s).store.storePresent = s.store.storePresent
    ∧ (launchJob j s).store.bypass = s.store.bypass ∧ (launchJob j s).store.phase = s.store.phase
    ∧ (launchJob j s).store.image = s.store.image ∧ (launchJob j s).store.eeprom = s.store.eeprom
    ∧ (launchJob j s).settings = s.settings ∧ (launchJob j s).memory = s.memory
    ∧ (launchJob j s).memorySize = s.memorySize ∧ (launchJob j s).freeCount = s.freeCount := by
  unfold launchJob
  try dsimp only
  repeat' split
  all_goals simp

@[simp] theorem beginJob_frame (s : State):
    (beginJob s).pending = s.pending ∧ (beginJob s).path = s.path ∧ (beginJob s).intake = s.intake
    ∧ (beginJob s).decoder = s.decoder ∧ (beginJob s).time = s.time ∧ (beginJob s).keys = s.keys
    ∧ (beginJob s).showings = s.showings ∧ (beginJob s).presentation = s.presentation ∧ (beginJob s).lock = s.lock
    ∧ (beginJob s).account = s.account ∧ (beginJob s).journal = s.journal ∧ (beginJob s).requests = s.requests
    ∧ (beginJob s).store.storePresent = s.store.storePresent ∧ (beginJob s).store.bypass = s.store.bypass
    ∧ (beginJob s).store.phase = s.store.phase ∧ (beginJob s).store.image = s.store.image
    ∧ (beginJob s).store.eeprom = s.store.eeprom ∧ (beginJob s).settings = s.settings ∧ (beginJob s).memory = s.memory
    ∧ (beginJob s).memorySize = s.memorySize ∧ (beginJob s).freeCount = s.freeCount := by
  unfold beginJob
  try dsimp only
  repeat' split
  all_goals simp

@[simp] theorem startJob_frame (s : State):
    (startJob s).pending = s.pending ∧ (startJob s).path = s.path ∧ (startJob s).intake = s.intake
    ∧ (startJob s).decoder = s.decoder ∧ (startJob s).time = s.time ∧ (startJob s).keys = s.keys
    ∧ (startJob s).showings = s.showings ∧ (startJob s).presentation = s.presentation ∧ (startJob s).lock = s.lock
    ∧ (startJob s).account = s.account ∧ (startJob s).journal = s.journal ∧ (startJob s).requests = s.requests
    ∧ (startJob s).store.storePresent = s.store.storePresent ∧ (startJob s).store.bypass = s.store.bypass
    ∧ (startJob s).store.phase = s.store.phase ∧ (startJob s).store.image = s.store.image
    ∧ (startJob s).store.eeprom = s.store.eeprom ∧ (startJob s).settings = s.settings ∧ (startJob s).memory = s.memory
    ∧ (startJob s).memorySize = s.memorySize ∧ (startJob s).freeCount = s.freeCount := by
  unfold startJob
  try dsimp only
  repeat' split
  all_goals simp

@[simp] theorem nextJob_frame (s : State):
    (nextJob s).pending = s.pending ∧ (nextJob s).path = s.path ∧ (nextJob s).intake = s.intake
    ∧ (nextJob s).decoder = s.decoder ∧ (nextJob s).time = s.time ∧ (nextJob s).keys = s.keys
    ∧ (nextJob s).showings = s.showings ∧ (nextJob s).presentation = s.presentation ∧ (nextJob s).lock = s.lock
    ∧ (nextJob s).account = s.account ∧ (nextJob s).journal = s.journal ∧ (nextJob s).requests = s.requests
    ∧ (nextJob s).store.storePresent = s.store.storePresent ∧ (nextJob s).store.bypass = s.store.bypass
    ∧ (nextJob s).store.phase = s.store.phase ∧ (nextJob s).store.image = s.store.image
    ∧ (nextJob s).store.eeprom = s.store.eeprom ∧ (nextJob s).settings = s.settings ∧ (nextJob s).memory = s.memory
    ∧ (nextJob s).memorySize = s.memorySize ∧ (nextJob s).freeCount = s.freeCount := by
  unfold nextJob
  try dsimp only
  repeat' split
  all_goals simp

/-! ### The Lock Unit -/

@[simp] theorem setLock_frame (l : Lock) (s : State):
    (setLock l s).pending = s.pending ∧ (setLock l s).path = s.path ∧ (setLock l s).intake = s.intake
    ∧ (setLock l s).decoder = s.decoder ∧ (setLock l s).time = s.time ∧ (setLock l s).keys = s.keys
    ∧ (setLock l s).showings = s.showings ∧ (setLock l s).presentation = s.presentation
    ∧ (setLock l s).account = s.account ∧ (setLock l s).journal = s.journal ∧ (setLock l s).requests = s.requests
    ∧ (setLock l s).store = s.store ∧ (setLock l s).settings = s.settings ∧ (setLock l s).memory = s.memory
    ∧ (setLock l s).memorySize = s.memorySize ∧ (setLock l s).freeCount = s.freeCount := by
  unfold setLock
  try dsimp only
  repeat' split
  all_goals simp

@[simp] theorem lockCheckOut_frame (s : State):
    (lockCheckOut s).pending = s.pending ∧ (lockCheckOut s).path = s.path ∧ (lockCheckOut s).intake = s.intake
    ∧ (lockCheckOut s).decoder = s.decoder ∧ (lockCheckOut s).time = s.time ∧ (lockCheckOut s).keys = s.keys
    ∧ (lockCheckOut s).showings = s.showings ∧ (lockCheckOut s).presentation = s.presentation
    ∧ (lockCheckOut s).account = s.account ∧ (lockCheckOut s).journal = s.journal
    ∧ (lockCheckOut s).requests = s.requests ∧ (lockCheckOut s).store = s.store
    ∧ (lockCheckOut s).settings = s.settings ∧ (lockCheckOut s).memory = s.memory
    ∧ (lockCheckOut s).memorySize = s.memorySize ∧ (lockCheckOut s).freeCount = s.freeCount := by
  unfold lockCheckOut
  try dsimp only
  repeat' split
  all_goals simp

@[simp] theorem lockCheckIn_frame (room dflt : Nat) (pin : Option Pin) (s : State):
    (lockCheckIn room dflt pin s).pending = s.pending ∧ (lockCheckIn room dflt pin s).path = s.path
    ∧ (lockCheckIn room dflt pin s).intake = s.intake ∧ (lockCheckIn room dflt pin s).decoder = s.decoder
    ∧ (lockCheckIn room dflt pin s).time = s.time ∧ (lockCheckIn room dflt pin s).keys = s.keys
    ∧ (lockCheckIn room dflt pin s).showings = s.showings
    ∧ (lockCheckIn room dflt pin s).presentation = s.presentation ∧ (lockCheckIn room dflt pin s).account = s.account
    ∧ (lockCheckIn room dflt pin s).journal = s.journal ∧ (lockCheckIn room dflt pin s).requests = s.requests
    ∧ (lockCheckIn room dflt pin s).store = s.store ∧ (lockCheckIn room dflt pin s).settings = s.settings
    ∧ (lockCheckIn room dflt pin s).memory = s.memory ∧ (lockCheckIn room dflt pin s).memorySize = s.memorySize
    ∧ (lockCheckIn room dflt pin s).freeCount = s.freeCount := by
  unfold lockCheckIn
  try dsimp only
  repeat' split
  all_goals simp

@[simp] theorem ceilingMessage_frame (b : Bool) (n : Nat) (s : State):
    (ceilingMessage b n s).pending = s.pending ∧ (ceilingMessage b n s).path = s.path
    ∧ (ceilingMessage b n s).intake = s.intake ∧ (ceilingMessage b n s).decoder = s.decoder
    ∧ (ceilingMessage b n s).time = s.time ∧ (ceilingMessage b n s).keys = s.keys
    ∧ (ceilingMessage b n s).showings = s.showings ∧ (ceilingMessage b n s).presentation = s.presentation
    ∧ (ceilingMessage b n s).account.stay = s.account.stay
    ∧ (ceilingMessage b n s).account.purchases = s.account.purchases
    ∧ (ceilingMessage b n s).account.tariffs = s.account.tariffs
    ∧ (ceilingMessage b n s).account.pricing = s.account.pricing
    ∧ (ceilingMessage b n s).account.held = s.account.held
    ∧ (ceilingMessage b n s).account.freeView = s.account.freeView
    ∧ (ceilingMessage b n s).account.pendingBuys = s.account.pendingBuys ∧ (ceilingMessage b n s).journal = s.journal
    ∧ (ceilingMessage b n s).requests = s.requests ∧ (ceilingMessage b n s).store.state = s.store.state
    ∧ (ceilingMessage b n s).store.inFlight = s.store.inFlight
    ∧ (ceilingMessage b n s).store.pageNumber = s.store.pageNumber
    ∧ (ceilingMessage b n s).store.storePresent = s.store.storePresent
    ∧ (ceilingMessage b n s).store.bypass = s.store.bypass ∧ (ceilingMessage b n s).store.phase = s.store.phase
    ∧ (ceilingMessage b n s).store.image = s.store.image ∧ (ceilingMessage b n s).store.eeprom = s.store.eeprom
    ∧ (ceilingMessage b n s).settings = s.settings ∧ (ceilingMessage b n s).memory = s.memory
    ∧ (ceilingMessage b n s).memorySize = s.memorySize ∧ (ceilingMessage b n s).freeCount = s.freeCount := by
  unfold ceilingMessage
  try dsimp only
  repeat' split
  all_goals simp

@[simp] theorem relockRequest_frame (n : Nat) (s : State):
    (relockRequest n s).pending = s.pending ∧ (relockRequest n s).path = s.path
    ∧ (relockRequest n s).intake = s.intake ∧ (relockRequest n s).decoder = s.decoder
    ∧ (relockRequest n s).time = s.time ∧ (relockRequest n s).keys = s.keys
    ∧ (relockRequest n s).showings = s.showings ∧ (relockRequest n s).presentation = s.presentation
    ∧ (relockRequest n s).account.stay = s.account.stay ∧ (relockRequest n s).account.purchases = s.account.purchases
    ∧ (relockRequest n s).account.tariffs = s.account.tariffs
    ∧ (relockRequest n s).account.pricing = s.account.pricing ∧ (relockRequest n s).account.held = s.account.held
    ∧ (relockRequest n s).account.freeView = s.account.freeView
    ∧ (relockRequest n s).account.pendingBuys = s.account.pendingBuys ∧ (relockRequest n s).journal = s.journal
    ∧ (relockRequest n s).requests = s.requests ∧ (relockRequest n s).store.storePresent = s.store.storePresent
    ∧ (relockRequest n s).store.bypass = s.store.bypass ∧ (relockRequest n s).store.phase = s.store.phase
    ∧ (relockRequest n s).store.image = s.store.image ∧ (relockRequest n s).store.eeprom = s.store.eeprom
    ∧ (relockRequest n s).settings = s.settings ∧ (relockRequest n s).memory = s.memory
    ∧ (relockRequest n s).memorySize = s.memorySize ∧ (relockRequest n s).freeCount = s.freeCount := by
  unfold relockRequest
  try dsimp only
  repeat' split
  all_goals simp

@[simp] theorem wrongPin_frame (s : State):
    (wrongPin s).pending = s.pending ∧ (wrongPin s).path = s.path ∧ (wrongPin s).intake = s.intake
    ∧ (wrongPin s).decoder = s.decoder ∧ (wrongPin s).time = s.time ∧ (wrongPin s).keys = s.keys
    ∧ (wrongPin s).showings = s.showings ∧ (wrongPin s).presentation = s.presentation
    ∧ (wrongPin s).account = s.account ∧ (wrongPin s).journal = s.journal ∧ (wrongPin s).requests = s.requests
    ∧ (wrongPin s).store = s.store ∧ (wrongPin s).settings = s.settings ∧ (wrongPin s).memory = s.memory
    ∧ (wrongPin s).memorySize = s.memorySize ∧ (wrongPin s).freeCount = s.freeCount := by
  unfold wrongPin
  try dsimp only
  repeat' split
  all_goals simp

@[simp] theorem startUnlock_frame (n : Nat) (s : State):
    (startUnlock n s).pending = s.pending ∧ (startUnlock n s).path = s.path ∧ (startUnlock n s).intake = s.intake
    ∧ (startUnlock n s).decoder = s.decoder ∧ (startUnlock n s).time = s.time ∧ (startUnlock n s).keys = s.keys
    ∧ (startUnlock n s).showings = s.showings ∧ (startUnlock n s).presentation = s.presentation
    ∧ (startUnlock n s).account = s.account ∧ (startUnlock n s).journal = s.journal
    ∧ (startUnlock n s).requests = s.requests ∧ (startUnlock n s).store = s.store
    ∧ (startUnlock n s).settings = s.settings ∧ (startUnlock n s).memory = s.memory
    ∧ (startUnlock n s).memorySize = s.memorySize ∧ (startUnlock n s).freeCount = s.freeCount := by
  unfold startUnlock
  try dsimp only
  repeat' split
  all_goals simp

@[simp] theorem unlockRequest_frame (d : Pin) (n : Nat) (s : State):
    ((unlockRequest d n s).1).pending = s.pending ∧ ((unlockRequest d n s).1).path = s.path
    ∧ ((unlockRequest d n s).1).intake = s.intake ∧ ((unlockRequest d n s).1).decoder = s.decoder
    ∧ ((unlockRequest d n s).1).time = s.time ∧ ((unlockRequest d n s).1).keys = s.keys
    ∧ ((unlockRequest d n s).1).showings = s.showings ∧ ((unlockRequest d n s).1).presentation = s.presentation
    ∧ ((unlockRequest d n s).1).account = s.account ∧ ((unlockRequest d n s).1).journal = s.journal
    ∧ ((unlockRequest d n s).1).requests = s.requests ∧ ((unlockRequest d n s).1).store = s.store
    ∧ ((unlockRequest d n s).1).settings = s.settings ∧ ((unlockRequest d n s).1).memory = s.memory
    ∧ ((unlockRequest d n s).1).memorySize = s.memorySize ∧ ((unlockRequest d n s).1).freeCount = s.freeCount := by
  unfold unlockRequest
  try dsimp only
  repeat' split
  all_goals simp

@[simp] theorem endUnlock_frame (s : State):
    (endUnlock s).pending = s.pending ∧ (endUnlock s).path = s.path ∧ (endUnlock s).intake = s.intake
    ∧ (endUnlock s).decoder = s.decoder ∧ (endUnlock s).time = s.time ∧ (endUnlock s).keys = s.keys
    ∧ (endUnlock s).showings = s.showings ∧ (endUnlock s).presentation = s.presentation
    ∧ (endUnlock s).account = s.account ∧ (endUnlock s).journal = s.journal ∧ (endUnlock s).requests = s.requests
    ∧ (endUnlock s).store = s.store ∧ (endUnlock s).settings = s.settings ∧ (endUnlock s).memory = s.memory
    ∧ (endUnlock s).memorySize = s.memorySize ∧ (endUnlock s).freeCount = s.freeCount := by
  unfold endUnlock
  try dsimp only
  repeat' split
  all_goals simp

@[simp] theorem endLockout_frame (s : State):
    (endLockout s).pending = s.pending ∧ (endLockout s).path = s.path ∧ (endLockout s).intake = s.intake
    ∧ (endLockout s).decoder = s.decoder ∧ (endLockout s).time = s.time ∧ (endLockout s).keys = s.keys
    ∧ (endLockout s).showings = s.showings ∧ (endLockout s).presentation = s.presentation
    ∧ (endLockout s).account = s.account ∧ (endLockout s).journal = s.journal ∧ (endLockout s).requests = s.requests
    ∧ (endLockout s).store = s.store ∧ (endLockout s).settings = s.settings ∧ (endLockout s).memory = s.memory
    ∧ (endLockout s).memorySize = s.memorySize ∧ (endLockout s).freeCount = s.freeCount := by
  unfold endLockout
  try dsimp only
  repeat' split
  all_goals simp

/-! ### Showings, account and journal -/

@[simp] theorem serviceAddMessage_frame (r : ServiceRecord) (s : State):
    (serviceAddMessage r s).pending = s.pending ∧ (serviceAddMessage r s).path = s.path
    ∧ (serviceAddMessage r s).intake = s.intake ∧ (serviceAddMessage r s).decoder.lastNumber = s.decoder.lastNumber
    ∧ (serviceAddMessage r s).decoder.lastMaintenanceTag = s.decoder.lastMaintenanceTag
    ∧ (serviceAddMessage r s).decoder.tagFailures = s.decoder.tagFailures
    ∧ (serviceAddMessage r s).decoder.handOff = s.decoder.handOff ∧ (serviceAddMessage r s).time = s.time
    ∧ (serviceAddMessage r s).keys = s.keys ∧ (serviceAddMessage r s).showings.events = s.showings.events
    ∧ (serviceAddMessage r s).presentation = s.presentation ∧ (serviceAddMessage r s).lock = s.lock
    ∧ (serviceAddMessage r s).account = s.account ∧ (serviceAddMessage r s).journal = s.journal
    ∧ (serviceAddMessage r s).requests = s.requests ∧ (serviceAddMessage r s).store = s.store
    ∧ (serviceAddMessage r s).settings = s.settings ∧ (serviceAddMessage r s).memory = s.memory
    ∧ (serviceAddMessage r s).memorySize = s.memorySize ∧ (serviceAddMessage r s).freeCount = s.freeCount := by
  unfold serviceAddMessage
  try dsimp only
  repeat' split
  all_goals simp

@[simp] theorem retireEvents_frame (s : State):
    (retireEvents s).pending = s.pending ∧ (retireEvents s).path = s.path ∧ (retireEvents s).intake = s.intake
    ∧ (retireEvents s).decoder = s.decoder ∧ (retireEvents s).time = s.time ∧ (retireEvents s).keys = s.keys
    ∧ (retireEvents s).showings.services = s.showings.services ∧ (retireEvents s).presentation = s.presentation
    ∧ (retireEvents s).lock = s.lock ∧ (retireEvents s).account = s.account ∧ (retireEvents s).journal = s.journal
    ∧ (retireEvents s).requests = s.requests ∧ (retireEvents s).report = s.report ∧ (retireEvents s).store = s.store
    ∧ (retireEvents s).settings = s.settings ∧ (retireEvents s).memory = s.memory
    ∧ (retireEvents s).memorySize = s.memorySize ∧ (retireEvents s).freeCount = s.freeCount := by
  unfold retireEvents
  try dsimp only
  repeat' split
  all_goals simp

theorem foldMarks_frame {α : Type} (g : State → α → State) (h : ∀ s a, ∃ r, g s a = { s with report := r }) (l : List α) (s : State) :
    ∃ r, l.foldl g s = { s with report := r } := by
  induction l generalizing s with
  | nil => exact ⟨s.report, rfl⟩
  | cons x rest ih =>
    obtain ⟨r, hr⟩ := h s x
    obtain ⟨r', hr'⟩ := ih (g s x)
    exact ⟨r', by rw [List.foldl_cons, hr', hr]⟩

@[simp] theorem markPurchaseLines_frame (a b : List Purchase) (s : State):
    (markPurchaseLines a b s).pending = s.pending ∧ (markPurchaseLines a b s).path = s.path
    ∧ (markPurchaseLines a b s).intake = s.intake ∧ (markPurchaseLines a b s).decoder = s.decoder
    ∧ (markPurchaseLines a b s).time = s.time ∧ (markPurchaseLines a b s).keys = s.keys
    ∧ (markPurchaseLines a b s).showings = s.showings ∧ (markPurchaseLines a b s).presentation = s.presentation
    ∧ (markPurchaseLines a b s).lock = s.lock ∧ (markPurchaseLines a b s).account = s.account
    ∧ (markPurchaseLines a b s).journal = s.journal ∧ (markPurchaseLines a b s).requests = s.requests
    ∧ (markPurchaseLines a b s).store = s.store ∧ (markPurchaseLines a b s).settings = s.settings
    ∧ (markPurchaseLines a b s).memory = s.memory ∧ (markPurchaseLines a b s).memorySize = s.memorySize
    ∧ (markPurchaseLines a b s).freeCount = s.freeCount := by
  obtain ⟨r, h⟩ := foldMarks_frame (fun s n => if a[n]? = b[n]? then s else markLine (5 + n) false s)
    (fun s n => by
      by_cases h : a[n]? = b[n]?
      · exact ⟨s.report, by simp [h]⟩
      · exact ⟨_, by simp only [if_neg h]; rfl⟩) (List.range purchasePlaces) s
  unfold markPurchaseLines
  rw [h]
  simp

@[simp] theorem markJournalLines_frame (l : List ChargeRecord) (s : State):
    (markJournalLines l s).pending = s.pending ∧ (markJournalLines l s).path = s.path
    ∧ (markJournalLines l s).intake = s.intake ∧ (markJournalLines l s).decoder = s.decoder
    ∧ (markJournalLines l s).time = s.time ∧ (markJournalLines l s).keys = s.keys
    ∧ (markJournalLines l s).showings = s.showings ∧ (markJournalLines l s).presentation = s.presentation
    ∧ (markJournalLines l s).lock = s.lock ∧ (markJournalLines l s).account = s.account
    ∧ (markJournalLines l s).journal = s.journal ∧ (markJournalLines l s).requests = s.requests
    ∧ (markJournalLines l s).store = s.store ∧ (markJournalLines l s).settings = s.settings
    ∧ (markJournalLines l s).memory = s.memory ∧ (markJournalLines l s).memorySize = s.memorySize
    ∧ (markJournalLines l s).freeCount = s.freeCount := by
  obtain ⟨r, h⟩ := foldMarks_frame (fun s r => markLine (journalLine r.sequence) false s) (fun s r => ⟨_, rfl⟩) l s
  unfold markJournalLines
  rw [h]
  simp

@[simp] theorem setPurchases_frame (l : List Purchase) (s : State):
    (setPurchases l s).pending = s.pending ∧ (setPurchases l s).path = s.path ∧ (setPurchases l s).intake = s.intake
    ∧ (setPurchases l s).decoder = s.decoder ∧ (setPurchases l s).time = s.time ∧ (setPurchases l s).keys = s.keys
    ∧ (setPurchases l s).showings = s.showings ∧ (setPurchases l s).presentation = s.presentation
    ∧ (setPurchases l s).lock = s.lock ∧ (setPurchases l s).account.stay = s.account.stay
    ∧ (setPurchases l s).account.tariffs = s.account.tariffs ∧ (setPurchases l s).account.pricing = s.account.pricing
    ∧ (setPurchases l s).account.held = s.account.held ∧ (setPurchases l s).account.freeView = s.account.freeView
    ∧ (setPurchases l s).account.generation = s.account.generation
    ∧ (setPurchases l s).account.pendingBuys = s.account.pendingBuys ∧ (setPurchases l s).journal = s.journal
    ∧ (setPurchases l s).requests = s.requests ∧ (setPurchases l s).store = s.store
    ∧ (setPurchases l s).settings = s.settings ∧ (setPurchases l s).memory = s.memory
    ∧ (setPurchases l s).memorySize = s.memorySize ∧ (setPurchases l s).freeCount = s.freeCount := by
  unfold setPurchases
  try dsimp only
  repeat' split
  all_goals simp

@[simp] theorem removeExpired_frame (s : State):
    (removeExpired s).pending = s.pending ∧ (removeExpired s).path = s.path ∧ (removeExpired s).intake = s.intake
    ∧ (removeExpired s).decoder = s.decoder ∧ (removeExpired s).time = s.time ∧ (removeExpired s).keys = s.keys
    ∧ (removeExpired s).showings.services = s.showings.services ∧ (removeExpired s).presentation = s.presentation
    ∧ (removeExpired s).lock = s.lock ∧ (removeExpired s).account.stay = s.account.stay
    ∧ (removeExpired s).account.tariffs = s.account.tariffs ∧ (removeExpired s).account.pricing = s.account.pricing
    ∧ (removeExpired s).account.held = s.account.held ∧ (removeExpired s).account.freeView = s.account.freeView
    ∧ (removeExpired s).account.generation = s.account.generation
    ∧ (removeExpired s).account.pendingBuys = s.account.pendingBuys ∧ (removeExpired s).journal = s.journal
    ∧ (removeExpired s).requests = s.requests ∧ (removeExpired s).store = s.store
    ∧ (removeExpired s).settings = s.settings ∧ (removeExpired s).memory = s.memory
    ∧ (removeExpired s).memorySize = s.memorySize ∧ (removeExpired s).freeCount = s.freeCount := by
  unfold removeExpired
  try dsimp only
  repeat' split
  all_goals simp

@[simp] theorem appendCharge_frame (r : ChargeRecord) (s : State):
    (appendCharge r s).pending = s.pending ∧ (appendCharge r s).path = s.path ∧ (appendCharge r s).intake = s.intake
    ∧ (appendCharge r s).decoder = s.decoder ∧ (appendCharge r s).time = s.time ∧ (appendCharge r s).keys = s.keys
    ∧ (appendCharge r s).showings = s.showings ∧ (appendCharge r s).presentation = s.presentation
    ∧ (appendCharge r s).lock = s.lock ∧ (appendCharge r s).account = s.account
    ∧ (appendCharge r s).journal.mark = s.journal.mark ∧ (appendCharge r s).requests = s.requests
    ∧ (appendCharge r s).store.state = s.store.state ∧ (appendCharge r s).store.heldOver = s.store.heldOver
    ∧ (appendCharge r s).store.inFlight = s.store.inFlight ∧ (appendCharge r s).store.pageNumber = s.store.pageNumber
    ∧ (appendCharge r s).store.storePresent = s.store.storePresent ∧ (appendCharge r s).store.bypass = s.store.bypass
    ∧ (appendCharge r s).store.phase = s.store.phase ∧ (appendCharge r s).store.image = s.store.image
    ∧ (appendCharge r s).store.eeprom = s.store.eeprom ∧ (appendCharge r s).settings = s.settings
    ∧ (appendCharge r s).memory = s.memory ∧ (appendCharge r s).memorySize = s.memorySize
    ∧ (appendCharge r s).freeCount = s.freeCount := by
  unfold appendCharge
  try dsimp only
  repeat' split
  all_goals simp

@[simp] theorem markStored_frame (n : Nat) (s : State):
    (markStored n s).pending = s.pending ∧ (markStored n s).path = s.path ∧ (markStored n s).intake = s.intake
    ∧ (markStored n s).decoder = s.decoder ∧ (markStored n s).time = s.time ∧ (markStored n s).keys = s.keys
    ∧ (markStored n s).showings = s.showings ∧ (markStored n s).presentation = s.presentation
    ∧ (markStored n s).lock = s.lock ∧ (markStored n s).account = s.account
    ∧ (markStored n s).journal.next = s.journal.next ∧ (markStored n s).journal.mark = s.journal.mark
    ∧ (markStored n s).requests = s.requests ∧ (markStored n s).store = s.store
    ∧ (markStored n s).settings = s.settings ∧ (markStored n s).memory = s.memory
    ∧ (markStored n s).memorySize = s.memorySize ∧ (markStored n s).freeCount = s.freeCount := by
  unfold markStored
  try dsimp only
  repeat' split
  all_goals simp

@[simp] theorem ackMessage_frame (n : Nat) (s : State):
    (ackMessage n s).pending = s.pending ∧ (ackMessage n s).path = s.path ∧ (ackMessage n s).intake = s.intake
    ∧ (ackMessage n s).decoder.lastNumber = s.decoder.lastNumber
    ∧ (ackMessage n s).decoder.lastMaintenanceTag = s.decoder.lastMaintenanceTag
    ∧ (ackMessage n s).decoder.tagFailures = s.decoder.tagFailures
    ∧ (ackMessage n s).decoder.handOff = s.decoder.handOff ∧ (ackMessage n s).time = s.time
    ∧ (ackMessage n s).keys = s.keys ∧ (ackMessage n s).showings = s.showings
    ∧ (ackMessage n s).presentation = s.presentation ∧ (ackMessage n s).lock = s.lock
    ∧ (ackMessage n s).account = s.account ∧ (ackMessage n s).journal.next = s.journal.next
    ∧ (ackMessage n s).requests = s.requests ∧ (ackMessage n s).store.state = s.store.state
    ∧ (ackMessage n s).store.inFlight = s.store.inFlight ∧ (ackMessage n s).store.pageNumber = s.store.pageNumber
    ∧ (ackMessage n s).store.storePresent = s.store.storePresent ∧ (ackMessage n s).store.bypass = s.store.bypass
    ∧ (ackMessage n s).store.phase = s.store.phase ∧ (ackMessage n s).store.image = s.store.image
    ∧ (ackMessage n s).store.eeprom = s.store.eeprom ∧ (ackMessage n s).settings = s.settings
    ∧ (ackMessage n s).memory = s.memory ∧ (ackMessage n s).memorySize = s.memorySize
    ∧ (ackMessage n s).freeCount = s.freeCount := by
  unfold ackMessage
  try dsimp only
  repeat' split
  all_goals simp

@[simp] theorem addPendingBuy_frame (k : Option Nat) (q : Option Nat) (s : State):
    (addPendingBuy k q s).pending = s.pending ∧ (addPendingBuy k q s).path = s.path
    ∧ (addPendingBuy k q s).intake = s.intake ∧ (addPendingBuy k q s).decoder = s.decoder
    ∧ (addPendingBuy k q s).time = s.time ∧ (addPendingBuy k q s).keys = s.keys
    ∧ (addPendingBuy k q s).showings = s.showings ∧ (addPendingBuy k q s).presentation = s.presentation
    ∧ (addPendingBuy k q s).lock = s.lock ∧ (addPendingBuy k q s).account.stay = s.account.stay
    ∧ (addPendingBuy k q s).account.purchases = s.account.purchases
    ∧ (addPendingBuy k q s).account.tariffs = s.account.tariffs
    ∧ (addPendingBuy k q s).account.pricing = s.account.pricing ∧ (addPendingBuy k q s).account.held = s.account.held
    ∧ (addPendingBuy k q s).account.freeView = s.account.freeView
    ∧ (addPendingBuy k q s).account.generation = s.account.generation ∧ (addPendingBuy k q s).journal = s.journal
    ∧ (addPendingBuy k q s).requests = s.requests ∧ (addPendingBuy k q s).report = s.report
    ∧ (addPendingBuy k q s).store = s.store ∧ (addPendingBuy k q s).settings = s.settings
    ∧ (addPendingBuy k q s).memory = s.memory ∧ (addPendingBuy k q s).memorySize = s.memorySize
    ∧ (addPendingBuy k q s).freeCount = s.freeCount := by
  unfold addPendingBuy
  try dsimp only
  repeat' split
  all_goals simp

@[simp] theorem commitEffects_frame (e : EventRecord) (t : Tariff) (rating total : Nat) (k : Option Nat) (s : State):
    (commitEffects e t rating total k s).pending = s.pending ∧ (commitEffects e t rating total k s).path = s.path
    ∧ (commitEffects e t rating total k s).intake = s.intake
    ∧ (commitEffects e t rating total k s).decoder = s.decoder ∧ (commitEffects e t rating total k s).time = s.time
    ∧ (commitEffects e t rating total k s).keys = s.keys
    ∧ (commitEffects e t rating total k s).showings.services = s.showings.services
    ∧ (commitEffects e t rating total k s).presentation = s.presentation
    ∧ (commitEffects e t rating total k s).lock = s.lock
    ∧ (commitEffects e t rating total k s).account.tariffs = s.account.tariffs
    ∧ (commitEffects e t rating total k s).account.pricing = s.account.pricing
    ∧ (commitEffects e t rating total k s).account.held = s.account.held
    ∧ (commitEffects e t rating total k s).account.freeView = s.account.freeView
    ∧ (commitEffects e t rating total k s).journal.mark = s.journal.mark
    ∧ (commitEffects e t rating total k s).requests = s.requests
    ∧ (commitEffects e t rating total k s).store.storePresent = s.store.storePresent
    ∧ (commitEffects e t rating total k s).store.bypass = s.store.bypass
    ∧ (commitEffects e t rating total k s).store.phase = s.store.phase
    ∧ (commitEffects e t rating total k s).store.image = s.store.image
    ∧ (commitEffects e t rating total k s).store.eeprom = s.store.eeprom
    ∧ (commitEffects e t rating total k s).settings = s.settings
    ∧ (commitEffects e t rating total k s).memory = s.memory
    ∧ (commitEffects e t rating total k s).memorySize = s.memorySize
    ∧ (commitEffects e t rating total k s).freeCount = s.freeCount := by
  unfold commitEffects
  try dsimp only
  repeat' split
  all_goals simp

@[simp] theorem commitChecked_frame (e : EventRecord) (t : Tariff) (rating total : Nat) (k : Option Nat) (s : State):
    ((commitChecked e t rating total k s).1).pending = s.pending
    ∧ ((commitChecked e t rating total k s).1).path = s.path
    ∧ ((commitChecked e t rating total k s).1).intake = s.intake
    ∧ ((commitChecked e t rating total k s).1).decoder = s.decoder
    ∧ ((commitChecked e t rating total k s).1).time = s.time ∧ ((commitChecked e t rating total k s).1).keys = s.keys
    ∧ ((commitChecked e t rating total k s).1).showings.services = s.showings.services
    ∧ ((commitChecked e t rating total k s).1).presentation = s.presentation
    ∧ ((commitChecked e t rating total k s).1).lock = s.lock
    ∧ ((commitChecked e t rating total k s).1).account.tariffs = s.account.tariffs
    ∧ ((commitChecked e t rating total k s).1).account.pricing = s.account.pricing
    ∧ ((commitChecked e t rating total k s).1).account.held = s.account.held
    ∧ ((commitChecked e t rating total k s).1).account.freeView = s.account.freeView
    ∧ ((commitChecked e t rating total k s).1).journal.mark = s.journal.mark
    ∧ ((commitChecked e t rating total k s).1).requests = s.requests
    ∧ ((commitChecked e t rating total k s).1).store.storePresent = s.store.storePresent
    ∧ ((commitChecked e t rating total k s).1).store.bypass = s.store.bypass
    ∧ ((commitChecked e t rating total k s).1).store.phase = s.store.phase
    ∧ ((commitChecked e t rating total k s).1).store.image = s.store.image
    ∧ ((commitChecked e t rating total k s).1).store.eeprom = s.store.eeprom
    ∧ ((commitChecked e t rating total k s).1).settings = s.settings
    ∧ ((commitChecked e t rating total k s).1).memory = s.memory
    ∧ ((commitChecked e t rating total k s).1).memorySize = s.memorySize
    ∧ ((commitChecked e t rating total k s).1).freeCount = s.freeCount := by
  unfold commitChecked
  try dsimp only
  repeat' split
  all_goals simp

@[simp] theorem commit_frame (id : Half) (k : Option Nat) (s : State):
    ((commit id k s).1).pending = s.pending ∧ ((commit id k s).1).path = s.path
    ∧ ((commit id k s).1).intake = s.intake ∧ ((commit id k s).1).decoder = s.decoder
    ∧ ((commit id k s).1).time = s.time ∧ ((commit id k s).1).keys = s.keys
    ∧ ((commit id k s).1).showings.services = s.showings.services ∧ ((commit id k s).1).presentation = s.presentation
    ∧ ((commit id k s).1).lock = s.lock ∧ ((commit id k s).1).account.tariffs = s.account.tariffs
    ∧ ((commit id k s).1).account.pricing = s.account.pricing ∧ ((commit id k s).1).account.held = s.account.held
    ∧ ((commit id k s).1).account.freeView = s.account.freeView ∧ ((commit id k s).1).journal.mark = s.journal.mark
    ∧ ((commit id k s).1).requests = s.requests ∧ ((commit id k s).1).store.storePresent = s.store.storePresent
    ∧ ((commit id k s).1).store.bypass = s.store.bypass ∧ ((commit id k s).1).store.phase = s.store.phase
    ∧ ((commit id k s).1).store.image = s.store.image ∧ ((commit id k s).1).store.eeprom = s.store.eeprom
    ∧ ((commit id k s).1).settings = s.settings ∧ ((commit id k s).1).memory = s.memory
    ∧ ((commit id k s).1).memorySize = s.memorySize ∧ ((commit id k s).1).freeCount = s.freeCount := by
  unfold commit
  try dsimp only
  repeat' split
  all_goals simp

@[simp] theorem holdEvent_frame (id : Half) (c : HeldCause) (s : State):
    (holdEvent id c s).pending = s.pending ∧ (holdEvent id c s).path = s.path ∧ (holdEvent id c s).intake = s.intake
    ∧ (holdEvent id c s).decoder = s.decoder ∧ (holdEvent id c s).time = s.time ∧ (holdEvent id c s).keys = s.keys
    ∧ (holdEvent id c s).showings.services = s.showings.services ∧ (holdEvent id c s).presentation = s.presentation
    ∧ (holdEvent id c s).lock = s.lock ∧ (holdEvent id c s).account.stay = s.account.stay
    ∧ (holdEvent id c s).account.purchases = s.account.purchases
    ∧ (holdEvent id c s).account.tariffs = s.account.tariffs ∧ (holdEvent id c s).account.pricing = s.account.pricing
    ∧ (holdEvent id c s).account.freeView = s.account.freeView
    ∧ (holdEvent id c s).account.generation = s.account.generation
    ∧ (holdEvent id c s).account.pendingBuys = s.account.pendingBuys ∧ (holdEvent id c s).journal = s.journal
    ∧ (holdEvent id c s).requests = s.requests ∧ (holdEvent id c s).store = s.store
    ∧ (holdEvent id c s).settings = s.settings ∧ (holdEvent id c s).memory = s.memory
    ∧ (holdEvent id c s).memorySize = s.memorySize ∧ (holdEvent id c s).freeCount = s.freeCount := by
  unfold holdEvent
  try dsimp only
  repeat' split
  all_goals simp

@[simp] theorem previewEnd_frame (id : Half) (s : State):
    (previewEnd id s).pending = s.pending ∧ (previewEnd id s).path = s.path ∧ (previewEnd id s).intake = s.intake
    ∧ (previewEnd id s).decoder = s.decoder ∧ (previewEnd id s).time = s.time ∧ (previewEnd id s).keys = s.keys
    ∧ (previewEnd id s).showings.services = s.showings.services ∧ (previewEnd id s).presentation = s.presentation
    ∧ (previewEnd id s).lock = s.lock ∧ (previewEnd id s).account.tariffs = s.account.tariffs
    ∧ (previewEnd id s).account.pricing = s.account.pricing ∧ (previewEnd id s).account.freeView = s.account.freeView
    ∧ (previewEnd id s).journal.mark = s.journal.mark ∧ (previewEnd id s).requests = s.requests
    ∧ (previewEnd id s).store.storePresent = s.store.storePresent ∧ (previewEnd id s).store.bypass = s.store.bypass
    ∧ (previewEnd id s).store.phase = s.store.phase ∧ (previewEnd id s).store.image = s.store.image
    ∧ (previewEnd id s).store.eeprom = s.store.eeprom ∧ (previewEnd id s).settings = s.settings
    ∧ (previewEnd id s).memory = s.memory ∧ (previewEnd id s).memorySize = s.memorySize
    ∧ (previewEnd id s).freeCount = s.freeCount := by
  unfold previewEnd
  repeat' split
  · simp
  · simp
  · rename_i h
    have hc := commit_frame id none s
    rw [h] at hc
    simp only at hc
    simp [hc]
  · rename_i h
    have hc := commit_frame id none s
    rw [h] at hc
    simp only at hc
    simp [hc]

@[simp] theorem addViewed_frame (e : EventRecord) (s : State):
    (addViewed e s).pending = s.pending ∧ (addViewed e s).path = s.path ∧ (addViewed e s).intake = s.intake
    ∧ (addViewed e s).decoder = s.decoder ∧ (addViewed e s).time = s.time ∧ (addViewed e s).keys = s.keys
    ∧ (addViewed e s).showings.services = s.showings.services ∧ (addViewed e s).presentation = s.presentation
    ∧ (addViewed e s).lock = s.lock ∧ (addViewed e s).account.tariffs = s.account.tariffs
    ∧ (addViewed e s).account.pricing = s.account.pricing ∧ (addViewed e s).account.freeView = s.account.freeView
    ∧ (addViewed e s).journal.mark = s.journal.mark ∧ (addViewed e s).requests = s.requests
    ∧ (addViewed e s).store.storePresent = s.store.storePresent ∧ (addViewed e s).store.bypass = s.store.bypass
    ∧ (addViewed e s).store.phase = s.store.phase ∧ (addViewed e s).store.image = s.store.image
    ∧ (addViewed e s).store.eeprom = s.store.eeprom ∧ (addViewed e s).settings = s.settings
    ∧ (addViewed e s).memory = s.memory ∧ (addViewed e s).memorySize = s.memorySize
    ∧ (addViewed e s).freeCount = s.freeCount := by
  unfold addViewed
  try dsimp only
  repeat' split
  all_goals simp

@[simp] theorem meterEvent_frame (id : Half) (s : State):
    (meterEvent id s).pending = s.pending ∧ (meterEvent id s).path = s.path ∧ (meterEvent id s).intake = s.intake
    ∧ (meterEvent id s).decoder = s.decoder ∧ (meterEvent id s).time = s.time ∧ (meterEvent id s).keys = s.keys
    ∧ (meterEvent id s).showings.services = s.showings.services ∧ (meterEvent id s).presentation = s.presentation
    ∧ (meterEvent id s).lock = s.lock ∧ (meterEvent id s).account.tariffs = s.account.tariffs
    ∧ (meterEvent id s).account.pricing = s.account.pricing ∧ (meterEvent id s).account.freeView = s.account.freeView
    ∧ (meterEvent id s).journal.mark = s.journal.mark ∧ (meterEvent id s).requests = s.requests
    ∧ (meterEvent id s).store.storePresent = s.store.storePresent ∧ (meterEvent id s).store.bypass = s.store.bypass
    ∧ (meterEvent id s).store.phase = s.store.phase ∧ (meterEvent id s).store.image = s.store.image
    ∧ (meterEvent id s).store.eeprom = s.store.eeprom ∧ (meterEvent id s).settings = s.settings
    ∧ (meterEvent id s).memory = s.memory ∧ (meterEvent id s).memorySize = s.memorySize
    ∧ (meterEvent id s).freeCount = s.freeCount := by
  unfold meterEvent
  try dsimp only
  repeat' split
  all_goals simp

@[simp] theorem meterSecond_frame (s : State):
    (meterSecond s).pending = s.pending ∧ (meterSecond s).path = s.path ∧ (meterSecond s).intake = s.intake
    ∧ (meterSecond s).decoder = s.decoder ∧ (meterSecond s).time = s.time ∧ (meterSecond s).keys = s.keys
    ∧ (meterSecond s).showings.services = s.showings.services ∧ (meterSecond s).presentation = s.presentation
    ∧ (meterSecond s).lock = s.lock ∧ (meterSecond s).account.tariffs = s.account.tariffs
    ∧ (meterSecond s).account.pricing = s.account.pricing ∧ (meterSecond s).account.freeView = s.account.freeView
    ∧ (meterSecond s).journal.mark = s.journal.mark ∧ (meterSecond s).requests = s.requests
    ∧ (meterSecond s).store.storePresent = s.store.storePresent ∧ (meterSecond s).store.bypass = s.store.bypass
    ∧ (meterSecond s).store.phase = s.store.phase ∧ (meterSecond s).store.image = s.store.image
    ∧ (meterSecond s).store.eeprom = s.store.eeprom ∧ (meterSecond s).settings = s.settings
    ∧ (meterSecond s).memory = s.memory ∧ (meterSecond s).memorySize = s.memorySize
    ∧ (meterSecond s).freeCount = s.freeCount := by
  unfold meterSecond
  generalize s.showings.events.map EventRecord.id = l
  induction l generalizing s with
  | nil => simp
  | cons x rest ih => simp [ih]

@[simp] theorem classChange_frame (id : Half) (s : State):
    (classChange id s).pending = s.pending ∧ (classChange id s).path = s.path ∧ (classChange id s).intake = s.intake
    ∧ (classChange id s).decoder = s.decoder ∧ (classChange id s).time = s.time ∧ (classChange id s).keys = s.keys
    ∧ (classChange id s).showings.services = s.showings.services ∧ (classChange id s).presentation = s.presentation
    ∧ (classChange id s).lock = s.lock ∧ (classChange id s).account.tariffs = s.account.tariffs
    ∧ (classChange id s).account.pricing = s.account.pricing
    ∧ (classChange id s).account.freeView = s.account.freeView ∧ (classChange id s).journal.mark = s.journal.mark
    ∧ (classChange id s).requests = s.requests ∧ (classChange id s).store.storePresent = s.store.storePresent
    ∧ (classChange id s).store.bypass = s.store.bypass ∧ (classChange id s).store.phase = s.store.phase
    ∧ (classChange id s).store.image = s.store.image ∧ (classChange id s).store.eeprom = s.store.eeprom
    ∧ (classChange id s).settings = s.settings ∧ (classChange id s).memory = s.memory
    ∧ (classChange id s).memorySize = s.memorySize ∧ (classChange id s).freeCount = s.freeCount := by
  unfold classChange
  try dsimp only
  repeat' split
  all_goals simp

@[simp] theorem tariffDefineMessage_frame (c : Nat) (t : Tariff) (s : State):
    (tariffDefineMessage c t s).pending = s.pending ∧ (tariffDefineMessage c t s).path = s.path
    ∧ (tariffDefineMessage c t s).intake = s.intake ∧ (tariffDefineMessage c t s).decoder = s.decoder
    ∧ (tariffDefineMessage c t s).time = s.time ∧ (tariffDefineMessage c t s).keys = s.keys
    ∧ (tariffDefineMessage c t s).showings.services = s.showings.services
    ∧ (tariffDefineMessage c t s).presentation = s.presentation ∧ (tariffDefineMessage c t s).lock = s.lock
    ∧ (tariffDefineMessage c t s).account.pricing = s.account.pricing
    ∧ (tariffDefineMessage c t s).account.freeView = s.account.freeView
    ∧ (tariffDefineMessage c t s).journal.mark = s.journal.mark ∧ (tariffDefineMessage c t s).requests = s.requests
    ∧ (tariffDefineMessage c t s).store.storePresent = s.store.storePresent
    ∧ (tariffDefineMessage c t s).store.bypass = s.store.bypass
    ∧ (tariffDefineMessage c t s).store.phase = s.store.phase
    ∧ (tariffDefineMessage c t s).store.image = s.store.image
    ∧ (tariffDefineMessage c t s).store.eeprom = s.store.eeprom ∧ (tariffDefineMessage c t s).settings = s.settings
    ∧ (tariffDefineMessage c t s).memory = s.memory ∧ (tariffDefineMessage c t s).memorySize = s.memorySize
    ∧ (tariffDefineMessage c t s).freeCount = s.freeCount := by
  unfold tariffDefineMessage
  have h : ∀ (l : List Half) (x : State), 
      (l.foldl (fun s id => classChange id s) x).pending = x.pending
      ∧ (l.foldl (fun s id => classChange id s) x).path = x.path
      ∧ (l.foldl (fun s id => classChange id s) x).intake = x.intake
      ∧ (l.foldl (fun s id => classChange id s) x).decoder = x.decoder
      ∧ (l.foldl (fun s id => classChange id s) x).time = x.time
      ∧ (l.foldl (fun s id => classChange id s) x).keys = x.keys
      ∧ (l.foldl (fun s id => classChange id s) x).showings.services = x.showings.services
      ∧ (l.foldl (fun s id => classChange id s) x).presentation = x.presentation
      ∧ (l.foldl (fun s id => classChange id s) x).lock = x.lock
      ∧ (l.foldl (fun s id => classChange id s) x).account.pricing = x.account.pricing
      ∧ (l.foldl (fun s id => classChange id s) x).account.freeView = x.account.freeView
      ∧ (l.foldl (fun s id => classChange id s) x).journal.mark = x.journal.mark
      ∧ (l.foldl (fun s id => classChange id s) x).requests = x.requests
      ∧ (l.foldl (fun s id => classChange id s) x).store.storePresent = x.store.storePresent
      ∧ (l.foldl (fun s id => classChange id s) x).store.bypass = x.store.bypass
      ∧ (l.foldl (fun s id => classChange id s) x).store.phase = x.store.phase
      ∧ (l.foldl (fun s id => classChange id s) x).store.image = x.store.image
      ∧ (l.foldl (fun s id => classChange id s) x).store.eeprom = x.store.eeprom
      ∧ (l.foldl (fun s id => classChange id s) x).settings = x.settings
      ∧ (l.foldl (fun s id => classChange id s) x).memory = x.memory
      ∧ (l.foldl (fun s id => classChange id s) x).memorySize = x.memorySize
      ∧ (l.foldl (fun s id => classChange id s) x).freeCount = x.freeCount := by
    intro l
    induction l with
    | nil => simp
    | cons y rest ih => simp [ih]
  simp only
  split <;> simp [h]

@[simp] theorem tariffDeleteMessage_frame (c : Nat) (s : State):
    (tariffDeleteMessage c s).pending = s.pending ∧ (tariffDeleteMessage c s).path = s.path
    ∧ (tariffDeleteMessage c s).intake = s.intake ∧ (tariffDeleteMessage c s).decoder = s.decoder
    ∧ (tariffDeleteMessage c s).time = s.time ∧ (tariffDeleteMessage c s).keys = s.keys
    ∧ (tariffDeleteMessage c s).showings = s.showings ∧ (tariffDeleteMessage c s).presentation = s.presentation
    ∧ (tariffDeleteMessage c s).lock = s.lock ∧ (tariffDeleteMessage c s).account.stay = s.account.stay
    ∧ (tariffDeleteMessage c s).account.purchases = s.account.purchases
    ∧ (tariffDeleteMessage c s).account.pricing = s.account.pricing
    ∧ (tariffDeleteMessage c s).account.held = s.account.held
    ∧ (tariffDeleteMessage c s).account.freeView = s.account.freeView
    ∧ (tariffDeleteMessage c s).account.generation = s.account.generation
    ∧ (tariffDeleteMessage c s).account.pendingBuys = s.account.pendingBuys
    ∧ (tariffDeleteMessage c s).journal = s.journal ∧ (tariffDeleteMessage c s).requests = s.requests
    ∧ (tariffDeleteMessage c s).report = s.report ∧ (tariffDeleteMessage c s).store = s.store
    ∧ (tariffDeleteMessage c s).settings = s.settings ∧ (tariffDeleteMessage c s).memory = s.memory
    ∧ (tariffDeleteMessage c s).memorySize = s.memorySize ∧ (tariffDeleteMessage c s).freeCount = s.freeCount := by
  unfold tariffDeleteMessage
  try dsimp only
  repeat' split
  all_goals simp

@[simp] theorem setFreeView_frame (f : FreeView) (s : State):
    (setFreeView f s).pending = s.pending ∧ (setFreeView f s).path = s.path ∧ (setFreeView f s).intake = s.intake
    ∧ (setFreeView f s).decoder = s.decoder ∧ (setFreeView f s).time = s.time ∧ (setFreeView f s).keys = s.keys
    ∧ (setFreeView f s).showings = s.showings ∧ (setFreeView f s).presentation = s.presentation
    ∧ (setFreeView f s).lock = s.lock ∧ (setFreeView f s).account.stay = s.account.stay
    ∧ (setFreeView f s).account.purchases = s.account.purchases
    ∧ (setFreeView f s).account.tariffs = s.account.tariffs ∧ (setFreeView f s).account.pricing = s.account.pricing
    ∧ (setFreeView f s).account.held = s.account.held ∧ (setFreeView f s).account.generation = s.account.generation
    ∧ (setFreeView f s).account.pendingBuys = s.account.pendingBuys ∧ (setFreeView f s).journal = s.journal
    ∧ (setFreeView f s).requests = s.requests ∧ (setFreeView f s).store = s.store
    ∧ (setFreeView f s).settings = s.settings ∧ (setFreeView f s).memory = s.memory
    ∧ (setFreeView f s).memorySize = s.memorySize ∧ (setFreeView f s).freeCount = s.freeCount := by
  unfold setFreeView
  try dsimp only
  repeat' split
  all_goals simp

@[simp] theorem endFreeView_frame (s : State):
    (endFreeView s).pending = s.pending ∧ (endFreeView s).path = s.path ∧ (endFreeView s).intake = s.intake
    ∧ (endFreeView s).decoder = s.decoder ∧ (endFreeView s).time = s.time ∧ (endFreeView s).keys = s.keys
    ∧ (endFreeView s).showings = s.showings ∧ (endFreeView s).presentation = s.presentation
    ∧ (endFreeView s).lock = s.lock ∧ (endFreeView s).account.stay = s.account.stay
    ∧ (endFreeView s).account.purchases = s.account.purchases ∧ (endFreeView s).account.tariffs = s.account.tariffs
    ∧ (endFreeView s).account.pricing = s.account.pricing ∧ (endFreeView s).account.held = s.account.held
    ∧ (endFreeView s).account.generation = s.account.generation
    ∧ (endFreeView s).account.pendingBuys = s.account.pendingBuys ∧ (endFreeView s).journal = s.journal
    ∧ (endFreeView s).requests = s.requests ∧ (endFreeView s).store = s.store ∧ (endFreeView s).settings = s.settings
    ∧ (endFreeView s).memory = s.memory ∧ (endFreeView s).memorySize = s.memorySize
    ∧ (endFreeView s).freeCount = s.freeCount := by
  unfold endFreeView
  try dsimp only
  repeat' split
  all_goals simp

@[simp] theorem accountCheckOut_frame (s : State):
    (accountCheckOut s).pending = s.pending ∧ (accountCheckOut s).path = s.path
    ∧ (accountCheckOut s).intake = s.intake ∧ (accountCheckOut s).decoder = s.decoder
    ∧ (accountCheckOut s).time = s.time ∧ (accountCheckOut s).keys = s.keys
    ∧ (accountCheckOut s).showings.services = s.showings.services ∧ (accountCheckOut s).presentation = s.presentation
    ∧ (accountCheckOut s).lock = s.lock ∧ (accountCheckOut s).account.tariffs = s.account.tariffs
    ∧ (accountCheckOut s).account.pricing = s.account.pricing
    ∧ (accountCheckOut s).account.freeView = s.account.freeView
    ∧ (accountCheckOut s).account.generation = s.account.generation
    ∧ (accountCheckOut s).account.pendingBuys = s.account.pendingBuys ∧ (accountCheckOut s).journal = s.journal
    ∧ (accountCheckOut s).requests = s.requests ∧ (accountCheckOut s).store = s.store
    ∧ (accountCheckOut s).settings = s.settings ∧ (accountCheckOut s).memory = s.memory
    ∧ (accountCheckOut s).memorySize = s.memorySize ∧ (accountCheckOut s).freeCount = s.freeCount := by
  unfold accountCheckOut
  try dsimp only
  repeat' split
  all_goals simp

@[simp] theorem checkOut_frame (s : State):
    (checkOut s).pending = s.pending ∧ (checkOut s).path = s.path ∧ (checkOut s).intake = s.intake
    ∧ (checkOut s).decoder = s.decoder ∧ (checkOut s).time = s.time ∧ (checkOut s).keys = s.keys
    ∧ (checkOut s).showings.services = s.showings.services ∧ (checkOut s).presentation = s.presentation
    ∧ (checkOut s).account.tariffs = s.account.tariffs ∧ (checkOut s).account.pricing = s.account.pricing
    ∧ (checkOut s).account.freeView = s.account.freeView ∧ (checkOut s).account.generation = s.account.generation
    ∧ (checkOut s).account.pendingBuys = s.account.pendingBuys ∧ (checkOut s).journal = s.journal
    ∧ (checkOut s).requests = s.requests ∧ (checkOut s).store = s.store ∧ (checkOut s).settings = s.settings
    ∧ (checkOut s).memory = s.memory ∧ (checkOut s).memorySize = s.memorySize ∧ (checkOut s).freeCount = s.freeCount := by
  unfold checkOut
  try dsimp only
  repeat' split
  all_goals simp

@[simp] theorem accountCheckIn_frame (b : CheckinBody) (n : Option Half) (s : State):
    (accountCheckIn b n s).pending = s.pending ∧ (accountCheckIn b n s).path = s.path
    ∧ (accountCheckIn b n s).intake = s.intake ∧ (accountCheckIn b n s).decoder = s.decoder
    ∧ (accountCheckIn b n s).time = s.time ∧ (accountCheckIn b n s).keys = s.keys
    ∧ (accountCheckIn b n s).showings.services = s.showings.services
    ∧ (accountCheckIn b n s).presentation = s.presentation ∧ (accountCheckIn b n s).lock = s.lock
    ∧ (accountCheckIn b n s).account.tariffs = s.account.tariffs
    ∧ (accountCheckIn b n s).account.pricing = s.account.pricing
    ∧ (accountCheckIn b n s).account.freeView = s.account.freeView
    ∧ (accountCheckIn b n s).account.generation = s.account.generation
    ∧ (accountCheckIn b n s).account.pendingBuys = s.account.pendingBuys ∧ (accountCheckIn b n s).journal = s.journal
    ∧ (accountCheckIn b n s).requests = s.requests ∧ (accountCheckIn b n s).store = s.store
    ∧ (accountCheckIn b n s).settings = s.settings ∧ (accountCheckIn b n s).memory = s.memory
    ∧ (accountCheckIn b n s).memorySize = s.memorySize ∧ (accountCheckIn b n s).freeCount = s.freeCount := by
  unfold accountCheckIn
  try dsimp only
  repeat' split
  all_goals simp

@[simp] theorem checkIn_frame (b : CheckinBody) (n : Option Half) (s : State):
    (checkIn b n s).pending = s.pending ∧ (checkIn b n s).path = s.path ∧ (checkIn b n s).intake = s.intake
    ∧ (checkIn b n s).decoder = s.decoder ∧ (checkIn b n s).time = s.time ∧ (checkIn b n s).keys = s.keys
    ∧ (checkIn b n s).showings.services = s.showings.services ∧ (checkIn b n s).presentation = s.presentation
    ∧ (checkIn b n s).account.tariffs = s.account.tariffs ∧ (checkIn b n s).account.pricing = s.account.pricing
    ∧ (checkIn b n s).account.freeView = s.account.freeView
    ∧ (checkIn b n s).account.generation = s.account.generation
    ∧ (checkIn b n s).account.pendingBuys = s.account.pendingBuys ∧ (checkIn b n s).journal = s.journal
    ∧ (checkIn b n s).requests = s.requests ∧ (checkIn b n s).store = s.store ∧ (checkIn b n s).settings = s.settings
    ∧ (checkIn b n s).memory = s.memory ∧ (checkIn b n s).memorySize = s.memorySize
    ∧ (checkIn b n s).freeCount = s.freeCount := by
  unfold checkIn
  try dsimp only
  repeat' split
  all_goals simp

@[simp] theorem checkinMessage_frame (b : CheckinBody) (n : Option Half) (s : State):
    (checkinMessage b n s).pending = s.pending ∧ (checkinMessage b n s).path = s.path
    ∧ (checkinMessage b n s).intake = s.intake ∧ (checkinMessage b n s).decoder.lastNumber = s.decoder.lastNumber
    ∧ (checkinMessage b n s).decoder.lastMaintenanceTag = s.decoder.lastMaintenanceTag
    ∧ (checkinMessage b n s).decoder.tagFailures = s.decoder.tagFailures
    ∧ (checkinMessage b n s).decoder.handOff = s.decoder.handOff ∧ (checkinMessage b n s).time = s.time
    ∧ (checkinMessage b n s).keys = s.keys ∧ (checkinMessage b n s).showings.services = s.showings.services
    ∧ (checkinMessage b n s).presentation = s.presentation
    ∧ (checkinMessage b n s).account.tariffs = s.account.tariffs
    ∧ (checkinMessage b n s).account.pricing = s.account.pricing
    ∧ (checkinMessage b n s).account.freeView = s.account.freeView
    ∧ (checkinMessage b n s).account.generation = s.account.generation
    ∧ (checkinMessage b n s).account.pendingBuys = s.account.pendingBuys ∧ (checkinMessage b n s).journal = s.journal
    ∧ (checkinMessage b n s).requests = s.requests ∧ (checkinMessage b n s).store = s.store
    ∧ (checkinMessage b n s).settings = s.settings ∧ (checkinMessage b n s).memory = s.memory
    ∧ (checkinMessage b n s).memorySize = s.memorySize ∧ (checkinMessage b n s).freeCount = s.freeCount := by
  unfold checkinMessage
  try dsimp only
  repeat' split
  all_goals simp

@[simp] theorem checkoutMessage_frame (n : Half) (s : State):
    (checkoutMessage n s).pending = s.pending ∧ (checkoutMessage n s).path = s.path
    ∧ (checkoutMessage n s).intake = s.intake ∧ (checkoutMessage n s).decoder.lastNumber = s.decoder.lastNumber
    ∧ (checkoutMessage n s).decoder.lastMaintenanceTag = s.decoder.lastMaintenanceTag
    ∧ (checkoutMessage n s).decoder.tagFailures = s.decoder.tagFailures
    ∧ (checkoutMessage n s).decoder.handOff = s.decoder.handOff ∧ (checkoutMessage n s).time = s.time
    ∧ (checkoutMessage n s).keys = s.keys ∧ (checkoutMessage n s).showings.services = s.showings.services
    ∧ (checkoutMessage n s).presentation = s.presentation ∧ (checkoutMessage n s).account.tariffs = s.account.tariffs
    ∧ (checkoutMessage n s).account.pricing = s.account.pricing
    ∧ (checkoutMessage n s).account.freeView = s.account.freeView
    ∧ (checkoutMessage n s).account.generation = s.account.generation
    ∧ (checkoutMessage n s).account.pendingBuys = s.account.pendingBuys ∧ (checkoutMessage n s).journal = s.journal
    ∧ (checkoutMessage n s).requests = s.requests ∧ (checkoutMessage n s).store = s.store
    ∧ (checkoutMessage n s).settings = s.settings ∧ (checkoutMessage n s).memory = s.memory
    ∧ (checkoutMessage n s).memorySize = s.memorySize ∧ (checkoutMessage n s).freeCount = s.freeCount := by
  unfold checkoutMessage
  try dsimp only
  repeat' split
  all_goals simp

@[simp] theorem creditMessage_frame (d : Int) (c : Option Nat) (s : State):
    (creditMessage d c s).pending = s.pending ∧ (creditMessage d c s).path = s.path
    ∧ (creditMessage d c s).intake = s.intake ∧ (creditMessage d c s).decoder.lastNumber = s.decoder.lastNumber
    ∧ (creditMessage d c s).decoder.lastMaintenanceTag = s.decoder.lastMaintenanceTag
    ∧ (creditMessage d c s).decoder.tagFailures = s.decoder.tagFailures
    ∧ (creditMessage d c s).decoder.handOff = s.decoder.handOff ∧ (creditMessage d c s).time = s.time
    ∧ (creditMessage d c s).keys = s.keys ∧ (creditMessage d c s).showings = s.showings
    ∧ (creditMessage d c s).presentation = s.presentation ∧ (creditMessage d c s).lock = s.lock
    ∧ (creditMessage d c s).account.purchases = s.account.purchases
    ∧ (creditMessage d c s).account.tariffs = s.account.tariffs
    ∧ (creditMessage d c s).account.pricing = s.account.pricing ∧ (creditMessage d c s).account.held = s.account.held
    ∧ (creditMessage d c s).account.freeView = s.account.freeView
    ∧ (creditMessage d c s).account.generation = s.account.generation
    ∧ (creditMessage d c s).account.pendingBuys = s.account.pendingBuys ∧ (creditMessage d c s).journal = s.journal
    ∧ (creditMessage d c s).requests = s.requests ∧ (creditMessage d c s).store = s.store
    ∧ (creditMessage d c s).settings = s.settings ∧ (creditMessage d c s).memory = s.memory
    ∧ (creditMessage d c s).memorySize = s.memorySize ∧ (creditMessage d c s).freeCount = s.freeCount := by
  unfold creditMessage
  try dsimp only
  repeat' split
  all_goals simp

@[simp] theorem rolloverNotice_frame (n : Half) (s : State):
    (rolloverNotice n s).pending = s.pending ∧ (rolloverNotice n s).path = s.path
    ∧ (rolloverNotice n s).intake = s.intake ∧ (rolloverNotice n s).decoder = s.decoder
    ∧ (rolloverNotice n s).time = s.time ∧ (rolloverNotice n s).keys = s.keys
    ∧ (rolloverNotice n s).showings = s.showings ∧ (rolloverNotice n s).presentation = s.presentation
    ∧ (rolloverNotice n s).lock = s.lock ∧ (rolloverNotice n s).account.purchases = s.account.purchases
    ∧ (rolloverNotice n s).account.tariffs = s.account.tariffs
    ∧ (rolloverNotice n s).account.pricing = s.account.pricing ∧ (rolloverNotice n s).account.held = s.account.held
    ∧ (rolloverNotice n s).account.freeView = s.account.freeView
    ∧ (rolloverNotice n s).account.pendingBuys = s.account.pendingBuys ∧ (rolloverNotice n s).journal = s.journal
    ∧ (rolloverNotice n s).requests = s.requests ∧ (rolloverNotice n s).store.storePresent = s.store.storePresent
    ∧ (rolloverNotice n s).store.bypass = s.store.bypass ∧ (rolloverNotice n s).store.phase = s.store.phase
    ∧ (rolloverNotice n s).store.image = s.store.image ∧ (rolloverNotice n s).store.eeprom = s.store.eeprom
    ∧ (rolloverNotice n s).settings = s.settings ∧ (rolloverNotice n s).memory = s.memory
    ∧ (rolloverNotice n s).memorySize = s.memorySize ∧ (rolloverNotice n s).freeCount = s.freeCount := by
  unfold rolloverNotice
  try dsimp only
  repeat' split
  all_goals simp

theorem deliverAll_frame (g : PendingBuy → Answer) (l : List PendingBuy) (s : State):
    (l.foldl (fun s e => deliverResult e.slot (g e) s) s).pending = s.pending
    ∧ (l.foldl (fun s e => deliverResult e.slot (g e) s) s).path.mode = s.path.mode
    ∧ (l.foldl (fun s e => deliverResult e.slot (g e) s) s).path.windows = s.path.windows
    ∧ (l.foldl (fun s e => deliverResult e.slot (g e) s) s).path.refreshPeriod = s.path.refreshPeriod
    ∧ (l.foldl (fun s e => deliverResult e.slot (g e) s) s).path.tokensPerPeriod = s.path.tokensPerPeriod
    ∧ (l.foldl (fun s e => deliverResult e.slot (g e) s) s).path.periodRunning = s.path.periodRunning
    ∧ (l.foldl (fun s e => deliverResult e.slot (g e) s) s).path.tokens = s.path.tokens
    ∧ (l.foldl (fun s e => deliverResult e.slot (g e) s) s).path.waiting = s.path.waiting
    ∧ (l.foldl (fun s e => deliverResult e.slot (g e) s) s).path.passing = s.path.passing
    ∧ (l.foldl (fun s e => deliverResult e.slot (g e) s) s).path.port = s.path.port
    ∧ (l.foldl (fun s e => deliverResult e.slot (g e) s) s).path.attn = s.path.attn
    ∧ (l.foldl (fun s e => deliverResult e.slot (g e) s) s).path.dropped = s.path.dropped
    ∧ (l.foldl (fun s e => deliverResult e.slot (g e) s) s).path.returned = s.path.returned
    ∧ (l.foldl (fun s e => deliverResult e.slot (g e) s) s).intake = s.intake
    ∧ (l.foldl (fun s e => deliverResult e.slot (g e) s) s).decoder = s.decoder
    ∧ (l.foldl (fun s e => deliverResult e.slot (g e) s) s).time = s.time
    ∧ (l.foldl (fun s e => deliverResult e.slot (g e) s) s).keys = s.keys
    ∧ (l.foldl (fun s e => deliverResult e.slot (g e) s) s).showings = s.showings
    ∧ (l.foldl (fun s e => deliverResult e.slot (g e) s) s).presentation = s.presentation
    ∧ (l.foldl (fun s e => deliverResult e.slot (g e) s) s).lock = s.lock
    ∧ (l.foldl (fun s e => deliverResult e.slot (g e) s) s).account = s.account
    ∧ (l.foldl (fun s e => deliverResult e.slot (g e) s) s).journal = s.journal
    ∧ (l.foldl (fun s e => deliverResult e.slot (g e) s) s).requests.pendingMarks = s.requests.pendingMarks
    ∧ (l.foldl (fun s e => deliverResult e.slot (g e) s) s).report = s.report
    ∧ (l.foldl (fun s e => deliverResult e.slot (g e) s) s).store = s.store
    ∧ (l.foldl (fun s e => deliverResult e.slot (g e) s) s).settings = s.settings
    ∧ (l.foldl (fun s e => deliverResult e.slot (g e) s) s).memory = s.memory
    ∧ (l.foldl (fun s e => deliverResult e.slot (g e) s) s).memorySize = s.memorySize
    ∧ (l.foldl (fun s e => deliverResult e.slot (g e) s) s).freeCount = s.freeCount := by
  induction l generalizing s with
  | nil => simp
  | cons x rest ih => simp [ih]

@[simp] theorem settlePendingBuys_frame (s : State):
    (settlePendingBuys s).pending = s.pending ∧ (settlePendingBuys s).path.mode = s.path.mode
    ∧ (settlePendingBuys s).path.windows = s.path.windows
    ∧ (settlePendingBuys s).path.refreshPeriod = s.path.refreshPeriod
    ∧ (settlePendingBuys s).path.tokensPerPeriod = s.path.tokensPerPeriod
    ∧ (settlePendingBuys s).path.periodRunning = s.path.periodRunning
    ∧ (settlePendingBuys s).path.tokens = s.path.tokens ∧ (settlePendingBuys s).path.waiting = s.path.waiting
    ∧ (settlePendingBuys s).path.passing = s.path.passing ∧ (settlePendingBuys s).path.port = s.path.port
    ∧ (settlePendingBuys s).path.attn = s.path.attn ∧ (settlePendingBuys s).path.dropped = s.path.dropped
    ∧ (settlePendingBuys s).path.returned = s.path.returned ∧ (settlePendingBuys s).intake = s.intake
    ∧ (settlePendingBuys s).decoder = s.decoder ∧ (settlePendingBuys s).time = s.time
    ∧ (settlePendingBuys s).keys = s.keys ∧ (settlePendingBuys s).showings = s.showings
    ∧ (settlePendingBuys s).presentation = s.presentation ∧ (settlePendingBuys s).lock = s.lock
    ∧ (settlePendingBuys s).account.stay = s.account.stay
    ∧ (settlePendingBuys s).account.purchases = s.account.purchases
    ∧ (settlePendingBuys s).account.tariffs = s.account.tariffs
    ∧ (settlePendingBuys s).account.pricing = s.account.pricing ∧ (settlePendingBuys s).account.held = s.account.held
    ∧ (settlePendingBuys s).account.freeView = s.account.freeView
    ∧ (settlePendingBuys s).account.generation = s.account.generation ∧ (settlePendingBuys s).journal = s.journal
    ∧ (settlePendingBuys s).requests.pendingMarks = s.requests.pendingMarks ∧ (settlePendingBuys s).report = s.report
    ∧ (settlePendingBuys s).store = s.store ∧ (settlePendingBuys s).settings = s.settings
    ∧ (settlePendingBuys s).memory = s.memory ∧ (settlePendingBuys s).memorySize = s.memorySize
    ∧ (settlePendingBuys s).freeCount = s.freeCount := by
  unfold settlePendingBuys
  simp [deliverAll_frame (fun _ => { result := .done, reason := none })]

@[simp] theorem markJournalDone_frame (n : Nat) (s : State):
    (markJournalDone n s).pending = s.pending ∧ (markJournalDone n s).path.mode = s.path.mode
    ∧ (markJournalDone n s).path.windows = s.path.windows
    ∧ (markJournalDone n s).path.refreshPeriod = s.path.refreshPeriod
    ∧ (markJournalDone n s).path.tokensPerPeriod = s.path.tokensPerPeriod
    ∧ (markJournalDone n s).path.periodRunning = s.path.periodRunning
    ∧ (markJournalDone n s).path.tokens = s.path.tokens ∧ (markJournalDone n s).path.waiting = s.path.waiting
    ∧ (markJournalDone n s).path.passing = s.path.passing ∧ (markJournalDone n s).path.port = s.path.port
    ∧ (markJournalDone n s).path.attn = s.path.attn ∧ (markJournalDone n s).path.dropped = s.path.dropped
    ∧ (markJournalDone n s).path.returned = s.path.returned ∧ (markJournalDone n s).intake = s.intake
    ∧ (markJournalDone n s).decoder = s.decoder ∧ (markJournalDone n s).time = s.time
    ∧ (markJournalDone n s).keys = s.keys ∧ (markJournalDone n s).showings = s.showings
    ∧ (markJournalDone n s).presentation = s.presentation ∧ (markJournalDone n s).lock = s.lock
    ∧ (markJournalDone n s).account.stay = s.account.stay
    ∧ (markJournalDone n s).account.purchases = s.account.purchases
    ∧ (markJournalDone n s).account.tariffs = s.account.tariffs
    ∧ (markJournalDone n s).account.pricing = s.account.pricing ∧ (markJournalDone n s).account.held = s.account.held
    ∧ (markJournalDone n s).account.freeView = s.account.freeView
    ∧ (markJournalDone n s).account.generation = s.account.generation ∧ (markJournalDone n s).journal = s.journal
    ∧ (markJournalDone n s).requests.pendingMarks = s.requests.pendingMarks ∧ (markJournalDone n s).report = s.report
    ∧ (markJournalDone n s).store = s.store ∧ (markJournalDone n s).settings = s.settings
    ∧ (markJournalDone n s).memory = s.memory ∧ (markJournalDone n s).memorySize = s.memorySize
    ∧ (markJournalDone n s).freeCount = s.freeCount := by
  unfold markJournalDone
  try dsimp only
  repeat' split
  all_goals simp

@[simp] theorem markStayDone_frame (g : BitVec 32) (s : State):
    (markStayDone g s).pending = s.pending ∧ (markStayDone g s).path.mode = s.path.mode
    ∧ (markStayDone g s).path.windows = s.path.windows ∧ (markStayDone g s).path.refreshPeriod = s.path.refreshPeriod
    ∧ (markStayDone g s).path.tokensPerPeriod = s.path.tokensPerPeriod
    ∧ (markStayDone g s).path.periodRunning = s.path.periodRunning ∧ (markStayDone g s).path.tokens = s.path.tokens
    ∧ (markStayDone g s).path.waiting = s.path.waiting ∧ (markStayDone g s).path.passing = s.path.passing
    ∧ (markStayDone g s).path.port = s.path.port ∧ (markStayDone g s).path.attn = s.path.attn
    ∧ (markStayDone g s).path.dropped = s.path.dropped ∧ (markStayDone g s).path.returned = s.path.returned
    ∧ (markStayDone g s).intake = s.intake ∧ (markStayDone g s).decoder = s.decoder ∧ (markStayDone g s).time = s.time
    ∧ (markStayDone g s).keys = s.keys ∧ (markStayDone g s).showings = s.showings
    ∧ (markStayDone g s).presentation = s.presentation ∧ (markStayDone g s).lock = s.lock
    ∧ (markStayDone g s).account.stay = s.account.stay ∧ (markStayDone g s).account.purchases = s.account.purchases
    ∧ (markStayDone g s).account.tariffs = s.account.tariffs ∧ (markStayDone g s).account.pricing = s.account.pricing
    ∧ (markStayDone g s).account.held = s.account.held ∧ (markStayDone g s).account.freeView = s.account.freeView
    ∧ (markStayDone g s).account.generation = s.account.generation ∧ (markStayDone g s).journal = s.journal
    ∧ (markStayDone g s).requests.pendingMarks = s.requests.pendingMarks ∧ (markStayDone g s).report = s.report
    ∧ (markStayDone g s).store = s.store ∧ (markStayDone g s).settings = s.settings
    ∧ (markStayDone g s).memory = s.memory ∧ (markStayDone g s).memorySize = s.memorySize
    ∧ (markStayDone g s).freeCount = s.freeCount := by
  unfold markStayDone
  try dsimp only
  repeat' split
  all_goals simp

@[simp] theorem voidPendingBuys_frame (s : State):
    (voidPendingBuys s).pending = s.pending ∧ (voidPendingBuys s).path.mode = s.path.mode
    ∧ (voidPendingBuys s).path.windows = s.path.windows
    ∧ (voidPendingBuys s).path.refreshPeriod = s.path.refreshPeriod
    ∧ (voidPendingBuys s).path.tokensPerPeriod = s.path.tokensPerPeriod
    ∧ (voidPendingBuys s).path.periodRunning = s.path.periodRunning ∧ (voidPendingBuys s).path.tokens = s.path.tokens
    ∧ (voidPendingBuys s).path.waiting = s.path.waiting ∧ (voidPendingBuys s).path.passing = s.path.passing
    ∧ (voidPendingBuys s).path.port = s.path.port ∧ (voidPendingBuys s).path.attn = s.path.attn
    ∧ (voidPendingBuys s).path.dropped = s.path.dropped ∧ (voidPendingBuys s).path.returned = s.path.returned
    ∧ (voidPendingBuys s).intake = s.intake ∧ (voidPendingBuys s).decoder = s.decoder
    ∧ (voidPendingBuys s).time = s.time ∧ (voidPendingBuys s).keys = s.keys
    ∧ (voidPendingBuys s).showings = s.showings ∧ (voidPendingBuys s).presentation = s.presentation
    ∧ (voidPendingBuys s).lock = s.lock ∧ (voidPendingBuys s).account.stay = s.account.stay
    ∧ (voidPendingBuys s).account.purchases = s.account.purchases
    ∧ (voidPendingBuys s).account.tariffs = s.account.tariffs
    ∧ (voidPendingBuys s).account.pricing = s.account.pricing ∧ (voidPendingBuys s).account.held = s.account.held
    ∧ (voidPendingBuys s).account.freeView = s.account.freeView
    ∧ (voidPendingBuys s).account.generation = s.account.generation ∧ (voidPendingBuys s).journal = s.journal
    ∧ (voidPendingBuys s).requests.pendingMarks = s.requests.pendingMarks ∧ (voidPendingBuys s).report = s.report
    ∧ (voidPendingBuys s).store = s.store ∧ (voidPendingBuys s).settings = s.settings
    ∧ (voidPendingBuys s).memory = s.memory ∧ (voidPendingBuys s).memorySize = s.memorySize
    ∧ (voidPendingBuys s).freeCount = s.freeCount := by
  unfold voidPendingBuys
  simp [deliverAll_frame (fun _ => { result := .volatile, reason := some .storeFault })]

/-! ### The Timebase -/

@[simp] theorem noticeIfChanged_frame (b : Option Half) (s : State):
    (noticeIfChanged b s).pending = s.pending ∧ (noticeIfChanged b s).path = s.path
    ∧ (noticeIfChanged b s).intake = s.intake ∧ (noticeIfChanged b s).decoder = s.decoder
    ∧ (noticeIfChanged b s).time = s.time ∧ (noticeIfChanged b s).keys = s.keys
    ∧ (noticeIfChanged b s).showings = s.showings ∧ (noticeIfChanged b s).presentation = s.presentation
    ∧ (noticeIfChanged b s).lock = s.lock ∧ (noticeIfChanged b s).account.purchases = s.account.purchases
    ∧ (noticeIfChanged b s).account.tariffs = s.account.tariffs
    ∧ (noticeIfChanged b s).account.pricing = s.account.pricing ∧ (noticeIfChanged b s).account.held = s.account.held
    ∧ (noticeIfChanged b s).account.freeView = s.account.freeView
    ∧ (noticeIfChanged b s).account.pendingBuys = s.account.pendingBuys ∧ (noticeIfChanged b s).journal = s.journal
    ∧ (noticeIfChanged b s).requests = s.requests ∧ (noticeIfChanged b s).store.storePresent = s.store.storePresent
    ∧ (noticeIfChanged b s).store.bypass = s.store.bypass ∧ (noticeIfChanged b s).store.phase = s.store.phase
    ∧ (noticeIfChanged b s).store.image = s.store.image ∧ (noticeIfChanged b s).store.eeprom = s.store.eeprom
    ∧ (noticeIfChanged b s).settings = s.settings ∧ (noticeIfChanged b s).memory = s.memory
    ∧ (noticeIfChanged b s).memorySize = s.memorySize ∧ (noticeIfChanged b s).freeCount = s.freeCount := by
  unfold noticeIfChanged
  try dsimp only
  repeat' split
  all_goals simp

@[simp] theorem timeMessage_frame (c : WallClock) (s : State):
    (timeMessage c s).pending = s.pending ∧ (timeMessage c s).path = s.path ∧ (timeMessage c s).intake = s.intake
    ∧ (timeMessage c s).decoder = s.decoder ∧ (timeMessage c s).time.seconds = s.time.seconds
    ∧ (timeMessage c s).time.secondDue = s.time.secondDue
    ∧ (timeMessage c s).time.accountMinuteDue = s.time.accountMinuteDue
    ∧ (timeMessage c s).time.keyMinuteDue = s.time.keyMinuteDue
    ∧ (timeMessage c s).time.showingMinuteDue = s.time.showingMinuteDue
    ∧ (timeMessage c s).time.lockMinuteDue = s.time.lockMinuteDue ∧ (timeMessage c s).keys = s.keys
    ∧ (timeMessage c s).showings = s.showings ∧ (timeMessage c s).presentation = s.presentation
    ∧ (timeMessage c s).lock = s.lock ∧ (timeMessage c s).account.purchases = s.account.purchases
    ∧ (timeMessage c s).account.tariffs = s.account.tariffs ∧ (timeMessage c s).account.pricing = s.account.pricing
    ∧ (timeMessage c s).account.held = s.account.held ∧ (timeMessage c s).account.freeView = s.account.freeView
    ∧ (timeMessage c s).account.pendingBuys = s.account.pendingBuys ∧ (timeMessage c s).journal = s.journal
    ∧ (timeMessage c s).requests = s.requests ∧ (timeMessage c s).store.storePresent = s.store.storePresent
    ∧ (timeMessage c s).store.bypass = s.store.bypass ∧ (timeMessage c s).store.phase = s.store.phase
    ∧ (timeMessage c s).store.image = s.store.image ∧ (timeMessage c s).store.eeprom = s.store.eeprom
    ∧ (timeMessage c s).settings = s.settings ∧ (timeMessage c s).memory = s.memory
    ∧ (timeMessage c s).memorySize = s.memorySize ∧ (timeMessage c s).freeCount = s.freeCount := by
  unfold timeMessage
  try dsimp only
  repeat' split
  all_goals simp

@[simp] theorem advanceSecond_frame (s : State):
    (advanceSecond s).pending = s.pending ∧ (advanceSecond s).path = s.path ∧ (advanceSecond s).intake = s.intake
    ∧ (advanceSecond s).decoder = s.decoder ∧ (advanceSecond s).keys = s.keys
    ∧ (advanceSecond s).showings = s.showings ∧ (advanceSecond s).presentation = s.presentation
    ∧ (advanceSecond s).lock = s.lock ∧ (advanceSecond s).account.purchases = s.account.purchases
    ∧ (advanceSecond s).account.tariffs = s.account.tariffs ∧ (advanceSecond s).account.pricing = s.account.pricing
    ∧ (advanceSecond s).account.held = s.account.held ∧ (advanceSecond s).account.freeView = s.account.freeView
    ∧ (advanceSecond s).account.pendingBuys = s.account.pendingBuys ∧ (advanceSecond s).journal = s.journal
    ∧ (advanceSecond s).requests = s.requests ∧ (advanceSecond s).store.storePresent = s.store.storePresent
    ∧ (advanceSecond s).store.bypass = s.store.bypass ∧ (advanceSecond s).store.phase = s.store.phase
    ∧ (advanceSecond s).store.image = s.store.image ∧ (advanceSecond s).store.eeprom = s.store.eeprom
    ∧ (advanceSecond s).settings = s.settings ∧ (advanceSecond s).memory = s.memory
    ∧ (advanceSecond s).memorySize = s.memorySize ∧ (advanceSecond s).freeCount = s.freeCount := by
  unfold advanceSecond
  try dsimp only
  repeat' split
  all_goals simp

/-! ### The Message Decoder -/

@[simp] theorem takeListing_frame (r : ListingRecord) (s : State):
    (takeListing r s).pending = s.pending ∧ (takeListing r s).path = s.path ∧ (takeListing r s).intake = s.intake
    ∧ (takeListing r s).decoder = s.decoder ∧ (takeListing r s).time = s.time ∧ (takeListing r s).keys = s.keys
    ∧ (takeListing r s).showings.services = s.showings.services ∧ (takeListing r s).presentation = s.presentation
    ∧ (takeListing r s).lock = s.lock ∧ (takeListing r s).account.tariffs = s.account.tariffs
    ∧ (takeListing r s).account.pricing = s.account.pricing ∧ (takeListing r s).account.freeView = s.account.freeView
    ∧ (takeListing r s).journal.mark = s.journal.mark ∧ (takeListing r s).requests = s.requests
    ∧ (takeListing r s).store.storePresent = s.store.storePresent ∧ (takeListing r s).store.bypass = s.store.bypass
    ∧ (takeListing r s).store.phase = s.store.phase ∧ (takeListing r s).store.image = s.store.image
    ∧ (takeListing r s).store.eeprom = s.store.eeprom ∧ (takeListing r s).settings = s.settings
    ∧ (takeListing r s).memory = s.memory ∧ (takeListing r s).memorySize = s.memorySize
    ∧ (takeListing r s).freeCount = s.freeCount := by
  unfold takeListing
  try dsimp only
  repeat' split
  all_goals simp

@[simp] theorem listingMessage_frame (l : List ListingRecord) (s : State):
    (listingMessage l s).pending = s.pending ∧ (listingMessage l s).path = s.path
    ∧ (listingMessage l s).intake = s.intake ∧ (listingMessage l s).decoder = s.decoder
    ∧ (listingMessage l s).time = s.time ∧ (listingMessage l s).keys = s.keys
    ∧ (listingMessage l s).showings.services = s.showings.services
    ∧ (listingMessage l s).presentation = s.presentation ∧ (listingMessage l s).lock = s.lock
    ∧ (listingMessage l s).account.tariffs = s.account.tariffs
    ∧ (listingMessage l s).account.pricing = s.account.pricing
    ∧ (listingMessage l s).account.freeView = s.account.freeView ∧ (listingMessage l s).journal.mark = s.journal.mark
    ∧ (listingMessage l s).requests = s.requests ∧ (listingMessage l s).store.storePresent = s.store.storePresent
    ∧ (listingMessage l s).store.bypass = s.store.bypass ∧ (listingMessage l s).store.phase = s.store.phase
    ∧ (listingMessage l s).store.image = s.store.image ∧ (listingMessage l s).store.eeprom = s.store.eeprom
    ∧ (listingMessage l s).settings = s.settings ∧ (listingMessage l s).memory = s.memory
    ∧ (listingMessage l s).memorySize = s.memorySize ∧ (listingMessage l s).freeCount = s.freeCount := by
  unfold listingMessage
  induction l generalizing s with
  | nil => simp
  | cons x rest ih => simp [ih]

@[simp] theorem serviceDeleteMessage_frame (v : BitVec 12) (s : State):
    (serviceDeleteMessage v s).pending = s.pending ∧ (serviceDeleteMessage v s).path = s.path
    ∧ (serviceDeleteMessage v s).intake = s.intake ∧ (serviceDeleteMessage v s).decoder = s.decoder
    ∧ (serviceDeleteMessage v s).time = s.time ∧ (serviceDeleteMessage v s).presentation = s.presentation
    ∧ (serviceDeleteMessage v s).lock = s.lock ∧ (serviceDeleteMessage v s).account = s.account
    ∧ (serviceDeleteMessage v s).journal = s.journal ∧ (serviceDeleteMessage v s).requests = s.requests
    ∧ (serviceDeleteMessage v s).report = s.report ∧ (serviceDeleteMessage v s).store = s.store
    ∧ (serviceDeleteMessage v s).settings = s.settings ∧ (serviceDeleteMessage v s).memory = s.memory
    ∧ (serviceDeleteMessage v s).memorySize = s.memorySize ∧ (serviceDeleteMessage v s).freeCount = s.freeCount := by
  unfold serviceDeleteMessage
  try dsimp only
  repeat' split
  all_goals simp

@[simp] theorem maintenanceReset_frame (s : State):
    (maintenanceReset s).pending = s.pending ∧ (maintenanceReset s).path = s.path
    ∧ (maintenanceReset s).intake.context = s.intake.context ∧ (maintenanceReset s).intake.staging = s.intake.staging
    ∧ (maintenanceReset s).intake.headerErrors = s.intake.headerErrors
    ∧ (maintenanceReset s).intake.abandoned = s.intake.abandoned ∧ (maintenanceReset s).decoder = s.decoder
    ∧ (maintenanceReset s).time = s.time ∧ (maintenanceReset s).presentation = s.presentation
    ∧ (maintenanceReset s).account.stay = s.account.stay
    ∧ (maintenanceReset s).account.purchases = s.account.purchases
    ∧ (maintenanceReset s).account.held = s.account.held
    ∧ (maintenanceReset s).account.generation = s.account.generation
    ∧ (maintenanceReset s).account.pendingBuys = s.account.pendingBuys ∧ (maintenanceReset s).journal = s.journal
    ∧ (maintenanceReset s).requests = s.requests ∧ (maintenanceReset s).store = s.store
    ∧ (maintenanceReset s).settings = s.settings ∧ (maintenanceReset s).memory = s.memory
    ∧ (maintenanceReset s).memorySize = s.memorySize ∧ (maintenanceReset s).freeCount = s.freeCount := by
  unfold maintenanceReset
  try dsimp only
  repeat' split
  all_goals simp

@[simp] theorem maintMessage_frame (t : Half) (s : State):
    (maintMessage t s).pending = s.pending ∧ (maintMessage t s).path = s.path
    ∧ (maintMessage t s).intake.context = s.intake.context ∧ (maintMessage t s).intake.staging = s.intake.staging
    ∧ (maintMessage t s).intake.headerErrors = s.intake.headerErrors
    ∧ (maintMessage t s).intake.abandoned = s.intake.abandoned
    ∧ (maintMessage t s).decoder.lastNumber = s.decoder.lastNumber
    ∧ (maintMessage t s).decoder.tagFailures = s.decoder.tagFailures
    ∧ (maintMessage t s).decoder.ignored = s.decoder.ignored ∧ (maintMessage t s).decoder.handOff = s.decoder.handOff
    ∧ (maintMessage t s).time = s.time ∧ (maintMessage t s).presentation = s.presentation
    ∧ (maintMessage t s).account.stay = s.account.stay ∧ (maintMessage t s).account.purchases = s.account.purchases
    ∧ (maintMessage t s).account.held = s.account.held ∧ (maintMessage t s).account.generation = s.account.generation
    ∧ (maintMessage t s).account.pendingBuys = s.account.pendingBuys ∧ (maintMessage t s).journal = s.journal
    ∧ (maintMessage t s).requests = s.requests ∧ (maintMessage t s).store = s.store
    ∧ (maintMessage t s).settings = s.settings ∧ (maintMessage t s).memory = s.memory
    ∧ (maintMessage t s).memorySize = s.memorySize ∧ (maintMessage t s).freeCount = s.freeCount := by
  unfold maintMessage
  try dsimp only
  repeat' split
  all_goals simp

@[simp] theorem dispatch_frame (a : AddressType) (m : Message) (s : State):
    (dispatch a m s).pending = s.pending ∧ (dispatch a m s).path = s.path
    ∧ (dispatch a m s).intake.context = s.intake.context ∧ (dispatch a m s).intake.staging = s.intake.staging
    ∧ (dispatch a m s).intake.headerErrors = s.intake.headerErrors
    ∧ (dispatch a m s).intake.abandoned = s.intake.abandoned
    ∧ (dispatch a m s).decoder.lastNumber = s.decoder.lastNumber
    ∧ (dispatch a m s).decoder.tagFailures = s.decoder.tagFailures
    ∧ (dispatch a m s).decoder.handOff = s.decoder.handOff ∧ (dispatch a m s).time.seconds = s.time.seconds
    ∧ (dispatch a m s).time.secondDue = s.time.secondDue
    ∧ (dispatch a m s).time.accountMinuteDue = s.time.accountMinuteDue
    ∧ (dispatch a m s).time.keyMinuteDue = s.time.keyMinuteDue
    ∧ (dispatch a m s).time.showingMinuteDue = s.time.showingMinuteDue
    ∧ (dispatch a m s).time.lockMinuteDue = s.time.lockMinuteDue ∧ (dispatch a m s).presentation = s.presentation
    ∧ (dispatch a m s).requests = s.requests ∧ (dispatch a m s).store.storePresent = s.store.storePresent
    ∧ (dispatch a m s).store.bypass = s.store.bypass ∧ (dispatch a m s).store.phase = s.store.phase
    ∧ (dispatch a m s).store.image = s.store.image ∧ (dispatch a m s).store.eeprom = s.store.eeprom
    ∧ (dispatch a m s).settings = s.settings ∧ (dispatch a m s).memory = s.memory
    ∧ (dispatch a m s).memorySize = s.memorySize ∧ (dispatch a m s).freeCount = s.freeCount := by
  cases m <;> simp [dispatch]

@[simp] theorem acceptRoom_frame (n : Half) (s : State):
    (acceptRoom n s).pending = s.pending ∧ (acceptRoom n s).path = s.path ∧ (acceptRoom n s).intake = s.intake
    ∧ (acceptRoom n s).decoder.lastMaintenanceTag = s.decoder.lastMaintenanceTag
    ∧ (acceptRoom n s).decoder.tagFailures = s.decoder.tagFailures
    ∧ (acceptRoom n s).decoder.ignored = s.decoder.ignored ∧ (acceptRoom n s).decoder.handOff = s.decoder.handOff
    ∧ (acceptRoom n s).time = s.time ∧ (acceptRoom n s).keys = s.keys ∧ (acceptRoom n s).showings = s.showings
    ∧ (acceptRoom n s).presentation = s.presentation ∧ (acceptRoom n s).lock = s.lock
    ∧ (acceptRoom n s).account.stay = s.account.stay ∧ (acceptRoom n s).account.purchases = s.account.purchases
    ∧ (acceptRoom n s).account.tariffs = s.account.tariffs ∧ (acceptRoom n s).account.pricing = s.account.pricing
    ∧ (acceptRoom n s).account.held = s.account.held ∧ (acceptRoom n s).account.freeView = s.account.freeView
    ∧ (acceptRoom n s).account.pendingBuys = s.account.pendingBuys ∧ (acceptRoom n s).journal = s.journal
    ∧ (acceptRoom n s).requests = s.requests ∧ (acceptRoom n s).report = s.report
    ∧ (acceptRoom n s).store.state = s.store.state ∧ (acceptRoom n s).store.inFlight = s.store.inFlight
    ∧ (acceptRoom n s).store.pageNumber = s.store.pageNumber
    ∧ (acceptRoom n s).store.storePresent = s.store.storePresent ∧ (acceptRoom n s).store.bypass = s.store.bypass
    ∧ (acceptRoom n s).store.phase = s.store.phase ∧ (acceptRoom n s).store.image = s.store.image
    ∧ (acceptRoom n s).store.eeprom = s.store.eeprom ∧ (acceptRoom n s).settings = s.settings
    ∧ (acceptRoom n s).memory = s.memory ∧ (acceptRoom n s).memorySize = s.memorySize
    ∧ (acceptRoom n s).freeCount = s.freeCount := by
  unfold acceptRoom
  try dsimp only
  repeat' split
  all_goals simp

@[simp] theorem acceptMessage_frame (a : AddressType) (n : Half) (m : Message) (s : State):
    (acceptMessage a n m s).pending = s.pending ∧ (acceptMessage a n m s).path = s.path
    ∧ (acceptMessage a n m s).intake.context = s.intake.context
    ∧ (acceptMessage a n m s).intake.staging = s.intake.staging
    ∧ (acceptMessage a n m s).intake.headerErrors = s.intake.headerErrors
    ∧ (acceptMessage a n m s).intake.abandoned = s.intake.abandoned
    ∧ (acceptMessage a n m s).decoder.tagFailures = s.decoder.tagFailures
    ∧ (acceptMessage a n m s).decoder.handOff = s.decoder.handOff
    ∧ (acceptMessage a n m s).time.seconds = s.time.seconds
    ∧ (acceptMessage a n m s).time.secondDue = s.time.secondDue
    ∧ (acceptMessage a n m s).time.accountMinuteDue = s.time.accountMinuteDue
    ∧ (acceptMessage a n m s).time.keyMinuteDue = s.time.keyMinuteDue
    ∧ (acceptMessage a n m s).time.showingMinuteDue = s.time.showingMinuteDue
    ∧ (acceptMessage a n m s).time.lockMinuteDue = s.time.lockMinuteDue
    ∧ (acceptMessage a n m s).presentation = s.presentation ∧ (acceptMessage a n m s).requests = s.requests
    ∧ (acceptMessage a n m s).store.storePresent = s.store.storePresent
    ∧ (acceptMessage a n m s).store.bypass = s.store.bypass ∧ (acceptMessage a n m s).store.phase = s.store.phase
    ∧ (acceptMessage a n m s).store.image = s.store.image ∧ (acceptMessage a n m s).store.eeprom = s.store.eeprom
    ∧ (acceptMessage a n m s).settings = s.settings ∧ (acceptMessage a n m s).memory = s.memory
    ∧ (acceptMessage a n m s).memorySize = s.memorySize ∧ (acceptMessage a n m s).freeCount = s.freeCount := by
  unfold acceptMessage
  try dsimp only
  repeat' split
  all_goals simp

@[simp] theorem applyFinding_frame (f : Finding) (s : State):
    (applyFinding f s).pending = s.pending ∧ (applyFinding f s).path = s.path
    ∧ (applyFinding f s).intake.context = s.intake.context ∧ (applyFinding f s).intake.staging = s.intake.staging
    ∧ (applyFinding f s).intake.headerErrors = s.intake.headerErrors
    ∧ (applyFinding f s).intake.abandoned = s.intake.abandoned
    ∧ (applyFinding f s).decoder.handOff = s.decoder.handOff ∧ (applyFinding f s).time.seconds = s.time.seconds
    ∧ (applyFinding f s).time.secondDue = s.time.secondDue
    ∧ (applyFinding f s).time.accountMinuteDue = s.time.accountMinuteDue
    ∧ (applyFinding f s).time.keyMinuteDue = s.time.keyMinuteDue
    ∧ (applyFinding f s).time.showingMinuteDue = s.time.showingMinuteDue
    ∧ (applyFinding f s).time.lockMinuteDue = s.time.lockMinuteDue ∧ (applyFinding f s).presentation = s.presentation
    ∧ (applyFinding f s).requests = s.requests ∧ (applyFinding f s).store.storePresent = s.store.storePresent
    ∧ (applyFinding f s).store.bypass = s.store.bypass ∧ (applyFinding f s).store.phase = s.store.phase
    ∧ (applyFinding f s).store.image = s.store.image ∧ (applyFinding f s).store.eeprom = s.store.eeprom
    ∧ (applyFinding f s).settings = s.settings ∧ (applyFinding f s).memory = s.memory
    ∧ (applyFinding f s).memorySize = s.memorySize ∧ (applyFinding f s).freeCount = s.freeCount := by
  unfold applyFinding
  try dsimp only
  repeat' split
  all_goals simp

@[simp] theorem decodeHandOff_frame (h : HandOff) (s : State):
    (decodeHandOff h s).pending = s.pending ∧ (decodeHandOff h s).path = s.path
    ∧ (decodeHandOff h s).intake.context = s.intake.context ∧ (decodeHandOff h s).intake.staging = s.intake.staging
    ∧ (decodeHandOff h s).intake.headerErrors = s.intake.headerErrors
    ∧ (decodeHandOff h s).intake.abandoned = s.intake.abandoned ∧ (decodeHandOff h s).time.seconds = s.time.seconds
    ∧ (decodeHandOff h s).time.secondDue = s.time.secondDue
    ∧ (decodeHandOff h s).time.accountMinuteDue = s.time.accountMinuteDue
    ∧ (decodeHandOff h s).time.keyMinuteDue = s.time.keyMinuteDue
    ∧ (decodeHandOff h s).time.showingMinuteDue = s.time.showingMinuteDue
    ∧ (decodeHandOff h s).time.lockMinuteDue = s.time.lockMinuteDue
    ∧ (decodeHandOff h s).presentation = s.presentation ∧ (decodeHandOff h s).requests = s.requests
    ∧ (decodeHandOff h s).store.storePresent = s.store.storePresent
    ∧ (decodeHandOff h s).store.bypass = s.store.bypass ∧ (decodeHandOff h s).store.phase = s.store.phase
    ∧ (decodeHandOff h s).store.image = s.store.image ∧ (decodeHandOff h s).store.eeprom = s.store.eeprom
    ∧ (decodeHandOff h s).settings = s.settings ∧ (decodeHandOff h s).memory = s.memory
    ∧ (decodeHandOff h s).memorySize = s.memorySize ∧ (decodeHandOff h s).freeCount = s.freeCount := by
  unfold decodeHandOff
  try dsimp only
  repeat' split
  all_goals simp

@[simp] theorem finishHandOff_frame (s : State):
    (finishHandOff s).pending = s.pending ∧ (finishHandOff s).path = s.path
    ∧ (finishHandOff s).intake.context = s.intake.context ∧ (finishHandOff s).intake.staging = s.intake.staging
    ∧ (finishHandOff s).intake.headerErrors = s.intake.headerErrors
    ∧ (finishHandOff s).intake.abandoned = s.intake.abandoned ∧ (finishHandOff s).time.seconds = s.time.seconds
    ∧ (finishHandOff s).time.secondDue = s.time.secondDue
    ∧ (finishHandOff s).time.accountMinuteDue = s.time.accountMinuteDue
    ∧ (finishHandOff s).time.keyMinuteDue = s.time.keyMinuteDue
    ∧ (finishHandOff s).time.showingMinuteDue = s.time.showingMinuteDue
    ∧ (finishHandOff s).time.lockMinuteDue = s.time.lockMinuteDue ∧ (finishHandOff s).presentation = s.presentation
    ∧ (finishHandOff s).requests = s.requests ∧ (finishHandOff s).store.storePresent = s.store.storePresent
    ∧ (finishHandOff s).store.bypass = s.store.bypass ∧ (finishHandOff s).store.phase = s.store.phase
    ∧ (finishHandOff s).store.image = s.store.image ∧ (finishHandOff s).store.eeprom = s.store.eeprom
    ∧ (finishHandOff s).settings = s.settings ∧ (finishHandOff s).memory = s.memory
    ∧ (finishHandOff s).memorySize = s.memorySize ∧ (finishHandOff s).freeCount = s.freeCount := by
  unfold finishHandOff
  try dsimp only
  repeat' split
  all_goals simp

@[simp] theorem messageRow_frame (p : Finding → Bool) (s : State):
    (messageRow p s).pending = s.pending ∧ (messageRow p s).path = s.path
    ∧ (messageRow p s).intake.context = s.intake.context ∧ (messageRow p s).intake.staging = s.intake.staging
    ∧ (messageRow p s).intake.headerErrors = s.intake.headerErrors
    ∧ (messageRow p s).intake.abandoned = s.intake.abandoned ∧ (messageRow p s).time.seconds = s.time.seconds
    ∧ (messageRow p s).time.secondDue = s.time.secondDue
    ∧ (messageRow p s).time.accountMinuteDue = s.time.accountMinuteDue
    ∧ (messageRow p s).time.keyMinuteDue = s.time.keyMinuteDue
    ∧ (messageRow p s).time.showingMinuteDue = s.time.showingMinuteDue
    ∧ (messageRow p s).time.lockMinuteDue = s.time.lockMinuteDue ∧ (messageRow p s).presentation = s.presentation
    ∧ (messageRow p s).requests = s.requests ∧ (messageRow p s).store.storePresent = s.store.storePresent
    ∧ (messageRow p s).store.bypass = s.store.bypass ∧ (messageRow p s).store.phase = s.store.phase
    ∧ (messageRow p s).store.image = s.store.image ∧ (messageRow p s).store.eeprom = s.store.eeprom
    ∧ (messageRow p s).settings = s.settings ∧ (messageRow p s).memory = s.memory
    ∧ (messageRow p s).memorySize = s.memorySize ∧ (messageRow p s).freeCount = s.freeCount := by
  unfold messageRow
  try dsimp only
  repeat' split
  all_goals simp

/-! ### The Intake Unit -/

@[simp] theorem abandonCell_frame (r : Ring) (s : State):
    (abandonCell r s).pending = s.pending ∧ (abandonCell r s).path = s.path
    ∧ (abandonCell r s).intake.tags = s.intake.tags ∧ (abandonCell r s).intake.context = s.intake.context
    ∧ (abandonCell r s).intake.headerErrors = s.intake.headerErrors ∧ (abandonCell r s).decoder = s.decoder
    ∧ (abandonCell r s).time = s.time ∧ (abandonCell r s).keys = s.keys ∧ (abandonCell r s).showings = s.showings
    ∧ (abandonCell r s).presentation = s.presentation ∧ (abandonCell r s).lock = s.lock
    ∧ (abandonCell r s).account = s.account ∧ (abandonCell r s).journal = s.journal
    ∧ (abandonCell r s).requests = s.requests ∧ (abandonCell r s).store = s.store
    ∧ (abandonCell r s).settings = s.settings ∧ (abandonCell r s).memory = s.memory
    ∧ (abandonCell r s).memorySize = s.memorySize ∧ (abandonCell r s).freeCount = s.freeCount := by
  unfold abandonCell
  try dsimp only
  repeat' split
  all_goals simp

@[simp] theorem closeEarly_frame (r : Ring) (s : State):
    (closeEarly r s).pending = s.pending ∧ (closeEarly r s).path = s.path
    ∧ (closeEarly r s).intake.tags = s.intake.tags ∧ (closeEarly r s).intake.headerErrors = s.intake.headerErrors
    ∧ (closeEarly r s).decoder = s.decoder ∧ (closeEarly r s).time = s.time ∧ (closeEarly r s).keys = s.keys
    ∧ (closeEarly r s).showings = s.showings ∧ (closeEarly r s).presentation = s.presentation
    ∧ (closeEarly r s).lock = s.lock ∧ (closeEarly r s).account = s.account ∧ (closeEarly r s).journal = s.journal
    ∧ (closeEarly r s).requests = s.requests ∧ (closeEarly r s).store = s.store
    ∧ (closeEarly r s).settings = s.settings ∧ (closeEarly r s).memory = s.memory
    ∧ (closeEarly r s).memorySize = s.memorySize ∧ (closeEarly r s).freeCount = s.freeCount := by
  unfold closeEarly
  try dsimp only
  repeat' split
  all_goals simp

@[simp] theorem stageWrite_frame (p : CellPlace) (w : BusWrite) (s : State):
    ((stageWrite p w s).1).pending = s.pending ∧ ((stageWrite p w s).1).path = s.path
    ∧ ((stageWrite p w s).1).intake.tags = s.intake.tags ∧ ((stageWrite p w s).1).intake.context = s.intake.context
    ∧ ((stageWrite p w s).1).intake.headerErrors = s.intake.headerErrors
    ∧ ((stageWrite p w s).1).intake.abandoned = s.intake.abandoned ∧ ((stageWrite p w s).1).decoder = s.decoder
    ∧ ((stageWrite p w s).1).time = s.time ∧ ((stageWrite p w s).1).keys = s.keys
    ∧ ((stageWrite p w s).1).showings = s.showings ∧ ((stageWrite p w s).1).presentation = s.presentation
    ∧ ((stageWrite p w s).1).lock = s.lock ∧ ((stageWrite p w s).1).account = s.account
    ∧ ((stageWrite p w s).1).journal = s.journal ∧ ((stageWrite p w s).1).requests = s.requests
    ∧ ((stageWrite p w s).1).report = s.report ∧ ((stageWrite p w s).1).store = s.store
    ∧ ((stageWrite p w s).1).settings = s.settings ∧ ((stageWrite p w s).1).memory = s.memory
    ∧ ((stageWrite p w s).1).memorySize = s.memorySize ∧ ((stageWrite p w s).1).freeCount = s.freeCount := by
  unfold stageWrite
  try dsimp only
  repeat' split
  all_goals simp

@[simp] theorem openCell_frame (p : CellPlace) (w : BusWrite) (s : State):
    (openCell p w s).pending = s.pending ∧ (openCell p w s).path = s.path
    ∧ (openCell p w s).intake.abandoned = s.intake.abandoned ∧ (openCell p w s).decoder = s.decoder
    ∧ (openCell p w s).time = s.time ∧ (openCell p w s).keys = s.keys ∧ (openCell p w s).showings = s.showings
    ∧ (openCell p w s).presentation = s.presentation ∧ (openCell p w s).lock = s.lock
    ∧ (openCell p w s).account = s.account ∧ (openCell p w s).journal = s.journal
    ∧ (openCell p w s).requests = s.requests ∧ (openCell p w s).store = s.store
    ∧ (openCell p w s).settings = s.settings ∧ (openCell p w s).memory = s.memory
    ∧ (openCell p w s).memorySize = s.memorySize ∧ (openCell p w s).freeCount = s.freeCount := by
  unfold openCell
  try dsimp only
  repeat' split
  all_goals simp

@[simp] theorem closeWhole_frame (p : CellPlace) (c : OpenCell) (s : State):
    (closeWhole p c s).pending = s.pending ∧ (closeWhole p c s).path = s.path
    ∧ (closeWhole p c s).intake.tags = s.intake.tags ∧ (closeWhole p c s).intake.headerErrors = s.intake.headerErrors
    ∧ (closeWhole p c s).intake.abandoned = s.intake.abandoned
    ∧ (closeWhole p c s).decoder.lastNumber = s.decoder.lastNumber
    ∧ (closeWhole p c s).decoder.lastMaintenanceTag = s.decoder.lastMaintenanceTag
    ∧ (closeWhole p c s).decoder.tagFailures = s.decoder.tagFailures
    ∧ (closeWhole p c s).decoder.ignored = s.decoder.ignored ∧ (closeWhole p c s).time = s.time
    ∧ (closeWhole p c s).keys = s.keys ∧ (closeWhole p c s).showings = s.showings
    ∧ (closeWhole p c s).presentation = s.presentation ∧ (closeWhole p c s).lock = s.lock
    ∧ (closeWhole p c s).account = s.account ∧ (closeWhole p c s).journal = s.journal
    ∧ (closeWhole p c s).requests = s.requests ∧ (closeWhole p c s).report = s.report
    ∧ (closeWhole p c s).store = s.store ∧ (closeWhole p c s).settings = s.settings
    ∧ (closeWhole p c s).memory = s.memory ∧ (closeWhole p c s).memorySize = s.memorySize
    ∧ (closeWhole p c s).freeCount = s.freeCount := by
  unfold closeWhole
  try dsimp only
  repeat' split
  all_goals simp

@[simp] theorem breakCell_frame (p : CellPlace) (c : OpenCell) (s : State):
    (breakCell p c s).pending = s.pending ∧ (breakCell p c s).path = s.path
    ∧ (breakCell p c s).intake.tags = s.intake.tags ∧ (breakCell p c s).intake.headerErrors = s.intake.headerErrors
    ∧ (breakCell p c s).decoder = s.decoder ∧ (breakCell p c s).time = s.time ∧ (breakCell p c s).keys = s.keys
    ∧ (breakCell p c s).showings = s.showings ∧ (breakCell p c s).presentation = s.presentation
    ∧ (breakCell p c s).lock = s.lock ∧ (breakCell p c s).account = s.account ∧ (breakCell p c s).journal = s.journal
    ∧ (breakCell p c s).requests = s.requests ∧ (breakCell p c s).store = s.store
    ∧ (breakCell p c s).settings = s.settings ∧ (breakCell p c s).memory = s.memory
    ∧ (breakCell p c s).memorySize = s.memorySize ∧ (breakCell p c s).freeCount = s.freeCount := by
  unfold breakCell
  try dsimp only
  repeat' split
  all_goals simp

@[simp] theorem advanceCell_frame (p : CellPlace) (c : OpenCell) (s : State):
    (advanceCell p c s).pending = s.pending ∧ (advanceCell p c s).path = s.path
    ∧ (advanceCell p c s).intake.tags = s.intake.tags
    ∧ (advanceCell p c s).intake.headerErrors = s.intake.headerErrors
    ∧ (advanceCell p c s).intake.abandoned = s.intake.abandoned
    ∧ (advanceCell p c s).decoder.lastNumber = s.decoder.lastNumber
    ∧ (advanceCell p c s).decoder.lastMaintenanceTag = s.decoder.lastMaintenanceTag
    ∧ (advanceCell p c s).decoder.tagFailures = s.decoder.tagFailures
    ∧ (advanceCell p c s).decoder.ignored = s.decoder.ignored ∧ (advanceCell p c s).time = s.time
    ∧ (advanceCell p c s).keys = s.keys ∧ (advanceCell p c s).showings = s.showings
    ∧ (advanceCell p c s).presentation = s.presentation ∧ (advanceCell p c s).lock = s.lock
    ∧ (advanceCell p c s).account = s.account ∧ (advanceCell p c s).journal = s.journal
    ∧ (advanceCell p c s).requests = s.requests ∧ (advanceCell p c s).report = s.report
    ∧ (advanceCell p c s).store = s.store ∧ (advanceCell p c s).settings = s.settings
    ∧ (advanceCell p c s).memory = s.memory ∧ (advanceCell p c s).memorySize = s.memorySize
    ∧ (advanceCell p c s).freeCount = s.freeCount := by
  unfold advanceCell
  try dsimp only
  repeat' split
  all_goals simp

@[simp] theorem payloadGranule_frame (p : CellPlace) (w : BusWrite) (s : State):
    ((payloadGranule p w s).1).pending = s.pending ∧ ((payloadGranule p w s).1).path = s.path
    ∧ ((payloadGranule p w s).1).intake.tags = s.intake.tags
    ∧ ((payloadGranule p w s).1).intake.headerErrors = s.intake.headerErrors
    ∧ ((payloadGranule p w s).1).decoder.lastNumber = s.decoder.lastNumber
    ∧ ((payloadGranule p w s).1).decoder.lastMaintenanceTag = s.decoder.lastMaintenanceTag
    ∧ ((payloadGranule p w s).1).decoder.tagFailures = s.decoder.tagFailures
    ∧ ((payloadGranule p w s).1).decoder.ignored = s.decoder.ignored ∧ ((payloadGranule p w s).1).time = s.time
    ∧ ((payloadGranule p w s).1).keys = s.keys ∧ ((payloadGranule p w s).1).showings = s.showings
    ∧ ((payloadGranule p w s).1).presentation = s.presentation ∧ ((payloadGranule p w s).1).lock = s.lock
    ∧ ((payloadGranule p w s).1).account = s.account ∧ ((payloadGranule p w s).1).journal = s.journal
    ∧ ((payloadGranule p w s).1).requests = s.requests ∧ ((payloadGranule p w s).1).store = s.store
    ∧ ((payloadGranule p w s).1).settings = s.settings ∧ ((payloadGranule p w s).1).memory = s.memory
    ∧ ((payloadGranule p w s).1).memorySize = s.memorySize ∧ ((payloadGranule p w s).1).freeCount = s.freeCount := by
  unfold payloadGranule
  try dsimp only
  repeat' split
  all_goals simp

@[simp] theorem intakeWrite_frame (p : CellPlace) (w : BusWrite) (s : State):
    ((intakeWrite p w s).1).pending = s.pending ∧ ((intakeWrite p w s).1).path = s.path
    ∧ ((intakeWrite p w s).1).decoder.lastNumber = s.decoder.lastNumber
    ∧ ((intakeWrite p w s).1).decoder.lastMaintenanceTag = s.decoder.lastMaintenanceTag
    ∧ ((intakeWrite p w s).1).decoder.tagFailures = s.decoder.tagFailures
    ∧ ((intakeWrite p w s).1).decoder.ignored = s.decoder.ignored ∧ ((intakeWrite p w s).1).time = s.time
    ∧ ((intakeWrite p w s).1).keys = s.keys ∧ ((intakeWrite p w s).1).showings = s.showings
    ∧ ((intakeWrite p w s).1).presentation = s.presentation ∧ ((intakeWrite p w s).1).lock = s.lock
    ∧ ((intakeWrite p w s).1).account = s.account ∧ ((intakeWrite p w s).1).journal = s.journal
    ∧ ((intakeWrite p w s).1).requests = s.requests ∧ ((intakeWrite p w s).1).store = s.store
    ∧ ((intakeWrite p w s).1).settings = s.settings ∧ ((intakeWrite p w s).1).memory = s.memory
    ∧ ((intakeWrite p w s).1).memorySize = s.memorySize ∧ ((intakeWrite p w s).1).freeCount = s.freeCount := by
  unfold intakeWrite
  try dsimp only
  repeat' split
  all_goals simp

/-! ### The Presentation Unit -/

@[simp] theorem previewStep_frame (e : EventRecord) (t : Tariff) (s : State):
    ((previewStep e t s).1).pending = s.pending ∧ ((previewStep e t s).1).path = s.path
    ∧ ((previewStep e t s).1).intake = s.intake ∧ ((previewStep e t s).1).decoder = s.decoder
    ∧ ((previewStep e t s).1).time = s.time ∧ ((previewStep e t s).1).keys = s.keys
    ∧ ((previewStep e t s).1).showings.services = s.showings.services
    ∧ ((previewStep e t s).1).presentation = s.presentation ∧ ((previewStep e t s).1).lock = s.lock
    ∧ ((previewStep e t s).1).account.tariffs = s.account.tariffs
    ∧ ((previewStep e t s).1).account.pricing = s.account.pricing
    ∧ ((previewStep e t s).1).account.freeView = s.account.freeView
    ∧ ((previewStep e t s).1).journal.mark = s.journal.mark ∧ ((previewStep e t s).1).requests = s.requests
    ∧ ((previewStep e t s).1).store.storePresent = s.store.storePresent
    ∧ ((previewStep e t s).1).store.bypass = s.store.bypass ∧ ((previewStep e t s).1).store.phase = s.store.phase
    ∧ ((previewStep e t s).1).store.image = s.store.image ∧ ((previewStep e t s).1).store.eeprom = s.store.eeprom
    ∧ ((previewStep e t s).1).settings = s.settings ∧ ((previewStep e t s).1).memory = s.memory
    ∧ ((previewStep e t s).1).memorySize = s.memorySize ∧ ((previewStep e t s).1).freeCount = s.freeCount := by
  unfold previewStep
  try dsimp only
  repeat' split
  all_goals simp

@[simp] theorem payStep_frame (e : Option EventRecord) (s : State):
    ((payStep e s).1).pending = s.pending ∧ ((payStep e s).1).path = s.path ∧ ((payStep e s).1).intake = s.intake
    ∧ ((payStep e s).1).decoder = s.decoder ∧ ((payStep e s).1).time = s.time ∧ ((payStep e s).1).keys = s.keys
    ∧ ((payStep e s).1).showings.services = s.showings.services ∧ ((payStep e s).1).presentation = s.presentation
    ∧ ((payStep e s).1).lock = s.lock ∧ ((payStep e s).1).account.tariffs = s.account.tariffs
    ∧ ((payStep e s).1).account.pricing = s.account.pricing ∧ ((payStep e s).1).account.freeView = s.account.freeView
    ∧ ((payStep e s).1).journal.mark = s.journal.mark ∧ ((payStep e s).1).requests = s.requests
    ∧ ((payStep e s).1).store.storePresent = s.store.storePresent ∧ ((payStep e s).1).store.bypass = s.store.bypass
    ∧ ((payStep e s).1).store.phase = s.store.phase ∧ ((payStep e s).1).store.image = s.store.image
    ∧ ((payStep e s).1).store.eeprom = s.store.eeprom ∧ ((payStep e s).1).settings = s.settings
    ∧ ((payStep e s).1).memory = s.memory ∧ ((payStep e s).1).memorySize = s.memorySize
    ∧ ((payStep e s).1).freeCount = s.freeCount := by
  unfold payStep
  try dsimp only
  repeat' split
  all_goals simp

@[simp] theorem judge_frame (f : TagFields) (s : State):
    ((judge f s).1).pending = s.pending ∧ ((judge f s).1).path = s.path ∧ ((judge f s).1).intake = s.intake
    ∧ ((judge f s).1).decoder = s.decoder ∧ ((judge f s).1).time = s.time ∧ ((judge f s).1).keys = s.keys
    ∧ ((judge f s).1).showings.services = s.showings.services ∧ ((judge f s).1).presentation = s.presentation
    ∧ ((judge f s).1).lock = s.lock ∧ ((judge f s).1).account.tariffs = s.account.tariffs
    ∧ ((judge f s).1).account.pricing = s.account.pricing ∧ ((judge f s).1).account.freeView = s.account.freeView
    ∧ ((judge f s).1).journal.mark = s.journal.mark ∧ ((judge f s).1).requests = s.requests
    ∧ ((judge f s).1).store.storePresent = s.store.storePresent ∧ ((judge f s).1).store.bypass = s.store.bypass
    ∧ ((judge f s).1).store.phase = s.store.phase ∧ ((judge f s).1).store.image = s.store.image
    ∧ ((judge f s).1).store.eeprom = s.store.eeprom ∧ ((judge f s).1).settings = s.settings
    ∧ ((judge f s).1).memory = s.memory ∧ ((judge f s).1).memorySize = s.memorySize
    ∧ ((judge f s).1).freeCount = s.freeCount := by
  unfold judge
  try dsimp only
  repeat' split
  all_goals simp

@[simp] theorem verdictOf_frame (t : SlotTag) (s : State):
    ((verdictOf t s).1).pending = s.pending ∧ ((verdictOf t s).1).path = s.path
    ∧ ((verdictOf t s).1).intake = s.intake ∧ ((verdictOf t s).1).decoder = s.decoder
    ∧ ((verdictOf t s).1).time = s.time ∧ ((verdictOf t s).1).keys = s.keys
    ∧ ((verdictOf t s).1).showings.services = s.showings.services ∧ ((verdictOf t s).1).presentation = s.presentation
    ∧ ((verdictOf t s).1).lock = s.lock ∧ ((verdictOf t s).1).account.tariffs = s.account.tariffs
    ∧ ((verdictOf t s).1).account.pricing = s.account.pricing
    ∧ ((verdictOf t s).1).account.freeView = s.account.freeView ∧ ((verdictOf t s).1).journal.mark = s.journal.mark
    ∧ ((verdictOf t s).1).requests = s.requests ∧ ((verdictOf t s).1).store.storePresent = s.store.storePresent
    ∧ ((verdictOf t s).1).store.bypass = s.store.bypass ∧ ((verdictOf t s).1).store.phase = s.store.phase
    ∧ ((verdictOf t s).1).store.image = s.store.image ∧ ((verdictOf t s).1).store.eeprom = s.store.eeprom
    ∧ ((verdictOf t s).1).settings = s.settings ∧ ((verdictOf t s).1).memory = s.memory
    ∧ ((verdictOf t s).1).memorySize = s.memorySize ∧ ((verdictOf t s).1).freeCount = s.freeCount := by
  unfold verdictOf
  try dsimp only
  repeat' split
  all_goals simp

@[simp] theorem setSummary_frame (r : Ring) (x : Summary) (s : State):
    (setSummary r x s).pending = s.pending ∧ (setSummary r x s).path = s.path ∧ (setSummary r x s).intake = s.intake
    ∧ (setSummary r x s).decoder = s.decoder ∧ (setSummary r x s).time = s.time ∧ (setSummary r x s).keys = s.keys
    ∧ (setSummary r x s).showings = s.showings ∧ (setSummary r x s).presentation.noKey = s.presentation.noKey
    ∧ (setSummary r x s).lock = s.lock ∧ (setSummary r x s).account = s.account
    ∧ (setSummary r x s).journal = s.journal ∧ (setSummary r x s).requests = s.requests
    ∧ (setSummary r x s).store = s.store ∧ (setSummary r x s).settings = s.settings
    ∧ (setSummary r x s).memory = s.memory ∧ (setSummary r x s).memorySize = s.memorySize
    ∧ (setSummary r x s).freeCount = s.freeCount := by
  unfold setSummary
  try dsimp only
  repeat' split
  all_goals simp

@[simp] theorem latchVerdict_frame (r : Ring) (k : Nat) (v : Verdict) (s : State):
    (latchVerdict r k v s).pending = s.pending ∧ (latchVerdict r k v s).path = s.path
    ∧ (latchVerdict r k v s).intake.context = s.intake.context
    ∧ (latchVerdict r k v s).intake.staging = s.intake.staging
    ∧ (latchVerdict r k v s).intake.headerErrors = s.intake.headerErrors
    ∧ (latchVerdict r k v s).intake.abandoned = s.intake.abandoned ∧ (latchVerdict r k v s).decoder = s.decoder
    ∧ (latchVerdict r k v s).time = s.time ∧ (latchVerdict r k v s).keys = s.keys
    ∧ (latchVerdict r k v s).showings = s.showings ∧ (latchVerdict r k v s).lock = s.lock
    ∧ (latchVerdict r k v s).account = s.account ∧ (latchVerdict r k v s).journal = s.journal
    ∧ (latchVerdict r k v s).requests = s.requests ∧ (latchVerdict r k v s).store = s.store
    ∧ (latchVerdict r k v s).settings = s.settings ∧ (latchVerdict r k v s).memory = s.memory
    ∧ (latchVerdict r k v s).memorySize = s.memorySize ∧ (latchVerdict r k v s).freeCount = s.freeCount := by
  unfold latchVerdict
  try dsimp only
  repeat' split
  all_goals simp

@[simp] theorem evaluate_frame (r : Ring) (k : Nat) (s : State):
    (evaluate r k s).pending = s.pending ∧ (evaluate r k s).path = s.path
    ∧ (evaluate r k s).intake.context = s.intake.context ∧ (evaluate r k s).intake.staging = s.intake.staging
    ∧ (evaluate r k s).intake.headerErrors = s.intake.headerErrors
    ∧ (evaluate r k s).intake.abandoned = s.intake.abandoned ∧ (evaluate r k s).decoder = s.decoder
    ∧ (evaluate r k s).time = s.time ∧ (evaluate r k s).keys = s.keys
    ∧ (evaluate r k s).showings.services = s.showings.services ∧ (evaluate r k s).lock = s.lock
    ∧ (evaluate r k s).account.tariffs = s.account.tariffs ∧ (evaluate r k s).account.pricing = s.account.pricing
    ∧ (evaluate r k s).account.freeView = s.account.freeView ∧ (evaluate r k s).journal.mark = s.journal.mark
    ∧ (evaluate r k s).requests = s.requests ∧ (evaluate r k s).store.storePresent = s.store.storePresent
    ∧ (evaluate r k s).store.bypass = s.store.bypass ∧ (evaluate r k s).store.phase = s.store.phase
    ∧ (evaluate r k s).store.image = s.store.image ∧ (evaluate r k s).store.eeprom = s.store.eeprom
    ∧ (evaluate r k s).settings = s.settings ∧ (evaluate r k s).memory = s.memory
    ∧ (evaluate r k s).memorySize = s.memorySize ∧ (evaluate r k s).freeCount = s.freeCount := by
  unfold evaluate
  try dsimp only
  repeat' split
  all_goals simp

@[simp] theorem openedWord_frame (r : Ring) (k j : Nat) (x : List Byte) (s : State):
    ((openedWord r k j x s).1).pending = s.pending ∧ ((openedWord r k j x s).1).path = s.path
    ∧ ((openedWord r k j x s).1).intake.context = s.intake.context
    ∧ ((openedWord r k j x s).1).intake.staging = s.intake.staging
    ∧ ((openedWord r k j x s).1).intake.headerErrors = s.intake.headerErrors
    ∧ ((openedWord r k j x s).1).intake.abandoned = s.intake.abandoned
    ∧ ((openedWord r k j x s).1).decoder = s.decoder ∧ ((openedWord r k j x s).1).time = s.time
    ∧ ((openedWord r k j x s).1).keys = s.keys ∧ ((openedWord r k j x s).1).showings = s.showings
    ∧ ((openedWord r k j x s).1).lock = s.lock ∧ ((openedWord r k j x s).1).account = s.account
    ∧ ((openedWord r k j x s).1).journal = s.journal ∧ ((openedWord r k j x s).1).requests = s.requests
    ∧ ((openedWord r k j x s).1).store = s.store ∧ ((openedWord r k j x s).1).settings = s.settings
    ∧ ((openedWord r k j x s).1).memory = s.memory ∧ ((openedWord r k j x s).1).memorySize = s.memorySize
    ∧ ((openedWord r k j x s).1).freeCount = s.freeCount := by
  unfold openedWord
  try dsimp only
  repeat' split
  all_goals simp

@[simp] theorem payloadWord_frame (v : Verdict) (r : Ring) (k j : Nat) (x : List Byte) (s : State):
    ((payloadWord v r k j x s).1).pending = s.pending ∧ ((payloadWord v r k j x s).1).path = s.path
    ∧ ((payloadWord v r k j x s).1).intake.context = s.intake.context
    ∧ ((payloadWord v r k j x s).1).intake.staging = s.intake.staging
    ∧ ((payloadWord v r k j x s).1).intake.headerErrors = s.intake.headerErrors
    ∧ ((payloadWord v r k j x s).1).intake.abandoned = s.intake.abandoned
    ∧ ((payloadWord v r k j x s).1).decoder = s.decoder ∧ ((payloadWord v r k j x s).1).time = s.time
    ∧ ((payloadWord v r k j x s).1).keys = s.keys ∧ ((payloadWord v r k j x s).1).showings = s.showings
    ∧ ((payloadWord v r k j x s).1).lock = s.lock ∧ ((payloadWord v r k j x s).1).account = s.account
    ∧ ((payloadWord v r k j x s).1).journal = s.journal ∧ ((payloadWord v r k j x s).1).requests = s.requests
    ∧ ((payloadWord v r k j x s).1).store = s.store ∧ ((payloadWord v r k j x s).1).settings = s.settings
    ∧ ((payloadWord v r k j x s).1).memory = s.memory ∧ ((payloadWord v r k j x s).1).memorySize = s.memorySize
    ∧ ((payloadWord v r k j x s).1).freeCount = s.freeCount := by
  unfold payloadWord
  try dsimp only
  repeat' split
  all_goals simp

@[simp] theorem rewriteWord_frame (r : Ring) (k w : Nat) (x : List Byte) (s : State):
    ((rewriteWord r k w x s).1).pending = s.pending ∧ ((rewriteWord r k w x s).1).path = s.path
    ∧ ((rewriteWord r k w x s).1).intake.context = s.intake.context
    ∧ ((rewriteWord r k w x s).1).intake.staging = s.intake.staging
    ∧ ((rewriteWord r k w x s).1).intake.headerErrors = s.intake.headerErrors
    ∧ ((rewriteWord r k w x s).1).intake.abandoned = s.intake.abandoned
    ∧ ((rewriteWord r k w x s).1).decoder = s.decoder ∧ ((rewriteWord r k w x s).1).time = s.time
    ∧ ((rewriteWord r k w x s).1).keys = s.keys ∧ ((rewriteWord r k w x s).1).showings = s.showings
    ∧ ((rewriteWord r k w x s).1).lock = s.lock ∧ ((rewriteWord r k w x s).1).account = s.account
    ∧ ((rewriteWord r k w x s).1).journal = s.journal ∧ ((rewriteWord r k w x s).1).requests = s.requests
    ∧ ((rewriteWord r k w x s).1).store = s.store ∧ ((rewriteWord r k w x s).1).settings = s.settings
    ∧ ((rewriteWord r k w x s).1).memory = s.memory ∧ ((rewriteWord r k w x s).1).memorySize = s.memorySize
    ∧ ((rewriteWord r k w x s).1).freeCount = s.freeCount := by
  unfold rewriteWord
  try dsimp only
  repeat' split
  all_goals simp

@[simp] theorem presentWord_frame (r : Ring) (k w : Nat) (x : List Byte) (s : State):
    ((presentWord r k w x s).1).pending = s.pending ∧ ((presentWord r k w x s).1).path = s.path
    ∧ ((presentWord r k w x s).1).intake.context = s.intake.context
    ∧ ((presentWord r k w x s).1).intake.staging = s.intake.staging
    ∧ ((presentWord r k w x s).1).intake.headerErrors = s.intake.headerErrors
    ∧ ((presentWord r k w x s).1).intake.abandoned = s.intake.abandoned
    ∧ ((presentWord r k w x s).1).decoder = s.decoder ∧ ((presentWord r k w x s).1).time = s.time
    ∧ ((presentWord r k w x s).1).keys = s.keys ∧ ((presentWord r k w x s).1).showings.services = s.showings.services
    ∧ ((presentWord r k w x s).1).lock = s.lock ∧ ((presentWord r k w x s).1).account.tariffs = s.account.tariffs
    ∧ ((presentWord r k w x s).1).account.pricing = s.account.pricing
    ∧ ((presentWord r k w x s).1).account.freeView = s.account.freeView
    ∧ ((presentWord r k w x s).1).journal.mark = s.journal.mark ∧ ((presentWord r k w x s).1).requests = s.requests
    ∧ ((presentWord r k w x s).1).store.storePresent = s.store.storePresent
    ∧ ((presentWord r k w x s).1).store.bypass = s.store.bypass
    ∧ ((presentWord r k w x s).1).store.phase = s.store.phase
    ∧ ((presentWord r k w x s).1).store.image = s.store.image
    ∧ ((presentWord r k w x s).1).store.eeprom = s.store.eeprom ∧ ((presentWord r k w x s).1).settings = s.settings
    ∧ ((presentWord r k w x s).1).memory = s.memory ∧ ((presentWord r k w x s).1).memorySize = s.memorySize
    ∧ ((presentWord r k w x s).1).freeCount = s.freeCount := by
  unfold presentWord
  try dsimp only
  repeat' split
  all_goals simp

@[simp] theorem presentWords_frame (r : Ring) (k n w : Nat) (x : List Byte) (s : State):
    ((presentWords r k n w x s).1).pending = s.pending ∧ ((presentWords r k n w x s).1).path = s.path
    ∧ ((presentWords r k n w x s).1).intake.context = s.intake.context
    ∧ ((presentWords r k n w x s).1).intake.staging = s.intake.staging
    ∧ ((presentWords r k n w x s).1).intake.headerErrors = s.intake.headerErrors
    ∧ ((presentWords r k n w x s).1).intake.abandoned = s.intake.abandoned
    ∧ ((presentWords r k n w x s).1).decoder = s.decoder ∧ ((presentWords r k n w x s).1).time = s.time
    ∧ ((presentWords r k n w x s).1).keys = s.keys
    ∧ ((presentWords r k n w x s).1).showings.services = s.showings.services
    ∧ ((presentWords r k n w x s).1).lock = s.lock
    ∧ ((presentWords r k n w x s).1).account.tariffs = s.account.tariffs
    ∧ ((presentWords r k n w x s).1).account.pricing = s.account.pricing
    ∧ ((presentWords r k n w x s).1).account.freeView = s.account.freeView
    ∧ ((presentWords r k n w x s).1).journal.mark = s.journal.mark
    ∧ ((presentWords r k n w x s).1).requests = s.requests
    ∧ ((presentWords r k n w x s).1).store.storePresent = s.store.storePresent
    ∧ ((presentWords r k n w x s).1).store.bypass = s.store.bypass
    ∧ ((presentWords r k n w x s).1).store.phase = s.store.phase
    ∧ ((presentWords r k n w x s).1).store.image = s.store.image
    ∧ ((presentWords r k n w x s).1).store.eeprom = s.store.eeprom
    ∧ ((presentWords r k n w x s).1).settings = s.settings ∧ ((presentWords r k n w x s).1).memory = s.memory
    ∧ ((presentWords r k n w x s).1).memorySize = s.memorySize
    ∧ ((presentWords r k n w x s).1).freeCount = s.freeCount := by
  induction n generalizing w x s with
  | zero => simp [presentWords]
  | succ n ih => simp [presentWords, ih]

/-! ### The Request Unit and the path -/

@[simp] theorem buyRequest_frame (id : Half) (k : Nat) (s : State):
    ((buyRequest id k s).1).pending = s.pending ∧ ((buyRequest id k s).1).path = s.path
    ∧ ((buyRequest id k s).1).intake = s.intake ∧ ((buyRequest id k s).1).decoder = s.decoder
    ∧ ((buyRequest id k s).1).time = s.time ∧ ((buyRequest id k s).1).keys = s.keys
    ∧ ((buyRequest id k s).1).showings.services = s.showings.services
    ∧ ((buyRequest id k s).1).presentation = s.presentation ∧ ((buyRequest id k s).1).lock = s.lock
    ∧ ((buyRequest id k s).1).account.tariffs = s.account.tariffs
    ∧ ((buyRequest id k s).1).account.pricing = s.account.pricing
    ∧ ((buyRequest id k s).1).account.held = s.account.held
    ∧ ((buyRequest id k s).1).account.freeView = s.account.freeView
    ∧ ((buyRequest id k s).1).journal.mark = s.journal.mark
    ∧ ((buyRequest id k s).1).requests.heldResults = s.requests.heldResults
    ∧ ((buyRequest id k s).1).store.storePresent = s.store.storePresent
    ∧ ((buyRequest id k s).1).store.bypass = s.store.bypass ∧ ((buyRequest id k s).1).store.phase = s.store.phase
    ∧ ((buyRequest id k s).1).store.image = s.store.image ∧ ((buyRequest id k s).1).store.eeprom = s.store.eeprom
    ∧ ((buyRequest id k s).1).settings = s.settings ∧ ((buyRequest id k s).1).memory = s.memory
    ∧ ((buyRequest id k s).1).memorySize = s.memorySize ∧ ((buyRequest id k s).1).freeCount = s.freeCount := by
  unfold buyRequest
  have hc := commit_frame id (some k) s
  split <;> rename_i h <;> rw [h] at hc <;> simp only at hc <;> simp [hc]

@[simp] theorem answerRequest_frame (k : Nat) (q : Request) (s : State):
    ((answerRequest k q s).1).pending = s.pending ∧ ((answerRequest k q s).1).path = s.path
    ∧ ((answerRequest k q s).1).intake = s.intake ∧ ((answerRequest k q s).1).decoder = s.decoder
    ∧ ((answerRequest k q s).1).time = s.time ∧ ((answerRequest k q s).1).keys = s.keys
    ∧ ((answerRequest k q s).1).showings.services = s.showings.services
    ∧ ((answerRequest k q s).1).presentation = s.presentation
    ∧ ((answerRequest k q s).1).account.tariffs = s.account.tariffs
    ∧ ((answerRequest k q s).1).account.pricing = s.account.pricing
    ∧ ((answerRequest k q s).1).account.held = s.account.held
    ∧ ((answerRequest k q s).1).account.freeView = s.account.freeView
    ∧ ((answerRequest k q s).1).journal.mark = s.journal.mark
    ∧ ((answerRequest k q s).1).requests.heldResults = s.requests.heldResults
    ∧ ((answerRequest k q s).1).store.storePresent = s.store.storePresent
    ∧ ((answerRequest k q s).1).store.bypass = s.store.bypass ∧ ((answerRequest k q s).1).store.phase = s.store.phase
    ∧ ((answerRequest k q s).1).store.image = s.store.image ∧ ((answerRequest k q s).1).store.eeprom = s.store.eeprom
    ∧ ((answerRequest k q s).1).settings = s.settings ∧ ((answerRequest k q s).1).memory = s.memory
    ∧ ((answerRequest k q s).1).memorySize = s.memorySize ∧ ((answerRequest k q s).1).freeCount = s.freeCount := by
  cases q <;> simp [answerRequest]

@[simp] theorem acceptRequest_frame (k : Nat) (w : BusWrite) (s : State):
    (acceptRequest k w s).pending = s.pending ∧ (acceptRequest k w s).path.mode = s.path.mode
    ∧ (acceptRequest k w s).path.windows = s.path.windows
    ∧ (acceptRequest k w s).path.refreshPeriod = s.path.refreshPeriod
    ∧ (acceptRequest k w s).path.tokensPerPeriod = s.path.tokensPerPeriod
    ∧ (acceptRequest k w s).path.periodRunning = s.path.periodRunning
    ∧ (acceptRequest k w s).path.tokens = s.path.tokens ∧ (acceptRequest k w s).path.waiting = s.path.waiting
    ∧ (acceptRequest k w s).path.port = s.path.port ∧ (acceptRequest k w s).path.results = s.path.results
    ∧ (acceptRequest k w s).path.attn = s.path.attn ∧ (acceptRequest k w s).path.returned = s.path.returned
    ∧ (acceptRequest k w s).intake = s.intake ∧ (acceptRequest k w s).decoder = s.decoder
    ∧ (acceptRequest k w s).time = s.time ∧ (acceptRequest k w s).keys = s.keys
    ∧ (acceptRequest k w s).showings.services = s.showings.services
    ∧ (acceptRequest k w s).presentation = s.presentation ∧ (acceptRequest k w s).account.tariffs = s.account.tariffs
    ∧ (acceptRequest k w s).account.pricing = s.account.pricing ∧ (acceptRequest k w s).account.held = s.account.held
    ∧ (acceptRequest k w s).account.freeView = s.account.freeView
    ∧ (acceptRequest k w s).journal.mark = s.journal.mark
    ∧ (acceptRequest k w s).requests.heldResults = s.requests.heldResults
    ∧ (acceptRequest k w s).store.storePresent = s.store.storePresent
    ∧ (acceptRequest k w s).store.bypass = s.store.bypass ∧ (acceptRequest k w s).store.phase = s.store.phase
    ∧ (acceptRequest k w s).store.image = s.store.image ∧ (acceptRequest k w s).store.eeprom = s.store.eeprom
    ∧ (acceptRequest k w s).settings = s.settings ∧ (acceptRequest k w s).memory = s.memory
    ∧ (acceptRequest k w s).memorySize = s.memorySize ∧ (acceptRequest k w s).freeCount = s.freeCount := by
  unfold acceptRequest
  try dsimp only
  repeat' split
  all_goals simp

@[simp] theorem acceptWrite_frame (w : BusWrite) (s : State):
    (acceptWrite w s).pending = s.pending ∧ (acceptWrite w s).path.mode = s.path.mode
    ∧ (acceptWrite w s).path.windows = s.path.windows ∧ (acceptWrite w s).path.refreshPeriod = s.path.refreshPeriod
    ∧ (acceptWrite w s).path.tokensPerPeriod = s.path.tokensPerPeriod
    ∧ (acceptWrite w s).path.periodRunning = s.path.periodRunning ∧ (acceptWrite w s).path.tokens = s.path.tokens
    ∧ (acceptWrite w s).path.waiting = s.path.waiting ∧ (acceptWrite w s).path.port = s.path.port
    ∧ (acceptWrite w s).path.results = s.path.results ∧ (acceptWrite w s).path.attn = s.path.attn
    ∧ (acceptWrite w s).path.returned = s.path.returned ∧ (acceptWrite w s).decoder.lastNumber = s.decoder.lastNumber
    ∧ (acceptWrite w s).decoder.lastMaintenanceTag = s.decoder.lastMaintenanceTag
    ∧ (acceptWrite w s).decoder.tagFailures = s.decoder.tagFailures
    ∧ (acceptWrite w s).decoder.ignored = s.decoder.ignored ∧ (acceptWrite w s).time = s.time
    ∧ (acceptWrite w s).keys = s.keys ∧ (acceptWrite w s).showings.services = s.showings.services
    ∧ (acceptWrite w s).presentation = s.presentation ∧ (acceptWrite w s).account.tariffs = s.account.tariffs
    ∧ (acceptWrite w s).account.pricing = s.account.pricing ∧ (acceptWrite w s).account.held = s.account.held
    ∧ (acceptWrite w s).account.freeView = s.account.freeView ∧ (acceptWrite w s).journal.mark = s.journal.mark
    ∧ (acceptWrite w s).requests.heldResults = s.requests.heldResults
    ∧ (acceptWrite w s).store.storePresent = s.store.storePresent ∧ (acceptWrite w s).store.bypass = s.store.bypass
    ∧ (acceptWrite w s).store.phase = s.store.phase ∧ (acceptWrite w s).store.image = s.store.image
    ∧ (acceptWrite w s).store.eeprom = s.store.eeprom ∧ (acceptWrite w s).settings = s.settings
    ∧ (acceptWrite w s).memory = s.memory ∧ (acceptWrite w s).memorySize = s.memorySize
    ∧ (acceptWrite w s).freeCount = s.freeCount := by
  unfold acceptWrite
  try dsimp only
  repeat' split
  all_goals simp

@[simp] theorem acceptTransaction_frame (t : Transaction) (s : State):
    (acceptTransaction t s).pending = s.pending ∧ (acceptTransaction t s).path.mode = s.path.mode
    ∧ (acceptTransaction t s).path.windows = s.path.windows
    ∧ (acceptTransaction t s).path.refreshPeriod = s.path.refreshPeriod
    ∧ (acceptTransaction t s).path.tokensPerPeriod = s.path.tokensPerPeriod
    ∧ (acceptTransaction t s).path.periodRunning = s.path.periodRunning
    ∧ (acceptTransaction t s).path.tokens = s.path.tokens ∧ (acceptTransaction t s).path.waiting = s.path.waiting
    ∧ (acceptTransaction t s).path.port = s.path.port ∧ (acceptTransaction t s).path.results = s.path.results
    ∧ (acceptTransaction t s).path.attn = s.path.attn ∧ (acceptTransaction t s).path.returned = s.path.returned
    ∧ (acceptTransaction t s).decoder.lastNumber = s.decoder.lastNumber
    ∧ (acceptTransaction t s).decoder.lastMaintenanceTag = s.decoder.lastMaintenanceTag
    ∧ (acceptTransaction t s).decoder.tagFailures = s.decoder.tagFailures
    ∧ (acceptTransaction t s).decoder.ignored = s.decoder.ignored ∧ (acceptTransaction t s).time = s.time
    ∧ (acceptTransaction t s).keys = s.keys ∧ (acceptTransaction t s).showings.services = s.showings.services
    ∧ (acceptTransaction t s).presentation = s.presentation
    ∧ (acceptTransaction t s).account.tariffs = s.account.tariffs
    ∧ (acceptTransaction t s).account.pricing = s.account.pricing
    ∧ (acceptTransaction t s).account.held = s.account.held
    ∧ (acceptTransaction t s).account.freeView = s.account.freeView
    ∧ (acceptTransaction t s).journal.mark = s.journal.mark
    ∧ (acceptTransaction t s).requests.heldResults = s.requests.heldResults
    ∧ (acceptTransaction t s).store.storePresent = s.store.storePresent
    ∧ (acceptTransaction t s).store.bypass = s.store.bypass ∧ (acceptTransaction t s).store.phase = s.store.phase
    ∧ (acceptTransaction t s).store.image = s.store.image ∧ (acceptTransaction t s).store.eeprom = s.store.eeprom
    ∧ (acceptTransaction t s).settings = s.settings ∧ (acceptTransaction t s).memory = s.memory
    ∧ (acceptTransaction t s).memorySize = s.memorySize ∧ (acceptTransaction t s).freeCount = s.freeCount := by
  unfold acceptTransaction
  try dsimp only
  repeat' split
  all_goals simp

@[simp] theorem returnRead_frame (r : BusRead) (p : Place) (s : State):
    (returnRead r p s).pending = s.pending ∧ (returnRead r p s).path.mode = s.path.mode
    ∧ (returnRead r p s).path.windows = s.path.windows ∧ (returnRead r p s).path.refreshPeriod = s.path.refreshPeriod
    ∧ (returnRead r p s).path.tokensPerPeriod = s.path.tokensPerPeriod
    ∧ (returnRead r p s).path.periodRunning = s.path.periodRunning ∧ (returnRead r p s).path.tokens = s.path.tokens
    ∧ (returnRead r p s).path.waiting = s.path.waiting ∧ (returnRead r p s).path.passing = s.path.passing
    ∧ (returnRead r p s).path.port = s.path.port ∧ (returnRead r p s).path.results = s.path.results
    ∧ (returnRead r p s).path.dropped = s.path.dropped ∧ (returnRead r p s).intake.context = s.intake.context
    ∧ (returnRead r p s).intake.staging = s.intake.staging
    ∧ (returnRead r p s).intake.headerErrors = s.intake.headerErrors
    ∧ (returnRead r p s).intake.abandoned = s.intake.abandoned ∧ (returnRead r p s).decoder = s.decoder
    ∧ (returnRead r p s).time = s.time ∧ (returnRead r p s).keys = s.keys
    ∧ (returnRead r p s).showings.services = s.showings.services ∧ (returnRead r p s).lock = s.lock
    ∧ (returnRead r p s).account.tariffs = s.account.tariffs ∧ (returnRead r p s).account.pricing = s.account.pricing
    ∧ (returnRead r p s).account.freeView = s.account.freeView ∧ (returnRead r p s).journal.mark = s.journal.mark
    ∧ (returnRead r p s).requests = s.requests ∧ (returnRead r p s).store.storePresent = s.store.storePresent
    ∧ (returnRead r p s).store.bypass = s.store.bypass ∧ (returnRead r p s).store.phase = s.store.phase
    ∧ (returnRead r p s).store.image = s.store.image ∧ (returnRead r p s).store.eeprom = s.store.eeprom
    ∧ (returnRead r p s).settings = s.settings ∧ (returnRead r p s).memory = s.memory
    ∧ (returnRead r p s).memorySize = s.memorySize ∧ (returnRead r p s).freeCount = s.freeCount := by
  unfold returnRead giveBack
  try dsimp only
  repeat' split
  all_goals simp

@[simp] theorem releaseHeld_frame (k : Option Nat) (s : State):
    (releaseHeld k s).pending = s.pending ∧ (releaseHeld k s).path.mode = s.path.mode
    ∧ (releaseHeld k s).path.windows = s.path.windows ∧ (releaseHeld k s).path.refreshPeriod = s.path.refreshPeriod
    ∧ (releaseHeld k s).path.tokensPerPeriod = s.path.tokensPerPeriod
    ∧ (releaseHeld k s).path.periodRunning = s.path.periodRunning ∧ (releaseHeld k s).path.tokens = s.path.tokens
    ∧ (releaseHeld k s).path.waiting = s.path.waiting ∧ (releaseHeld k s).path.passing = s.path.passing
    ∧ (releaseHeld k s).path.port = s.path.port ∧ (releaseHeld k s).path.attn = s.path.attn
    ∧ (releaseHeld k s).path.dropped = s.path.dropped ∧ (releaseHeld k s).path.returned = s.path.returned
    ∧ (releaseHeld k s).intake = s.intake ∧ (releaseHeld k s).decoder = s.decoder ∧ (releaseHeld k s).time = s.time
    ∧ (releaseHeld k s).keys = s.keys ∧ (releaseHeld k s).showings = s.showings
    ∧ (releaseHeld k s).presentation = s.presentation ∧ (releaseHeld k s).lock = s.lock
    ∧ (releaseHeld k s).account = s.account ∧ (releaseHeld k s).journal = s.journal
    ∧ (releaseHeld k s).requests.pendingMarks = s.requests.pendingMarks ∧ (releaseHeld k s).report = s.report
    ∧ (releaseHeld k s).store = s.store ∧ (releaseHeld k s).settings = s.settings
    ∧ (releaseHeld k s).memory = s.memory ∧ (releaseHeld k s).memorySize = s.memorySize
    ∧ (releaseHeld k s).freeCount = s.freeCount := by
  unfold releaseHeld
  try dsimp only
  repeat' split
  all_goals simp

@[simp] theorem completePassing_frame (w : BusWrite) (k : Option Nat) (s : State):
    (completePassing w k s).pending = s.pending ∧ (completePassing w k s).path.mode = s.path.mode
    ∧ (completePassing w k s).path.windows = s.path.windows
    ∧ (completePassing w k s).path.refreshPeriod = s.path.refreshPeriod
    ∧ (completePassing w k s).path.tokensPerPeriod = s.path.tokensPerPeriod
    ∧ (completePassing w k s).path.periodRunning = s.path.periodRunning
    ∧ (completePassing w k s).path.tokens = s.path.tokens ∧ (completePassing w k s).path.waiting = s.path.waiting
    ∧ (completePassing w k s).path.attn = s.path.attn ∧ (completePassing w k s).path.dropped = s.path.dropped
    ∧ (completePassing w k s).path.returned = s.path.returned ∧ (completePassing w k s).intake = s.intake
    ∧ (completePassing w k s).decoder = s.decoder ∧ (completePassing w k s).time = s.time
    ∧ (completePassing w k s).keys = s.keys ∧ (completePassing w k s).showings = s.showings
    ∧ (completePassing w k s).presentation = s.presentation ∧ (completePassing w k s).lock = s.lock
    ∧ (completePassing w k s).account = s.account ∧ (completePassing w k s).journal = s.journal
    ∧ (completePassing w k s).requests.pendingMarks = s.requests.pendingMarks
    ∧ (completePassing w k s).report = s.report ∧ (completePassing w k s).store = s.store
    ∧ (completePassing w k s).settings = s.settings ∧ (completePassing w k s).memorySize = s.memorySize
    ∧ (completePassing w k s).freeCount = s.freeCount := by
  unfold completePassing
  rw [writeMemory_eq]
  simp

@[simp] theorem issueHead_frame (s : State):
    (issueHead s).pending = s.pending ∧ (issueHead s).path.mode = s.path.mode
    ∧ (issueHead s).path.windows = s.path.windows ∧ (issueHead s).path.refreshPeriod = s.path.refreshPeriod
    ∧ (issueHead s).path.tokensPerPeriod = s.path.tokensPerPeriod
    ∧ (issueHead s).path.periodRunning = s.path.periodRunning ∧ (issueHead s).path.tokens = s.path.tokens
    ∧ (issueHead s).path.waiting = s.path.waiting ∧ (issueHead s).path.passing = s.path.passing
    ∧ (issueHead s).path.attn = s.path.attn ∧ (issueHead s).path.dropped = s.path.dropped
    ∧ (issueHead s).path.returned = s.path.returned ∧ (issueHead s).intake = s.intake
    ∧ (issueHead s).decoder = s.decoder ∧ (issueHead s).time = s.time ∧ (issueHead s).keys = s.keys
    ∧ (issueHead s).showings = s.showings ∧ (issueHead s).presentation = s.presentation ∧ (issueHead s).lock = s.lock
    ∧ (issueHead s).account = s.account ∧ (issueHead s).journal = s.journal ∧ (issueHead s).requests = s.requests
    ∧ (issueHead s).store = s.store ∧ (issueHead s).settings = s.settings ∧ (issueHead s).memory = s.memory
    ∧ (issueHead s).memorySize = s.memorySize ∧ (issueHead s).freeCount = s.freeCount := by
  unfold issueHead
  try dsimp only
  repeat' split
  all_goals simp

@[simp] theorem grantPassing_frame (s : State):
    (grantPassing s).pending = s.pending ∧ (grantPassing s).path.mode = s.path.mode
    ∧ (grantPassing s).path.windows = s.path.windows ∧ (grantPassing s).path.refreshPeriod = s.path.refreshPeriod
    ∧ (grantPassing s).path.tokensPerPeriod = s.path.tokensPerPeriod
    ∧ (grantPassing s).path.periodRunning = s.path.periodRunning ∧ (grantPassing s).path.tokens = s.path.tokens
    ∧ (grantPassing s).path.waiting = s.path.waiting ∧ (grantPassing s).path.results = s.path.results
    ∧ (grantPassing s).path.dropped = s.path.dropped ∧ (grantPassing s).intake.context = s.intake.context
    ∧ (grantPassing s).intake.staging = s.intake.staging
    ∧ (grantPassing s).intake.headerErrors = s.intake.headerErrors
    ∧ (grantPassing s).intake.abandoned = s.intake.abandoned ∧ (grantPassing s).decoder = s.decoder
    ∧ (grantPassing s).time = s.time ∧ (grantPassing s).keys = s.keys
    ∧ (grantPassing s).showings.services = s.showings.services ∧ (grantPassing s).lock = s.lock
    ∧ (grantPassing s).account.tariffs = s.account.tariffs ∧ (grantPassing s).account.pricing = s.account.pricing
    ∧ (grantPassing s).account.freeView = s.account.freeView ∧ (grantPassing s).journal.mark = s.journal.mark
    ∧ (grantPassing s).requests = s.requests ∧ (grantPassing s).store.storePresent = s.store.storePresent
    ∧ (grantPassing s).store.bypass = s.store.bypass ∧ (grantPassing s).store.phase = s.store.phase
    ∧ (grantPassing s).store.image = s.store.image ∧ (grantPassing s).store.eeprom = s.store.eeprom
    ∧ (grantPassing s).settings = s.settings ∧ (grantPassing s).memory = s.memory
    ∧ (grantPassing s).memorySize = s.memorySize ∧ (grantPassing s).freeCount = s.freeCount := by
  unfold grantPassing
  try dsimp only
  repeat' split
  all_goals simp

@[simp] theorem arbitrate_frame (s : State):
    (arbitrate s).pending = s.pending ∧ (arbitrate s).path.mode = s.path.mode
    ∧ (arbitrate s).path.windows = s.path.windows ∧ (arbitrate s).path.refreshPeriod = s.path.refreshPeriod
    ∧ (arbitrate s).path.tokensPerPeriod = s.path.tokensPerPeriod
    ∧ (arbitrate s).path.periodRunning = s.path.periodRunning ∧ (arbitrate s).path.waiting = s.path.waiting
    ∧ (arbitrate s).path.dropped = s.path.dropped ∧ (arbitrate s).intake.context = s.intake.context
    ∧ (arbitrate s).intake.staging = s.intake.staging ∧ (arbitrate s).intake.headerErrors = s.intake.headerErrors
    ∧ (arbitrate s).intake.abandoned = s.intake.abandoned ∧ (arbitrate s).decoder = s.decoder
    ∧ (arbitrate s).time = s.time ∧ (arbitrate s).keys = s.keys
    ∧ (arbitrate s).showings.services = s.showings.services ∧ (arbitrate s).lock = s.lock
    ∧ (arbitrate s).account.tariffs = s.account.tariffs ∧ (arbitrate s).account.pricing = s.account.pricing
    ∧ (arbitrate s).account.freeView = s.account.freeView ∧ (arbitrate s).journal.mark = s.journal.mark
    ∧ (arbitrate s).requests = s.requests ∧ (arbitrate s).store.storePresent = s.store.storePresent
    ∧ (arbitrate s).store.bypass = s.store.bypass ∧ (arbitrate s).store.phase = s.store.phase
    ∧ (arbitrate s).store.image = s.store.image ∧ (arbitrate s).store.eeprom = s.store.eeprom
    ∧ (arbitrate s).settings = s.settings ∧ (arbitrate s).memory = s.memory ∧ (arbitrate s).memorySize = s.memorySize
    ∧ (arbitrate s).freeCount = s.freeCount := by
  unfold arbitrate
  try dsimp only
  repeat' split
  all_goals simp

@[simp] theorem grantPort_frame (s : State):
    (grantPort s).pending = s.pending ∧ (grantPort s).path.mode = s.path.mode
    ∧ (grantPort s).path.windows = s.path.windows ∧ (grantPort s).path.refreshPeriod = s.path.refreshPeriod
    ∧ (grantPort s).path.tokensPerPeriod = s.path.tokensPerPeriod
    ∧ (grantPort s).path.periodRunning = s.path.periodRunning ∧ (grantPort s).path.waiting = s.path.waiting
    ∧ (grantPort s).path.dropped = s.path.dropped ∧ (grantPort s).intake.context = s.intake.context
    ∧ (grantPort s).intake.staging = s.intake.staging ∧ (grantPort s).intake.headerErrors = s.intake.headerErrors
    ∧ (grantPort s).intake.abandoned = s.intake.abandoned ∧ (grantPort s).decoder = s.decoder
    ∧ (grantPort s).time = s.time ∧ (grantPort s).keys = s.keys
    ∧ (grantPort s).showings.services = s.showings.services ∧ (grantPort s).lock = s.lock
    ∧ (grantPort s).account.tariffs = s.account.tariffs ∧ (grantPort s).account.pricing = s.account.pricing
    ∧ (grantPort s).account.freeView = s.account.freeView ∧ (grantPort s).journal.mark = s.journal.mark
    ∧ (grantPort s).requests = s.requests ∧ (grantPort s).store.storePresent = s.store.storePresent
    ∧ (grantPort s).store.bypass = s.store.bypass ∧ (grantPort s).store.phase = s.store.phase
    ∧ (grantPort s).store.image = s.store.image ∧ (grantPort s).store.eeprom = s.store.eeprom
    ∧ (grantPort s).settings = s.settings ∧ (grantPort s).memory = s.memory ∧ (grantPort s).memorySize = s.memorySize
    ∧ (grantPort s).freeCount = s.freeCount := by
  unfold grantPort
  try dsimp only
  repeat' split
  all_goals simp

@[simp] theorem grantAtOnce_frame (s : State):
    (grantAtOnce s).pending = s.pending ∧ (grantAtOnce s).path.mode = s.path.mode
    ∧ (grantAtOnce s).path.windows = s.path.windows ∧ (grantAtOnce s).path.refreshPeriod = s.path.refreshPeriod
    ∧ (grantAtOnce s).path.tokensPerPeriod = s.path.tokensPerPeriod
    ∧ (grantAtOnce s).path.periodRunning = s.path.periodRunning ∧ (grantAtOnce s).path.tokens = s.path.tokens
    ∧ (grantAtOnce s).path.waiting = s.path.waiting ∧ (grantAtOnce s).path.results = s.path.results
    ∧ (grantAtOnce s).path.dropped = s.path.dropped ∧ (grantAtOnce s).intake.context = s.intake.context
    ∧ (grantAtOnce s).intake.staging = s.intake.staging ∧ (grantAtOnce s).intake.headerErrors = s.intake.headerErrors
    ∧ (grantAtOnce s).intake.abandoned = s.intake.abandoned ∧ (grantAtOnce s).decoder = s.decoder
    ∧ (grantAtOnce s).time = s.time ∧ (grantAtOnce s).keys = s.keys
    ∧ (grantAtOnce s).showings.services = s.showings.services ∧ (grantAtOnce s).lock = s.lock
    ∧ (grantAtOnce s).account.tariffs = s.account.tariffs ∧ (grantAtOnce s).account.pricing = s.account.pricing
    ∧ (grantAtOnce s).account.freeView = s.account.freeView ∧ (grantAtOnce s).journal.mark = s.journal.mark
    ∧ (grantAtOnce s).requests = s.requests ∧ (grantAtOnce s).store.storePresent = s.store.storePresent
    ∧ (grantAtOnce s).store.bypass = s.store.bypass ∧ (grantAtOnce s).store.phase = s.store.phase
    ∧ (grantAtOnce s).store.image = s.store.image ∧ (grantAtOnce s).store.eeprom = s.store.eeprom
    ∧ (grantAtOnce s).settings = s.settings ∧ (grantAtOnce s).memory = s.memory
    ∧ (grantAtOnce s).memorySize = s.memorySize ∧ (grantAtOnce s).freeCount = s.freeCount := by
  unfold grantAtOnce
  try dsimp only
  repeat' split
  all_goals simp

@[simp] theorem takeTransaction_frame (t : Transaction) (s : State):
    (takeTransaction t s).pending = s.pending ∧ (takeTransaction t s).path.mode = s.path.mode
    ∧ (takeTransaction t s).path.windows = s.path.windows
    ∧ (takeTransaction t s).path.refreshPeriod = s.path.refreshPeriod
    ∧ (takeTransaction t s).path.tokensPerPeriod = s.path.tokensPerPeriod
    ∧ (takeTransaction t s).path.periodRunning = s.path.periodRunning
    ∧ (takeTransaction t s).path.tokens = s.path.tokens ∧ (takeTransaction t s).path.waiting = s.path.waiting
    ∧ (takeTransaction t s).path.results = s.path.results
    ∧ (takeTransaction t s).decoder.lastNumber = s.decoder.lastNumber
    ∧ (takeTransaction t s).decoder.lastMaintenanceTag = s.decoder.lastMaintenanceTag
    ∧ (takeTransaction t s).decoder.tagFailures = s.decoder.tagFailures
    ∧ (takeTransaction t s).decoder.ignored = s.decoder.ignored ∧ (takeTransaction t s).time = s.time
    ∧ (takeTransaction t s).keys = s.keys ∧ (takeTransaction t s).showings.services = s.showings.services
    ∧ (takeTransaction t s).account.tariffs = s.account.tariffs
    ∧ (takeTransaction t s).account.pricing = s.account.pricing
    ∧ (takeTransaction t s).account.freeView = s.account.freeView
    ∧ (takeTransaction t s).journal.mark = s.journal.mark
    ∧ (takeTransaction t s).requests.heldResults = s.requests.heldResults
    ∧ (takeTransaction t s).store.storePresent = s.store.storePresent
    ∧ (takeTransaction t s).store.bypass = s.store.bypass ∧ (takeTransaction t s).store.phase = s.store.phase
    ∧ (takeTransaction t s).store.image = s.store.image ∧ (takeTransaction t s).store.eeprom = s.store.eeprom
    ∧ (takeTransaction t s).settings = s.settings ∧ (takeTransaction t s).memory = s.memory
    ∧ (takeTransaction t s).memorySize = s.memorySize ∧ (takeTransaction t s).freeCount = s.freeCount := by
  unfold takeTransaction
  try dsimp only
  repeat' split
  all_goals simp

@[simp] theorem present_frame (t : Transaction) (s : State):
    (present t s).pending = s.pending ∧ (present t s).path.mode = s.path.mode
    ∧ (present t s).path.windows = s.path.windows ∧ (present t s).path.refreshPeriod = s.path.refreshPeriod
    ∧ (present t s).path.tokensPerPeriod = s.path.tokensPerPeriod
    ∧ (present t s).path.periodRunning = s.path.periodRunning ∧ (present t s).path.tokens = s.path.tokens
    ∧ (present t s).path.results = s.path.results ∧ (present t s).decoder.lastNumber = s.decoder.lastNumber
    ∧ (present t s).decoder.lastMaintenanceTag = s.decoder.lastMaintenanceTag
    ∧ (present t s).decoder.tagFailures = s.decoder.tagFailures ∧ (present t s).decoder.ignored = s.decoder.ignored
    ∧ (present t s).time = s.time ∧ (present t s).keys = s.keys
    ∧ (present t s).showings.services = s.showings.services ∧ (present t s).account.tariffs = s.account.tariffs
    ∧ (present t s).account.pricing = s.account.pricing ∧ (present t s).account.freeView = s.account.freeView
    ∧ (present t s).journal.mark = s.journal.mark ∧ (present t s).requests.heldResults = s.requests.heldResults
    ∧ (present t s).store.storePresent = s.store.storePresent ∧ (present t s).store.bypass = s.store.bypass
    ∧ (present t s).store.phase = s.store.phase ∧ (present t s).store.image = s.store.image
    ∧ (present t s).store.eeprom = s.store.eeprom ∧ (present t s).settings = s.settings
    ∧ (present t s).memory = s.memory ∧ (present t s).memorySize = s.memorySize
    ∧ (present t s).freeCount = s.freeCount := by
  unfold present
  try dsimp only
  repeat' split
  all_goals simp

@[simp] theorem presentWaiting_frame (s : State):
    (presentWaiting s).pending = s.pending ∧ (presentWaiting s).path.mode = s.path.mode
    ∧ (presentWaiting s).path.windows = s.path.windows ∧ (presentWaiting s).path.refreshPeriod = s.path.refreshPeriod
    ∧ (presentWaiting s).path.tokensPerPeriod = s.path.tokensPerPeriod
    ∧ (presentWaiting s).path.periodRunning = s.path.periodRunning ∧ (presentWaiting s).path.tokens = s.path.tokens
    ∧ (presentWaiting s).path.results = s.path.results ∧ (presentWaiting s).decoder.lastNumber = s.decoder.lastNumber
    ∧ (presentWaiting s).decoder.lastMaintenanceTag = s.decoder.lastMaintenanceTag
    ∧ (presentWaiting s).decoder.tagFailures = s.decoder.tagFailures
    ∧ (presentWaiting s).decoder.ignored = s.decoder.ignored ∧ (presentWaiting s).time = s.time
    ∧ (presentWaiting s).keys = s.keys ∧ (presentWaiting s).showings.services = s.showings.services
    ∧ (presentWaiting s).account.tariffs = s.account.tariffs ∧ (presentWaiting s).account.pricing = s.account.pricing
    ∧ (presentWaiting s).account.freeView = s.account.freeView ∧ (presentWaiting s).journal.mark = s.journal.mark
    ∧ (presentWaiting s).requests.heldResults = s.requests.heldResults
    ∧ (presentWaiting s).store.storePresent = s.store.storePresent ∧ (presentWaiting s).store.bypass = s.store.bypass
    ∧ (presentWaiting s).store.phase = s.store.phase ∧ (presentWaiting s).store.image = s.store.image
    ∧ (presentWaiting s).store.eeprom = s.store.eeprom ∧ (presentWaiting s).settings = s.settings
    ∧ (presentWaiting s).memory = s.memory ∧ (presentWaiting s).memorySize = s.memorySize
    ∧ (presentWaiting s).freeCount = s.freeCount := by
  unfold presentWaiting
  have h : ∀ (l : List Transaction) (x : State),
      (l.foldl (fun s t => present t s) x).pending = x.pending
      ∧ (l.foldl (fun s t => present t s) x).path.mode = x.path.mode
      ∧ (l.foldl (fun s t => present t s) x).path.windows = x.path.windows
      ∧ (l.foldl (fun s t => present t s) x).path.refreshPeriod = x.path.refreshPeriod
      ∧ (l.foldl (fun s t => present t s) x).path.tokensPerPeriod = x.path.tokensPerPeriod
      ∧ (l.foldl (fun s t => present t s) x).path.periodRunning = x.path.periodRunning
      ∧ (l.foldl (fun s t => present t s) x).path.tokens = x.path.tokens
      ∧ (l.foldl (fun s t => present t s) x).path.results = x.path.results
      ∧ (l.foldl (fun s t => present t s) x).decoder.lastNumber = x.decoder.lastNumber
      ∧ (l.foldl (fun s t => present t s) x).decoder.lastMaintenanceTag = x.decoder.lastMaintenanceTag
      ∧ (l.foldl (fun s t => present t s) x).decoder.tagFailures = x.decoder.tagFailures
      ∧ (l.foldl (fun s t => present t s) x).decoder.ignored = x.decoder.ignored
      ∧ (l.foldl (fun s t => present t s) x).time = x.time ∧ (l.foldl (fun s t => present t s) x).keys = x.keys
      ∧ (l.foldl (fun s t => present t s) x).showings.services = x.showings.services
      ∧ (l.foldl (fun s t => present t s) x).account.tariffs = x.account.tariffs
      ∧ (l.foldl (fun s t => present t s) x).account.pricing = x.account.pricing
      ∧ (l.foldl (fun s t => present t s) x).account.freeView = x.account.freeView
      ∧ (l.foldl (fun s t => present t s) x).journal.mark = x.journal.mark
      ∧ (l.foldl (fun s t => present t s) x).requests.heldResults = x.requests.heldResults
      ∧ (l.foldl (fun s t => present t s) x).store.storePresent = x.store.storePresent
      ∧ (l.foldl (fun s t => present t s) x).store.bypass = x.store.bypass
      ∧ (l.foldl (fun s t => present t s) x).store.phase = x.store.phase
      ∧ (l.foldl (fun s t => present t s) x).store.image = x.store.image
      ∧ (l.foldl (fun s t => present t s) x).store.eeprom = x.store.eeprom
      ∧ (l.foldl (fun s t => present t s) x).settings = x.settings
      ∧ (l.foldl (fun s t => present t s) x).memory = x.memory
      ∧ (l.foldl (fun s t => present t s) x).memorySize = x.memorySize
      ∧ (l.foldl (fun s t => present t s) x).freeCount = x.freeCount := by
    intro l
    induction l with
    | nil => simp
    | cons y rest ih => simp [ih]
  simp [h]

@[simp] theorem reportInserted_frame (x : Source) (s : State):
    (reportInserted x s).pending = s.pending ∧ (reportInserted x s).path = s.path
    ∧ (reportInserted x s).intake = s.intake ∧ (reportInserted x s).decoder = s.decoder
    ∧ (reportInserted x s).time = s.time ∧ (reportInserted x s).keys = s.keys
    ∧ (reportInserted x s).showings = s.showings ∧ (reportInserted x s).presentation = s.presentation
    ∧ (reportInserted x s).lock = s.lock ∧ (reportInserted x s).account = s.account
    ∧ (reportInserted x s).journal = s.journal ∧ (reportInserted x s).requests.heldResults = s.requests.heldResults
    ∧ (reportInserted x s).report = s.report ∧ (reportInserted x s).store = s.store
    ∧ (reportInserted x s).settings = s.settings ∧ (reportInserted x s).memory = s.memory
    ∧ (reportInserted x s).memorySize = s.memorySize ∧ (reportInserted x s).freeCount = s.freeCount := by
  unfold reportInserted
  try dsimp only
  repeat' split
  all_goals simp

@[simp] theorem completeInserted_frame (i : Inserted) (s : State):
    (completeInserted i s).pending = s.pending ∧ (completeInserted i s).path.mode = s.path.mode
    ∧ (completeInserted i s).path.windows = s.path.windows
    ∧ (completeInserted i s).path.refreshPeriod = s.path.refreshPeriod
    ∧ (completeInserted i s).path.tokensPerPeriod = s.path.tokensPerPeriod
    ∧ (completeInserted i s).path.periodRunning = s.path.periodRunning
    ∧ (completeInserted i s).path.tokens = s.path.tokens ∧ (completeInserted i s).path.waiting = s.path.waiting
    ∧ (completeInserted i s).path.passing = s.path.passing ∧ (completeInserted i s).path.results = s.path.results
    ∧ (completeInserted i s).path.dropped = s.path.dropped ∧ (completeInserted i s).path.returned = s.path.returned
    ∧ (completeInserted i s).intake = s.intake ∧ (completeInserted i s).decoder = s.decoder
    ∧ (completeInserted i s).time = s.time ∧ (completeInserted i s).keys = s.keys
    ∧ (completeInserted i s).showings = s.showings ∧ (completeInserted i s).presentation = s.presentation
    ∧ (completeInserted i s).lock = s.lock ∧ (completeInserted i s).account = s.account
    ∧ (completeInserted i s).journal = s.journal
    ∧ (completeInserted i s).requests.heldResults = s.requests.heldResults ∧ (completeInserted i s).report = s.report
    ∧ (completeInserted i s).store = s.store ∧ (completeInserted i s).settings = s.settings
    ∧ (completeInserted i s).memorySize = s.memorySize ∧ (completeInserted i s).freeCount = s.freeCount := by
  unfold completeInserted
  rw [writeMemory_eq]
  simp

/-! ### The serial store and the load -/

@[simp] theorem reportJob_frame (r : JobReport) (s : State):
    (reportJob r s).pending = s.pending ∧ (reportJob r s).path.mode = s.path.mode
    ∧ (reportJob r s).path.windows = s.path.windows ∧ (reportJob r s).path.refreshPeriod = s.path.refreshPeriod
    ∧ (reportJob r s).path.tokensPerPeriod = s.path.tokensPerPeriod
    ∧ (reportJob r s).path.periodRunning = s.path.periodRunning ∧ (reportJob r s).path.tokens = s.path.tokens
    ∧ (reportJob r s).path.waiting = s.path.waiting ∧ (reportJob r s).path.passing = s.path.passing
    ∧ (reportJob r s).path.port = s.path.port ∧ (reportJob r s).path.attn = s.path.attn
    ∧ (reportJob r s).path.dropped = s.path.dropped ∧ (reportJob r s).path.returned = s.path.returned
    ∧ (reportJob r s).intake = s.intake ∧ (reportJob r s).decoder = s.decoder ∧ (reportJob r s).time = s.time
    ∧ (reportJob r s).keys = s.keys ∧ (reportJob r s).showings = s.showings
    ∧ (reportJob r s).presentation = s.presentation ∧ (reportJob r s).lock = s.lock
    ∧ (reportJob r s).account.stay = s.account.stay ∧ (reportJob r s).account.purchases = s.account.purchases
    ∧ (reportJob r s).account.tariffs = s.account.tariffs ∧ (reportJob r s).account.pricing = s.account.pricing
    ∧ (reportJob r s).account.held = s.account.held ∧ (reportJob r s).account.freeView = s.account.freeView
    ∧ (reportJob r s).account.generation = s.account.generation ∧ (reportJob r s).journal.next = s.journal.next
    ∧ (reportJob r s).journal.mark = s.journal.mark ∧ (reportJob r s).requests.pendingMarks = s.requests.pendingMarks
    ∧ (reportJob r s).store = s.store ∧ (reportJob r s).settings = s.settings ∧ (reportJob r s).memory = s.memory
    ∧ (reportJob r s).memorySize = s.memorySize ∧ (reportJob r s).freeCount = s.freeCount := by
  unfold reportJob
  try dsimp only
  repeat' split
  all_goals simp

@[simp] theorem completeJob_frame (f : InFlight) (s : State):
    (completeJob f s).pending = s.pending ∧ (completeJob f s).path.mode = s.path.mode
    ∧ (completeJob f s).path.windows = s.path.windows ∧ (completeJob f s).path.refreshPeriod = s.path.refreshPeriod
    ∧ (completeJob f s).path.tokensPerPeriod = s.path.tokensPerPeriod
    ∧ (completeJob f s).path.periodRunning = s.path.periodRunning ∧ (completeJob f s).path.tokens = s.path.tokens
    ∧ (completeJob f s).path.waiting = s.path.waiting ∧ (completeJob f s).path.passing = s.path.passing
    ∧ (completeJob f s).path.port = s.path.port ∧ (completeJob f s).path.attn = s.path.attn
    ∧ (completeJob f s).path.dropped = s.path.dropped ∧ (completeJob f s).path.returned = s.path.returned
    ∧ (completeJob f s).intake = s.intake ∧ (completeJob f s).decoder = s.decoder ∧ (completeJob f s).time = s.time
    ∧ (completeJob f s).keys = s.keys ∧ (completeJob f s).showings = s.showings
    ∧ (completeJob f s).presentation = s.presentation ∧ (completeJob f s).lock = s.lock
    ∧ (completeJob f s).account.stay = s.account.stay ∧ (completeJob f s).account.purchases = s.account.purchases
    ∧ (completeJob f s).account.tariffs = s.account.tariffs ∧ (completeJob f s).account.pricing = s.account.pricing
    ∧ (completeJob f s).account.held = s.account.held ∧ (completeJob f s).account.freeView = s.account.freeView
    ∧ (completeJob f s).account.generation = s.account.generation ∧ (completeJob f s).journal.next = s.journal.next
    ∧ (completeJob f s).journal.mark = s.journal.mark
    ∧ (completeJob f s).requests.pendingMarks = s.requests.pendingMarks
    ∧ (completeJob f s).store.storePresent = s.store.storePresent ∧ (completeJob f s).store.bypass = s.store.bypass
    ∧ (completeJob f s).store.phase = s.store.phase ∧ (completeJob f s).store.image = s.store.image
    ∧ (completeJob f s).settings = s.settings ∧ (completeJob f s).memory = s.memory
    ∧ (completeJob f s).memorySize = s.memorySize ∧ (completeJob f s).freeCount = s.freeCount := by
  unfold completeJob
  try dsimp only
  repeat' split
  all_goals simp

@[simp] theorem completePage_frame (f : InFlight) (s : State):
    (completePage f s).pending = s.pending ∧ (completePage f s).path.mode = s.path.mode
    ∧ (completePage f s).path.windows = s.path.windows ∧ (completePage f s).path.refreshPeriod = s.path.refreshPeriod
    ∧ (completePage f s).path.tokensPerPeriod = s.path.tokensPerPeriod
    ∧ (completePage f s).path.periodRunning = s.path.periodRunning ∧ (completePage f s).path.tokens = s.path.tokens
    ∧ (completePage f s).path.waiting = s.path.waiting ∧ (completePage f s).path.passing = s.path.passing
    ∧ (completePage f s).path.port = s.path.port ∧ (completePage f s).path.attn = s.path.attn
    ∧ (completePage f s).path.dropped = s.path.dropped ∧ (completePage f s).path.returned = s.path.returned
    ∧ (completePage f s).intake = s.intake ∧ (completePage f s).decoder = s.decoder ∧ (completePage f s).time = s.time
    ∧ (completePage f s).keys = s.keys ∧ (completePage f s).showings = s.showings
    ∧ (completePage f s).presentation = s.presentation ∧ (completePage f s).lock = s.lock
    ∧ (completePage f s).account.stay = s.account.stay ∧ (completePage f s).account.purchases = s.account.purchases
    ∧ (completePage f s).account.tariffs = s.account.tariffs ∧ (completePage f s).account.pricing = s.account.pricing
    ∧ (completePage f s).account.held = s.account.held ∧ (completePage f s).account.freeView = s.account.freeView
    ∧ (completePage f s).account.generation = s.account.generation ∧ (completePage f s).journal.next = s.journal.next
    ∧ (completePage f s).journal.mark = s.journal.mark
    ∧ (completePage f s).requests.pendingMarks = s.requests.pendingMarks
    ∧ (completePage f s).store.storePresent = s.store.storePresent ∧ (completePage f s).store.bypass = s.store.bypass
    ∧ (completePage f s).store.phase = s.store.phase ∧ (completePage f s).store.image = s.store.image
    ∧ (completePage f s).settings = s.settings ∧ (completePage f s).memory = s.memory
    ∧ (completePage f s).memorySize = s.memorySize ∧ (completePage f s).freeCount = s.freeCount := by
  unfold completePage
  try dsimp only
  repeat' split
  all_goals simp

@[simp] theorem enterFault_frame (f : InFlight) (s : State):
    (enterFault f s).pending = s.pending ∧ (enterFault f s).path.mode = s.path.mode
    ∧ (enterFault f s).path.windows = s.path.windows ∧ (enterFault f s).path.refreshPeriod = s.path.refreshPeriod
    ∧ (enterFault f s).path.tokensPerPeriod = s.path.tokensPerPeriod
    ∧ (enterFault f s).path.periodRunning = s.path.periodRunning ∧ (enterFault f s).path.tokens = s.path.tokens
    ∧ (enterFault f s).path.waiting = s.path.waiting ∧ (enterFault f s).path.passing = s.path.passing
    ∧ (enterFault f s).path.port = s.path.port ∧ (enterFault f s).path.attn = s.path.attn
    ∧ (enterFault f s).path.dropped = s.path.dropped ∧ (enterFault f s).path.returned = s.path.returned
    ∧ (enterFault f s).intake = s.intake ∧ (enterFault f s).decoder = s.decoder ∧ (enterFault f s).time = s.time
    ∧ (enterFault f s).keys = s.keys ∧ (enterFault f s).showings = s.showings
    ∧ (enterFault f s).presentation = s.presentation ∧ (enterFault f s).lock = s.lock
    ∧ (enterFault f s).account.stay = s.account.stay ∧ (enterFault f s).account.purchases = s.account.purchases
    ∧ (enterFault f s).account.tariffs = s.account.tariffs ∧ (enterFault f s).account.pricing = s.account.pricing
    ∧ (enterFault f s).account.held = s.account.held ∧ (enterFault f s).account.freeView = s.account.freeView
    ∧ (enterFault f s).account.generation = s.account.generation ∧ (enterFault f s).journal = s.journal
    ∧ (enterFault f s).requests.pendingMarks = s.requests.pendingMarks
    ∧ (enterFault f s).store.storePresent = s.store.storePresent ∧ (enterFault f s).store.bypass = s.store.bypass
    ∧ (enterFault f s).store.phase = s.store.phase ∧ (enterFault f s).store.image = s.store.image
    ∧ (enterFault f s).settings = s.settings ∧ (enterFault f s).memory = s.memory
    ∧ (enterFault f s).memorySize = s.memorySize := by
  unfold enterFault
  try dsimp only
  repeat' split
  all_goals simp

@[simp] theorem accountMinute_frame (s : State):
    (accountMinute s).pending = s.pending ∧ (accountMinute s).path = s.path ∧ (accountMinute s).intake = s.intake
    ∧ (accountMinute s).decoder = s.decoder ∧ (accountMinute s).time = s.time ∧ (accountMinute s).keys = s.keys
    ∧ (accountMinute s).showings.services = s.showings.services ∧ (accountMinute s).presentation = s.presentation
    ∧ (accountMinute s).lock = s.lock ∧ (accountMinute s).account.stay = s.account.stay
    ∧ (accountMinute s).account.tariffs = s.account.tariffs ∧ (accountMinute s).account.pricing = s.account.pricing
    ∧ (accountMinute s).account.held = s.account.held ∧ (accountMinute s).account.generation = s.account.generation
    ∧ (accountMinute s).account.pendingBuys = s.account.pendingBuys ∧ (accountMinute s).journal = s.journal
    ∧ (accountMinute s).requests = s.requests ∧ (accountMinute s).store = s.store
    ∧ (accountMinute s).settings = s.settings ∧ (accountMinute s).memory = s.memory
    ∧ (accountMinute s).memorySize = s.memorySize ∧ (accountMinute s).freeCount = s.freeCount := by
  unfold accountMinute
  try dsimp only
  repeat' split
  all_goals simp

@[simp] theorem lockMinute_frame (s : State):
    (lockMinute s).pending = s.pending ∧ (lockMinute s).path = s.path ∧ (lockMinute s).intake = s.intake
    ∧ (lockMinute s).decoder = s.decoder ∧ (lockMinute s).time = s.time ∧ (lockMinute s).keys = s.keys
    ∧ (lockMinute s).showings = s.showings ∧ (lockMinute s).presentation = s.presentation
    ∧ (lockMinute s).account = s.account ∧ (lockMinute s).journal = s.journal ∧ (lockMinute s).requests = s.requests
    ∧ (lockMinute s).store = s.store ∧ (lockMinute s).settings = s.settings ∧ (lockMinute s).memory = s.memory
    ∧ (lockMinute s).memorySize = s.memorySize ∧ (lockMinute s).freeCount = s.freeCount := by
  unfold lockMinute
  try dsimp only
  repeat' split
  all_goals simp

@[simp] theorem loadImage_frame (s : State):
    (loadImage s).pending = s.pending ∧ (loadImage s).path.windows = s.path.windows
    ∧ (loadImage s).path.refreshPeriod = s.path.refreshPeriod
    ∧ (loadImage s).path.tokensPerPeriod = s.path.tokensPerPeriod
    ∧ (loadImage s).path.periodRunning = s.path.periodRunning ∧ (loadImage s).path.tokens = s.path.tokens
    ∧ (loadImage s).path.waiting = s.path.waiting ∧ (loadImage s).path.passing = s.path.passing
    ∧ (loadImage s).path.port = s.path.port ∧ (loadImage s).path.results = s.path.results
    ∧ (loadImage s).path.attn = s.path.attn ∧ (loadImage s).path.dropped = s.path.dropped
    ∧ (loadImage s).path.returned = s.path.returned ∧ (loadImage s).intake = s.intake
    ∧ (loadImage s).decoder = s.decoder ∧ (loadImage s).time = s.time ∧ (loadImage s).keys = s.keys
    ∧ (loadImage s).showings = s.showings ∧ (loadImage s).presentation = s.presentation ∧ (loadImage s).lock = s.lock
    ∧ (loadImage s).account = s.account ∧ (loadImage s).journal = s.journal ∧ (loadImage s).requests = s.requests
    ∧ (loadImage s).store.state = s.store.state
    ∧ (loadImage s).store.queue = s.store.queue ∧ (loadImage s).store.heldOver = s.store.heldOver
    ∧ (loadImage s).store.inFlight = s.store.inFlight ∧ (loadImage s).store.pageNumber = s.store.pageNumber
    ∧ (loadImage s).store.storePresent = s.store.storePresent ∧ (loadImage s).store.bypass = s.store.bypass
    ∧ (loadImage s).store.eeprom = s.store.eeprom ∧ (loadImage s).settings = s.settings
    ∧ (loadImage s).memory = s.memory ∧ (loadImage s).memorySize = s.memorySize
    ∧ (loadImage s).freeCount = s.freeCount := by
  unfold loadImage
  try dsimp only
  repeat' split
  all_goals simp

@[simp] theorem loadJournal_frame (s : State):
    (loadJournal s).pending = s.pending ∧ (loadJournal s).path = s.path ∧ (loadJournal s).intake = s.intake
    ∧ (loadJournal s).decoder = s.decoder ∧ (loadJournal s).time = s.time ∧ (loadJournal s).keys = s.keys
    ∧ (loadJournal s).showings = s.showings ∧ (loadJournal s).presentation = s.presentation
    ∧ (loadJournal s).lock = s.lock ∧ (loadJournal s).account = s.account ∧ (loadJournal s).requests = s.requests
    ∧ (loadJournal s).report = s.report ∧ (loadJournal s).store.state = s.store.state
    ∧ (loadJournal s).store.queue = s.store.queue ∧ (loadJournal s).store.heldOver = s.store.heldOver
    ∧ (loadJournal s).store.inFlight = s.store.inFlight ∧ (loadJournal s).store.pageNumber = s.store.pageNumber
    ∧ (loadJournal s).store.storePresent = s.store.storePresent ∧ (loadJournal s).store.bypass = s.store.bypass
    ∧ (loadJournal s).store.image = s.store.image ∧ (loadJournal s).store.eeprom = s.store.eeprom
    ∧ (loadJournal s).settings = s.settings ∧ (loadJournal s).memory = s.memory
    ∧ (loadJournal s).memorySize = s.memorySize ∧ (loadJournal s).freeCount = s.freeCount := by
  unfold loadJournal
  try dsimp only
  repeat' split
  all_goals simp

@[simp] theorem restoreStay_frame (s : State):
    (restoreStay s).pending = s.pending ∧ (restoreStay s).path = s.path ∧ (restoreStay s).intake = s.intake
    ∧ (restoreStay s).decoder.lastMaintenanceTag = s.decoder.lastMaintenanceTag
    ∧ (restoreStay s).decoder.tagFailures = s.decoder.tagFailures
    ∧ (restoreStay s).decoder.ignored = s.decoder.ignored ∧ (restoreStay s).decoder.handOff = s.decoder.handOff
    ∧ (restoreStay s).time = s.time ∧ (restoreStay s).keys = s.keys ∧ (restoreStay s).showings = s.showings
    ∧ (restoreStay s).presentation = s.presentation ∧ (restoreStay s).account.tariffs = s.account.tariffs
    ∧ (restoreStay s).account.pricing = s.account.pricing ∧ (restoreStay s).account.held = s.account.held
    ∧ (restoreStay s).account.freeView = s.account.freeView
    ∧ (restoreStay s).account.generation = s.account.generation
    ∧ (restoreStay s).account.pendingBuys = s.account.pendingBuys ∧ (restoreStay s).journal = s.journal
    ∧ (restoreStay s).requests = s.requests ∧ (restoreStay s).report = s.report ∧ (restoreStay s).store = s.store
    ∧ (restoreStay s).settings = s.settings ∧ (restoreStay s).memory = s.memory
    ∧ (restoreStay s).memorySize = s.memorySize ∧ (restoreStay s).freeCount = s.freeCount := by
  unfold restoreStay
  try dsimp only
  repeat' split
  all_goals simp

@[simp] theorem enterRun_frame (i : Image) (s : State):
    (enterRun i s).pending = s.pending ∧ (enterRun i s).path.waiting = s.path.waiting
    ∧ (enterRun i s).path.passing = s.path.passing ∧ (enterRun i s).path.port = s.path.port
    ∧ (enterRun i s).path.results = s.path.results ∧ (enterRun i s).path.attn = s.path.attn
    ∧ (enterRun i s).path.dropped = s.path.dropped ∧ (enterRun i s).path.returned = s.path.returned
    ∧ (enterRun i s).intake = s.intake ∧ (enterRun i s).decoder = s.decoder ∧ (enterRun i s).time = s.time
    ∧ (enterRun i s).keys = s.keys ∧ (enterRun i s).showings = s.showings
    ∧ (enterRun i s).presentation = s.presentation ∧ (enterRun i s).lock = s.lock ∧ (enterRun i s).account = s.account
    ∧ (enterRun i s).journal = s.journal ∧ (enterRun i s).requests = s.requests
    ∧ (enterRun i s).store.state = s.store.state ∧ (enterRun i s).store.queue = s.store.queue
    ∧ (enterRun i s).store.heldOver = s.store.heldOver ∧ (enterRun i s).store.inFlight = s.store.inFlight
    ∧ (enterRun i s).store.pageNumber = s.store.pageNumber ∧ (enterRun i s).store.storePresent = s.store.storePresent
    ∧ (enterRun i s).store.bypass = s.store.bypass ∧ (enterRun i s).store.eeprom = s.store.eeprom
    ∧ (enterRun i s).memory = s.memory ∧ (enterRun i s).memorySize = s.memorySize
    ∧ (enterRun i s).freeCount = s.freeCount := by
  unfold enterRun
  try dsimp only
  repeat' split
  all_goals simp

@[simp] theorem loadStay_frame (i : Image) (s : State):
    (loadStay i s).pending = s.pending ∧ (loadStay i s).path.waiting = s.path.waiting
    ∧ (loadStay i s).path.passing = s.path.passing ∧ (loadStay i s).path.port = s.path.port
    ∧ (loadStay i s).path.results = s.path.results ∧ (loadStay i s).path.attn = s.path.attn
    ∧ (loadStay i s).path.dropped = s.path.dropped ∧ (loadStay i s).path.returned = s.path.returned
    ∧ (loadStay i s).intake = s.intake ∧ (loadStay i s).decoder.lastMaintenanceTag = s.decoder.lastMaintenanceTag
    ∧ (loadStay i s).decoder.tagFailures = s.decoder.tagFailures ∧ (loadStay i s).decoder.ignored = s.decoder.ignored
    ∧ (loadStay i s).decoder.handOff = s.decoder.handOff ∧ (loadStay i s).time = s.time ∧ (loadStay i s).keys = s.keys
    ∧ (loadStay i s).showings = s.showings ∧ (loadStay i s).presentation = s.presentation
    ∧ (loadStay i s).account.tariffs = s.account.tariffs ∧ (loadStay i s).account.pricing = s.account.pricing
    ∧ (loadStay i s).account.held = s.account.held ∧ (loadStay i s).account.freeView = s.account.freeView
    ∧ (loadStay i s).account.generation = s.account.generation
    ∧ (loadStay i s).account.pendingBuys = s.account.pendingBuys ∧ (loadStay i s).journal = s.journal
    ∧ (loadStay i s).requests = s.requests ∧ (loadStay i s).store.state = s.store.state
    ∧ (loadStay i s).store.queue = s.store.queue ∧ (loadStay i s).store.heldOver = s.store.heldOver
    ∧ (loadStay i s).store.inFlight = s.store.inFlight ∧ (loadStay i s).store.storePresent = s.store.storePresent
    ∧ (loadStay i s).store.bypass = s.store.bypass ∧ (loadStay i s).store.eeprom = s.store.eeprom
    ∧ (loadStay i s).memory = s.memory ∧ (loadStay i s).memorySize = s.memorySize
    ∧ (loadStay i s).freeCount = s.freeCount := by
  unfold loadStay
  try dsimp only
  repeat' split
  all_goals simp

@[simp] theorem cutMemory_frame (s : State):
    (cutMemory s).pending = s.pending ∧ (cutMemory s).path = s.path ∧ (cutMemory s).intake = s.intake
    ∧ (cutMemory s).decoder = s.decoder ∧ (cutMemory s).time = s.time ∧ (cutMemory s).keys = s.keys
    ∧ (cutMemory s).showings = s.showings ∧ (cutMemory s).presentation = s.presentation ∧ (cutMemory s).lock = s.lock
    ∧ (cutMemory s).account = s.account ∧ (cutMemory s).journal = s.journal ∧ (cutMemory s).requests = s.requests
    ∧ (cutMemory s).report = s.report ∧ (cutMemory s).store = s.store ∧ (cutMemory s).settings = s.settings
    ∧ (cutMemory s).memorySize = s.memorySize := by
  unfold cutMemory
  split
  · rw [writeMemory_eq]
    simp
  · simp

@[simp] theorem cutPage_frame (s : State):
    (cutPage s).pending = s.pending ∧ (cutPage s).path = s.path ∧ (cutPage s).intake = s.intake
    ∧ (cutPage s).decoder = s.decoder ∧ (cutPage s).time = s.time ∧ (cutPage s).keys = s.keys
    ∧ (cutPage s).showings = s.showings ∧ (cutPage s).presentation = s.presentation ∧ (cutPage s).lock = s.lock
    ∧ (cutPage s).account = s.account ∧ (cutPage s).journal = s.journal ∧ (cutPage s).requests = s.requests
    ∧ (cutPage s).report = s.report ∧ (cutPage s).store.state = s.store.state
    ∧ (cutPage s).store.queue = s.store.queue ∧ (cutPage s).store.heldOver = s.store.heldOver
    ∧ (cutPage s).store.inFlight = s.store.inFlight ∧ (cutPage s).store.pageNumber = s.store.pageNumber
    ∧ (cutPage s).store.storePresent = s.store.storePresent ∧ (cutPage s).store.bypass = s.store.bypass
    ∧ (cutPage s).store.phase = s.store.phase ∧ (cutPage s).store.image = s.store.image
    ∧ (cutPage s).settings = s.settings ∧ (cutPage s).memory = s.memory ∧ (cutPage s).memorySize = s.memorySize := by
  unfold cutPage
  try dsimp only
  repeat' split
  all_goals simp

@[simp] theorem setResetPath_frame (s : State):
    (setResetPath s).pending = s.pending ∧ (setResetPath s).path.mode = s.path.mode
    ∧ (setResetPath s).path.windows = s.path.windows ∧ (setResetPath s).path.refreshPeriod = s.path.refreshPeriod
    ∧ (setResetPath s).path.tokensPerPeriod = s.path.tokensPerPeriod
    ∧ (setResetPath s).path.periodRunning = s.path.periodRunning ∧ (setResetPath s).path.tokens = s.path.tokens
    ∧ (setResetPath s).path.waiting = s.path.waiting ∧ (setResetPath s).path.passing = s.path.passing
    ∧ (setResetPath s).path.returned = s.path.returned ∧ (setResetPath s).intake = s.intake
    ∧ (setResetPath s).decoder = s.decoder ∧ (setResetPath s).time = s.time ∧ (setResetPath s).keys = s.keys
    ∧ (setResetPath s).showings = s.showings ∧ (setResetPath s).presentation = s.presentation
    ∧ (setResetPath s).lock = s.lock ∧ (setResetPath s).account = s.account ∧ (setResetPath s).journal = s.journal
    ∧ (setResetPath s).requests = s.requests ∧ (setResetPath s).store = s.store
    ∧ (setResetPath s).settings = s.settings ∧ (setResetPath s).memory = s.memory
    ∧ (setResetPath s).memorySize = s.memorySize ∧ (setResetPath s).freeCount = s.freeCount := by
  unfold setResetPath
  try dsimp only
  repeat' split
  all_goals simp

end Sys2Proof.Machine
end

