-- ==== Sys2Proof/Laws/Commit.lean ====
section
/-! SUPPORT. The charge commit: its outcomes, what it writes when it succeeds, and what a preview end does. -/

namespace Sys2Proof.Machine

/-- What a successful commit for an event found that state to be: the checks of R135, on the state before the removals of check 7
and after them. -/
structure CommitPasses (id : Half) (s : State) (e : EventRecord) (t : Tariff) : Prop where
  occupied : s.account.stay.state = .occupied
  listed : findEvent s id = some e
  defined : tariffOf s e.tariffClass = some t
  permitted : ratingOf s e.service (some e) ≤ effectiveCeiling s.lock
  notLive : livePurchase s id = false
  usable : s.store.state ≠ .fault ∧ s.store.state ≠ .absent
  place : (removeExpired s).account.purchases.length < purchasePlaces
  journal : 0 < totalOf s t → s.journal.records.length < journalPlaces
  queue : lacksRoom s (totalOf s t) = false
  credit : totalOf s t ≤ s.account.stay.remaining
  night : 0 < s.account.stay.nightCeiling → s.account.stay.nightSpent + totalOf s t ≤ s.account.stay.nightCeiling

/-- A commit is refused, changing nothing or leaving the removals of check 7, or it passes and has its effects. -/
theorem commit_cases (id : Half) (k : Option Nat) (s : State) :
    (∃ r, commit id k s = (s, some r)) ∨ (∃ r, commit id k s = (removeExpired s, some r)) ∨
      ∃ e t, CommitPasses id s e t ∧
        commit id k s = (commitEffects e t (ratingOf s e.service (some e)) (totalOf s t) k (removeExpired s), none) := by
  by_cases h1 : s.account.stay.state = .vacant
  · exact Or.inl ⟨.noStay, by simp [commit, h1]⟩
  have hocc : s.account.stay.state = .occupied := by cases h : s.account.stay.state <;> simp_all
  cases h2 : findEvent s id with
  | none => exact Or.inl ⟨.noEvent, by simp [commit, hocc, h2]⟩
  | some e =>
    cases h3 : tariffOf s e.tariffClass with
    | none => exact Or.inl ⟨.noTariff, by simp [commit, hocc, h2, h3]⟩
    | some t =>
      by_cases h4 : effectiveCeiling s.lock < ratingOf s e.service (some e)
      · exact Or.inl ⟨.locked, by simp [commit, hocc, h2, h3, h4]⟩
      by_cases h5 : livePurchase s id
      · exact Or.inl ⟨.already, by simp [commit, hocc, h2, h3, h4, h5]⟩
      by_cases h6 : s.store.state = .fault ∨ s.store.state = .absent
      · exact Or.inl ⟨.storeFault, by simp [commit, hocc, h2, h3, h4, h5, h6]⟩
      have hc : commit id k s = commitChecked e t (ratingOf s e.service (some e)) (totalOf s t) k (removeExpired s) := by
        simp [commit, hocc, h2, h3, h4, h5, h6]
      rw [hc]
      right
      by_cases h7 : purchasePlaces ≤ (removeExpired s).account.purchases.length
      · exact Or.inl ⟨.purchasesFull, by simp [commitChecked, h7]⟩
      by_cases h8 : 0 < totalOf s t ∧ journalPlaces ≤ s.journal.records.length
      · exact Or.inl ⟨.journalFull, by simp [commitChecked, h7, h8]⟩
      have hl : lacksRoom (removeExpired s) (totalOf s t) = lacksRoom s (totalOf s t) := by simp [lacksRoom]
      by_cases h9 : lacksRoom s (totalOf s t)
      · exact Or.inl ⟨.storeBusy, by simp [commitChecked, h7, h8, hl, h9]⟩
      by_cases h10 : s.account.stay.remaining < totalOf s t
      · exact Or.inl ⟨.credit, by simp [commitChecked, h7, h8, hl, h9, h10]⟩
      by_cases h11 : 0 < s.account.stay.nightCeiling ∧ s.account.stay.nightCeiling < s.account.stay.nightSpent + totalOf s t
      · exact Or.inl ⟨.ceiling, by simp [commitChecked, h7, h8, hl, h9, h10, h11]⟩
      refine Or.inr ⟨e, t, ⟨hocc, h2, h3, by omega, by simpa using h5, by simpa using h6, by omega, fun h => by omega,
        by simpa using h9, by omega, fun h => by omega⟩, ?_⟩
      simp [commitChecked, h7, h8, hl, h9, h10, h11]

/-! ### What a successful commit writes -/

section
variable (e : EventRecord) (t : Tariff) (rating total : Nat) (k : Option Nat) (s : State)

@[simp] theorem markLine_report (n : Nat) (b : Bool) :
    (markLine n b s).report = Sparse.write none s.report n (some (b || (lineMark s n).getD false)) := rfl

@[simp] theorem setPurchases_purchases (l : List Purchase) : (setPurchases l s).account.purchases = l := by
  simp [setPurchases]

@[simp] theorem updateEvent_events (id : Half) (f : EventRecord → EventRecord) :
    (updateEvent id f s).showings.events = s.showings.events.map fun e => if e.id = id then f e else e := rfl

@[simp] theorem raiseGeneration_generation : (raiseGeneration s).account.generation = s.account.generation + 1 := by
  simp [raiseGeneration]

theorem commitEffects_stay : (commitEffects e t rating total k s).account.stay = s.account.stay.charged total := by
  unfold commitEffects
  dsimp only
  split <;> simp

theorem commitEffects_purchases :
    (commitEffects e t rating total k s).account.purchases = s.account.purchases ++ [purchaseRecord s e t rating total] := by
  unfold commitEffects
  dsimp only
  split <;> simp

theorem commitEffects_generation : (commitEffects e t rating total k s).account.generation = s.account.generation + 1 := by
  unfold commitEffects
  dsimp only
  split <;> simp

theorem commitEffects_events :
    (commitEffects e t rating total k s).showings.events =
      s.showings.events.map fun x => if x.id = e.id then { x with preview := .paid } else x := by
  unfold commitEffects
  dsimp only
  split <;> simp

theorem commitEffects_journal :
    (commitEffects e t rating total k s).journal =
      if 0 < total then
        { s.journal with records := s.journal.records ++ [chargeRecord s e t rating total], next := s.journal.next + 1 }
      else s.journal := by
  unfold commitEffects
  dsimp only
  split <;> simp [appendCharge, requestJournal]
  split <;> simp

end

/-- The stay of a commit: as it was, or charged the total, which the checks admit. -/
theorem commit_stay (id : Half) (k : Option Nat) (s : State) :
    (commit id k s).1.account.stay = s.account.stay ∨
      ∃ total, (commit id k s).1.account.stay = s.account.stay.charged total ∧ s.account.stay.state = .occupied ∧
        total ≤ s.account.stay.remaining ∧
        (0 < s.account.stay.nightCeiling → s.account.stay.nightSpent + total ≤ s.account.stay.nightCeiling) := by
  rcases commit_cases id k s with ⟨r, h⟩ | ⟨r, h⟩ | ⟨e, t, hp, h⟩
  · exact Or.inl (by rw [h])
  · exact Or.inl (by rw [h]; simp)
  · exact Or.inr ⟨totalOf s t, by rw [h]; simp [commitEffects_stay], hp.occupied, hp.credit, hp.night⟩

/-- A preview end leaves the state alone, holds the event, or makes a commit and holds the event if it is refused. -/
theorem previewEnd_cases (id : Half) (s : State) :
    previewEnd id s = s ∨ (∃ c, previewEnd id s = holdEvent id c s) ∨ previewEnd id s = (commit id none s).1 ∨
      ∃ r, previewEnd id s = holdEvent id (.refused r) (commit id none s).1 := by
  unfold previewEnd
  split
  · exact Or.inl rfl
  · split
    · exact Or.inr (Or.inl ⟨_, rfl⟩)
    · split
      · rename_i h
        exact Or.inr (Or.inr (Or.inl (by rw [h])))
      · rename_i h
        exact Or.inr (Or.inr (Or.inr ⟨_, by rw [h]⟩))

end Sys2Proof.Machine
end

