-- ==== Sys2Proof/Laws/Charge.lean ====
section
/-! SUPPORT. The operations built on the charge commit: a property that the commit, a hold and a metering update keep is kept by a
preview end, the second timer, a class change, an evaluation and a ring read. -/

namespace Sys2Proof.Machine

/-- What the operations on previews and purchases are made of. -/
structure Charges (P : State → Prop) : Prop where
  commit : ∀ id k s, P s → P (commit id k s).1
  hold : ∀ id c s, P s → P (holdEvent id c s)
  meter : ∀ id f s, (∀ e : EventRecord, (f e).id = e.id) → P s → P (updateEvent id f s)

variable {P : State → Prop}

theorem foldl_keeps {α : Type} (g : State → α → State) (hg : ∀ s a, P s → P (g s a)) (l : List α) (s : State) (h : P s) :
    P (l.foldl g s) := by
  induction l generalizing s with
  | nil => exact h
  | cons x rest ih => exact ih _ (hg _ _ h)

theorem Charges.previewEnd (k : Charges P) (id : Half) (s : State) (h : P s) : P (previewEnd id s) := by
  rcases previewEnd_cases id s with e | ⟨c, e⟩ | e | ⟨r, e⟩ <;> rw [e]
  · exact h
  · exact k.hold _ _ _ h
  · exact k.commit _ _ _ h
  · exact k.hold _ _ _ (k.commit _ _ _ h)

theorem Charges.classChange (k : Charges P) (id : Half) (s : State) (h : P s) : P (classChange id s) := by
  unfold Machine.classChange
  split
  · exact h
  · split
    · exact h
    · dsimp only
      split
      · exact k.previewEnd _ _ (k.meter _ _ _ (fun _ => rfl) h)
      · exact k.meter _ _ _ (fun _ => rfl) h

theorem Charges.meterSecond (k : Charges P) (s : State) (h : P s) : P (meterSecond s) := by
  unfold Machine.meterSecond
  refine foldl_keeps _ ?_ _ _ h
  intro s id h
  unfold meterEvent
  split
  · exact h
  · refine k.meter _ _ _ (fun _ => rfl) ?_
    split
    · unfold addViewed
      dsimp only
      split
      · exact k.previewEnd _ _ (k.meter _ _ _ (fun _ => rfl) h)
      · exact k.meter _ _ _ (fun _ => rfl) h
    · exact h

theorem Charges.note (k : Charges P) (id : Half) (s : State) (h : P s) : P (presentationNote id s) :=
  k.meter _ _ _ (fun _ => rfl) h

theorem Charges.verdict (k : Charges P) (t : SlotTag) (s : State) (h : P s) : P (verdictOf t s).1 := by
  have hp : ∀ e x, P (previewStep e x s).1 := by
    intro e x
    unfold previewStep
    split
    · exact k.note _ _ h
    · exact h
    · exact h
    · split
      · exact k.note _ _ (k.meter _ _ _ (fun _ => rfl) h)
      · exact k.previewEnd _ _ h
  have hq : ∀ e, P (payStep e s).1 := by
    intro e
    unfold payStep
    split
    · exact hp _ _
    · exact h
  unfold verdictOf
  split
  · exact h
  · split
    · unfold judge
      dsimp only
      repeat' split
      all_goals first
        | exact h
        | exact hq _
    · exact h

theorem Charges.evaluate (k : Charges P) (hl : ∀ r n v s, P s → P (latchVerdict r n v s)) (r : Ring) (n : Nat) (s : State)
    (h : P s) : P (evaluate r n s) := hl _ _ _ _ (k.verdict _ _ h)

theorem Charges.presentWords (k : Charges P) (hl : ∀ r n v s, P s → P (latchVerdict r n v s)) (r : Ring) (slot n w : Nat)
    (x : List Byte) (s : State) (h : P s) : P (presentWords r slot n w x s).1 := by
  have hp : ∀ w x s, P s → P (presentWord r slot w x s).1 := by
    intro w x s h
    have hr : ∀ s, P s → P (rewriteWord r slot w x s).1 := by
      intro s h
      unfold rewriteWord
      split
      · split
        · exact h
        · unfold payloadWord
          split
          · exact h
          · exact h
          · unfold openedWord
            split
            · split
              · exact h
              · exact hl _ _ _ _ h
            · exact hl _ _ _ _ h
          · exact h
      · exact h
    unfold presentWord
    apply hr
    split
    · exact k.evaluate hl _ _ _ h
    · exact h
  induction n generalizing w x s with
  | zero => exact h
  | succ n ih => exact ih _ _ _ (hp _ _ _ h)

/-- The passing transaction's grant: what a property of everything but the path's own fields needs. -/
theorem Charges.grantPassing (k : Charges P) (hl : ∀ r n v s, P s → P (latchVerdict r n v s))
    (hp : ∀ s p, P s → P { s with path := { s.path with passing := p } })
    (hq : ∀ s p, P s → P { s with path := { s.path with port := p } })
    (hr : ∀ s x a, P s → P { s with path := { s.path with returned := x, attn := a } })
    (s : State) (h : P s) : P (grantPassing s) := by
  unfold Machine.grantPassing
  split
  · unfold returnRead giveBack
    dsimp only
    split
    · exact hr _ _ _ (hp _ _ h)
    · exact hr _ _ _ (hp _ _ h)
    · exact hr _ _ _ (k.presentWords hl _ _ _ _ _ _ (hp _ _ h))
  · exact hq _ _ h
  · exact h

theorem Charges.listing (k : Charges P) (hi : ∀ r s, P s → findEvent s r.id = none → P (listEvent r s))
    (hu : ∀ r e s, P s → findEvent s r.id = some e → P (relistEvent r e s)) (l : List ListingRecord) (s : State) (h : P s) :
    P (listingMessage l s) := by
  refine foldl_keeps _ ?_ _ _ h
  intro s r h
  unfold takeListing
  split
  · split
    · exact hu _ _ _ h ‹_›
    · exact k.classChange _ _ (hu _ _ _ h ‹_›)
  · exact hi _ _ h ‹_›

theorem Charges.tariff (k : Charges P) (ht : ∀ c t s, P s → P (setTariff c t s)) (c : Nat) (t : Tariff) (s : State) (h : P s) :
    P (tariffDefineMessage c t s) := by
  unfold tariffDefineMessage
  dsimp only
  split
  · exact ht _ _ _ h
  · exact foldl_keeps _ (fun _ _ hx => k.classChange _ _ hx) _ _ (ht _ _ _ h)

end Sys2Proof.Machine
end

