-- ==== Sys2Proof/Laws/Rows.lean ====
section
/-! SUPPORT. What a row of the table comes to, said once: the bus rows through the transaction they carry, the message rows through
what the Decoder finds, the taken requests through their answer. -/

namespace Sys2Proof.Machine

/-- A bus row is the presentation of its transaction. -/
theorem exec_of_transaction (i : Instr) (x : Transaction) (s : State) (h : i.transaction = some x) : exec i s = busRow x s := by
  cases i <;>
    simp_all [Instr.transaction, exec, execBusPassThrough, execRingWrite, execRingRead, execReportRead, execReportWriteDropped,
      execOtherWindowAccess, execRequestWriteDropped, execRequestWriteNotTaken, execBuy, execUnlock, execRelock, execRefresh,
      execUnknownRequestKind]

/-- A bus row on a free upstream port: the acceptance, and the grant it brings. -/
theorem exec_of_free (i : Instr) (x : Transaction) (s : State) (h : i.transaction = some x) (hw : x.wellFormed = true)
    (hp : UpstreamFree s) : exec i s = .next (grantAtOnce (acceptTransaction x s)) := by
  rw [exec_of_transaction i x s h]
  simp [busRow, hw, afterMessage, present, hp.1, takeTransaction, finishHandOff, hp.2]

/-- A taken request: its answer, and the write that carries it. -/
theorem exec_of_request (i : Instr) (w : BusWrite) (k j : Nat) (s : State) (h : i.transaction = some (.write w))
    (hw : w.wellFormed = true) (hp : UpstreamFree s) (hk : windowFor s w.address.toNat = .request k j)
    (hs : slotPending s k = false) (ht : isTaken w = true) :
    exec i s = .next (grantAtOnce (setPassing
      (some (.write (rewriteResult (answerRequest k (requestOf (recordOf w)) s).2 w) (some k)))
      (answerRequest k (requestOf (recordOf w)) s).1)) := by
  rw [exec_of_free i _ s h hw hp]
  simp [acceptTransaction, acceptWrite, hk, acceptRequest, hs, ht]

/-- The grant of a passing write moves the port alone. -/
theorem grantAtOnce_write (s : State) (w : BusWrite) (k : Option Nat) (h : s.path.passing = some (.write w k)) :
    grantAtOnce s = { s with path := { s.path with port := (grantAtOnce s).path.port } } := by
  simp only [grantAtOnce]
  split
  · simp [grantPassing, h, setPort]
  · rfl

/-- The grant where nothing passes does nothing. -/
theorem grantAtOnce_none (s : State) (h : s.path.passing = none) : grantAtOnce s = s := by
  simp only [grantAtOnce]
  split
  · simp [grantPassing, h]
  · rfl

/-- The passing write of a taken request carries its answer. -/
theorem rewriteResult_carries (w : BusWrite) (a : Answer) (h : w.lanes.length = 32) : CarriesAnswer w a (rewriteResult a w) := by
  refine ⟨rfl, by simp [rewriteResult], ?_, ?_, ?_⟩
  · simp [rewriteResult, enabledLane, h]
  · simp [rewriteResult, enabledLane, h]
  · intro k h1 h2
    simp [rewriteResult, enabledLane, Ne.symm h1, Ne.symm h2]

theorem isTaken_length (w : BusWrite) (h : isTaken w = true) : w.lanes.length = 32 := by
  simp only [isTaken, wholeGranule, Bool.and_eq_true, beq_iff_eq] at h
  exact h.1.1

/-- A message row whose message is handed off applies the Decoder's finding. -/
theorem messageRow_of (is : Finding → Bool) (s : State) (f : Finding) (hf : Handed s f) (h : is f = true) :
    messageRow is s = applyFinding f (clearHandOff s) := by
  obtain ⟨x, hx, hf⟩ := hf
  simp [messageRow, hx, hf, h, decodeHandOff]

/-- A row of an accepted message runs its acceptance. -/
theorem messageRow_accepts (row : MessageRow) (s : State) (a : AddressType) (n : Half) (m : Message)
    (hf : Handed s (.accepted a n m)) (h : m.row = row) :
    messageRow (Finding.accepts row) s = acceptMessage a n m (clearHandOff s) := by
  rw [messageRow_of _ s _ hf (by simp [Finding.accepts, Finding.message, h])]
  rfl

/-- A SITE or GROUP message: the owner's act, and the job that then begins. -/
theorem messageRow_dispatch (row : MessageRow) (s : State) (a : AddressType) (n : Half) (m : Message) (ha : a ≠ .room)
    (hf : Handed s (.accepted a n m)) (h : m.row = row) :
    messageRow (Finding.accepts row) s = startJob (dispatch a m (clearHandOff s)) := by
  rw [messageRow_accepts row s a n m hf h]
  simp [acceptMessage, ha]

/-- A ROOM message: acceptance, the owner's act, and the job that then begins. -/
theorem messageRow_room (row : MessageRow) (s : State) (n : Half) (m : Message) (hf : Handed s (.accepted .room n m))
    (h : m.row = row) :
    messageRow (Finding.accepts row) s = startJob (dispatch .room m (acceptRoom n (clearHandOff s))) := by
  rw [messageRow_accepts row s .room n m hf h]
  simp [acceptMessage]

/-- A change of the Lock Unit's fields, as a change of the state. -/
theorem setLock_eq (l : Lock) (s : State) : setLock l s = { s with lock := l, report := (setLock l s).report } := by
  unfold setLock
  split
  · rename_i h
    subst h
    rfl
  · rfl

/-- A rise of the stay generation moves the generation and the job queue alone (R152). -/
theorem raiseGeneration_eq (s : State) : raiseGeneration s = { s with
    account := { s.account with generation := s.account.generation + 1 }, store := (raiseGeneration s).store } := by
  unfold raiseGeneration requestStay joinQueue
  split_ifs <;> rfl

/-- What a rise does to the store rests on the store alone. -/
theorem raiseGeneration_store (s t : State) (h : t.store = s.store) : (raiseGeneration t).store = (raiseGeneration s).store := by
  unfold raiseGeneration requestStay joinQueue storeUsable
  simp only [h]
  split_ifs <;> rfl

/-- The acceptance of a ROOM message (R63). -/
theorem acceptRoom_eq (s : State) (n : Half) : acceptRoom n (clearHandOff s) = { s with
    decoder := { s.decoder with handOff := none, lastNumber := some n }
    account := { s.account with generation := s.account.generation + 1 }
    store := (raiseGeneration s).store } := by
  unfold acceptRoom
  generalize hx : ({ clearHandOff s with decoder := { (clearHandOff s).decoder with lastNumber := some n } } : State) = x
  rw [raiseGeneration_eq x, raiseGeneration_store s x (by rw [← hx]; rfl), ← hx]
  rfl

/-- An ignored message: its counter, and the mark of line 0 (R66). -/
theorem countIgnored_eq (s : State) : countIgnored s = { s with
    decoder := { s.decoder with ignored := bump s.decoder.ignored }, report := (countIgnored s).report } := by
  unfold countIgnored
  split
  · rename_i h
    have hb : bump s.decoder.ignored = s.decoder.ignored := by simp [bump, h]
    rw [hb]
  · rfl

/-- Once a job that waits has begun, another call begins none. -/
theorem startJob_again (s : State) : startJob (startJob s) = startJob s := by
  by_cases h : s.path.mode = .run ∧ s.store.inFlight = none ∧ storeUsable s = true
  · have e : startJob s = beginJob s := if_pos h
    rw [e]
    unfold beginJob
    cases hq : s.store.queue with
    | nil =>
      simp only []
      rw [e]
      simp [beginJob, hq]
    | cons j rest =>
      simp only []
      refine if_neg fun hx => ?_
      have := hx.2.1
      unfold setStoreState at this
      cases j <;> split at this <;> simp [launchJob, setInFlight, markLine] at this
  · have e : startJob s = s := if_neg h
    rw [e, e]

/-- A rollover notice where the index does not change, or becomes the stay's own, changes nothing; any other starts a night (R73, R127). -/
theorem noticeIfChanged_eq (before : Option Half) (s : State) (night : Half) (hn : nightIndex s = some night) :
    noticeIfChanged before s = if before = some night ∨ s.account.stay.nightIndex = some night then s
      else startJob (raiseGeneration (markLine 1 false (setStay { s.account.stay with nightIndex := some night, nightSpent := 0 } s))) := by
  unfold noticeIfChanged rolloverNotice
  rw [hn]
  by_cases h1 : before = some night <;> by_cases h2 : s.account.stay.nightIndex = some night <;> simp [h1, h2]

end Sys2Proof.Machine
end

