-- ==== Sys2Proof/Laws/Intake.lean ====
section
/-! SUPPORT. The payload bytes of a message cell, byte by byte: what goes to memory and what is staged (R30); and when a transaction
accepted upstream takes the memory port (R16; log 7). -/

namespace Sys2Proof.Machine

/-- Each lane forwarded: an enabled payload byte as zero, every other as written. -/
theorem zeroPayload_get (byte : Nat) (lanes : List Lane) (n : Nat) : (zeroPayload byte lanes)[n]? =
    (lanes[n]?).map fun l => if 12 ≤ byte + n ∧ l.enabled = true then { l with data := 0 } else l := by
  induction lanes generalizing byte n with
  | nil => rfl
  | cons l rest ih =>
    cases n with
    | zero => rfl
    | succ n =>
      simp only [zeroPayload, List.getElem?_cons_succ]
      rw [ih, Nat.add_right_comm, Nat.add_assoc]

theorem zeroPayload_length (byte : Nat) (lanes : List Lane) : (zeroPayload byte lanes).length = lanes.length := by
  induction lanes generalizing byte with
  | nil => rfl
  | cons l rest ih => simp [zeroPayload, ih]

theorem stagePayload_length (byte : Nat) (lanes : List Lane) (b : List Byte) : (stagePayload byte lanes b).length = b.length := by
  induction lanes generalizing byte b with
  | nil => rfl
  | cons l rest ih =>
    simp only [stagePayload, ih]
    split <;> simp

/-- Each staged byte: that of the lane that carries it, where there is one and it is enabled, and what was staged otherwise. -/
theorem stagePayload_get (byte : Nat) (lanes : List Lane) (b : List Byte) (j : Nat) (hj : j < b.length) :
    (stagePayload byte lanes b)[j]? = (match lanes[12 + j - byte]? with
      | some l => if byte ≤ 12 + j ∧ l.enabled = true then some l.data else b[j]?
      | none => b[j]?) := by
  induction lanes generalizing byte b with
  | nil => rfl
  | cons l rest ih =>
    simp only [stagePayload]
    rw [ih _ _ (by split <;> simpa using hj)]
    by_cases hlt : 12 + j < byte
    · have e1 : 12 + j - (byte + 1) = 0 := by omega
      have e2 : 12 + j - byte = 0 := by omega
      have n1 : ¬ (byte + 1 ≤ 12 + j) := by omega
      have n2 : ¬ (byte ≤ 12 + j) := by omega
      have hs : (if 12 ≤ byte ∧ l.enabled = true then b.set (byte - 12) l.data else b)[j]? = b[j]? := by
        split
        · exact List.getElem?_set_ne (by omega)
        · rfl
      rw [e1, e2, hs]
      simp only [n1, n2, false_and, if_false, List.getElem?_cons_zero]
      cases rest[0]? <;> rfl
    · by_cases heq : 12 + j = byte
      · have e1 : 12 + j - (byte + 1) = 0 := by omega
        have e2 : 12 + j - byte = 0 := by omega
        have n1 : ¬ (byte + 1 ≤ 12 + j) := by omega
        have hb : byte - 12 = j := by omega
        have hge : 12 ≤ byte := by omega
        have hle : byte ≤ 12 + j := by omega
        rw [e1, e2]
        simp only [n1, hle, hge, true_and, false_and, if_false, List.getElem?_cons_zero, hb]
        have hs : (if l.enabled = true then b.set j l.data else b)[j]? = if l.enabled = true then some l.data else b[j]? := by
          split
          · simp [hj]
          · rfl
        rw [hs]
        cases rest[0]? <;> rfl
      · have e2 : 12 + j - byte = (12 + j - (byte + 1)) + 1 := by omega
        have n1 : byte + 1 ≤ 12 + j := by omega
        have n2 : byte ≤ 12 + j := by omega
        have hs : (if 12 ≤ byte ∧ l.enabled = true then b.set (byte - 12) l.data else b)[j]? = b[j]? := by
          split
          · exact List.getElem?_set_ne (by omega)
          · rfl
        rw [e2, hs]
        simp only [n1, n2, true_and, List.getElem?_cons_succ]

/-! ### The grant an acceptance brings -/

/-- A write accepted upstream takes the port as `portAfter` says, and nothing else happens at its grant. -/
theorem grantAtOnce_portAfter (s u : State) (w : BusWrite) (k : Option Nat) (hp : u.path.passing = some (.write w k))
    (ho : u.path.port = s.path.port) : grantAtOnce u = { u with path := { u.path with port := portAfter s u } } := by
  have hg : u.path.port = .free ∧ headGoesFirst u = false ∧ u.decoder.handOff = none ↔ takesPort s u = true := by
    simp [takesPort, ho, and_assoc]
  unfold grantAtOnce portAfter
  by_cases h : takesPort s u = true
  · rw [if_pos (hg.2 h), if_pos h]
    simp [grantPassing, hp, setPort]
  · rw [if_neg (fun x => h (hg.1 x)), if_neg h, ← ho]

/-- A read accepted on a free upstream port returns its words where it takes the memory port at once, and waits with its place
otherwise. -/
theorem exec_of_read (i : Instr) (r : BusRead) (s : State) (h : i.transaction = some (.read r)) (hw : r.wellFormed = true)
    (hp : UpstreamFree s) : exec i s = .next (if takesPort s s then returnRead r (readPlace s r) s
      else { s with path := { s.path with passing := some (.read r (readPlace s r)) } }) := by
  rw [exec_of_free i _ s h hw hp]
  have hf : ({ s with path := { s.path with passing := none } } : State) = s := by
    rw [← hp.1]
  have hg : headGoesFirst (setPassing (some (.read r (readPlace s r))) s) = headGoesFirst s := rfl
  congr 1
  unfold grantAtOnce acceptTransaction
  rw [hg]
  by_cases hx : takesPort s s = true
  · have hc : s.path.port = .free ∧ headGoesFirst s = false := by
      simp only [takesPort, Bool.and_eq_true, beq_iff_eq, Bool.not_eq_true'] at hx
      exact hx.1
    rw [if_pos hx, if_pos ⟨hc.1, hc.2, hp.2⟩]
    exact congrArg (returnRead r (readPlace s r)) hf
  · have hc : ¬ (s.path.port = .free ∧ headGoesFirst s = false) := by
      intro h
      apply hx
      simp [takesPort, h.1, h.2, hp.2]
    rw [if_neg hx, if_neg]
    · rfl
    · exact fun h => hc ⟨h.1, h.2.1⟩

end Sys2Proof.Machine
end

