-- ==== Sys2Proof/Laws/Marks.lean ====
section
/-! SUPPORT. What each shared operation marks in the dirty set: the lines that join it, those that join it with attention, and that no
other line changes. -/

namespace Sys2Proof.Machine

/-- From `s` to `t` the dirty set keeps its form, and exactly these lines join it. -/
def Marking (lines attention : Nat → Prop) (s t : State) : Prop :=
  Sparse.wf none s.report = true → Sparse.wf none t.report = true ∧ Marks s t lines attention

/-- No line. -/
abbrev noLine : Nat → Prop := fun _ => False

theorem Marking.wf {l a : Nat → Prop} {s t : State} (h : Marking l a s t) (hs : Sparse.wf none s.report = true) :
    Sparse.wf none t.report = true := (h hs).1

theorem Marking.marks {l a : Nat → Prop} {s t : State} (h : Marking l a s t) (hs : Sparse.wf none s.report = true) :
    Marks s t l a := (h hs).2

theorem Marking.of_eq {s t : State} (h : t.report = s.report) : Marking noLine noLine s t := by
  intro hw
  refine ⟨by rw [h]; exact hw, fun n => ⟨False.elim, fun _ => False.elim, fun _ _ => ?_⟩⟩
  unfold lineMark
  rw [h]

theorem Marking.congr {l l' a a' : Nat → Prop} {s t : State} (h : Marking l a s t) (hl : ∀ n, l n ↔ l' n)
    (ha : ∀ n, a n ↔ a' n) : Marking l' a' s t := by
  have e1 : l = l' := funext fun n => propext (hl n)
  have e2 : a = a' := funext fun n => propext (ha n)
  rw [← e1, ← e2]
  exact h

theorem Marking.trans {l l' a a' : Nat → Prop} {s t u : State} (h1 : Marking l a s t) (h2 : Marking l' a' t u) :
    Marking (fun n => l n ∨ l' n) (fun n => a n ∨ a' n) s u := by
  intro hw
  obtain ⟨hw1, h1⟩ := h1 hw
  obtain ⟨hw2, h2⟩ := h2 hw1
  refine ⟨hw2, fun n => ?_⟩
  obtain ⟨x1, x2, x3⟩ := h1 n
  obtain ⟨y1, y2, y3⟩ := h2 n
  by_cases p1 : a n <;> by_cases p2 : l n <;> by_cases p3 : a' n <;> by_cases p4 : l' n <;> simp_all

/-- The same, where neither part marks with attention. -/
theorem Marking.plain {l l' : Nat → Prop} {s t u : State} (h1 : Marking l noLine s t) (h2 : Marking l' noLine t u) :
    Marking (fun n => l n ∨ l' n) noLine s u := (h1.trans h2).congr (fun _ => Iff.rfl) (by simp)

/-- A part that leaves the dirty set alone, before. -/
theorem Marking.after {l a : Nat → Prop} {s t u : State} (h : Marking l a t u) (e : t.report = s.report) : Marking l a s u :=
  ((Marking.of_eq e).trans h).congr (by simp) (by simp)

/-- A part that leaves the dirty set alone, behind. -/
theorem Marking.before {l a : Nat → Prop} {s t u : State} (h : Marking l a s t) (e : u.report = t.report) : Marking l a s u :=
  (h.trans (Marking.of_eq e)).congr (by simp) (by simp)

/-- Marks speak of the dirty set alone. -/
theorem Marks.of_report {l a : Nat → Prop} {s s' t t' : State} (h : Marks s t l a) (e : s'.report = s.report)
    (e' : t'.report = t.report) : Marks s' t' l a := by
  intro n
  have h := h n
  unfold lineMark at *
  rw [e, e']
  exact h

/-- A line marked. -/
theorem marks_markLine (n : Nat) (b : Bool) (s : State) :
    Marking (fun k => k = n) (fun k => k = n ∧ b = true) s (markLine n b s) := by
  intro hw
  refine ⟨markLine_wf n b s hw, fun k => ?_⟩
  rw [lineMark_markLine _ _ _ _ hw]
  by_cases hk : k = n <;> cases b <;> simp [hk]

theorem marks_markClear (n : Nat) (s : State) : Marking (fun k => k = n) noLine s (markLine n false s) :=
  (marks_markLine n false s).congr (by simp) (by simp)

theorem marks_markAttention (n : Nat) (s : State) : Marking noLine (fun k => k = n) s (markLine n true s) := by
  intro hw
  have h := marks_markLine n true s hw
  refine ⟨h.1, fun k => ?_⟩
  have h := h.2 k
  by_cases hk : k = n <;> simp_all

/-- A list of lines marked one after another without attention: each keeps the mark it had, and no other line changes. -/
theorem lineMark_fold {α : Type} (p : α → Prop) [DecidablePred p] (line : α → Nat) (l : List α) (s : State)
    (h : Sparse.wf none s.report = true) (k : Nat) :
    lineMark (l.foldl (fun s a => if p a then s else markLine (line a) false s) s) k =
      if ∃ a ∈ l, ¬ p a ∧ line a = k then some ((lineMark s k).getD false) else lineMark s k := by
  induction l generalizing s with
  | nil => simp
  | cons x rest ih =>
    rw [List.foldl_cons]
    by_cases hx : p x
    · rw [if_pos hx, ih s h]
      simp [hx]
    · rw [if_neg hx, ih _ (markLine_wf _ _ _ h), lineMark_markLine _ _ _ _ h]
      by_cases hk : k = line x
      · subst hk
        simp [hx]
      · have hn : ¬ (line x = k) := fun e => hk e.symm
        simp [hx, hk, hn]

/-- The lines a change of the purchase list marks (R146). -/
theorem lineMark_setPurchases (l : List Purchase) (s : State) (h : Sparse.wf none s.report = true) (k : Nat) :
    lineMark (setPurchases l s) k =
      if ∃ n, n < 16 ∧ s.account.purchases[n]? ≠ l[n]? ∧ 5 + n = k then some ((lineMark s k).getD false) else lineMark s k := by
  have hl := lineMark_fold (fun n => s.account.purchases[n]? = l[n]?) (fun n => 5 + n) (List.range purchasePlaces)
    { s with account := { s.account with purchases := l } } h k
  simp only [List.mem_range] at hl
  exact hl

/-- The lines of the records an ACK removes (R165). -/
theorem lineMark_markJournalLines (l : List ChargeRecord) (s : State) (h : Sparse.wf none s.report = true) (k : Nat) :
    lineMark (markJournalLines l s) k =
      if ∃ r ∈ l, 21 + r.sequence % 32 = k then some ((lineMark s k).getD false) else lineMark s k := by
  have hl := lineMark_fold (fun _ : ChargeRecord => False) (fun r => journalLine r.sequence) l s h k
  simp only [if_false, not_false_eq_true, true_and] at hl
  exact hl

/-- What marks one line without attention where something changes. -/
theorem marks_ite (p : Prop) [Decidable p] (n : Nat) (s t : State) (h : t.report = s.report) :
    Marking (fun k => k = n ∧ ¬ p) noLine s (if p then s else markLine n false t) := by
  split
  · exact (Marking.of_eq rfl).congr (by simp [*]) (by simp)
  · exact ((marks_markClear n t).after h).congr (by simp [*]) (by simp)

/-! ### The store -/

/-- A change of the store state marks line 0, with attention at the entry into FAULT (R180). -/
theorem marks_setStoreState (x : StoreState) (s : State) :
    Marking (fun k => k = 0 ∧ s.store.state ≠ x) (fun k => k = 0 ∧ s.store.state ≠ x ∧ x = .fault) s (setStoreState x s) := by
  unfold setStoreState
  split
  · exact (Marking.of_eq rfl).congr (by simp [*]) (by simp [*])
  · exact ((marks_markLine 0 (x == .fault) _).after rfl).congr (by simp [*]) (by simp [*])

/-- A change to any other state than FAULT. -/
theorem marks_leaveFault (x : StoreState) (s : State) (h : x ≠ .fault) :
    Marking (fun k => k = 0 ∧ s.store.state ≠ x) noLine s (setStoreState x s) :=
  (marks_setStoreState x s).congr (fun _ => Iff.rfl) (by simp [h])

theorem launchJob_report (j : Job) (s : State) : (launchJob j s).report = s.report := by
  cases j <;> rfl

@[simp] theorem launchJob_state (j : Job) (s : State) : (launchJob j s).store.state = s.store.state := by
  cases j <;> rfl

theorem setStoreState_state (x : StoreState) (s : State) : (setStoreState x s).store.state = x := by
  unfold setStoreState
  split <;> simp_all

/-- The store state a job's start leaves: a start marks line 0 where it changes the state (R180). -/
theorem marks_beginJob (s : State) :
    Marking (fun k => k = 0 ∧ (beginJob s).store.state ≠ s.store.state) noLine s (beginJob s) := by
  unfold beginJob
  split
  · exact (Marking.of_eq rfl).congr (by simp) (by simp)
  · have h : ∀ x : State, x.report = s.report → x.store.state = s.store.state →
        Marking (fun k => k = 0 ∧ (setStoreState .busy x).store.state ≠ s.store.state) noLine s (setStoreState .busy x) := by
      intro x hr hs
      refine ((marks_leaveFault .busy x (by simp)).after hr).congr (fun n => ?_) fun _ => Iff.rfl
      rw [setStoreState_state, hs]
      tauto
    exact h _ (launchJob_report _ _) (launchJob_state _ _)

theorem marks_startJob (s : State) :
    Marking (fun k => k = 0 ∧ (startJob s).store.state ≠ s.store.state) noLine s (startJob s) := by
  unfold startJob
  split
  · exact marks_beginJob s
  · exact (Marking.of_eq rfl).congr (by simp) (by simp)

theorem marks_nextJob (s : State) :
    Marking (fun k => k = 0 ∧ (nextJob s).store.state ≠ s.store.state) noLine s (nextJob s) := by
  unfold nextJob
  dsimp only
  split
  · refine ((marks_leaveFault .ready (setInFlight none s) (by simp)).after rfl).congr ?_ fun _ => Iff.rfl
    intro n
    rw [setStoreState_state]
    simp only [setInFlight]
    tauto
  · exact (marks_beginJob _).after rfl

theorem marks_raiseGeneration (s : State) : Marking noLine noLine s (raiseGeneration s) :=
  .of_eq (by simp only [raiseGeneration_frame])

/-! ### The counters of line 0 -/

theorem marks_countDropped (s : State) : Marking (fun k => k = 0 ∧ s.path.dropped ≠ 65535) noLine s (countDropped s) :=
  marks_ite _ _ _ _ rfl

theorem marks_countHeaderError (s : State) :
    Marking (fun k => k = 0 ∧ s.intake.headerErrors ≠ 65535) noLine s (countHeaderError s) := marks_ite _ _ _ _ rfl

theorem marks_countAbandoned (s : State) : Marking (fun k => k = 0 ∧ s.intake.abandoned ≠ 65535) noLine s (countAbandoned s) :=
  marks_ite _ _ _ _ rfl

theorem marks_countTagFailure (s : State) :
    Marking (fun k => k = 0 ∧ s.decoder.tagFailures ≠ 65535) noLine s (countTagFailure s) := marks_ite _ _ _ _ rfl

theorem marks_countIgnored (s : State) : Marking (fun k => k = 0 ∧ s.decoder.ignored ≠ 65535) noLine s (countIgnored s) :=
  marks_ite _ _ _ _ rfl

theorem marks_countNoKey (s : State) : Marking (fun k => k = 0 ∧ s.presentation.noKey ≠ 65535) noLine s (countNoKey s) :=
  marks_ite _ _ _ _ rfl

/-- A counter rises unless it is saturated. -/
theorem bump_ne (c : Half) : bump c ≠ c ↔ c ≠ 65535 := by
  unfold bump
  split
  · simp [*]
  · simp only [ne_eq, *, not_false_eq_true, iff_true]
    intro h
    have := congrArg BitVec.toNat h
    simp at this
    omega

/-! ### The Lock Unit and free-view -/

theorem marks_setLock (l : Lock) (s : State) : Marking (fun k => k = 2 ∧ s.lock ≠ l) noLine s (setLock l s) :=
  marks_ite _ _ _ _ rfl

theorem marks_setFreeView (f : FreeView) (s : State) : Marking (fun k => k = 0 ∧ s.account.freeView ≠ f) noLine s (setFreeView f s) :=
  marks_ite _ _ _ _ rfl

theorem marks_lockCheckOut (s : State) : Marking noLine (fun k => k = 2) s (lockCheckOut s) := (marks_markAttention 2 _).after rfl

theorem marks_lockCheckIn (room dflt : Nat) (pin : Option Pin) (s : State) :
    Marking noLine (fun k => k = 2) s (lockCheckIn room dflt pin s) := (marks_markAttention 2 _).after rfl

/-! ### Purchases, the journal, the stay -/

theorem marks_fold {α : Type} (p : α → Prop) [DecidablePred p] (line : α → Nat) (l : List α) (s : State) :
    Marking (fun k => ∃ a ∈ l, ¬ p a ∧ line a = k) noLine s (l.foldl (fun s a => if p a then s else markLine (line a) false s) s) := by
  intro hw
  refine ⟨?_, fun k => ?_⟩
  · induction l generalizing s with
    | nil => exact hw
    | cons x rest ih =>
      rw [List.foldl_cons]
      split
      · exact ih s hw
      · exact ih _ (markLine_wf _ _ _ hw)
  · rw [lineMark_fold p line l s hw]
    refine ⟨False.elim, fun _ h => by rw [if_pos h], fun _ h => by rw [if_neg h]⟩

/-- The lines a change of the purchase list marks (R146). -/
theorem marks_setPurchases (l : List Purchase) (s : State) :
    Marking (fun k => ∃ n, n < 16 ∧ s.account.purchases[n]? ≠ l[n]? ∧ 5 + n = k) noLine s (setPurchases l s) := by
  have h := marks_fold (fun n => s.account.purchases[n]? = l[n]?) (fun n => 5 + n) (List.range purchasePlaces)
    { s with account := { s.account with purchases := l } }
  simp only [List.mem_range] at h
  exact h.after rfl

/-- The lines of the records an ACK removes (R165). -/
theorem marks_markJournalLines (l : List ChargeRecord) (s : State) :
    Marking (fun k => ∃ r ∈ l, 21 + r.sequence % 32 = k) noLine s (markJournalLines l s) := by
  have h := marks_fold (fun _ : ChargeRecord => False) (fun r => journalLine r.sequence) l s
  simp only [if_false, not_false_eq_true, true_and] at h
  exact h

/-- A place of the purchase list, by its line. -/
theorem place_iff (l l' : List Purchase) (k : Nat) :
    (∃ n, n < 16 ∧ l[n]? ≠ l'[n]? ∧ 5 + n = k) ↔ 5 ≤ k ∧ k < 21 ∧ l[k - 5]? ≠ l'[k - 5]? := by
  constructor
  · rintro ⟨n, h1, h2, rfl⟩
    exact ⟨by omega, by omega, by simpa using h2⟩
  · rintro ⟨h1, h2, h3⟩
    exact ⟨k - 5, by omega, h3, by omega⟩

/-- The lines the removals of check 7 mark (R136, R146). -/
theorem marks_removeExpired (s : State) :
    Marking (fun k => 5 ≤ k ∧ k < 21 ∧ s.account.purchases[k - 5]? ≠
      (s.account.purchases.filter fun p => p.live s.time.seconds)[k - 5]?) noLine s (removeExpired s) :=
  have h : ∀ x : State, x.report = s.report → x.account = s.account →
      Marking (fun k => 5 ≤ k ∧ k < 21 ∧ s.account.purchases[k - 5]? ≠
      (s.account.purchases.filter fun p => p.live s.time.seconds)[k - 5]?) noLine s
      (setPurchases (s.account.purchases.filter fun p => p.live s.time.seconds) x) := fun x hr ha =>
    ((marks_setPurchases _ x).after hr).congr (fun k => by rw [ha]; exact place_iff _ _ k) fun _ => Iff.rfl
  h _ rfl rfl

/-- The lines of the purchases that leave at a check-in or a check-out, and line 1 with attention (R128). -/
theorem marks_accountCheckOut (s : State) :
    Marking (fun k => 5 ≤ k ∧ k < 21 ∧ s.account.purchases[k - 5]? ≠ none) (fun k => k = 1) s (accountCheckOut s) :=
  ((((marks_setPurchases [] _).after rfl).before (t := setPurchases [] { s with account := { s.account with
      stay := Stay.vacantWith s.account.stay.nightIndex, held := none } }) rfl).trans (marks_markAttention 1 _)).congr
    (fun k => by simpa using place_iff s.account.purchases [] k) (by simp)

theorem marks_accountCheckIn (b : CheckinBody) (night : Option Half) (s : State) :
    Marking (fun k => 5 ≤ k ∧ k < 21 ∧ s.account.purchases[k - 5]? ≠ none) (fun k => k = 1) s (accountCheckIn b night s) := by
  have h : ∀ y : Stay, Marking (fun k => 5 ≤ k ∧ k < 21 ∧ s.account.purchases[k - 5]? ≠ none) (fun k => k = 1) s
      (markLine 1 true (resetMetering (setPurchases [] { s with account := { s.account with stay := y, held := none } }))) :=
    fun y => ((((marks_setPurchases [] { s with account := { s.account with stay := y, held := none } }).after rfl).before
      rfl).trans (marks_markAttention 1 (resetMetering _))).congr
      (fun k => by simpa using place_iff s.account.purchases [] k) (by simp)
  exact h _

/-- A rollover notice (R127, R128): one that starts a night marks line 1, and its STAY job may begin. -/
theorem marks_rolloverNotice (night : Half) (s : State) :
    Marking (fun k => s.account.stay.nightIndex ≠ some night ∧ k = 1 ∨
        k = 0 ∧ (rolloverNotice night s).store.state ≠ s.store.state)
      noLine s (rolloverNotice night s) := by
  unfold rolloverNotice
  split
  · exact (Marking.of_eq rfl).congr (by simp [*]) (by simp)
  · rename_i h
    refine (((marks_markClear 1 (setStay { s.account.stay with nightIndex := some night, nightSpent := 0 } s)).after rfl).trans
      ((marks_startJob (raiseGeneration _)).after ?_)).congr ?_ (by simp)
    · simp only [raiseGeneration_frame]
    · intro n
      simp [h, raiseGeneration_frame]

/-- A stored record's line (R162). -/
theorem marks_markStored (sequence : Nat) (s : State) :
    Marking (fun k => ∃ r ∈ s.journal.records, r.sequence = sequence ∧ k = 21 + sequence % 32) noLine s (markStored sequence s) := by
  unfold markStored
  split
  · rename_i h
    refine ((marks_markClear (journalLine sequence) _).after rfl).congr (fun k => ?_) fun _ => Iff.rfl
    simp only [List.any_eq_true, beq_iff_eq] at h
    obtain ⟨r, hr, hs⟩ := h
    exact ⟨fun hk => ⟨r, hr, hs, hk⟩, fun ⟨_, _, _, hk⟩ => hk⟩
  · rename_i h
    refine (Marking.of_eq rfl).congr (fun k => ⟨False.elim, fun ⟨r, hr, hs, _⟩ => h ?_⟩) fun _ => Iff.rfl
    simp only [List.any_eq_true, beq_iff_eq]
    exact ⟨r, hr, hs⟩

/-! ### Latches -/

theorem marks_setSummary (r : Ring) (x : Summary) (s : State) :
    Marking (fun k => k = summaryLine r ∧ s.presentation.summary.get r ≠ some x) noLine s (setSummary r x s) := marks_ite _ _ _ _ rfl

/-- A latch set on a valid tag, other than RAW: VOID NOKEY marks line 0 where its count changes, and a changed summary its line (R103). -/
theorem marks_latchVerdict (r : Ring) (slot : Nat) (v : Verdict) (s : State) (f : TagFields)
    (hf : (readTag s r slot).fields = some f) (hv : v ≠ .raw) :
    Marking (fun k => k = 0 ∧ v = .voided .noKey ∧ s.presentation.noKey ≠ 65535 ∨
      k = summaryLine r ∧ s.presentation.summary.get r ≠ some (summaryOf s f v)) noLine s (latchVerdict r slot v s) := by
  unfold latchVerdict
  rw [hf]
  dsimp only
  rw [if_neg hv]
  have h1 : Marking (fun k => k = 0 ∧ v = .voided .noKey ∧ s.presentation.noKey ≠ 65535) noLine s
      (if v = .voided .noKey then countNoKey (setLatch r slot (some v) s) else setLatch r slot (some v) s) := by
    split
    · rename_i h
      have hn : (setLatch r slot (some v) s).presentation.noKey = s.presentation.noKey := rfl
      exact ((marks_countNoKey (setLatch r slot (some v) s)).after rfl).congr (fun k => by rw [hn]; simp [h]) fun _ => Iff.rfl
    · rename_i h
      exact (Marking.of_eq rfl).congr (fun k => by simp [h]) fun _ => Iff.rfl
  have h2 : (if v = .voided .noKey then countNoKey (setLatch r slot (some v) s)
      else setLatch r slot (some v) s).presentation.summary = s.presentation.summary := by
    split <;> simp [setLatch, setTag]
  have h3 : summaryOf (if v = .voided .noKey then countNoKey (setLatch r slot (some v) s) else setLatch r slot (some v) s) f v =
      summaryOf s f v := by
    split <;> simp [summaryOf, findShowing, findEvent, tariffOf, setLatch, setTag]
  refine (h1.plain (marks_setSummary r _ _)).congr (fun k => ?_) fun _ => Iff.rfl
  rw [h2, h3]

end Sys2Proof.Machine
end

