-- ==== Sys2Proof/Laws/Counters.lean ====
section
/-! SUPPORT. The Intake Unit's counters: a ring write raises them, marks line 0 where one changes, and marks no other line; and what it
hands off. -/

namespace Sys2Proof.Machine

/-- From `s` to `t` the two counters of the Intake Unit only rise, and exactly a rise marks line 0 (R33). -/
structure Counts (s t : State) : Prop where
  marks : Marking (fun n => n = 0 ∧ (t.intake.headerErrors ≠ s.intake.headerErrors ∨ t.intake.abandoned ≠ s.intake.abandoned))
    noLine s t
  header : s.intake.headerErrors.toNat ≤ t.intake.headerErrors.toNat
  abandoned : s.intake.abandoned.toNat ≤ t.intake.abandoned.toNat
  kept : t.intake.headerErrors = s.intake.headerErrors → t.intake.abandoned = s.intake.abandoned → t.report = s.report

/-- A saturating counter never falls. -/
theorem bump_rises (c : Half) : c.toNat ≤ (bump c).toNat := by
  unfold bump
  split
  · exact Nat.le_refl _
  · rename_i h
    have h' : c.toNat ≠ 65535 := fun h' => h (BitVec.eq_of_toNat_eq h')
    have : c.toNat < 65536 := c.isLt
    rw [BitVec.toNat_add]
    simp
    omega

/-- A counter that only rises has changed at the end exactly if it changed in one part. -/
theorem rises_ne {x y z : Half} (h1 : x.toNat ≤ y.toNat) (h2 : y.toNat ≤ z.toNat) : z ≠ x ↔ y ≠ x ∨ z ≠ y := by
  constructor
  · intro h
    by_cases h3 : y = x
    · exact Or.inr (h3 ▸ h)
    · exact Or.inl h3
  · rintro (h | h) rfl
    · exact h (BitVec.eq_of_toNat_eq (by omega))
    · exact h (BitVec.eq_of_toNat_eq (by omega))

theorem Counts.of_eq {s t : State} (h : t.report = s.report) (h1 : t.intake.headerErrors = s.intake.headerErrors)
    (h2 : t.intake.abandoned = s.intake.abandoned) : Counts s t where
  marks := (Marking.of_eq h).congr (by simp [h1, h2]) fun _ => Iff.rfl
  header := by rw [h1]
  abandoned := by rw [h2]
  kept := fun _ _ => h

theorem Counts.trans {s t u : State} (a : Counts s t) (b : Counts t u) : Counts s u := by
  have k1 := rises_ne a.header b.header
  have k2 := rises_ne a.abandoned b.abandoned
  refine ⟨(a.marks.plain b.marks).congr (fun n => ?_) fun _ => Iff.rfl, Nat.le_trans a.header b.header,
    Nat.le_trans a.abandoned b.abandoned, fun h1 h2 => ?_⟩
  · show _ ↔ n = 0 ∧ (_ ≠ _ ∨ _ ≠ _)
    rw [k1, k2]
    clear a b k1 k2
    tauto
  · have e1 := k1.not.1 (by simpa using h1)
    have e2 := k2.not.1 (by simpa using h2)
    simp only [ne_eq, not_or, not_not] at e1 e2
    rw [b.kept e1.2 e2.2, a.kept e1.1 e2.1]

/-- The abandoned cells (R33). -/
theorem counts_countAbandoned (s : State) : Counts s (countAbandoned s) := by
  refine ⟨(marks_countAbandoned s).congr (fun n => ?_) fun _ => Iff.rfl, ?_, ?_, ?_⟩ <;> unfold countAbandoned
  · split <;> simp [markLine, *, bump_ne]
  · split <;> simp [markLine]
  · split <;> simp [markLine, bump_rises]
  · split
    · simp
    · intro _ h
      exact absurd h ((bump_ne _).2 ‹_›)

/-- The header errors (R33). -/
theorem counts_countHeaderError (s : State) : Counts s (countHeaderError s) := by
  refine ⟨(marks_countHeaderError s).congr (fun n => ?_) fun _ => Iff.rfl, ?_, ?_, ?_⟩ <;> unfold countHeaderError
  · split <;> simp [markLine, *, bump_ne]
  · split <;> simp [markLine, bump_rises]
  · split <;> simp [markLine]
  · split
    · simp
    · intro h _
      exact absurd h ((bump_ne _).2 ‹_›)

theorem counts_abandonCell (r : Ring) (s : State) : Counts s (abandonCell r s) :=
  .trans (t := setStaging r none s) (.of_eq rfl rfl rfl) (counts_countAbandoned _)

theorem counts_closeEarly (r : Ring) (s : State) : Counts s (closeEarly r s) := by
  unfold closeEarly
  split
  · exact .of_eq rfl rfl rfl
  · split
    · exact .of_eq rfl rfl rfl
    · exact (counts_abandonCell r s).trans (.of_eq rfl rfl rfl)

theorem counts_stageWrite (p : CellPlace) (w : BusWrite) (s : State) : Counts s (stageWrite p w s).1 := by
  unfold stageWrite
  repeat' split
  all_goals exact .of_eq rfl rfl rfl

theorem counts_openCell (p : CellPlace) (w : BusWrite) (s : State) : Counts s (openCell p w s) := by
  unfold openCell
  split
  · exact .of_eq rfl rfl rfl
  · exact .trans (t := setTag p.ring p.slot blankTag
      (setContext p.ring (some { slot := p.slot, next := 1, message := false, broken := false }) s))
      (.of_eq rfl rfl rfl) (counts_countHeaderError _)

theorem counts_advanceCell (p : CellPlace) (c : OpenCell) (s : State) : Counts s (advanceCell p c s) := by
  unfold advanceCell closeWhole
  dsimp only
  repeat' split
  all_goals exact .of_eq rfl rfl rfl

theorem counts_breakCell (p : CellPlace) (c : OpenCell) (s : State) : Counts s (breakCell p c s) := by
  refine .trans (t := if c.broken then s else abandonCell p.ring s) ?_ (.of_eq rfl rfl rfl)
  split
  · exact .of_eq rfl rfl rfl
  · exact counts_abandonCell _ _

/-- A ring write's effect on the counters and on the dirty set (R33). -/
theorem counts_intakeWrite (p : CellPlace) (w : BusWrite) (s : State) : Counts s (intakeWrite p w s).1 := by
  have h0 : Counts s (setLatch p.ring p.slot none s) := .of_eq rfl rfl rfl
  unfold intakeWrite
  dsimp only
  split
  · exact ((h0.trans (counts_closeEarly _ _)).trans (counts_openCell _ _ _)).trans (counts_stageWrite _ _ _)
  · refine h0.trans ?_
    unfold payloadGranule
    split
    · exact counts_countAbandoned _
    · split
      · exact (counts_closeEarly _ _).trans (counts_countAbandoned _)
      · split
        · exact (counts_stageWrite _ _ _).trans (counts_advanceCell _ _ _)
        · exact counts_breakCell _ _ _

/-! ### What a ring write leaves alone -/

theorem stageWrite_decoder (p : CellPlace) (w : BusWrite) (s : State) : (stageWrite p w s).1.decoder = s.decoder := by
  unfold stageWrite
  repeat' split
  all_goals rfl

/-- Only a granule-0 write raises the header errors (R33). -/
theorem intakeWrite_header (p : CellPlace) (w : BusWrite) (s : State) (h : p.granule ≠ 0) :
    (intakeWrite p w s).1.intake.headerErrors = s.intake.headerErrors := by
  unfold intakeWrite
  dsimp only
  rw [if_neg h]
  unfold payloadGranule
  split
  · simp [setLatch, setTag]
  · split
    · simp [setLatch, setTag]
    · split
      · unfold advanceCell closeWhole
        dsimp only
        repeat' split
        all_goals simp [setContext, setStaging, setLatch, setTag]
      · unfold breakCell
        simp only [setContext]
        split
        · rfl
        · simp [setLatch, setTag]

/-- A ring write taken on a free upstream port. -/
theorem exec_ringWrite (w : BusWrite) (p : CellPlace) (s : State) (hw : w.wellFormed = true) (hu : UpstreamFree s)
    (hp : windowFor s w.address.toNat = .ring p) :
    let r := intakeWrite p w s
    exec (.ringWrite w) s =
      .next { r.1 with path := { r.1.path with passing := some (.write r.2 none), port := portAfter s r.1 } } := by
  dsimp only
  rw [exec_of_free (.ringWrite w) (.write w) s rfl hw hu]
  simp only [acceptTransaction, acceptWrite, hp]
  rw [grantAtOnce_portAfter s _ (intakeWrite p w s).2 none rfl (by simp [setPassing])]
  rfl

/-- Only an in-order granule 3 of an unbroken message context hands a message off (R28, R32). -/
theorem intakeWrite_decoder (w : BusWrite) (p : CellPlace) (s : State)
    (h : ¬ (p.granule = 3 ∧ ∃ c, s.intake.context.get p.ring = some c ∧ c.slot = p.slot ∧ c.next = 3 ∧ c.message = true ∧
      c.broken = false ∧ s.intake.staging.get p.ring ≠ none)) : (intakeWrite p w s).1.decoder = s.decoder := by
  unfold intakeWrite
  dsimp only
  split
  · rw [stageWrite_decoder]
    unfold openCell
    split
    · simp [setTag, setContext, setStaging, setLatch]
    · simp [setTag, setContext, setLatch]
  · unfold payloadGranule
    split
    · simp
    · split
      · simp
      · split
        · rename_i c hc hs hn
          unfold advanceCell
          split
          · rename_i h3
            unfold closeWhole
            dsimp only
            split
            · rename_i b hb
              split
              · rename_i hm
                simp only [Bool.and_eq_true, Bool.not_eq_true'] at hm
                refine absurd ⟨h3, c, hc, by simpa using hs, by omega, hm.1, hm.2, fun hno => ?_⟩ h
                have hno' : (setLatch p.ring p.slot none s).intake.staging.get p.ring = none := hno
                unfold stageWrite at hb
                simp only [hc, hm.1, if_true, hno'] at hb
                cases hr : p.ring <;> rw [hr] at hb <;> simp [setStaging, PerRing.set, PerRing.get] at hb
              · simp only [setContext, setStaging]
                rw [stageWrite_decoder]
                rfl
            · simp only [setContext, setStaging]
              rw [stageWrite_decoder]
              rfl
          · simp only [setContext]
            rw [stageWrite_decoder]
            rfl
        · simp

end Sys2Proof.Machine
end

