-- ==== Sys2Proof/Laws/Layout.lean ====
section
/-! SUPPORT. Records laid out field by field: what a record built of fields shows at each field's place. -/

namespace Sys2Proof.Machine

@[simp] theorem bytesOf_length (len n : Nat) : (bytesOf len n).length = len := by
  induction len with
  | zero => rfl
  | succ k ih => simp [bytesOf, ih]

theorem natOf_foldl (l : List Byte) (n : Nat) : l.foldl (fun n b => n * 256 + b.toNat) n = n * 256 ^ l.length + natOf l := by
  induction l generalizing n with
  | nil => simp [natOf]
  | cons b rest ih =>
    simp only [natOf, List.foldl_cons, List.length_cons] at *
    rw [ih, ih (0 * 256 + b.toNat)]
    ring

theorem natOf_cons (b : Byte) (l : List Byte) : natOf (b :: l) = b.toNat * 256 ^ l.length + natOf l := by
  have h := natOf_foldl l (0 * 256 + b.toNat)
  simpa [natOf] using h

/-- Bytes carry a number modulo their width. -/
theorem natOf_bytesOf (len n : Nat) : natOf (bytesOf len n) = n % 256 ^ len := by
  induction len with
  | zero => simp [bytesOf, natOf, Nat.mod_one]
  | succ k ih =>
    have h : n % 256 ^ (k + 1) = n % 256 ^ k + 256 ^ k * (n / 256 ^ k % 256) := Nat.mod_mul
    rw [bytesOf, natOf_cons, ih, bytesOf_length, BitVec.toNat_ofNat, h, Nat.add_comm, Nat.mul_comm]

/-- A byte as a one-byte field. -/
theorem byte_eq_bytesOf (b : Byte) : [b] = bytesOf 1 b.toNat := by simp [bytesOf]

/-- Zeros as a field. -/
theorem zeros_eq_bytesOf (n : Nat) : List.replicate n (0 : Byte) = bytesOf n 0 := by
  induction n with
  | zero => rfl
  | succ k ih =>
    rw [List.replicate_succ, ih]
    simp [bytesOf]

/-- A record made of fields, each a number of bytes and the number in them. -/
def layout (fields : List (Nat × Nat)) : List Byte := fields.flatMap fun x => bytesOf x.1 x.2

/-- The same fields with their offsets, from this offset on. -/
def placed : Nat → List (Nat × Nat) → List (Nat × Nat × Nat)
  | _, [] => []
  | offset, (len, n) :: rest => (offset, len, n) :: placed (offset + len) rest

/-- A field behind other bytes. -/
theorem field_behind (a b : List Byte) (offset len : Nat) : field (a ++ b) (a.length + offset) len = field b offset len := by
  simp [field]

/-- A field at the front. -/
theorem field_front (len n : Nat) (b : List Byte) : field (bytesOf len n ++ b) 0 len = n % 256 ^ len := by
  simp [field, natOf_bytesOf]

theorem shows_behind (a : List Byte) (fields : List (Nat × Nat)) : Shows (a ++ layout fields) (placed a.length fields) := by
  induction fields generalizing a with
  | nil => intro x hx; cases hx
  | cons f rest ih =>
    intro x hx
    have e : a ++ layout (f :: rest) = a ++ bytesOf f.1 f.2 ++ layout rest := by simp [layout]
    rcases List.mem_cons.1 hx with rfl | hx
    · rw [e, List.append_assoc]
      simpa [field_front] using field_behind a (bytesOf f.1 f.2 ++ layout rest) 0 f.1
    · rw [e]
      exact ih (a ++ bytesOf f.1 f.2) x (by simpa using hx)

/-- A record shows each of its fields at its place. -/
theorem shows_layout (fields : List (Nat × Nat)) : Shows (layout fields) (placed 0 fields) := shows_behind [] fields

/-- A record with bytes after its fields shows them still. -/
theorem shows_before (fields : List (Nat × Nat)) (b : List Byte) : Shows (layout fields ++ b) (placed 0 fields) := by
  have key : ∀ (l : List Byte) (k : Nat), ∀ x ∈ placed k fields, k + (layout fields).length = l.length →
      l.drop k = layout fields → field (l ++ b) x.1 x.2.1 = field l x.1 x.2.1 := by
    induction fields with
    | nil => intro l k x hx; cases hx
    | cons f rest ih =>
      intro l k x hx hl hd
      have hlen : (layout (f :: rest)).length = f.1 + (layout rest).length := by simp [layout]
      rcases List.mem_cons.1 hx with rfl | hx
      · simp only [field]
        rw [List.drop_append_of_le_length (by omega), List.take_append_of_le_length (by rw [hd, hlen]; omega)]
      · refine ih l (k + f.1) x hx (by omega) ?_
        rw [← List.drop_drop, hd]
        simp [layout]
  intro x hx
  exact (key (layout fields) 0 x hx (Nat.zero_add _) rfl).trans (shows_layout fields x hx)

end Sys2Proof.Machine
end

