-- ==== Sys2Proof/Laws/Lookups.lean ====
section
/-! SUPPORT. What the lookups and the counts of check 9 answer, each as a statement about membership: services, showings, events, keys,
live purchases, ratings, and the room for jobs (R85, R86, R92, R107, R135). -/

namespace Sys2Proof.Machine

/-- A search of a list whose entries have distinct keys finds exactly the entry of that key. -/
theorem find_of_nodup {α β : Type} [BEq β] [LawfulBEq β] (f : α → β) (b : β) (l : List α) (h : (l.map f).Nodup) (a : α) :
    l.find? (fun x => f x == b) = some a ↔ a ∈ l ∧ f a = b := by
  induction l with
  | nil => simp
  | cons x rest ih =>
    rw [List.map_cons, List.nodup_cons] at h
    rw [List.find?_cons]
    by_cases hx : f x = b
    · simp only [hx, beq_self_eq_true, Option.some.injEq, List.mem_cons]
      constructor
      · rintro rfl
        exact ⟨.inl rfl, hx⟩
      · rintro ⟨rfl | ha, hb⟩
        · rfl
        · exact absurd (List.mem_map.2 ⟨a, ha, hb.trans hx.symm⟩) h.1
    · have hf : (f x == b) = false := by simpa using hx
      simp only [hf, ih h.2, List.mem_cons]
      constructor
      · rintro ⟨ha, hb⟩
        exact ⟨.inr ha, hb⟩
      · rintro ⟨rfl | ha, hb⟩
        · exact absurd hb hx
        · exact ⟨ha, hb⟩

theorem findEvent_none (s : State) (id : Half) : findEvent s id = none ↔ ∀ e ∈ s.showings.events, e.id ≠ id := by
  simp [findEvent]

theorem findEvent_some (s : State) (id : Half) (h : ShowingLaw s) (e : EventRecord) :
    findEvent s id = some e ↔ e ∈ s.showings.events ∧ e.id = id := find_of_nodup EventRecord.id id _ h.2.1 e

theorem findEvent_id {s : State} {id : Half} {e : EventRecord} (h : findEvent s id = some e) : e.id = id := by
  simpa using List.find?_some h

theorem findService_none (s : State) (v : BitVec 12) :
    findService s v = none ↔ ∀ r ∈ s.showings.services, r.service ≠ v := by simp [findService]

theorem findService_some (s : State) (v : BitVec 12) (h : ServiceLaw s) (r : ServiceRecord) :
    findService s v = some r ↔ r ∈ s.showings.services ∧ r.service = v := find_of_nodup ServiceRecord.service v _ h.2 r

theorem isFreeService_iff (s : State) (v : BitVec 12) :
    isFreeService s v = true ↔ findService s v = none ∨ ∃ r, findService s v = some r ∧ r.cls = .free := by
  cases h : findService s v with
  | none => simp [isFreeService, h]
  | some r => cases hc : r.cls <;> simp [isFreeService, h, hc]

theorem findShowing_some (s : State) (v : BitVec 12) (tag : Half) (h : ShowingLaw s) (e : EventRecord) :
    findShowing s v tag = some e ↔ e ∈ s.showings.events ∧ e.id = tag ∧ e.service = v := by
  have key : findShowing s v tag = some e ↔ findEvent s tag = some e ∧ e.service = v := by
    unfold findShowing
    cases hf : findEvent s tag with
    | none => simp
    | some x =>
      dsimp only
      split
      · rename_i hv
        constructor
        · intro hx
          cases hx
          exact ⟨rfl, hv⟩
        · exact fun hx => hx.1
      · rename_i hv
        constructor
        · intro hx
          cases hx
        · rintro ⟨hx, hs⟩
          cases hx
          exact absurd hs hv
  rw [key, findEvent_some s tag h, and_assoc]

theorem findShowing_none (s : State) (v : BitVec 12) (tag : Half) (h : ShowingLaw s) :
    findShowing s v tag = none ↔ ∀ e ∈ s.showings.events, ¬ (e.id = tag ∧ e.service = v) := by
  constructor
  · intro hn e he hx
    rw [(findShowing_some s v tag h e).2 ⟨he, hx⟩] at hn
    cases hn
  · intro ha
    cases hf : findShowing s v tag with
    | none => rfl
    | some e => exact absurd ((findShowing_some s v tag h e).1 hf).2 (ha e ((findShowing_some s v tag h e).1 hf).1)

theorem lookupKey_none (pool : List KeyEntry) (v : BitVec 12) (epoch : BitVec 4) :
    lookupKey pool v epoch = none ↔ ∀ x ∈ pool, ¬ (x.service = v ∧ x.epoch = epoch) := by
  simp [lookupKey]

theorem lookupKey_some (pool : List KeyEntry) (v : BitVec 12) (epoch : BitVec 4)
    (h : (pool.map fun e => (e.service, e.epoch)).Nodup) (k : Key64) :
    lookupKey pool v epoch = some k ↔ ∃ x ∈ pool, x.service = v ∧ x.epoch = epoch ∧ x.key = k := by
  have hp : (fun e : KeyEntry => e.service == v && e.epoch == epoch) = fun e => (e.service, e.epoch) == (v, epoch) := rfl
  unfold lookupKey
  rw [hp, Option.map_eq_some_iff]
  constructor
  · rintro ⟨x, hx, rfl⟩
    obtain ⟨hm, he⟩ := (find_of_nodup (fun e : KeyEntry => (e.service, e.epoch)) (v, epoch) pool h x).1 hx
    rw [Prod.mk.injEq] at he
    exact ⟨x, hm, he.1, he.2, rfl⟩
  · rintro ⟨x, hm, hv, he, rfl⟩
    exact ⟨x, (find_of_nodup (fun e : KeyEntry => (e.service, e.epoch)) (v, epoch) pool h x).2 ⟨hm, by rw [hv, he]⟩, rfl⟩

theorem livePurchase_iff (s : State) (id : Half) :
    livePurchase s id = true ↔ ∃ p ∈ s.account.purchases, p.event = id ∧ s.time.seconds < p.rentalEnd := by
  simp [livePurchase, Purchase.live]

/-- The four rows of R107. -/
theorem ratingOf_rows (s : State) (v : BitVec 12) (e : Option EventRecord) :
    (findService s v = none → ratingOf s v e = s.settings.unknownRating) ∧
      ∀ r, findService s v = some r →
        (r.cls = .free → ratingOf s v e = r.defaultRating) ∧
        (r.cls = .pay → e = none → ratingOf s v e = r.defaultRating) ∧
        ∀ x, r.cls = .pay → e = some x → ratingOf s v e = x.rating := by
  refine ⟨fun h => by simp [ratingOf, h], fun r h => ⟨fun hc => ?_, fun hc he => ?_, fun x hc he => ?_⟩⟩ <;>
    simp_all [ratingOf]

theorem lacksRoom_iff (s : State) (total : Nat) : lacksRoom s total = true ↔
    8 < s.store.queue.length + (if 0 < total then 1 else 0) + (if Job.stay ∈ s.store.queue then 0 else 1) := by
  simp only [lacksRoom, queuePlaces, Nat.add_assoc]
  exact decide_eq_true_iff

/-- What a request for a MARK job does (R164, R181). -/
theorem requestMark_eq (s : State) : requestMark s = { s with store := { s.store with
    queue := if ((s.store.state = .ready ∨ s.store.state = .busy) ∧ Job.mark ∉ s.store.queue) ∧ s.store.queue.length < 8 then
      s.store.queue ++ [.mark] else s.store.queue
    heldOver := if ((s.store.state = .ready ∨ s.store.state = .busy) ∧ Job.mark ∉ s.store.queue) ∧ 8 ≤ s.store.queue.length ∧
        HeldJob.mark ∉ s.store.heldOver then s.store.heldOver ++ [.mark] else s.store.heldOver } } := by
  by_cases hu : s.store.state = .ready ∨ s.store.state = .busy
  · have h : storeUsable s = true := by simpa [storeUsable] using hu
    by_cases hq : Job.mark ∈ s.store.queue
    · simp [requestMark, h, joinQueue, hq]
    · by_cases hl : s.store.queue.length < 8
      · simp [requestMark, h, joinQueue, hq, hl, queuePlaces, hu, Nat.not_le.2 hl]
      · by_cases hh : HeldJob.mark ∈ s.store.heldOver
        · simp [requestMark, h, joinQueue, hq, hl, queuePlaces, hh]
        · simp [requestMark, h, joinQueue, hq, hl, queuePlaces, hh, hu, Nat.not_lt.1 hl]
  · have h : storeUsable s = false := by simpa [storeUsable] using hu
    simp [requestMark, h, hu]

/-- The table's order: by start, then by event id (R79). -/
theorem EventRecord.before_iff (a b : EventRecord) : a.before b = true ↔
    a.start.count < b.start.count ∨ a.start.count = b.start.count ∧ a.id.toNat < b.id.toNat := by
  simp [EventRecord.before]

/-- An insertion adds its record alone. -/
theorem mem_insertEvent (e : EventRecord) (l : List EventRecord) (x : EventRecord) : x ∈ insertEvent e l ↔ x = e ∨ x ∈ l := by
  induction l with
  | nil => simp [insertEvent]
  | cons y r ih => simp only [insertEvent]; split <;> simp [ih]; tauto

/-- An insertion of a new id keeps the order. -/
theorem insertEvent_ordered (e : EventRecord) (l : List EventRecord) (h : l.Pairwise fun a b => a.before b = true)
    (hn : ∀ x ∈ l, x.id ≠ e.id) :
    (insertEvent e l).Pairwise fun a b => a.before b = true := by
  induction l with
  | nil => simp [insertEvent]
  | cons y r ih =>
    rw [List.pairwise_cons] at h
    simp only [insertEvent]
    split
    · rename_i hb
      rw [List.pairwise_cons, List.pairwise_cons]
      refine ⟨fun x hx => ?_, h⟩
      rcases List.mem_cons.1 hx with rfl | hx
      · exact hb
      · have := h.1 x hx
        rw [EventRecord.before_iff] at *
        omega
    · rename_i hb
      rw [List.pairwise_cons]
      refine ⟨fun x hx => ?_, ih h.2 fun x hx => hn x (List.mem_cons_of_mem _ hx)⟩
      rcases (mem_insertEvent _ _ _).1 hx with rfl | hx
      · have h1 := hn y (List.mem_cons_self ..)
        have h2 : y.id.toNat ≠ x.id.toNat := fun h => h1 (BitVec.eq_of_toNat_eq h)
        rw [EventRecord.before_iff] at *
        omega
      · exact h.1 x hx

/-- An insertion drops no record and repeats none. -/
theorem insertEvent_perm (e : EventRecord) (l : List EventRecord) : (insertEvent e l).Perm (e :: l) := by
  induction l with
  | nil => exact .refl _
  | cons y r ih =>
    simp only [insertEvent]
    split
    · exact .refl _
    · exact (ih.cons y).trans (.swap ..)

end Sys2Proof.Machine
end

