-- ==== Sys2Proof/Laws/Places.lean ====
section
/-! SUPPORT. What is read from an address and from the bytes that arrive: the window and the position in it (R2, R3), the check of a
stored record (R179), the cell header (R20 to R22, R24), the request record (13, section 13.3); and the waiting transactions (log 5). -/

namespace Sys2Proof.Machine

/-! ### Fields -/

theorem natOf_lt (l : List Byte) : natOf l < 256 ^ l.length := by
  induction l with
  | nil => simp [natOf]
  | cons b rest ih =>
    rw [natOf_cons, List.length_cons, Nat.pow_succ]
    have hb := b.isLt
    nlinarith

/-- A field lies below the bound its bytes give. -/
theorem field_lt (record : List Byte) (offset len : Nat) : field record offset len < 256 ^ len := by
  refine Nat.lt_of_lt_of_le (natOf_lt _) (Nat.pow_le_pow_right (by decide) ?_)
  simp

/-- A field of one byte is that byte. -/
theorem field_one (record : List Byte) (offset : Nat) : field record offset 1 = (byteAt record offset).toNat := by
  unfold field byteAt
  induction record generalizing offset with
  | nil => simp [natOf]
  | cons b rest ih =>
    cases offset with
    | zero => simp [natOf]
    | succ n => simpa using ih n

/-- The check sum of a record, word by word (R179). -/
theorem wordSum_eq (b : List Byte) :
    wordSum b = BitVec.ofNat 16 ((List.range (b.length / 2)).map fun k => field b (2 * k) 2).sum := by
  induction b using wordSum.induct with
  | case1 hi lo rest ih =>
    rw [wordSum, ih]
    have hl : (hi :: lo :: rest).length / 2 = rest.length / 2 + 1 := by simp only [List.length_cons]; omega
    rw [hl, List.range_succ_eq_map, List.map_cons, List.map_map, List.sum_cons, BitVec.ofNat_add]
    congr 1
    have hf : field (hi :: lo :: rest) (2 * 0) 2 = hi.toNat * 256 + lo.toNat := by simp [field, natOf]
    rw [hf]
    apply BitVec.eq_of_toNat_eq
    have h1 := hi.isLt
    have h2 := lo.isLt
    rw [BitVec.toNat_append, ← Nat.shiftLeft_add_eq_or_of_lt h2, Nat.shiftLeft_eq, BitVec.toNat_ofNat, Nat.mod_eq_of_lt (by omega)]
  | case2 b h =>
    match b, h with
    | [], _ => rfl
    | [_], _ => simp [wordSum]
    | hi :: lo :: rest, h => exact absurd rfl (h hi lo rest)

/-! ### The window of an address (R2, R3) -/

theorem within_iff (base size a : Nat) : within base size a = true ↔ base ≤ a ∧ a < base + size := by simp [within]

theorem windowFor_run (s : State) (t : WindowTable) (a : Nat) (hm : s.path.mode = .run) (ht : s.path.windows = some t) :
    windowFor s a = placeOf t a := by simp [windowFor, hm, ht]

theorem windowFor_none (s : State) (a : Nat) (h : s.path.mode ≠ .run ∨ s.path.windows = none) : windowFor s a = .other := by
  unfold windowFor
  split
  · simp_all
  · rfl

/-- The granule of a place in a ring, from the offset in the ring (R3). -/
theorem granule_of_offset (r : Ring) (n : Nat) : (CellPlace.mk r (n / 128) (n % 128)).granule = n / 32 % 4 := by
  simp only [CellPlace.granule]
  omega

/-- The word of a place in a ring, from the offset in the ring (R3). -/
theorem word_of_offset (r : Ring) (n : Nat) : (CellPlace.mk r (n / 128) (n % 128)).word = n / 4 % 32 := by
  simp only [CellPlace.word]
  omega

/-! ### The cell header (R20 to R22, R24) -/

theorem headerCheck_eq (b : List Byte) : headerCheck b = BitVec.ofNat 16
    (field b 0 2 + field b 2 2 + field b 4 2 + field b 6 2 + field b 8 2) ^^^ 0xFFFF := by
  simp only [headerCheck, BitVec.ofNat_add]

theorem headerValid_iff (b : List Byte) : headerValid b = true ↔
    field b 0 1 = 0xB7 ∧ field b 9 1 = 1 ∧ field b 8 1 ≤ 116 ∧ (headerCheck b).toNat = field b 10 2 := by
  have hn : ∀ (x : Byte) (n : Nat), n < 256 → ((x == BitVec.ofNat 8 n) = true ↔ x.toNat = n) := by
    intro x n hn
    rw [beq_iff_eq, ← BitVec.toNat_inj, BitVec.toNat_ofNat, Nat.mod_eq_of_lt hn]
  have hc : (headerCheck b == BitVec.ofNat 16 (field b 10 2)) = true ↔ (headerCheck b).toNat = field b 10 2 := by
    rw [beq_iff_eq, ← BitVec.toNat_inj, BitVec.toNat_ofNat, Nat.mod_eq_of_lt (by simpa using field_lt b 10 2)]
  simp only [headerValid, Bool.and_eq_true, decide_eq_true_eq, field_one, hc, and_assoc]
  rw [← hn _ 0xB7 (by decide), ← hn _ 1 (by decide)]
  rfl

/-- The fields of a header at their places (13, section 13.1). -/
theorem headerFields_spec (b : List Byte) : let f := headerFields b
    (f.kind = cellKindOf (field b 1 1 / 16)) ∧ (f.scrambled = true ↔ field b 1 1 % 2 = 1) ∧
    f.epoch.toNat = field b 2 1 / 16 ∧ f.service.toNat = field b 2 2 % 4096 ∧ f.eventTag.toNat = field b 4 2 ∧
    f.salt.toNat = field b 6 2 ∧ f.payloadLength = field b 8 1 := by
  have h := (byteAt b 2).isLt
  have h4 := field_lt b 4 2
  have h6 := field_lt b 6 2
  simp only [headerFields, field_one, serviceField, BitVec.toNat_ofNat, beq_iff_eq, true_and, and_true]
  refine ⟨Nat.mod_eq_of_lt (by omega), ?_, ?_⟩ <;> exact Nat.mod_eq_of_lt (by omega)

theorem coversHeader_iff (p : CellPlace) (w : BusWrite) : coversHeader p w = true ↔
    p.byte = 0 ∧ ∀ n, n < 12 → ∃ l, w.lanes[n]? = some l ∧ l.enabled = true := by
  simp only [coversHeader, Bool.and_eq_true, beq_iff_eq, decide_eq_true_eq, List.all_eq_true, and_assoc]
  refine and_congr_right fun _ => ⟨fun ⟨hl, ha⟩ n hn => ?_, fun h => ⟨?_, fun l hl => ?_⟩⟩
  · have hx : n < w.lanes.length := by omega
    refine ⟨w.lanes[n], List.getElem?_eq_getElem hx, ha _ ?_⟩
    exact List.mem_take_iff_getElem.2 ⟨n, by omega, rfl⟩
  · obtain ⟨l, hl, -⟩ := h 11 (by decide)
    have := (List.getElem?_eq_some_iff.1 hl).1
    omega
  · obtain ⟨n, hn, rfl⟩ := List.mem_take_iff_getElem.1 hl
    obtain ⟨l, hl, he⟩ := h n (by omega)
    rw [List.getElem?_eq_getElem (by omega)] at hl
    cases hl
    exact he

theorem headerOf_length (w : BusWrite) : (headerOf w).length = min 12 w.lanes.length := by simp [headerOf]

theorem headerOf_byte (w : BusWrite) (n : Nat) (l : Lane) (hn : n < 12) (h : w.lanes[n]? = some l) :
    byteAt (headerOf w) n = l.data := by
  simp [byteAt, headerOf, List.getD, hn, h]

theorem tagNumber_ring1 (s : State) (t : WindowTable) (k : Nat) (h : s.path.windows = some t) :
    tagNumber s .ring1 k = t.ring0Slots + k := by simp [tagNumber, h]

/-! ### The request record (13, section 13.3) -/

theorem requestOf_kinds (b : List Byte) :
    (field b 0 1 = 1 → requestOf b = .buy (BitVec.ofNat 16 (field b 8 2))) ∧
    (field b 0 1 = 2 → requestOf b = .unlock { first := field b 8 1, second := field b 9 1, third := field b 10 1
                                               fourth := field b 11 1 } (field b 12 2)) ∧
    (field b 0 1 = 3 → requestOf b = .relock (field b 8 1)) ∧
    (field b 0 1 = 4 → requestOf b = .refresh) ∧
    (field b 0 1 = 0 ∨ 5 ≤ field b 0 1 → requestOf b = .unknown) := by
  simp only [field_one, requestOf]
  refine ⟨fun h => ?_, fun h => ?_, fun h => ?_, fun h => ?_, fun h => ?_⟩ <;> split <;> first | omega | rfl | simp_all

/-! ### The waiting transactions (log 5) -/

/-- A bus row with no message waiting for the Decoder presents its transaction. -/
theorem exec_presents (i : Instr) (x : Transaction) (s : State) (h : i.transaction = some x) (hw : x.wellFormed = true)
    (hm : s.decoder.handOff = none) : exec i s = .next (present x s) := by
  rw [exec_of_transaction i x s h]
  simp [busRow, hw, afterMessage, finishHandOff, hm]

/-- While a transaction is in progress the waiting ones go on waiting. -/
theorem presentWaiting_busy (s : State) (h : s.path.passing ≠ none) : presentWaiting s = s := by
  have key : ∀ (l : List Transaction) (u : State), u.path.passing ≠ none →
      l.foldl (fun s x => present x s) u = { u with path := { u.path with waiting := u.path.waiting ++ l } } := by
    intro l
    induction l with
    | nil => intro u _; simp
    | cons x rest ih =>
      intro u hu
      have hp : present x u = { u with path := { u.path with waiting := u.path.waiting ++ [x] } } := by
        unfold present
        split
        · contradiction
        · rfl
      rw [List.foldl_cons, hp, ih { u with path := { u.path with waiting := u.path.waiting ++ [x] } } hu]
      simp
  unfold presentWaiting
  rw [key s.path.waiting { s with path := { s.path with waiting := [] } } h]
  simp

theorem presentWaiting_none (s : State) (h : s.path.waiting = []) : presentWaiting s = s := by
  unfold presentWaiting
  rw [h, List.foldl_nil, ← h]

/-! ### Expired purchases (R136, R147) -/

theorem removeExpired_eq (s : State) : removeExpired s = { s with
    account := { s.account with purchases := s.account.purchases.filter fun p => decide (s.time.seconds < p.rentalEnd) }
    showings := { s.showings with
      events := s.showings.events.map fun e =>
        if s.account.purchases.any (fun p => p.event == e.id && decide (p.rentalEnd ≤ s.time.seconds))
        then { e with preview := .spent } else e }
    report := (removeExpired s).report } := by
  have hm : ∀ (a b : List Purchase) (u : State), markPurchaseLines a b u = { u with report := (markPurchaseLines a b u).report } := by
    intro a b
    unfold markPurchaseLines
    generalize List.range purchasePlaces = l
    induction l with
    | nil => intro u; rfl
    | cons x rest ih =>
      intro u
      rw [List.foldl_cons, ih]
      split <;> rfl
  have he : ∀ e : EventRecord, ((s.account.purchases.filter fun p => !p.live s.time.seconds).any fun p => p.event == e.id) =
      s.account.purchases.any fun p => p.event == e.id && decide (p.rentalEnd ≤ s.time.seconds) := by
    intro e
    rw [List.any_filter]
    congr 1
    funext p
    simp only [Purchase.live, ← decide_not, Nat.not_lt]
    exact Bool.and_comm _ _
  unfold removeExpired setPurchases
  dsimp only
  rw [hm]
  simp only [he]
  rfl

/-- The lines that the removals mark (R146). -/
theorem lineMark_removeExpired (s : State) (h : Sparse.wf none s.report = true) (k : Nat) :
    let kept := s.account.purchases.filter fun p => decide (s.time.seconds < p.rentalEnd)
    lineMark (removeExpired s) k =
      if 5 ≤ k ∧ k < 21 ∧ s.account.purchases[k - 5]? ≠ kept[k - 5]? then some ((lineMark s k).getD false) else lineMark s k := by
  dsimp only
  unfold removeExpired
  rw [lineMark_setPurchases _ _ (by exact h)]
  have hi : (∃ n, n < 16 ∧ s.account.purchases[n]? ≠ (s.account.purchases.filter fun p => p.live s.time.seconds)[n]? ∧ 5 + n = k) ↔
      (5 ≤ k ∧ k < 21 ∧ s.account.purchases[k - 5]? ≠ (s.account.purchases.filter fun p => decide (s.time.seconds < p.rentalEnd))[k - 5]?) := by
    constructor
    · rintro ⟨n, hn, hx, rfl⟩
      rw [Nat.add_sub_cancel_left]
      exact ⟨by omega, by omega, hx⟩
    · rintro ⟨h1, h2, hx⟩
      exact ⟨k - 5, by omega, hx, by omega⟩
  exact if_congr hi rfl rfl

end Sys2Proof.Machine
end

