-- ==== Sys2Proof/Laws/Previews.lean ====
section
/-! SUPPORT. What a preview end, a class change and the second timer's handling of one event come to (R141, R143 to R145). -/

namespace Sys2Proof.Machine

/-- An append marks its record's line (R160, R165). -/
theorem marks_appendCharge (r : ChargeRecord) (s : State) :
    Marking (fun k => k = 21 + r.sequence % 32) noLine s (appendCharge r s) := by
  have h : Marking (fun k => k = 21 + r.sequence % 32) noLine s (markLine (journalLine r.sequence) false { s with
    journal := { s.journal with records := s.journal.records ++ [r], next := s.journal.next + 1 } }) :=
    (marks_markClear (journalLine r.sequence) _).after rfl
  unfold appendCharge requestJournal
  split
  · exact h.before rfl
  · exact h

@[simp] theorem appendCharge_state (r : ChargeRecord) (s : State) : (appendCharge r s).store.state = s.store.state := by
  unfold appendCharge requestJournal
  split <;> rfl

/-- The lines a successful commit marks: line 1, the record's, those of the places that change, and line 0 where its job's start changes
the store state (R128, R146, R160, R180). -/
theorem marks_commitEffects (e : EventRecord) (t : Tariff) (rating total : Nat) (k : Option Nat) (s : State) :
    Marking (fun n => n = 1 ∨ 0 < total ∧ n = 21 + s.journal.next % 32 ∨
        n = 0 ∧ (commitEffects e t rating total k s).store.state ≠ s.store.state ∨
        5 ≤ n ∧ n < 21 ∧ s.account.purchases[n - 5]? ≠ (s.account.purchases ++ [purchaseRecord s e t rating total])[n - 5]?)
      noLine s (commitEffects e t rating total k s) := by
  unfold commitEffects
  dsimp only
  have h1 : Marking (fun n => n = 1) noLine s (markLine 1 false (setStay (s.account.stay.charged total) s)) :=
    (marks_markClear 1 _).after rfl
  have h2 : Marking (fun n => n = 1 ∨ 5 ≤ n ∧ n < 21 ∧
      s.account.purchases[n - 5]? ≠ (s.account.purchases ++ [purchaseRecord s e t rating total])[n - 5]?) noLine s
      (updateEvent e.id (fun e => { e with preview := .paid }) (setPurchases (s.account.purchases ++
        [purchaseRecord s e t rating total]) (markLine 1 false (setStay (s.account.stay.charged total) s)))) :=
    ((h1.plain (marks_setPurchases _ _)).before rfl).congr (fun n => or_congr Iff.rfl (place_iff _ _ n)) fun _ => Iff.rfl
  have h3 : ∀ x y : State, x.report = y.report → x.store.state = s.store.state → ∀ l : Nat → Prop, Marking l noLine s y →
      Marking (fun n => l n ∨ n = 0 ∧ (startJob (addPendingBuy k (purchaseRecord s e t rating total).sequence
        (raiseGeneration x))).store.state ≠ s.store.state) noLine s (startJob (addPendingBuy k
        (purchaseRecord s e t rating total).sequence (raiseGeneration x))) := by
    intro x y hr hs l h
    have hp : (addPendingBuy k (purchaseRecord s e t rating total).sequence (raiseGeneration x)).report = y.report := by
      cases k <;> simp [addPendingBuy, raiseGeneration_frame, hr]
    have hq : (addPendingBuy k (purchaseRecord s e t rating total).sequence (raiseGeneration x)).store.state = s.store.state := by
      cases k <;> simp [addPendingBuy, raiseGeneration_frame, hs]
    refine (h.plain ((marks_startJob _).after hp)).congr (fun n => ?_) fun _ => Iff.rfl
    rw [hq]
  split
  · rename_i ht
    have h4 : ∀ x : State, Marking (fun n => n = 21 + s.journal.next % 32) noLine x (appendCharge (chargeRecord s e t rating total) x) :=
      fun x => marks_appendCharge _ x
    refine (h3 _ _ rfl (by simp) _ (h2.plain (h4 _))).congr (fun n => ?_) fun _ => Iff.rfl
    simp only [ht, true_and]
    tauto
  · rename_i ht
    refine (h3 _ _ rfl (by simp) _ h2).congr (fun n => ?_) fun _ => Iff.rfl
    simp only [ht, false_and, false_or]
    tauto

theorem commit_wf (id : Half) (k : Option Nat) (s : State) (hw : Sparse.wf none s.report = true) :
    Sparse.wf none (commit id k s).1.report = true := by
  rcases commit_cases id k s with ⟨r, h⟩ | ⟨r, h⟩ | ⟨e, t, -, h⟩ <;> rw [h]
  · exact hw
  · exact (marks_removeExpired s).wf hw
  · exact (marks_commitEffects _ _ _ _ _ _).wf ((marks_removeExpired s).wf hw)

/-- A hold: the event SPENT, the held record replaced, line 1 marked with attention. -/
theorem holdEvent_eq (id : Half) (cause : HeldCause) (s : State) : holdEvent id cause s = { s with
    showings := { s.showings with events := s.showings.events.map fun x => if x.id = id then { x with preview := .spent } else x }
    account := { s.account with held := some { event := id, cause := cause } }
    report := (holdEvent id cause s).report } := rfl

theorem marks_holdEvent (id : Half) (cause : HeldCause) (s : State) : Marking noLine (fun n => n = 1) s (holdEvent id cause s) :=
  (marks_markAttention 1 _).after rfl

/-- A preview end of a listed event of a defined class (R143, R144). -/
theorem previewEnd_ends (id : Half) (s : State) (e : EventRecord) (c : Tariff) (he : findEvent s id = some e)
    (hc : tariffOf s e.tariffClass = some c) : EndsPreview id c.mode s (previewEnd id s) := by
  have hx : ((findEvent s id).bind fun e => tariffOf s e.tariffClass) = some c := by simp [he, hc]
  unfold previewEnd
  rw [hx]
  refine ⟨fun hm => ?_, fun hm => ⟨fun h => ?_, fun r h => ?_⟩⟩ <;> simp only [hm]
  · exact ⟨holdEvent_eq _ _ _, fun ht => (marks_holdEvent _ _ _).marks ht.2.1⟩
  · rcases hp : commit id none s with ⟨a, b⟩
    rw [hp] at h
    cases h
    rfl
  · rcases hp : commit id none s with ⟨a, b⟩
    rw [hp] at h
    cases h
    refine ⟨holdEvent_eq _ _ _, fun ht => (marks_holdEvent _ _ _).marks ?_⟩
    have hk := commit_wf id none s ht.2.1
    rwa [hp] at hk

/-- A change that keeps ids finds the changed event. -/
theorem findEvent_map (s : State) (id : Half) (e : EventRecord) (f : EventRecord → EventRecord)
    (hf : ∀ x : EventRecord, (f x).id = x.id) (h : findEvent s id = some e) : findEvent (updateEvent id f s) id = some (f e) := by
  have hid := findEvent_id h
  unfold findEvent at *
  simp only [updateEvent_events, List.find?_map]
  have : ((fun e : EventRecord => e.id == id) ∘ fun e => if e.id = id then f e else e) = fun e => e.id == id := by
    funext x
    by_cases hx : x.id = id <;> simp [hx, hf]
  rw [this, h]
  simp [hid]

theorem classChange_none (s : State) (id : Half) (h : ((findEvent s id).bind fun e => tariffOf s e.tariffClass) = none) :
    classChange id s = s := by
  unfold classChange
  cases he : findEvent s id with
  | none => rfl
  | some e =>
    have : tariffOf s e.tariffClass = none := by simpa [he] using h
    simp [this]

/-- A class change of a listed event under a defined class (R145). -/
theorem classChange_spec (s : State) (id : Half) (e : EventRecord) (c : Tariff) (he : findEvent s id = some e)
    (hc : tariffOf s e.tariffClass = some c) :
    let held := updateEvent id (fun x => { x with viewed := min e.viewed c.allowance }) s
    (¬ (e.preview = .preview ∧ c.allowance ≤ e.viewed) → classChange id s = held) ∧
      (e.preview = .preview → c.allowance ≤ e.viewed → EndsPreview id c.mode held (classChange id s)) := by
  dsimp only
  unfold classChange
  simp only [he, hc]
  refine ⟨fun h => if_neg fun hx => h ⟨hx.1, by omega⟩, fun hp ha => ?_⟩
  rw [if_pos ⟨hp, by omega⟩]
  exact previewEnd_ends id _ _ c (findEvent_map s id e _ (fun _ => rfl) he) hc

theorem countsSecond_iff (s : State) (e : EventRecord) : countsSecond s e = true ↔
    s.account.freeView = .off ∧ e.preview = .preview ∧ (∃ c, tariffOf s e.tariffClass = some c) ∧
      s.settings.presenceThreshold ≤ e.cells.toNat := by
  simp [countsSecond, Option.isSome_iff_exists, and_assoc]

theorem meterEvent_none (s : State) (id : Half) (h : findEvent s id = none) : meterEvent id s = s := by simp [meterEvent, h]

/-- The second timer's handling of one listed event (R141). -/
theorem meterEvent_spec (s : State) (id : Half) (e : EventRecord) (he : findEvent s id = some e) :
    (countsSecond s e = false → meterEvent id s = updateEvent id (fun x => { x with cells := 0 }) s) ∧
    (countsSecond s e = true → (tariffOf s e.tariffClass).map Tariff.allowance ≠ some (e.viewed + 1) →
      meterEvent id s = updateEvent id (fun x => { x with viewed := x.viewed + 1, cells := 0 }) s) ∧
    ∀ c, countsSecond s e = true → tariffOf s e.tariffClass = some c → c.allowance = e.viewed + 1 →
      ∃ t, EndsPreview id c.mode (updateEvent id (fun x => { x with viewed := x.viewed + 1 }) s) t ∧
        meterEvent id s = updateEvent id (fun x => { x with cells := 0 }) t := by
  have hid := findEvent_id he
  unfold meterEvent
  simp only [he]
  refine ⟨fun h => by simp [h], fun h ha => ?_, fun c h hc ha => ?_⟩
  · simp only [h, if_true, addViewed, if_neg ha, hid]
    simp only [updateEvent, setEvents, List.map_map]
    congr 2
    refine List.map_congr_left fun x _ => ?_
    by_cases hx : x.id = id <;> simp [hx]
  · refine ⟨previewEnd id (updateEvent id (fun x => { x with viewed := x.viewed + 1 }) s), ?_, ?_⟩
    · exact previewEnd_ends id _ _ c (findEvent_map s id e _ (fun _ => rfl) he) hc
    · simp [h, addViewed, hc, ha, hid]

end Sys2Proof.Machine
end

