-- ==== Sys2Proof/Laws/Step.lean ====
section
/-! SUPPORT. What a step can do, said once: a property that each of the machine's own moves keeps is kept by every step. -/

namespace Sys2Proof.Machine

/-- The moves a step is made of. A property with this structure is kept by every step (`step_keeps`). -/
structure Kept (P : State → Prop) : Prop where
  queue : ∀ s q, P s → P (s.withPending q)
  power : ∀ a b s, P s → P (powerOn a b s)
  resetUnits : ∀ s, P s → P (setResetUnits s)
  resetPath : ∀ s, P s → P (setResetPath s)
  image : ∀ s, s.path.mode = .load → P s → P (loadImage s)
  journal : ∀ s, s.path.mode = .load → P s → P (loadJournal s)
  stay : ∀ i s, s.path.mode = .load → P s → P (loadStay i s)
  handOff : ∀ h s, s.decoder.handOff = some h → P s → P (decodeHandOff h s)
  accept : ∀ t s, P s → P (acceptTransaction t s)
  grant : ∀ s, P s → P (grantPassing s)
  issue : ∀ s, s.path.mode = .run → P s → P (issueHead s)
  spend : ∀ s, P s → P (spendToken s)
  waiting : ∀ s l, P s → P { s with path := { s.path with waiting := l } }
  passing : ∀ w k s, P s → P (completePassing w k s)
  inserted : ∀ i s, s.path.port = .inserted i → P s → P (completeInserted i s)
  tokens : ∀ s n, P s → P { s with path := { s.path with tokens := n } }
  second : ∀ s, P s → P (advanceSecond s)
  due : ∀ s t, t.seconds = s.time.seconds → t.clock = s.time.clock → P s → P { s with time := t }
  meter : ∀ s, P s → P (meterSecond s)
  account : ∀ s, P s → P (accountMinute s)
  keys : ∀ s, P s → P (ageKeys s)
  showings : ∀ s, P s → P (retireEvents s)
  lock : ∀ s, P s → P (lockMinute s)
  page : ∀ f s, s.store.inFlight = some f → P s → P (completePage f s)
  fault : ∀ f s, s.store.inFlight = some f → P s → P (enterFault f s)

variable {P : State → Prop}

theorem Kept.finish (k : Kept P) (s : State) (h : P s) : P (finishHandOff s) := by
  unfold finishHandOff
  split
  · exact k.handOff _ _ ‹_› h
  · exact h

/-- An event of the part other than the Decoder's own. -/
theorem Kept.after (k : Kept P) {act : State → State} {s t : State} (ha : ∀ x, P x → P (act x)) (h : P s)
    (ht : afterMessage act s = .next t) : P t := by
  cases ht
  exact ha _ (k.finish s h)

theorem Kept.message (k : Kept P) (p : Finding → Bool) (s : State) (h : P s) : P (messageRow p s) := by
  unfold messageRow
  split
  · split
    · exact k.handOff _ _ ‹_› h
    · exact h
  · exact h

theorem Kept.present (k : Kept P) (t : Transaction) (s : State) (h : P s) : P (present t s) := by
  unfold Machine.present
  split
  · unfold takeTransaction grantAtOnce
    have h1 := k.accept t _ h
    split
    · exact k.grant _ h1
    · exact h1
  · exact k.waiting _ _ h

theorem Kept.presentWaiting (k : Kept P) (s : State) (h : P s) : P (presentWaiting s) := by
  unfold Machine.presentWaiting
  have h1 : ∀ (l : List Transaction) (x : State), P x → P (l.foldl (fun s t => Machine.present t s) x) := by
    intro l
    induction l with
    | nil => exact fun x hx => hx
    | cons t rest ih => exact fun x hx => ih _ (k.present t x hx)
  exact h1 _ _ (k.waiting _ _ h)

theorem Kept.grantPort (k : Kept P) (s : State) (h : P s) : P (grantPort s) := by
  unfold Machine.grantPort
  split
  · unfold arbitrate
    have hw : headWaiting s = true → s.path.mode = .run := by
      intro hh
      simp only [headWaiting, Bool.and_eq_true, beq_iff_eq] at hh
      exact hh.1
    split
    · exact h
    · exact k.grant _ h
    · exact k.issue _ (hw ‹_›) h
    · split
      · exact k.issue _ (by simpa using hw ‹_›) (k.spend _ h)
      · exact k.grant _ h
  · exact h

theorem Kept.busRow (k : Kept P) (t : Transaction) (s u : State) (h : P s) (hu : busRow t s = .next u) : P u := by
  unfold Machine.busRow at hu
  split at hu
  · exact k.after (k.present t) h hu
  · cases hu

theorem Kept.expiry (k : Kept P) (due : Timebase → Nat) (taken : Timebase → Timebase) (act : State → State)
    (ht : ∀ t, (taken t).seconds = t.seconds ∧ (taken t).clock = t.clock) (ha : ∀ x, P x → P (act x)) (s : State) (h : P s) :
    P (takeExpiry due taken act s) := by
  unfold takeExpiry
  split
  · exact ha _ (k.due _ _ (ht _).1 (ht _).2 h)
  · exact h

theorem atPhase_keeps (p : LoadPhase) (act : State → State) (ha : ∀ x, x.path.mode = .load → P x → P (act x))
    (s : State) (h : P s) : P (atPhase p act s) := by
  unfold atPhase
  split
  · rename_i hm
    exact ha _ hm.1 h
  · exact h

theorem onPageWrite_keeps (act : InFlight → State → State)
    (ha : ∀ f x, x.store.inFlight = some f → P x → P (act f x)) (s : State) (h : P s) : P (onPageWrite act s) := by
  unfold onPageWrite
  split
  · exact ha _ _ ‹_› h
  · exact h

theorem Kept.lastPage (k : Kept P) (f : InFlight) (s : State) (hf : s.store.inFlight = some f) (h : P s) :
    P (completeLastPage f s) := by
  unfold completeLastPage
  split
  · rename_i hl
    have h1 := k.page f s hf h
    unfold completePage at h1
    rw [hl] at h1
    exact h1
  · exact h

theorem Kept.stayHeld (k : Kept P) (s : State) (hm : s.path.mode = .load) (h : P s) : P (loadStayHeld s) := by
  unfold loadStayHeld
  split
  · exact k.stay _ _ hm h
  · exact h

theorem Kept.insertedDone (k : Kept P) (s : State) (h : P s) : P (insertedComplete s) := by
  unfold insertedComplete
  split
  · exact k.inserted _ _ ‹_› h
  · exact h

theorem Kept.passingDone (k : Kept P) (s : State) (h : P s) : P (passingComplete s) := by
  unfold passingComplete
  split
  · exact k.presentWaiting _ (k.passing _ _ _ h)
  · exact h

theorem Kept.renew (k : Kept P) (s : State) (h : P s) : P (renewTokens s) := by
  unfold renewTokens
  split
  · exact k.tokens _ _ h
  · exact h

/-- A command keeps what its moves keep. -/
theorem exec_keeps (k : Kept P) (i : Instr) (s t : State) (h : P s) (ht : exec i s = .next t) : P t := by
  cases i with
  | powerOn a b => exact k.after (k.power a b) h ht
  | setReset => exact k.after (fun x hx => k.resetPath _ (k.resetUnits x hx)) h ht
  | imageLoad => exact k.after (atPhase_keeps _ _ k.image) h ht
  | journalLoad => exact k.after (atPhase_keeps _ _ k.journal) h ht
  | stayLoad => exact k.after (atPhase_keeps _ _ k.stayHeld) h ht
  | busPassThrough x => exact k.busRow _ _ _ h ht
  | ringWrite x => exact k.busRow _ _ _ h ht
  | ringRead x => exact k.busRow _ _ _ h ht
  | reportRead x => exact k.busRow _ _ _ h ht
  | reportWriteDropped x => exact k.busRow _ _ _ h ht
  | otherWindowAccess x => exact k.busRow _ _ _ h ht
  | requestWriteDropped x => exact k.busRow _ _ _ h ht
  | requestWriteNotTaken x => exact k.busRow _ _ _ h ht
  | buy x => exact k.busRow _ _ _ h ht
  | unlock x => exact k.busRow _ _ _ h ht
  | relock x => exact k.busRow _ _ _ h ht
  | refresh x => exact k.busRow _ _ _ h ht
  | unknownRequestKind x => exact k.busRow _ _ _ h ht
  | messageRejected => cases ht; exact k.message _ _ h
  | key => cases ht; exact k.message _ _ h
  | serviceAdd => cases ht; exact k.message _ _ h
  | serviceDelete => cases ht; exact k.message _ _ h
  | listing => cases ht; exact k.message _ _ h
  | tariffDefine => cases ht; exact k.message _ _ h
  | tariffDelete => cases ht; exact k.message _ _ h
  | pricing => cases ht; exact k.message _ _ h
  | time => cases ht; exact k.message _ _ h
  | freeviewOn => cases ht; exact k.message _ _ h
  | freeviewOff => cases ht; exact k.message _ _ h
  | checkin => cases ht; exact k.message _ _ h
  | checkout => cases ht; exact k.message _ _ h
  | credit => cases ht; exact k.message _ _ h
  | ack => cases ht; exact k.message _ _ h
  | ceiling => cases ht; exact k.message _ _ h
  | maint => cases ht; exact k.message _ _ h
  | portGrant => exact k.after (fun x hx => k.presentWaiting _ (k.grantPort x hx)) h ht
  | insertedWriteComplete => exact k.after k.insertedDone h ht
  | passingWriteComplete => exact k.after k.passingDone h ht
  | refreshPeriodStart => exact k.after k.renew h ht
  | secondsAdvance => exact k.after k.second h ht
  | accountSecondTimer => exact k.after (k.expiry _ _ _ (by exact fun _ => ⟨rfl, rfl⟩) k.meter) h ht
  | accountMinuteTimer => exact k.after (k.expiry _ _ _ (by exact fun _ => ⟨rfl, rfl⟩) k.account) h ht
  | keyMinuteTimer => exact k.after (k.expiry _ _ _ (by exact fun _ => ⟨rfl, rfl⟩) k.keys) h ht
  | showingMinuteTimer => exact k.after (k.expiry _ _ _ (by exact fun _ => ⟨rfl, rfl⟩) k.showings) h ht
  | lockMinuteTimer => exact k.after (k.expiry _ _ _ (by exact fun _ => ⟨rfl, rfl⟩) k.lock) h ht
  | pageWriteComplete => exact k.after (onPageWrite_keeps _ k.page) h ht
  | storeJobComplete => exact k.after (onPageWrite_keeps _ k.lastPage) h ht
  | storeFault => exact k.after (onPageWrite_keeps _ k.fault) h ht

/-- A step keeps what its moves keep. -/
theorem step_keeps (k : Kept P) (s t : State) (h : P s) (ht : step s = .next t) : P t := by
  unfold step at ht
  split at ht
  · cases ht; exact h
  · exact exec_keeps k _ _ _ (k.queue _ _ h) ht

end Sys2Proof.Machine
end

