-- ==== Sys2Proof/Tests/Slice0.lean ====
section
/-! SUPPORT. The model's own tests: ill-formed terms the check refuses, the manual's worked examples, and a state and operands that
meet the hypotheses of each statement. -/

namespace Sys2Proof.Tests

open Machine

set_option Elab.async false

/-! ### Small states -/

/-- The state an outcome carries. -/
def nextOf : Host.Outcome State Fault Refusal → Option State
  | .next s => some s
  | _ => none

/-- Two rings of 64 slots, four request slots, and the report area behind them. -/
def windows : WindowTable where
  ring0Base := 0
  ring0Slots := 64
  ring1Base := 8192
  ring1Slots := 64
  requestBase := 16384
  requestSlots := 4
  reportBase := 16512

/-- A set in RUN, as a load without a stay leaves it, its dirty set empty. -/
def run : State :=
  { State.reset with
    path := { Path.reset with
      mode := .run, windows := some windows, tokens := 2, tokensPerPeriod := 2, refreshPeriod := 20, periodRunning := true }
    settings := { Settings.reset with
      roomId := 214, groupId := 3, siteKey := 0x0123456789ABCDEF, roomKey := 0xFEDCBA9876543210, presenceThreshold := 6
      historyDepth := 2, unknownRating := 9, discreetLevel := 10, maxUnlock := 120, lockoutBase := 5, rolloverMinute := 360 }
    store := { Store.poweredOn true false [] with phase := .idle } }

/-- A write of these bytes with all enables on. -/
def bytesAt (a : Nat) (l : List Byte) : BusWrite :=
  { address := BitVec.ofNat 26 a, lanes := l.map fun b => { data := b, enabled := true } }

def readAt (a words : Nat) : BusRead := { address := BitVec.ofNat 26 a, words := words }

/-- A request written whole into a slot: its kind, and its arguments from byte 8 on. -/
def request (slot : Nat) (kind : Byte) (args : List Byte) : BusWrite :=
  bytesAt (16384 + 32 * slot) ([kind, 0, 0, 0, 0, 0, 0, 0] ++ args ++ List.replicate (24 - args.length) 0)

/-- A message as the head-end forms it: header, masked body, tag. -/
def carried (key : Key64) (salt : Half) (header body : List Byte) : List Byte :=
  header ++ (List.range body.length).map (fun i => byteAt body i ^^^ keystreamByte key salt (8 + i))
    ++ bytesOf 2 (messageTag key salt (header ++ body)).toNat

def headerOfMessage (a : Byte) (target : Nat) (kind : Byte) (number : Nat) (len : Nat) : List Byte :=
  [a] ++ bytesOf 2 target ++ [kind] ++ bytesOf 2 number ++ bytesOf 1 len ++ [0]

/-- `s` with a message handed off: to SITE (1), GROUP 3 (2) or ROOM 214 (3). -/
def handing (a : Byte) (kind : Byte) (number : Nat) (body : List Byte) (s : State) : State :=
  let key := if a = 3 then s.settings.roomKey else s.settings.siteKey
  let target := if a = 3 then 214 else 3
  { s with decoder := { s.decoder with handOff := some {
      ring := .ring0, slot := 40, salt := 0x1A2B, bytes := carried key 0x1A2B (headerOfMessage a target kind number body.length) body } } }

/-- A witness that a message is handed off, from an evaluation. -/
theorem handed_of {s : State} {f : Finding} (h : (s.decoder.handOff.map (findingOf s)) = some f) : Handed s f := by
  cases e : s.decoder.handOff with
  | none => rw [e] at h; cases h
  | some x => exact ⟨x, e, by rw [e] at h; exact Option.some.inj h⟩

def pin1234 : Pin := { first := 1, second := 2, third := 3, fourth := 4 }

def event1111 : EventRecord where
  id := 1111
  service := 18
  start := { day := 812, minute := 1200 }
  finish := { day := 812, minute := 1320 }
  tariffClass := 2
  rating := 7
  title := 0x11223344
  preview := .untouched
  viewed := 0
  cells := 0

/-- The class of the example of section 8.7. -/
def tariff1299 : Tariff :=
  { base := 1299, mode := .confirm, allowance := 120, hours := 24, stepCode := 2, usesBand := true }

/-- The pricing of the example of section 8.6. -/
def pricing75 : Pricing where
  tax := 75
  band0 := { start := 360, percent := 100 }
  band1 := { start := 1080, percent := 125 }
  band2 := { start := 1320, percent := 110 }
  band3 := { start := 300, percent := 80 }

/-- A guest's room with event 1111 listed under a PAY service and priced. -/
def guest : State :=
  { run with
    time := { run.time with seconds := 5000, clock := some { day := 812, minute := 1100, second := 0 } }
    keys := { pool := [{ service := 18, epoch := 3, key := 0x0123456789ABCDEF, arrival := 4000 }] }
    showings := { services := [{ service := 18, cls := .pay, defaultRating := 3 }, { service := 40, cls := .free, defaultRating := 1 }],
                  events := [event1111] }
    lock := { run.lock with roomCeiling := 9, defaultCeiling := 8, guestCeiling := 8, pin := some pin1234 }
    account := { run.account with
      stay := { state := .occupied, number := 7301, granted := 20000, remaining := 20000, spent := 0, nightCeiling := 6000
                nightSpent := 0, nightIndex := some 812 }
      tariffs := [(2, some tariff1299)], pricing := some pricing75, generation := 58 } }

/-! ### Ill-formed operands, and well-formed ones at the edge (R1) -/

theorem test_read_of_no_word_refused : (Instr.ringRead (readAt 0 0)).wellFormed = false := by decide
theorem test_read_of_nine_words_refused : (Instr.ringRead (readAt 0 9)).wellFormed = false := by decide
theorem test_unaligned_read_refused : (Instr.reportRead (readAt 2 1)).wellFormed = false := by decide
theorem test_read_across_granules_refused : (Instr.busPassThrough (.read (readAt 28 2))).wellFormed = false := by decide
theorem test_write_of_part_word_refused : (Instr.ringWrite (bytesAt 0 [1, 2, 3])).wellFormed = false := by decide
theorem test_write_across_granules_refused :
    (Instr.buy (bytesAt 4 (List.replicate 32 0))).wellFormed = false := by decide
theorem test_whole_granule_accepted : (Instr.unlock (bytesAt 32 (List.replicate 32 0))).wellFormed = true := by decide

/-! ### The manual's worked examples -/

/-- The windows of the example of section 1.2. -/
def windowsOfExample : WindowTable where
  ring0Base := 0x100000
  ring0Slots := 2048
  ring1Base := 0x140000
  ring1Slots := 2048
  requestBase := 0x180000
  requestSlots := 8
  reportBase := 0x180100

theorem test_windows_are_accepted : windowsOfExample.ok = true ∧ windows.ok = true := by decide

theorem test_placing_addresses :
    placeOf windowsOfExample 0x100384 = .ring { ring := .ring0, slot := 7, byte := 4 }
      ∧ placeOf windowsOfExample 0x140FD0 = .ring { ring := .ring1, slot := 31, byte := 80 }
      ∧ placeOf windowsOfExample 0x180068 = .request 3 2 ∧ placeOf windowsOfExample 0x180100 = .report 0 0
      ∧ placeOf windowsOfExample 0x180420 = .report 25 0 ∧ placeOf windowsOfExample 0x200000 = .other := by decide

/-- The header of the example of section 2.1. -/
def header18 : List Byte := [0xB7, 0x11, 0x30, 0x12, 0x04, 0x57, 0x00, 0x05, 0x74, 0x01, 0xA0, 0x7F]

theorem test_header_check :
    headerCheck header18 = 0xA07F ∧ headerValid header18 = true ∧ headerValid (header18.set 11 0x7E) = false := by decide

theorem test_header_fields : headerFields header18 =
    { kind := .media, scrambled := true, service := 18, epoch := 3, eventTag := 1111, salt := 5, payloadLength := 116 } := by
  decide

theorem test_mix_round : mixRound 0 { a := 0x0126, b := 0x4567, c := 0x89AB, d := 0xC8EF } =
    { a := 0x468D, b := 0xD884, c := 0x55FC, d := 0xCC51 } := by decide

theorem test_keystream_words :
    keystreamWord 0x0123456789ABCDEF 5 0 = 0xB8546732 ∧ keystreamWord 0x0123456789ABCDEF 5 1 = 0x18B0665F := by
  decide +kernel

theorem test_rewritten_header :
    headerWord (.opened .free) 0 [0xB7, 0x11, 0x30, 0x12] = [0xB7, 0x10, 0x30, 0x12]
      ∧ headerWord (.opened .free) 2 [0x74, 0x01, 0xA0, 0x7F] = [0x74, 0x01, 0xA0, 0x80]
      ∧ headerWord (.voided .hold) 0 [0xB7, 0x11, 0x30, 0x12] = [0xB7, 0xF1, 0x30, 0x12]
      ∧ headerWord (.voided .hold) 2 [0x74, 0x01, 0xA0, 0x7F] = [0x74, 0x01, 0x9F, 0x9F]
      ∧ xorWord 0x0123456789ABCDEF 5 0 [0xF0, 0x54, 0x00, 0x32] = [0x48, 0x00, 0x67, 0x00] := by
  decide +kernel

theorem test_number_window :
    numberFresh (some 65530) 65531 = true ∧ numberFresh (some 65531) 65531 = false ∧ numberFresh (some 65531) 3 = true
      ∧ numberFresh (some 3) 65534 = false ∧ numberFresh (some 3) 32770 = true ∧ numberFresh (some 32770) 2 = false := by decide

theorem test_ratings :
    ratingOf guest 18 (findShowing guest 18 1111) = 7 ∧ ratingOf guest 18 (findShowing guest 18 1200) = 3
      ∧ ratingOf guest 40 (findShowing guest 40 1111) = 1 ∧ ratingOf guest 22 (findShowing guest 22 1111) = 9 := by decide

theorem test_bands :
    [120, 300, 359, 360, 1100, 1400].map (fun m => (pricing75.bandAt m).percent) = [110, 80, 80, 100, 125, 110] := by decide

theorem test_charges :
    chargeTotal 1299 125 5 75 = 1747 ∧ chargeTotal 1299 100 5 75 = 1398 ∧ chargeTotal 1299 80 5 75 = 1118
      ∧ chargeTotal 1299 125 25 75 = 1747 ∧ chargeTotal 65535 250 100 250 = 204750 := by decide

/-- The four stages can pass the bound the manual names for step 100 (log 21). -/
theorem test_charge_above_the_named_bound : chargeTotal 65535 250 25 250 = 204813 := by decide

theorem test_total_at_the_commit : totalOf guest tariff1299 = 1747 := by decide

theorem test_credit_example :
    let y := ((guest.account.stay.charged 1747).credited (-25000) (some 1000))
    (y.granted, y.remaining, y.spent, y.nightCeiling, y.nightSpent) = (1747, 0, 1747, 1747, 1747) := by decide

theorem test_nights :
    nightOf 360 { day := 812, minute := 1320, second := 0 } = 812 ∧ nightOf 360 { day := 813, minute := 0, second := 0 } = 812
      ∧ nightOf 360 { day := 813, minute := 360, second := 0 } = 813 := by decide

theorem test_retention :
    event1111.due (813 * 1440 + 60) 60 = true ∧ { event1111 with finish := { day := 812, minute := 1380 } }.due 1170780 120 = false
      ∧ { event1111 with finish := { day := 812, minute := 1380 } }.due 1170781 120 = true := by decide

theorem test_lines_of_the_journal : journalLine 201 = 30 ∧ journalLine 211 = 40 ∧ journalPage 245 = 18 + 53 := by decide

theorem test_sealed_page_passes :
    passesCheck (sealPage (bytesOf 30 213)) = true ∧ passesCheck (List.replicate 32 0) = false
      ∧ passesCheck (List.replicate 32 0xFF) = false := by decide

theorem test_generation_order : generationReached 60 59 = true ∧ generationReached 58 59 = false
    ∧ generationReached 0 0xFFFFFFFF = true := by decide

/-! ### Witnesses: the hypotheses of the statements, met together -/

theorem tables_run : TablesLaw run := by unfold TablesLaw; decide +kernel
theorem tables_guest : TablesLaw guest := by unfold TablesLaw; decide +kernel
theorem memory_run : MemoryLaw run := by unfold MemoryLaw; decide +kernel
theorem free_run : PathFree run := by unfold PathFree UpstreamFree; decide +kernel
theorem free_guest : PathFree guest := by unfold PathFree UpstreamFree; decide +kernel
theorem showings_guest : ShowingLaw guest := by unfold ShowingLaw; decide +kernel

theorem keys_guest : KeyLaw guest :=
  ⟨by decide, by decide, fun v => Nat.le_trans (List.length_filter_le _ _) (by decide), by decide, by decide⟩

/-- The queue (StepTakesFrontCommand): a command in front, and none. -/
theorem test_witness_step :
    ((run.withPending [.refreshPeriodStart, .secondsAdvance]).pending = [.refreshPeriodStart, .secondsAdvance]) ∧
      run.pending = [] ∧
      (nextOf (step (run.withPending [.secondsAdvance]))).map (fun t => (t.time.seconds, t.pending)) = some (1, []) := by
  decide +kernel

/-- An inserted write of line 3 holds the port. -/
def inserting (a : Bool) (s : State) : State :=
  setPort (.inserted { source := .line 3, write := bytesAt 16608 (List.replicate 32 7), attention := a }) s

/-- A passing write into memory at 0, placed in a request slot or not, holds the port. -/
def writing (slot : Option Nat) (s : State) : State := setPort .passing (setPassing (some (.write (bytesAt 0 [1, 2, 3, 4]) slot)) s)

/-- BusRowsJudgeTheTransaction: an ill-formed row, two rows of one transaction, a busy upstream. -/
theorem test_witness_bus_rows :
    (Instr.ringWrite (bytesAt 0 [1])).wellFormed = false ∧
      (Instr.buy (bytesAt 0 [1, 2, 3, 4])).transaction = (Instr.ringWrite (bytesAt 0 [1, 2, 3, 4])).transaction ∧
      (Transaction.write (bytesAt 0 [1, 2, 3, 4])).wellFormed = true ∧ (writing none run).path.passing ≠ none := by
  decide +kernel

/-- MessageFinishedFirst: a message handed off, the upstream port free. -/
theorem test_witness_finished_first :
    (handing 3 12 1 [4] run).decoder.handOff ≠ none ∧ (handing 3 12 1 [4] run).path.passing = none ∧
      (nextOf (exec .setReset (handing 3 12 1 [4] run))).map (fun t => (t.lock.roomCeiling, t.decoder.lastNumber))
        = some (4, some 1) := by
  decide +kernel

/-- MessageFinishedFirst: an advance of the seconds, and a grant of the port, with a CEILING of 4 handed off. -/
theorem test_message_before_other_rows :
    ([Instr.secondsAdvance, .portGrant].map fun i => (nextOf (exec i (handing 3 12 1 [4] run))).map fun t =>
        (t.lock.roomCeiling, t.decoder.handOff)) = [some (4, none), some (4, none)] := by
  decide +kernel

/-- NoOccasionNoChange: a message that is neither KEY nor MAINT, and no rejection. -/
theorem test_witness_other_message :
    Handed (handing 3 12 1 [4] run) (.accepted .room 1 (.ceiling 4)) ∧ (Message.ceiling 4).row ≠ .key ∧
      (Message.ceiling 4).row ≠ .maint :=
  ⟨handed_of (by decide +kernel), by decide, by decide⟩

/-- A STAY job writes its first page. -/
def storing : State :=
  { run with store := { run.store with
      state := .busy
      inFlight := some { report := .stay 5, current := purchasePage run 1 0, later := [stayHeaderPage run 1] } } }

/-- A job writes its last page. -/
def lastPage (r : JobReport) (queue : List Job) (s : State) : State :=
  { s with store := { s.store with
      state := .busy, queue := queue, inFlight := some { report := r, current := markPage 7, later := [] } } }

/-- PowerOnClearsState: nothing in progress, and a write of each kind in progress. -/
theorem test_witness_power_on :
    run.store.inFlight = none ∧ portWrite run = none ∧ storing.store.inFlight ≠ none ∧
      portWrite (inserting true run) ≠ none ∧ portWrite (writing none run) ≠ none ∧
      (nextOf (exec (.powerOn true false) run)).map (fun t => t.path.mode) = some .load ∧
      (nextOf (exec (.powerOn true true) run)).map (fun t => (t.path.mode, t.store.state)) = some (.pass, .absent) := by
  decide +kernel

/-- SetResetRestartsTheSet: RUN with each holder of the port, and a mode that is not RUN. -/
theorem test_witness_set_reset :
    (inserting true run).decoder.handOff = none ∧ (inserting true run).path.mode = .run ∧ State.reset.path.mode ≠ .run ∧
      (nextOf (exec .setReset (inserting true run))).map (fun t => (t.path.port, t.path.attn)) =
        some ((inserting false run).path.port, false) := by
  decide +kernel

/-! ### The load -/

/-- Bytes 0 to 63 of an image over the windows of `windows`. -/
def imageHead : List Byte :=
  bytesOf 2 0x47A1 ++ bytesOf 2 214 ++ bytesOf 2 3 ++ bytesOf 8 1 ++ bytesOf 8 2 ++ bytesOf 4 0 ++ bytesOf 2 64 ++ bytesOf 4 8192
    ++ bytesOf 2 64 ++ bytesOf 4 16384 ++ [4, 0] ++ bytesOf 4 16512 ++ [6, 2] ++ bytesOf 2 60 ++ bytesOf 2 120 ++ [9, 10]
    ++ bytesOf 4 0x44495343 ++ bytesOf 2 120 ++ [5, 0] ++ bytesOf 2 360 ++ [20, 2]

/-- An image whose words sum to A55Ah. -/
def image : List Byte :=
  let body := imageHead ++ List.replicate 190 0
  body ++ bytesOf 2 ((0xA55A : Half) - wordSum body).toNat

/-- Cells that hold these bytes from an address on. -/
def cellsAt (a : Nat) (l : List Byte) : List Host.Cell :=
  ((List.range l.length).zip l).filterMap fun x => if x.2 = Config.storeUnlisted then none else some (a + x.1, x.2)

/-- The stay pages of `guest`, page 9 first. -/
def stayPages : List Host.Cell :=
  cellsAt 288 ((stayHeaderPage guest 7).bytes ++ ((List.range 8).map fun k => (purchasePage guest 7 k).bytes).flatten)

/-- A set in LOAD at a step of the load. -/
def loading (phase : LoadPhase) (cells : List Host.Cell) : State :=
  { State.reset with store := { State.reset.store with phase := phase, eeprom := cells, image := some (imageOf image) } }

/-- ImageLoadHoldsOrPasses: an accepted image, and an erased one. -/
theorem test_witness_image :
    imageOk (imageBytes (cellsAt 0 image)) = true ∧ imageOk (imageBytes []) = false ∧
      State.reset.path.mode = .load ∧ State.reset.store.phase = .image ∧
      (nextOf (exec .imageLoad State.reset)).map (fun t => t.path.mode) = some .pass := by decide +kernel

/-- An image with no ring 1, and one whose request ring lies inside ring 0. -/
theorem test_image_windows :
    { windows with ring1Slots := 0 }.ok = true ∧ { windows with requestBase := 64 }.ok = false ∧
      { windows with ring0Slots := 63 }.ok = false ∧ { windows with ring1Base := 8193 }.ok = false ∧
      { windows with requestSlots := 17 }.ok = false ∧ { windows with reportBase := 67108864 - 1664 }.ok = false := by decide

/-- ImageLoadHoldsOrPasses: some fields of the image, its first and its last among them. -/
theorem test_image_fields :
    let i := imageOf image
    (i.roomId, i.groupId, i.siteKey, i.roomKey) = (214, 3, 1, 2) ∧ i.windows = windows ∧
      (i.shiftHorizon, i.retention, i.rolloverMinute, i.refreshPeriod, i.tokensPerPeriod) = (60, 120, 360, 20, 2) := by decide +kernel

/-- JournalLoadRebuilds and StayLoadEntersRun: each step of the load, without and with a valid stay. -/
theorem test_witness_load :
    (loading .journal []).path.mode = .load ∧ (loading .journal []).store.phase = .journal ∧
      (loading .stay []).store.phase = .stay ∧ (loading .stay []).store.image = some (imageOf image) ∧
      stayValid [] = false ∧ stayValid stayPages = true := by decide +kernel

theorem test_stay_restored :
    (restoreStay (loading .stay stayPages)).account.stay = guest.account.stay ∧
      (restoreStay (loading .stay stayPages)).lock = guest.lock := by decide +kernel

/-- Two charge records stored after the mark 0 (journal slots 1 and 2). -/
def chargeOne (n : Nat) : ChargeRecord :=
  { sequence := n, stay := 7301, event := 1111, tariffClass := 2, title := 5, amount := 1747, base := 1299, percent := 125
    tax := 75, clock := some { day := 812, minute := 1100 }, stored := true }

theorem test_journal_load :
    let m := writePage (journalSlotPage (chargeOne 2)) (writePage (journalSlotPage (chargeOne 1)) [])
    (rebuildJournal m).records = [chargeOne 1, chargeOne 2] ∧ (rebuildJournal m).next = 3 ∧ (rebuildJournal m).mark = 0 := by
  decide +kernel

/-- JournalLoadRebuilds: an amount at its greatest and above it, another number in the slot, an erased slot, and the greatest mark. -/
theorem test_witness_seek :
    let at' := fun r : ChargeRecord => writePage (journalSlotPage r) []
    (seekRecord (at' { chargeOne 1 with amount := 204750 }) 1).isSome = true ∧
      (seekRecord (at' { chargeOne 1 with amount := 204751 }) 1).isSome = false ∧
      (seekRecord (at' (chargeOne 1)) 65).isSome = false ∧ (seekRecord [] 1).isSome = false ∧
      markOf (markPage 4294967294).bytes = 4294967294 ∧ markOf (markPage 4294967295).bytes = 0 := by decide +kernel

/-- NoOccasionNoChange: each row's want of an occasion. -/
theorem test_witness_no_occasion :
    run.path.mode ≠ .load ∧ run.decoder.handOff = none ∧ run.time.secondDue = 0 ∧ run.time.accountMinuteDue = 0 ∧
      run.time.keyMinuteDue = 0 ∧ run.time.showingMinuteDue = 0 ∧ run.time.lockMinuteDue = 0 ∧ run.path.port = .free ∧
      run.store.inFlight = none ∧ (storing.store.inFlight.map fun f => f.later.length) = some 1 ∧ run.store.phase = .idle := by
  decide +kernel

/-! ### The bus -/

/-- A state whose report line `n` stands in the dirty set, with an attention mark or not. -/
def dirty (n : Nat) (a : Bool) (s : State) : State := markLine n a s

/-- PlainAccessPasses: each window, a port that is taken, and a mode that is not RUN. -/
theorem test_witness_plain_access :
    windowFor run 0x200000 = .other ∧ windowFor run 16384 = .request 0 0 ∧ windowFor run 16511 = .request 3 7 ∧
      windowFor run 16512 = .report 0 0 ∧ windowFor run 18207 = .report 52 7 ∧ windowFor run 18208 = .other ∧
      windowFor State.reset 0 = .other ∧ (readAt 16512 8).wellFormed = true ∧ (bytesAt 0x200000 [1, 2, 3, 4]).wellFormed = true ∧
      headGoesFirst (dirty 3 false run) = true ∧ (dirty 3 false run).path.passing = none ∧
      (nextOf (exec (.otherWindowAccess (.read (readAt 0x200000 1))) run)).map (fun t => t.path.returned) =
        some [{ address := 0x200000, data := [0, 0, 0, 0] }] := by decide +kernel

/-- A request slot whose mark is yes. -/
def pendingSlot (k : Nat) (s : State) : State := setSlotPending k true s

/-- DroppedWritesAreCounted: the report area, a pending slot, and a counter at its end. -/
theorem test_witness_dropped :
    (bytesAt 16512 [1, 2, 3, 4]).wellFormed = true ∧ windowFor run 16512 = .report 0 0 ∧
      windowFor (pendingSlot 1 run) 16420 = .request 1 1 ∧ slotPending (pendingSlot 1 run) 1 = true ∧
      run.path.dropped ≠ 65535 ∧ { run with path := { run.path with dropped := 65535 } }.path.dropped = 65535 ∧
      (nextOf (exec (.reportWriteDropped (bytesAt 16512 [1, 2, 3, 4])) run)).map (fun t => (t.path.dropped, lineMark t 0)) =
        some (1, some false) := by decide +kernel

/-- RequestWritesAreAnswered: not taken (kind 0; not whole), unknown kinds 5 and 255, REFRESH. -/
theorem test_witness_requests :
    (request 0 0 []).wellFormed = true ∧ windowFor run (request 3 0 []).address.toNat = .request 3 0 ∧
      slotPending run 3 = false ∧ isTaken (request 0 0 []) = false ∧ isTaken (bytesAt 16384 [1, 0, 0, 0]) = false ∧
      (∀ l ∈ (request 0 5 []).lanes, l.enabled = true) ∧ byteAt (recordOf (request 0 5 [])) 0 = 5 ∧
      byteAt (recordOf (request 0 255 [])) 0 = 255 ∧ byteAt (recordOf (request 3 4 [])) 0 = 4 ∧
      (request 3 4 []).lanes.length = 32 := by decide +kernel

theorem test_unknown_kind :
    (nextOf (exec (.unknownRequestKind (request 0 5 [])) run)).map (fun t => t.path.passing) =
      some (some (.write (rewriteResult (answerRefused .badKind) (request 0 5 [])) (some 0))) := by decide +kernel

/-- RelockLowersTheCeiling: a level below, at and above the guest ceiling 8. -/
theorem test_witness_relock :
    (request 1 3 [3]).wellFormed = true ∧ windowFor guest (request 1 3 [3]).address.toNat = .request 1 0 ∧
      slotPending guest 1 = false ∧ isTaken (request 1 3 [3]) = true ∧ byteAt (recordOf (request 1 3 [3])) 0 = 3 ∧
      (nextOf (exec (.relock (request 1 3 [3])) guest)).map (fun t => (t.lock.guestCeiling, t.account.generation)) = some (3, 59) ∧
      (nextOf (exec (.relock (request 1 3 [8])) guest)).map (fun t => (t.lock.guestCeiling, t.account.generation)) = some (8, 58) := by
  decide +kernel

/-- An UNLOCK of 30 minutes with a PIN, from slot 2. -/
def unlockWrite (digits : List Byte) : BusWrite := request 2 2 (digits ++ [0, 30])

def locked (n : Nat) (out : Option Period) (s : State) : State := { s with lock := { s.lock with wrongAttempts := n, lockout := out } }

/-- UnlockOutcomes: no PIN, locked out, the PIN, a wrong PIN for the first, second and third time. -/
theorem test_witness_unlock :
    requestOf (recordOf (unlockWrite [1, 2, 3, 4])) = .unlock pin1234 30 ∧ isTaken (unlockWrite [1, 2, 3, 4]) = true ∧
      windowFor guest (unlockWrite [1, 2, 3, 4]).address.toNat = .request 2 0 ∧ slotPending guest 2 = false ∧
      run.account.stay.state = .vacant ∧ guest.lock.pin = some pin1234 ∧ guest.lock.lockout = none ∧
      ([0, 1, 2].map fun n => (nextOf (exec (.unlock (unlockWrite [9, 9, 9, 9])) (locked n none guest))).map fun t =>
        (t.lock.wrongAttempts, t.lock.lockout)) =
        [some (1, none), some (2, none), some (0, some { finish := 5300, minutes := 5 })] ∧
      (nextOf (exec (.unlock (unlockWrite [1, 2, 3, 4])) (locked 2 none guest))).map (fun t => (t.lock.wrongAttempts, t.lock.unlock)) =
        some (0, some { finish := 6800, minutes := 30 }) := by decide +kernel

/-- A BUY of event 1111 from slot 3. -/
def buyWrite : BusWrite := request 3 1 [0x04, 0x57]

/-- A purchase of an event that ends at a seconds count. -/
def purchaseOf (id : Half) (rentalEnd : Nat) : Purchase :=
  { event := id, service := 18, rating := 7, title := 0, amount := 0, rentalEnd := rentalEnd, sequence := none }

/-- `n` purchases that end at a seconds count. -/
def buying (n : Nat) (rentalEnd : Nat) (s : State) : State :=
  { s with account := { s.account with purchases := (List.range n).map fun i => purchaseOf (BitVec.ofNat 16 (i + 1)) rentalEnd } }

def withStay (f : Stay → Stay) (s : State) : State := setStay (f s.account.stay) s

/-- One guest for each reason of R135, in the order of its checks. -/
def refusals : List (Reason × State) :=
  [(.noStay, withStay (fun y => { y with state := .vacant }) guest),
    (.noEvent, setEvents [] guest),
    (.noTariff, { guest with account := { guest.account with tariffs := [] } }),
    (.locked, { guest with lock := { guest.lock with guestCeiling := 6 } }),
    (.already, { guest with account := { guest.account with purchases := [purchaseOf 1111 5001] } }),
    (.storeFault, { guest with store := { guest.store with state := .fault } }),
    (.purchasesFull, buying 16 5001 guest),
    (.journalFull, { guest with journal := { guest.journal with records := List.replicate 32 (chargeOne 1) } }),
    (.storeBusy, { guest with store := { guest.store with state := .busy, queue := List.replicate 7 .mark } }),
    (.credit, withStay (fun y => { y with remaining := 1746 }) guest),
    (.ceiling, withStay (fun y => { y with nightSpent := 4254 }) guest)]

/-- BuyIsRefusedInOrder: each reason is the answer of a guest that meets its clause. -/
theorem test_witness_buy_refused :
    requestOf (recordOf buyWrite) = .buy 1111 ∧ isTaken buyWrite = true ∧ buyWrite.wellFormed = true ∧
      windowFor guest buyWrite.address.toNat = .request 3 0 ∧
      refusals.all (fun x => headGoesFirst x.2 == false && !slotPending x.2 3 && (answerRequest 3 (.buy 1111) x.2).2 == answerRefused x.1) = true := by
  decide +kernel

/-- BuyCommits: a total above 0 under a night ceiling, sixteen expired purchases among them; and a total of 0. -/
theorem test_witness_buy_commits :
    findEvent guest 1111 = some event1111 ∧ tariffOf guest 2 = some tariff1299 ∧ livePurchase guest 1111 = false ∧
      guest.store.state = .ready ∧ lacksRoom guest 1747 = false ∧ totalOf guest tariff1299 = 1747 ∧
      totalOf guest { tariff1299 with base := 0 } = 0 ∧ 1747 ≤ guest.account.stay.remaining ∧
      (nextOf (exec (.buy buyWrite) (buying 16 5000 guest))).map (fun t => (t.account.stay.remaining, t.account.purchases.length)) =
        some (18253, 1) ∧
      (nextOf (exec (.buy buyWrite) guest)).map (fun t => (t.journal.next, t.store.state, t.store.queue, t.account.pendingBuys)) =
        some (2, .busy, [.stay], [{ slot := 3, sequence := some 1, needed := 59, journalMark := false, stayMark := false }]) := by
  decide +kernel

/-- A guest with a job in flight and a STAY job waiting. -/
def busyGuest : State := { guest with store := { storing.store with queue := [.stay] } }

/-- A guest whose class 2 is free of charge. -/
def freeGuest : State := { guest with account := { guest.account with tariffs := [(2, some { tariff1299 with base := 0 })] } }

/-- The sequence numbers of the JOURNAL jobs in a queue. -/
def journalJobs (l : List Job) : List (Option Nat) :=
  l.map fun
    | .journal r => some r.sequence
    | _ => none

/-- BuyCommits: a STAY job that waits is not queued twice, a job in flight keeps the queue, and a total of 0 queues no JOURNAL job. -/
theorem test_witness_commit_jobs :
    busyGuest.store.inFlight ≠ none ∧ lacksRoom busyGuest 1747 = false ∧
      (nextOf (exec (.buy buyWrite) busyGuest)).map (fun t => (t.store.inFlight == busyGuest.store.inFlight, journalJobs t.store.queue)) =
        some (true, [none, some 1]) ∧
      (nextOf (exec (.buy buyWrite) freeGuest)).map (fun t => (t.journal.next, t.store.queue, t.store.pageNumber)) = some (1, [], 1) ∧
      (nextOf (exec (.buy buyWrite) freeGuest)).map (fun t => (t.account.pendingBuys.map PendingBuy.journalMark, lineMark t 1,
        lineMark t 5)) = some ([true], some false, some false) := by decide +kernel

/-! ### Cells -/

/-- A valid header from its first ten bytes. -/
def sealHeader (l : List Byte) : List Byte := l ++ bytesOf 2 (headerCheck l).toNat

def messageHeader : List Byte := sealHeader [0xB7, 0x20, 0, 0, 0, 0, 0x1A, 0x2B, 116, 1]

/-- Granule `g` of slot 2 of ring 0. -/
def granule (g : Nat) (l : List Byte) : BusWrite := bytesAt (256 + 32 * g) l

def placeOfGranule (g : Nat) : CellPlace := { ring := .ring0, slot := 2, byte := 32 * g }

/-- Ring 0's context open on a slot, with a staged message if the cell is a whole message so far. -/
def opened (slot next : Nat) (message broken : Bool) (s : State) : State :=
  { s with intake := { s.intake with
      context := { ring0 := some { slot := slot, next := next, message := message, broken := broken }, ring1 := none }
      staging := { ring0 := if message && !broken then some { salt := 0x1A2B, bytes := List.replicate 116 0 } else none
                   ring1 := none } } }

/-- RingWriteIsForwarded, GranuleZeroRecordsTheTag: valid and invalid headers, contexts whole and broken. -/
theorem test_witness_granule_zero :
    (granule 0 (messageHeader ++ List.replicate 20 9)).wellFormed = true ∧ windowFor run 256 = .ring (placeOfGranule 0) ∧
      windowFor run 255 = .ring { ring := .ring0, slot := 1, byte := 127 } ∧ headerValid messageHeader = true ∧
      (headerFields messageHeader).kind = .message ∧ coversHeader (placeOfGranule 0) (granule 0 messageHeader) = true ∧
      coversHeader (placeOfGranule 0) (granule 0 [1, 2, 3, 4]) = false ∧
      (nextOf (exec (.ringWrite (granule 0 (messageHeader ++ List.replicate 20 9))) (opened 1 2 false false run))).map
          (fun t => (t.intake.context.get .ring0, t.intake.abandoned, t.path.passing)) =
        some (some { slot := 2, next := 1, message := true, broken := false }, 1,
          some (.write (granule 0 (messageHeader ++ List.replicate 20 0)) none)) ∧
      (nextOf (exec (.ringWrite (granule 0 [1, 2, 3, 4])) (opened 1 2 false true run))).map
          (fun t => (t.intake.headerErrors, t.intake.abandoned)) = some (1, 0) := by decide +kernel

/-- PayloadGranulesFollowTheCell: no open cell, another slot's, in order, out of order. -/
theorem test_witness_payload :
    (granule 3 (List.replicate 32 9)).wellFormed = true ∧ windowFor run 352 = .ring (placeOfGranule 3) ∧
      ([run, opened 1 3 true false run, opened 1 3 true true run, opened 2 3 false false run, opened 2 1 true false run,
          opened 2 1 true true run].map fun s => (nextOf (exec (.ringWrite (granule 3 (List.replicate 32 9))) s)).map fun t =>
        (t.intake.abandoned, t.intake.context.get .ring0)) =
        [some (1, none), some (2, none), some (1, none), some (0, none), some (1, none), some (0, none)] := by decide +kernel

/-- WholeMessageIsHandedOff: the last granule of a message. -/
theorem test_witness_handed_off :
    (opened 2 3 true false run).intake.context.get .ring0 = some { slot := 2, next := 3, message := true, broken := false } ∧
      (opened 2 3 true false run).intake.staging.get .ring0 = some { salt := 0x1A2B, bytes := List.replicate 116 0 } ∧
      (nextOf (exec (.ringWrite (granule 3 (List.replicate 32 9))) (opened 2 3 true false run))).bind (fun t => t.decoder.handOff) =
        some { ring := .ring0, slot := 2, salt := 0x1A2B, bytes := List.replicate 84 0 ++ List.replicate 32 9 } := by
  decide +kernel

/-- RingWriteIsForwarded: a MEDIA cell's payload, a message's out-of-order granule and a granule of no open cell pass as written; a
message's in-order granule passes as zeros. -/
theorem test_witness_forwarded :
    let w := granule 2 (List.replicate 32 9)
    ([opened 2 2 false false run, opened 2 1 true false run, run, opened 2 2 true false run].map fun s =>
        (nextOf (exec (.ringWrite w) s)).map fun t => t.path.passing) =
      [some (some (.write w none)), some (some (.write w none)), some (some (.write w none)),
        some (some (.write (granule 2 (List.replicate 32 0)) none))] := by decide +kernel

/-- A write that hands a message off holds the port only after the Decoder has finished with the message. -/
theorem test_message_before_its_write :
    let last := { handing 3 12 1 [4] run with decoder := run.decoder }
    let bytes := carried run.settings.roomKey 0x1A2B (headerOfMessage 3 214 12 1 1) [4]
    let whole := setStaging .ring0 (some { salt := 0x1A2B, bytes := bytes ++ List.replicate (116 - bytes.length) 0 })
      (opened 2 3 true false last)
    (nextOf (step (whole.withPending [.ringWrite (granule 3 (List.replicate 32 0))]))).map (fun t =>
        (t.path.port, t.path.passing.isSome, t.lock.roomCeiling)) = some (.free, true, 0) ∧
      (nextOf (step (whole.withPending [.ringWrite (granule 3 (List.replicate 32 0)), .portGrant])) |>.bind fun t =>
        (nextOf (step t)).map fun u => (u.lock.roomCeiling, u.decoder.handOff)) = some (4, none) := by decide +kernel

/-! ### Presentation -/

def media18 : TagFields :=
  { kind := .media, scrambled := true, service := 18, epoch := 3, eventTag := 1111, salt := 5, payloadLength := 116 }

/-- `s` with a tag on slot 2 of ring 0, and the header and the first payload word of the example in memory. -/
def tagged (f : TagFields) (v : Option Verdict) (s : State) : State :=
  { setTag .ring0 2 { fields := some f, latch := v } s with
    memory := (((List.range 16).zip (header18 ++ [0xF0, 0x54, 0x00, 0x32])).filter fun x => x.2 != 0).map fun x => (256 + x.1, x.2) }

/-- HeaderReadEvaluates: a read at word 0 over a latch, and one past it with none. -/
theorem test_witness_header_read :
    (readAt 256 8).wellFormed = true ∧ (readAt 288 8).wellFormed = true ∧
      (readTag (tagged media18 (some (.voided .hold)) guest) .ring0 2).latch = some (.voided .hold) ∧
      (readTag (tagged media18 none guest) .ring0 2).latch = none ∧
      (nextOf (exec (.ringRead (readAt 256 4)) (tagged media18 (some (.voided .hold)) guest))).map (fun t =>
          ((readTag t .ring0 2).latch, t.path.returned.map Returned.data)) =
        some (some (.opened .preview), [[0xB7, 0x10, 0x30, 0x12, 0x04, 0x57, 0x00, 0x05, 0x74, 0x01, 0xA0, 0x80,
          0x48, 0x00, 0x67, 0x00]]) := by decide +kernel

/-- HeaderReadEvaluates: an evaluation past word 0, RAW, and NOKEY with its count, its summary and their lines. -/
theorem test_witness_evaluations :
    (nextOf (exec (.ringRead (readAt 268 1)) (tagged media18 none guest))).map (fun t =>
        ((readTag t .ring0 2).latch, t.path.returned.map Returned.data)) = some (some (.opened .preview), [[0x48, 0x00, 0x67, 0x00]]) ∧
      (nextOf (exec (.ringRead (readAt 256 1)) (tagged { media18 with kind := .guide } none guest))).map (fun t =>
        ((readTag t .ring0 2).latch, t.presentation.summary.ring0)) = some (some .raw, none) ∧
      (nextOf (exec (.ringRead (readAt 256 1)) (tagged { media18 with epoch := 4 } none guest))).map (fun t =>
        (t.presentation.noKey, t.presentation.summary.ring0.map Summary.verdict, lineMark t 0, lineMark t 3)) =
        some (1, some (.voided .noKey), some false, some false) := by decide +kernel

/-- A burst of two words, the first of which begins the preview: both words under the one verdict, one note. -/
theorem test_words_of_a_burst :
    (nextOf (exec (.ringRead (readAt 256 8)) (tagged media18 none guest))).map (fun t => t.showings.events.map fun e =>
      (e.preview, e.cells)) = some [(.preview, 1)] := by decide +kernel

/-- A write and two reads that wait behind it: the words of both reads are kept, the oldest first (R1). -/
theorem test_every_read_is_kept :
    let w := bytesAt 0x200000 [1, 2, 3, 4]
    let s := run.withPending [.otherWindowAccess (.write w), .otherWindowAccess (.read (readAt 0x200000 1)),
      .otherWindowAccess (.read (readAt 0x200004 1)), .passingWriteComplete]
    ((nextOf (step s)).bind fun a => (nextOf (step a)).bind fun b => (nextOf (step b)).bind fun c =>
        (nextOf (step c)).map fun t => (t.path.returned.map Returned.data, t.path.waiting)) =
      some ([[1, 2, 3, 4], [0, 0, 0, 0]], []) := by decide +kernel

def listed (f : EventRecord → EventRecord) (s : State) : State := setEvents (s.showings.events.map f) s

def priced (t : Option Tariff) (s : State) : State := setTariff 2 t s

/-- VerdictSteps: a guest and a cell for each clause, in the order of the clauses, with the verdict it gives. -/
def verdicts : List (Verdict × TagFields × State) :=
  [(.raw, { media18 with kind := .guide }, guest),
    (.voided .lock, media18, { guest with lock := { guest.lock with guestCeiling := 6 } }),
    (.clear, { media18 with scrambled := false }, { guest with lock := { guest.lock with guestCeiling := 7 } }),
    (.voided .noKey, { media18 with epoch := 4 }, guest),
    (.opened .free, { media18 with service := 40 },
      { guest with keys := { pool := [{ service := 40, epoch := 3, key := 1, arrival := 4000 }] } }),
    (.opened .paid, media18, { guest with account := { guest.account with purchases := [purchaseOf 1111 5001] } }),
    (.opened .freeView, media18, { guest with account := { guest.account with freeView := .on none } }),
    (.voided .hold, media18, withStay (fun y => { y with state := .vacant }) guest),
    (.voided .hold, { media18 with eventTag := 1200 }, guest),
    (.voided .hold, media18, priced none guest),
    (.opened .preview, media18, listed (fun e => { e with preview := .preview, viewed := 119 }) guest),
    (.voided .hold, media18, listed (fun e => { e with preview := .spent }) guest),
    (.voided .hold, media18, listed (fun e => { e with preview := .paid }) guest),
    (.opened .preview, media18, guest),
    (.voided .hold, media18, priced (some { tariff1299 with allowance := 0 }) guest),
    (.opened .paid, media18, priced (some { tariff1299 with allowance := 0, mode := .auto }) guest)]

theorem test_witness_verdicts :
    verdicts.all (fun x => (verdictOf { fields := some x.2.1, latch := none } x.2.2).2 == x.1) = true := by decide +kernel

/-- VerdictSteps: with an allowance of 0, under CONFIRM, and under AUTO with the commit refused for credit. -/
theorem test_witness_previews_end_at_once :
    let auto := priced (some { tariff1299 with allowance := 0, mode := .auto })
      (withStay (fun y => { y with remaining := 1746 }) guest)
    (commit 1111 none auto).2 = some .credit ∧
      ([priced (some { tariff1299 with allowance := 0 }) guest, auto].map fun s =>
        let t := (verdictOf { fields := some media18, latch := none } s).1
        (t.account.held, t.showings.events.map EventRecord.preview, lineMark t 1)) =
        [(some { event := 1111, cause := .confirm }, [.spent], some true),
          (some { event := 1111, cause := .refused .credit }, [.spent], some true)] := by decide +kernel

/-- LatchedPayloadReads: each latch, the key held and not held, a payload that ends and one that goes on. -/
theorem test_witness_latched :
    windowFor guest 268 = .ring { ring := .ring0, slot := 2, byte := 12 } ∧ (readAt 268 1).wellFormed = true ∧
      lookupKey guest.keys.pool 18 3 = some 0x0123456789ABCDEF ∧ lookupKey guest.keys.pool 18 4 = none ∧
      ([(media18, Verdict.clear), (media18, .raw), (media18, .voided .hold), (media18, .opened .paid),
          ({ media18 with payloadLength := 0 }, .opened .paid), ({ media18 with epoch := 4 }, .opened .paid)].map fun x =>
        (nextOf (exec (.ringRead (readAt 268 1)) (tagged x.1 (some x.2) guest))).map fun t =>
          (t.path.returned.map Returned.data, t.presentation.noKey)) =
        [some ([[0xF0, 0x54, 0x00, 0x32]], 0), some ([[0xF0, 0x54, 0x00, 0x32]], 0), some ([[0, 0, 0, 0]], 0),
          some ([[0x48, 0x00, 0x67, 0x00]], 0), some ([[0xF0, 0x54, 0x00, 0x32]], 0), some ([[0, 0, 0, 0]], 1)] := by
  decide +kernel

/-- LatchedPayloadReads, the key lost: header words 1 and 2 alone keep the latch, and one payload word more turns it. -/
theorem test_witness_key_lost :
    ([2, 3].map fun n => (nextOf (exec (.ringRead (readAt 260 n))
        (tagged { media18 with epoch := 4 } (some (.opened .paid)) guest))).map fun t =>
          (t.path.returned.map Returned.data, (readTag t .ring0 2).latch)) =
      [some ([[0x04, 0x57, 0x00, 0x05, 0x74, 0x01, 0xA0, 0x80]], some (.opened .paid)),
        some ([[0x04, 0x57, 0x00, 0x05, 0x74, 0x01, 0xA0, 0x80, 0, 0, 0, 0]], some (.voided .noKey))] := by decide +kernel

theorem tables_tagged : TablesLaw (tagged media18 none guest) ∧ PathFree (tagged media18 none guest) := by
  unfold TablesLaw PathFree UpstreamFree
  decide +kernel

/-! ### Messages -/

/-- `s` with these payload bytes handed off. -/
def handingBytes (l : List Byte) (s : State) : State :=
  { s with decoder := { s.decoder with handOff := some { ring := .ring0, slot := 40, salt := 0x1A2B, bytes := l } } }

/-- RejectedMessagesAreCounted: another room's message, a damaged one, an unknown address type, a stale one. -/
theorem test_witness_rejected :
    Handed (handingBytes (carried 1 0x1A2B (headerOfMessage 3 215 12 1 1) [4]) run) .passedOver ∧
      Handed (handingBytes (headerOfMessage 1 0 12 1 1 ++ [4, 0, 0]) run) .tagFailure ∧
      Handed (handingBytes (headerOfMessage 9 214 12 1 1) run) .ignored ∧
      Handed { handing 3 12 7 [4] run with decoder := { (handing 3 12 7 [4] run).decoder with lastNumber := some 7 } } .stale :=
  ⟨handed_of (by decide +kernel), handed_of (by decide +kernel), handed_of (by decide +kernel), handed_of (by decide +kernel)⟩

/-- RejectedMessagesAreCounted: a group of 0, the longest body and one past it, the first and the last kind, kinds outside the table,
a KEY to the ROOM and a CHECKIN to the SITE, and a body of a wrong length. -/
theorem test_witness_tests :
    ([((1 : Byte), (0 : Byte), ([] : List Byte)), (1, 14, []), (3, 1, []), (1, 8, []), (1, 1, []), (2, 13, [0, 7])].map fun x =>
        (handing x.1 x.2.1 1 x.2.2 run).decoder.handOff.map (findingOf run)) =
      [some .ignored, some .ignored, some .ignored, some .ignored, some .ignored, some (.accepted .group 1 (.maint 7))] ∧
      testMessage { run.settings with groupId := 0 } none 1 (headerOfMessage 2 0 12 1 1) = .passedOver ∧
      testMessage run.settings none 1 (headerOfMessage 1 0 12 1 107) = .tagFailure ∧
      (handing 1 3 0 (List.replicate 106 0) run).decoder.handOff.map (findingOf run) = some .ignored := by decide +kernel

/-- RejectedMessagesAreCounted (BodiesRead): the ends of each field that a body tests. -/
theorem test_witness_bodies :
    (bodyOf .key (bytesOf 2 4094 ++ [3] ++ bytesOf 8 5) = some (.key 4094 3 5) ∧ bodyOf .key (bytesOf 2 4095 ++ [3] ++ bytesOf 8 5) = none) ∧
      (bodyOf .service [1, 0, 18, 1, 9] = some (.serviceAdd { service := 18, cls := .pay, defaultRating := 9 }) ∧
        bodyOf .service [1, 0, 18, 2, 9] = none ∧ bodyOf .service [1, 0, 18, 1, 10] = none ∧ bodyOf .service [3, 0, 18, 0, 0] = none ∧
        bodyOf .service [2, 0, 18, 9, 99] = some (.serviceDelete 18)) ∧
      (bodyOf .tariff [7, 1, 0, 5, 2, 0xFF, 0xFF, 0, 9, 0] = some (.tariffDefine 7 { base := 5, mode := .auto, allowance := 3600, hours := 1, stepCode := 1, usesBand := false }) ∧
        bodyOf .tariff [8, 1, 0, 5, 2, 0, 0, 0, 0, 0] = none ∧ bodyOf .tariff [7, 1, 0, 5, 3, 0, 0, 0, 0, 0] = none) ∧
      ((bodyOf .pricing (255 :: (List.replicate 4 (bytesOf 2 1439 ++ [251])).flatten)).isSome = true ∧
        bodyOf .pricing (255 :: (List.replicate 4 (bytesOf 2 1440 ++ [251])).flatten) = none) ∧
      ((bodyOf .time [0, 0, 5, 0x9F, 59]).isSome = true ∧ bodyOf .time [0, 0, 5, 0xA0, 59] = none ∧ bodyOf .time [0, 0, 5, 0x9F, 60] = none) ∧
      (bodyOf .freeview [1, 0, 9, 9, 9, 9] = some (.freeviewOn none) ∧ bodyOf .freeview [1, 1, 0, 9, 5, 0xA0] = none ∧
        bodyOf .freeview [1, 1, 0, 9, 5, 0x9F] = some (.freeviewOn (some { day := 9, minute := 1439 })) ∧ bodyOf .freeview [0, 0, 0, 0, 0, 0] = none) ∧
      (bodyOf .checkin (List.replicate 14 0) = none ∧ bodyOf .checkout [0, 0] = none ∧ bodyOf .checkout [0, 1] = some (.checkout 1) ∧
        (bodyOf .checkin ([0, 1] ++ List.replicate 8 0 ++ [1, 2, 3, 10])) =
          some (.checkin { number := 1, credit := 0, nightCeiling := 0, roomCeiling := 0, defaultCeiling := 0, pin := none })) ∧
      (bodyOf .credit [0, 0, 0x80, 0, 0, 0, 0, 0, 1] = some (.credit (-8388608) none) ∧
        bodyOf .credit [0, 0, 0x7F, 0xFF, 0xFF, 1, 0, 0, 0] = some (.credit 8388607 (some 0))) := by decide +kernel

/-- RejectedMessagesAreCounted (BodiesRead): LISTING bodies of one and of four records, one of none, one past four, and one whose record
does not fit. -/
theorem test_witness_listing_bodies :
    let one : List Byte := bytesOf 2 1112 ++ bytesOf 2 18 ++ bytesOf 2 812 ++ bytesOf 2 1210 ++ bytesOf 2 812 ++ bytesOf 2 1211 ++ [2, 7, 0, 0, 0, 9]
    (bodyOf .listing one).isSome = true ∧ (bodyOf .listing (one ++ one ++ one ++ one)).isSome = true ∧ bodyOf .listing [] = none ∧
      bodyOf .listing (one ++ one ++ one ++ one ++ one) = none ∧ bodyOf .listing (one ++ one.set 11 (one.getD 7 0)) = none ∧
      one.length = 18 := by decide +kernel

/-- A CHECKIN of stay 7302 with credit 5000, room ceiling 12, default ceiling 5 and PIN 1234; a CREDIT of -100 with a ceiling. -/
def checkinBytes : List Byte := bytesOf 2 7302 ++ bytesOf 3 5000 ++ bytesOf 3 0 ++ [12, 5, 1, 2, 3, 4]

def creditBytes : List Byte := bytesOf 2 7301 ++ bytesOf 3 (16777216 - 100) ++ [1] ++ bytesOf 3 1

def checkin7302 : CheckinBody :=
  { number := 7302, credit := 5000, nightCeiling := 0, roomCeiling := 12, defaultCeiling := 5, pin := some pin1234 }

/-- RoomAcceptance: each ROOM message, accepted; and a CEILING and a MAINT for the GROUP. -/
theorem test_witness_room_messages :
    Handed (handing 3 8 1 checkinBytes guest) (.accepted .room 1 (.checkin checkin7302)) ∧
      Handed (handing 3 9 2 (bytesOf 2 7301) guest) (.accepted .room 2 (.checkout 7301)) ∧
      Handed (handing 3 10 3 creditBytes guest) (.accepted .room 3 (.credit (-100) (some 1))) ∧
      Handed (handing 3 11 4 (bytesOf 4 1) guest) (.accepted .room 4 (.ack 1)) ∧
      Handed (handing 3 12 5 [4] guest) (.accepted .room 5 (.ceiling 4)) ∧
      Handed (handing 3 13 6 [0, 7] guest) (.accepted .room 6 (.maint 7)) ∧
      Handed (handing 2 12 0 [9] guest) (.accepted .group 0 (.ceiling 9)) ∧
      Handed (handing 2 13 0 [0, 7] guest) (.accepted .group 0 (.maint 7)) :=
  ⟨handed_of (by decide +kernel), handed_of (by decide +kernel), handed_of (by decide +kernel), handed_of (by decide +kernel),
    handed_of (by decide +kernel), handed_of (by decide +kernel), handed_of (by decide +kernel), handed_of (by decide +kernel)⟩

/-- RoomAcceptance: a rise of the stay generation with a STAY job waiting, with room, with a full queue, and in FAULT. -/
theorem test_witness_generation :
    let queued := fun (x : StoreState) (l : List Job) => { guest with store := { guest.store with state := x, queue := l } }
    ([queued .busy [.stay], queued .ready [], queued .busy (List.replicate 8 .mark), queued .fault []].map fun s =>
        let t := raiseGeneration s
        (t.store.queue.length, t.store.heldOver, t.account.generation)) =
      [(1, [], 59), (1, [], 59), (8, [.stay], 59), (0, [], 59)] ∧
      (raiseGeneration (raiseGeneration (queued .busy (List.replicate 8 .mark)))).store.heldOver = [.stay] := by decide +kernel

/-- CheckinStartsAStay, CheckoutEndsTheStay, CreditAdjustsTheStay: occupied under the number or another, and vacant. -/
theorem test_witness_stays :
    guest.account.stay.state = .occupied ∧ guest.account.stay.number = 7301 ∧ run.account.stay.state = .vacant ∧
      (nextOf (exec .checkin (handing 3 8 1 checkinBytes guest))).map (fun t => (t.account.stay.number, t.lock.roomCeiling,
        t.lock.guestCeiling, t.account.generation)) = some (7302, 9, 5, 59) ∧
      (nextOf (exec .checkout (handing 3 9 2 (bytesOf 2 7301) guest))).map (fun t => t.account.stay) =
        some (Stay.vacantWith (some 812)) ∧
      (nextOf (exec .checkout (handing 3 9 2 (bytesOf 2 7300) guest))).map (fun t => (t.account.stay, t.decoder.ignored)) =
        some (guest.account.stay, 1) ∧
      (nextOf (exec .credit (handing 3 10 3 creditBytes guest))).map (fun t => (t.account.stay.remaining,
        t.account.stay.nightCeiling)) = some (19900, 1) := by decide +kernel

/-- `s` with records `1` to `n` in the journal. -/
def journalOf (n : Nat) (s : State) : State :=
  { s with journal := { records := (List.range n).map fun i => chargeOne (i + 1), next := n + 1, mark := 0 } }

/-- AckRemovesRecords: at the mark, inside the journal, at its newest record, past it, and an empty journal. -/
theorem test_witness_ack :
    JournalLaw (journalOf 3 guest) ∧
      ([(0, 3), (1, 3), (3, 3), (4, 3), (900, 3), (1, 0)].map fun x =>
        (nextOf (exec .ack (handing 3 11 4 (bytesOf 4 x.1) (journalOf x.2 guest)))).map fun t =>
          (t.journal.mark, t.journal.records.length, t.decoder.ignored)) =
        [some (0, 3, 1), some (1, 2, 0), some (3, 0, 0), some (3, 0, 0), some (3, 0, 0), some (0, 0, 1)] := by
  unfold JournalLaw
  decide +kernel

/-- CeilingSetsTheRoom, MaintenanceReset: a level that pulls down, a tag that is the last one and one that is not. -/
theorem test_witness_ceiling_and_maint :
    (nextOf (exec .ceiling (handing 3 12 5 [4] guest))).map (fun t => (t.lock.roomCeiling, t.lock.guestCeiling)) = some (4, 4) ∧
      (handing 2 13 0 [0, 7] guest).decoder.lastMaintenanceTag = none ∧
      (nextOf (exec .maint (handing 2 13 0 [0, 7] guest))).map (fun t => (t.decoder.lastMaintenanceTag, t.keys.pool)) =
        some (some 7, []) := by decide +kernel

/-- MaintenanceReset: a MAINT for the ROOM, its tag the last one and not. -/
theorem test_witness_room_maint :
    let last := fun t => { guest with decoder := { guest.decoder with lastMaintenanceTag := t } }
    ([none, some 7].map fun x => (nextOf (exec .maint (handing 3 13 6 [0, 7] (last x)))).map fun t =>
        (t.decoder.lastNumber, t.account.generation, t.showings.services.length, t.account.stay == guest.account.stay)) =
      [some (some 6, 59, 0, true), some (some 6, 59, 2, true)] := by decide +kernel

def keyBytes (service : Nat) (epoch : Byte) : List Byte := bytesOf 2 service ++ [epoch] ++ bytesOf 8 5

/-- A pool whose only history is at depth 2, and a full pool under a depth of 128. -/
def deepKeys : State :=
  { guest with keys := { pool := [{ service := 18, epoch := 1, key := 1, arrival := 1 }, { service := 18, epoch := 2, key := 2, arrival := 2 }] } }

def fullKeys : State :=
  { guest with
    settings := { guest.settings with historyDepth := 128 }
    keys := { pool := (List.range 128).map fun i => { service := BitVec.ofNat 12 i, epoch := 0, key := 1, arrival := i } } }

/-- KeyMessageSetsTheKey: an epoch held, a history at depth, one below depth, a full pool. -/
theorem test_witness_key :
    Handed (handing 1 1 0 (keyBytes 18 3) guest) (.accepted .site 0 (.key 18 3 5)) ∧
      KeyLaw deepKeys ∧ KeyLaw fullKeys ∧ KeyLaw guest ∧
      (nextOf (exec .key (handing 1 1 0 (keyBytes 18 3) guest))).map (fun t => t.keys.pool.length) = some 1 ∧
      (nextOf (exec .key (handing 1 1 0 (keyBytes 18 3) deepKeys))).map (fun t => t.keys.pool.map KeyEntry.epoch) = some [2, 3] ∧
      (nextOf (exec .key (handing 1 1 0 (keyBytes 200 3) fullKeys))).map (fun t => (t.keys.pool.length,
        (t.keys.pool.head?).map KeyEntry.service)) = some (128, some 1) :=
  ⟨handed_of (by decide +kernel),
    ⟨by decide, by decide, fun v => Nat.le_trans (List.length_filter_le _ _) (by decide), by decide, by decide⟩,
    ⟨by decide +kernel, by decide +kernel, fun v => Nat.le_trans (List.length_filter_le _ _) (by decide +kernel),
      by decide +kernel, by decide +kernel⟩,
    keys_guest, by decide +kernel, by decide +kernel, by decide +kernel⟩

/-- A service table of 64 records, none of service 18. -/
def fullServices : State :=
  setServices ((List.range 64).map fun i => { service := BitVec.ofNat 12 (100 + i), cls := .pay, defaultRating := 0 }) guest

/-- ServiceMessages: a known service, a new one, a new one in a full table, and a delete. -/
theorem test_witness_services :
    Handed (handing 1 2 0 [1, 0, 18, 0, 2] guest) (.accepted .site 0 (.serviceAdd { service := 18, cls := .free, defaultRating := 2 })) ∧
      Handed (handing 1 2 0 [1, 0, 18, 0, 2] fullServices) (.accepted .site 0 (.serviceAdd { service := 18, cls := .free, defaultRating := 2 })) ∧
      Handed (handing 1 2 0 [2, 0, 18, 0, 0] guest) (.accepted .site 0 (.serviceDelete 18)) ∧
      ServiceLaw guest ∧ ServiceLaw fullServices ∧ findService run 18 = none ∧
      (nextOf (exec .serviceDelete (handing 1 2 0 [2, 0, 18, 0, 0] guest))).map (fun t => (t.keys.pool, t.showings.events)) =
        some ([], []) :=
  ⟨handed_of (by decide +kernel), handed_of (by decide +kernel), handed_of (by decide +kernel), by unfold ServiceLaw; decide,
    by unfold ServiceLaw; decide +kernel, by decide, by decide +kernel⟩

/-- A record of a LISTING, and its bytes. -/
def recordFor (id : Half) (minute cls : Nat) : ListingRecord :=
  { id := id, service := 18, start := { day := 812, minute := minute }, finish := { day := 812, minute := 1439 }, tariffClass := cls
    rating := 7, title := 9 }

def listingBytes (id minute : Nat) (cls : Byte) : List Byte :=
  bytesOf 2 id ++ bytesOf 2 18 ++ bytesOf 2 812 ++ bytesOf 2 minute ++ bytesOf 2 812 ++ bytesOf 2 1439 ++ [cls, 7] ++ bytesOf 4 9

/-- A full showing table: events 1 to 64, one starting each minute from 0. -/
def fullShowings : State := setEvents ((List.range 64).map fun i => (recordFor (BitVec.ofNat 16 (i + 1)) i 2).fresh) guest

/-- ListingTakesRecords: a LISTING of two records; an update that keeps the class, one that changes it to a defined and to an
undefined class, an insertion, and insertions into a full table at its end and before it. -/
theorem test_witness_listing :
    Handed (handing 1 3 0 (listingBytes 1112 1210 2 ++ listingBytes 1111 1220 2) guest)
        (.accepted .site 0 (.listing [recordFor 1112 1210 2, recordFor 1111 1220 2])) ∧
      ShowingLaw fullShowings ∧ findEvent guest 1111 = some event1111 ∧ findEvent guest 1112 = none ∧
      tariffOf guest 3 = none ∧ findEvent fullShowings 1112 = none ∧ fullShowings.showings.events.length = 64 ∧
      ((takeListing (recordFor 1112 1200 2) fullShowings).showings.events.map EventRecord.id).getLast? = some 64 ∧
      ((takeListing (recordFor 1112 10 2) fullShowings).showings.events.map EventRecord.id).getLast? = some 63 ∧
      (findEvent (takeListing (recordFor 1111 1220 3) guest) 1111).map EventRecord.tariffClass = some 3 :=
  ⟨handed_of (by decide +kernel), by unfold ShowingLaw; decide +kernel, by decide, by decide, by decide, by decide +kernel,
    by decide +kernel, by decide +kernel, by decide +kernel, by decide +kernel⟩

def tariffBytes (allowance : Nat) : List Byte := [2, 1] ++ bytesOf 2 1299 ++ [1] ++ bytesOf 2 allowance ++ [24, 2, 1]

/-- PriceMessages, AllowanceHoldsViewedSeconds: each message, free-view on and off from each state of it. -/
theorem test_witness_prices :
    Handed (handing 1 4 0 (tariffBytes 120) guest) (.accepted .site 0 (.tariffDefine 2 tariff1299)) ∧
      Handed (handing 1 4 0 (tariffBytes 30) guest) (.accepted .site 0 (.tariffDefine 2 { tariff1299 with allowance := 30 })) ∧
      Handed (handing 1 4 0 [2, 2, 0, 0, 0, 0, 0, 0, 0, 0] guest) (.accepted .site 0 (.tariffDelete 2)) ∧
      Handed (handing 1 5 0 ([255] ++ bytesOf 2 360 ++ [100] ++ bytesOf 2 1080 ++ [125] ++ bytesOf 2 1320 ++ [110] ++ bytesOf 2 300 ++ [80]) guest)
        (.accepted .site 0 (.pricing { pricing75 with tax := 250 })) ∧
      Handed (handing 1 7 0 [1, 0, 9, 9, 9, 9] guest) (.accepted .site 0 (.freeviewOn none)) ∧
      Handed (handing 1 7 0 [2, 0, 0, 0, 0, 0] guest) (.accepted .site 0 .freeviewOff) ∧
      (tariffOf guest 2).map Tariff.allowance = some tariff1299.allowance ∧ guest.account.freeView ≠ .on none ∧
      guest.account.freeView = .off :=
  ⟨handed_of (by decide +kernel), handed_of (by decide +kernel), handed_of (by decide +kernel), handed_of (by decide +kernel),
    handed_of (by decide +kernel), handed_of (by decide +kernel), by decide, by decide, by decide⟩

theorem test_allowance_ends_the_preview :
    (nextOf (exec .tariffDefine (handing 1 4 0 (tariffBytes 30)
      (listed (fun e => { e with preview := .preview, viewed := 30 }) guest)))).map (fun t => (t.showings.events.map fun e =>
        (e.preview, e.viewed), t.account.held)) = some ([(.spent, 30)], some { event := 1111, cause := .confirm }) := by
  decide +kernel

/-- AllowanceHoldsViewedSeconds, under AUTO: a commit that passes, and one refused for credit. -/
theorem test_witness_allowance_auto :
    let met := listed (fun e => { e with preview := .preview, viewed := 30 }) guest
    let auto := (tariffBytes 30).set 4 2
    Handed (handing 1 4 0 auto met) (.accepted .site 0 (.tariffDefine 2 { tariff1299 with allowance := 30, mode := .auto })) ∧
      ([met, withStay (fun y => { y with remaining := 1746 }) met].map fun s =>
        (nextOf (exec .tariffDefine (handing 1 4 0 auto s))).map fun t => (t.showings.events.map EventRecord.preview, t.account.held,
          t.account.purchases.length, lineMark t 1)) =
        [some ([.paid], none, 1, some false), some ([.spent], some { event := 1111, cause := .refused .credit }, 0, some true)] :=
  ⟨handed_of (by decide +kernel), by decide +kernel⟩

/-- TimeSetsTheClock: the night goes back, the night stays, and the clock was invalid. -/
theorem test_witness_time :
    Handed (handing 1 6 0 (bytesOf 2 812 ++ bytesOf 2 359 ++ [5]) guest)
        (.accepted .site 0 (.time { day := 812, minute := 359, second := 5 })) ∧
      nightIndex guest = some 812 ∧ nightIndex run = none ∧
      (nextOf (exec .time (handing 1 6 0 (bytesOf 2 812 ++ bytesOf 2 359 ++ [5]) guest))).map (fun t => (t.account.stay.nightIndex,
        t.account.generation)) = some (some 811, 59) ∧
      (nextOf (exec .time (handing 1 6 0 (bytesOf 2 812 ++ bytesOf 2 360 ++ [5]) guest))).map (fun t => t.account.generation) =
        some 58 :=
  ⟨handed_of (by decide +kernel), by decide, by decide, by decide +kernel, by decide +kernel⟩

/-! ### The memory port -/

/-- `s` with a result for slot 1 at the head of the insertion queue. -/
def answering (s : State) : State := appendResult 1 answerDone s

/-- ArbiterGrants: each holder and each claimant, with a token and with none. -/
theorem test_witness_arbiter :
    (writing none run).path.port ≠ .free ∧ headWaiting run = false ∧ run.path.passing = none ∧
      headWaiting (answering run) = true ∧ headWaiting (dirty 3 true run) = true ∧
      lineMark (dirty 3 true run) 3 = some true ∧ [0, 1, 2].all (fun j => lineMark (dirty 3 true run) j == none) = true ∧
      (nextOf (exec .portGrant (dirty 52 false (dirty 3 true run)))).map (fun t => match t.path.port with
        | .inserted i => (i.source, i.attention, i.write.address, i.write.lanes.length)
        | _ => (.line 99, false, 0, 0)) = some (.line 3, true, 16608, 32) ∧
      (nextOf (exec .portGrant (setPassing (some (.write (bytesAt 0 [1, 2, 3, 4]) none)) (answering run)))).map
        (fun t => (t.path.tokens, t.path.results)) = some (1, []) := by decide +kernel

/-- ArbiterGrants: the one-word write of a result. -/
theorem test_result_write :
    (nextOf (exec .portGrant (answering run))).map (fun t => t.path.port) = some (.inserted {
      source := .result 1, attention := true, write := { address := 16420, lanes := [{ data := 2, enabled := true },
        { data := 0, enabled := true }, { data := 0, enabled := false }, { data := 0, enabled := false }] } }) := by decide +kernel

/-- ReportLinesAreWhole: the first and the last of each kind of line. -/
theorem test_witness_report_lines :
    run.account.purchases.length ≤ 5 - 5 ∧ run.journal.records = [] ∧ composeLine run 5 = List.replicate 32 0 ∧
      composeLine run 52 = List.replicate 32 0 ∧ (composeLine guest 1).take 4 = [1, 0, 0x1C, 0x85] := by decide +kernel

/-- ReportLinesAreWhole: a summary, a purchase and a charge record on their lines. -/
theorem test_witness_composed_lines :
    let shown : ShownMetering := { viewed := 5, allowance := 120 }
    let x : Summary := { service := 18, event := 1111, listed := true, verdict := .opened .preview, metering := some shown }
    let s := { journalOf 1 guest with presentation := { guest.presentation with summary := { ring0 := some x, ring1 := none } } }
    s.journal.records = [chargeOne 1] ∧ (chargeOne 1).sequence % 32 = 1 ∧
      composeLine s 3 = [1, 2, 4, 1, 0, 18, 4, 0x57, 0, 5, 0, 120, 1] ++ List.replicate 19 0 ∧
      composeLine (buying 1 5001 s) 5 = [1, 7, 0, 1, 0, 18] ++ List.replicate 12 0 ++ [0x13, 0x89] ++ List.replicate 12 0 ∧
      composeLine s 22 = [1, 1, 2, 1, 0, 0, 0, 1, 0x1C, 0x85, 4, 0x57, 0, 0, 0, 5, 0, 0, 6, 0xD3, 5, 0x13, 125, 75, 3, 0x2C, 4, 0x4C,
        0, 0, 0, 0] := by decide +kernel

/-- InsertedWriteCompletes: a line write, and a result write with no later result and with one. -/
theorem test_witness_inserted :
    (inserting true run).path.port ≠ .free ∧ resultToCome run 1 = false ∧ resultToCome (answering run) 1 = true ∧
      (nextOf (exec .insertedWriteComplete (inserting true run))).map (fun t => (t.path.attn, readByte t 16608)) = some (true, 7) := by
  decide +kernel

/-- PassingWriteCompletes: no slot, a slot with no held result, a slot with one. -/
theorem test_witness_passing :
    heldResult run 2 = none ∧ heldResult (setHeldResult 2 (some answerDone) run) 2 = some answerDone ∧
      (nextOf (exec .passingWriteComplete (writing (some 2) (setHeldResult 2 (some answerDone) run)))).map
        (fun t => (t.path.results.map ResultEntry.slot, heldResult t 2, readBytes t 0 4)) = some ([2], none, [1, 2, 3, 4]) := by
  decide +kernel

/-- MemoryFrame: a write with an enable off, and an address outside it. -/
theorem test_witness_memory :
    (bytesAt 0 [1, 2, 3, 4]).wellFormed = true ∧ 4 % run.memorySize.bytes ≠ 3 % run.memorySize.bytes ∧
      readByte (writeMemory { address := 0, lanes := [{ data := 9, enabled := false }] } run) 0 = 0 := by decide +kernel

/-! ### Time -/

/-- SecondsAdvance: no clock, a clock at the end of a minute, an hour and a day, a night that begins, a count that becomes 60. -/
theorem test_witness_seconds :
    run.time.clock = none ∧ guest.time.clock = some { day := 812, minute := 1100, second := 0 } ∧
      (WallClock.tick { day := 812, minute := 1439, second := 59 }) = { day := 813, minute := 0, second := 0 } ∧
      (nextOf (exec .secondsAdvance { guest with time := { guest.time with
          seconds := 59, clock := some { day := 813, minute := 359, second := 59 } } })).map
        (fun t => (t.account.stay.nightIndex, t.time.keyMinuteDue, t.time.secondDue)) = some (some 813, 1, 1) := by decide +kernel

/-- A guest at an expiry of each timer, event 1111 in PREVIEW. -/
def expiring (viewed : Nat) (cells : Half) : State :=
  let s := listed (fun e => { e with preview := .preview, viewed := viewed, cells := cells }) guest
  { s with time := { s.time with secondDue := 1, accountMinuteDue := 1, keyMinuteDue := 1, showingMinuteDue := 1, lockMinuteDue := 1 } }

/-- SecondTimerMeters: a second that counts, one that does not, and the one that meets the allowance. -/
theorem test_witness_second_timer :
    ShowingLaw (expiring 10 6) ∧ countsSecond (expiring 10 6) { event1111 with preview := .preview, viewed := 10, cells := 6 } = true ∧
      countsSecond (expiring 10 5) { event1111 with preview := .preview, viewed := 10, cells := 5 } = false ∧
      (nextOf (exec .accountSecondTimer (expiring 10 6))).map (fun t => t.showings.events.map EventRecord.viewed) = some [11] ∧
      (nextOf (exec .accountSecondTimer (expiring 119 6))).map (fun t => (t.showings.events.map EventRecord.preview, t.account.held)) =
        some ([.spent], some { event := 1111, cause := .confirm }) := by
  unfold ShowingLaw
  decide +kernel

/-- Class 2 under AUTO, its allowance of 120 about to be met. -/
def autoGuest : State := priced (some { tariff1299 with mode := .auto }) (expiring 119 6)

/-- SecondTimerMeters, under AUTO: the second that meets the allowance, with a commit that passes and with one refused. -/
theorem test_witness_second_timer_auto :
    TablesLaw autoGuest ∧
      ([autoGuest, withStay (fun y => { y with remaining := 1746 }) autoGuest].map fun s =>
        (nextOf (exec .accountSecondTimer s)).map fun t => t.showings.events.map fun e => (e.preview, e.viewed, e.cells)) =
        [some [(.paid, 120, 0)], some [(.spent, 120, 0)]] ∧
      (nextOf (exec .accountSecondTimer (withStay (fun y => { y with remaining := 1746 }) autoGuest))).map (fun t =>
        (t.account.held, lineMark t 1)) = some (some { event := 1111, cause := .refused .credit }, some true) := by
  unfold TablesLaw
  decide +kernel

/-- MinuteTimers: each timer due, free-view with an end, a purchase, a key, an event and a period at their ends. -/
theorem test_witness_minutes :
    (expiring 0 0).path.mode = .run ∧ 0 < (expiring 0 0).time.lockMinuteDue ∧
      (nextOf (exec .accountMinuteTimer { expiring 0 0 with account := { guest.account with
          purchases := [purchaseOf 1111 5000, purchaseOf 1200 5001], freeView := .on (some { day := 812, minute := 1100 }) } })).map
        (fun t => (t.account.purchases.map Purchase.event, t.account.freeView, t.showings.events.map EventRecord.preview)) =
        some ([1200], .off, [.spent]) ∧
      (nextOf (exec .keyMinuteTimer (expiring 0 0))).map (fun t => t.keys.pool) = some [] ∧
      (nextOf (exec .showingMinuteTimer (expiring 0 0))).map (fun t => t.showings.events.length) = some 1 ∧
      (nextOf (exec .lockMinuteTimer { expiring 0 0 with lock := { guest.lock with
          unlock := some { finish := 5000, minutes := 1 }, lockout := some { finish := 5001, minutes := 1 } } })).map
        (fun t => (t.lock.unlock, t.lock.lockout, lineMark t 2)) =
        some (none, some { finish := 5001, minutes := 1 }, some true) := by decide +kernel

/-! ### The serial store -/

/-- PageWriteCompletes: a job with a page to follow. -/
theorem test_witness_page :
    (storing.store.inFlight.map fun f => (f.current.bytes.length, f.later.length)) = some (32, 1) ∧ MemoryLaw storing ∧
      (nextOf (exec .pageWriteComplete storing)).map (fun t => t.store.inFlight.map fun f => f.current.page) = some (some 9) := by
  unfold MemoryLaw
  decide +kernel

/-- PageWriteCompletes: a job begins with the queue full and a request held over; none begins outside RUN, with a job in flight or
in FAULT. -/
theorem test_witness_job_begins :
    let full := { guest with store := { guest.store with state := .busy, queue := .stay :: List.replicate 7 .mark, heldOver := [.stay] } }
    let t := startJob full
    t.store.queue.length = 8 ∧ t.store.heldOver = [] ∧ t.store.pageNumber = 1 ∧ (t.store.inFlight.map fun f => (f.current.page,
        f.later.map PageWrite.page)) = some (10, [11, 12, 13, 14, 15, 16, 17, 9]) ∧ storing.store.inFlight ≠ none ∧
      State.reset.path.mode ≠ .run := by decide +kernel

/-- A guest whose BUY from slot 3 waits for record 1 and generation 59. -/
def waiting : State :=
  journalOf 1 { guest with account := { guest.account with pendingBuys :=
    [{ slot := 3, sequence := some 1, needed := 59, journalMark := false, stayMark := true }] } }

/-- StoreJobCompletes, StoreFaultDiscardsJobs: each report, with a job waiting and with none. -/
theorem test_witness_jobs :
    QueueLaw (lastPage (.journal 1) [.stay] waiting) ∧ QueueLaw (lastPage .mark [] waiting) ∧
      (lastPage (.stay 60) [] waiting).store.state = .busy ∧ (lastPage .mark [] waiting).path.passing = none ∧
      (nextOf (exec .storeJobComplete (lastPage (.journal 1) [.stay] waiting))).map (fun t => (t.account.pendingBuys,
        t.path.results.map ResultEntry.answer, t.store.state, t.store.queue)) = some ([], [answerDone], .busy, []) ∧
      (nextOf (exec .storeJobComplete (lastPage (.stay 58) [] waiting))).map (fun t => (t.account.pendingBuys.length, t.store.state)) =
        some (1, .ready) ∧
      (nextOf (exec .storeFault (lastPage .mark [] waiting))).map (fun t => (t.store.state, t.account.pendingBuys,
        t.path.results.map ResultEntry.answer)) = some (.fault, [], [{ result := .volatile, reason := some .storeFault }]) := by
  unfold QueueLaw
  decide +kernel

/-- StoreJobCompletes, StoreFaultDiscardsJobs: the write that carried the BUY is still in progress, and the result is held. -/
theorem test_witness_jobs_carried :
    let carried := writing (some 3) (lastPage (.journal 1) [] waiting)
    carrierInProgress carried 3 = true ∧
      ([Instr.storeJobComplete, .storeFault].map fun i => (nextOf (exec i carried)).map fun t => (t.path.results.length,
        (heldResult t 3).map Answer.result)) = [some (0, some .done), some (0, some .volatile)] := by decide +kernel

/-- ChargeStages, BandInForce: the ends of each range; a minute before every band and one after each; no bands, no clock, no
pricing. -/
theorem test_witness_charges :
    chargeTotal 0 250 1 250 = 0 ∧ chargeTotal 65535 0 1 250 = 0 ∧ chargeTotal 4 100 10 250 = 0 ∧
      pricing75.bands.all (fun x => decide (299 < x.start)) = true ∧ pricing75.bands.any (fun x => decide (x.start ≤ 300)) = true ∧
      bandPercent guest tariff1299 = 125 ∧ bandPercent guest { tariff1299 with usesBand := false } = 100 ∧
      bandPercent run tariff1299 = 100 := by decide

/-- NumberWindow: a ROOM message that is fresh and one that is not, past its kind; a SITE message. -/
theorem test_witness_numbers :
    messageKindOf (byteAt (headerOfMessage 3 214 12 7 1) 3).toNat = some .ceiling ∧ kindAllowed .ceiling .room = true ∧
      numberFresh (some 7) 7 = false ∧ numberFresh (some 6) 7 = true ∧ AddressType.site ≠ .room := by decide +kernel

/-! ### The clauses that a held port, other rows, several events and the marks ask for -/

/-- The port held by an inserted write, and the head of the queue going first: the upstream port is free, and no acceptance takes the
memory port. -/
theorem test_witness_port_not_free :
    [inserting false guest, dirty 52 false guest].all (fun s => s.path.passing.isNone && s.decoder.handOff.isNone && !takesPort s s) = true ∧
      takesPort guest guest = true ∧ UpstreamFree (inserting false guest) ∧ UpstreamFree (dirty 52 false guest) := by
  unfold UpstreamFree
  decide +kernel

/-- RequestWritesAreAnswered, RelockLowersTheCeiling, UnlockOutcomes, BuyCommits, RingWriteIsForwarded: each write makes its effects and
waits for the port. -/
theorem test_witness_writes_wait :
    [inserting false guest, dirty 52 false guest].map (fun s =>
      [Instr.unlock (unlockWrite [1, 2, 3, 4]), .relock (request 2 3 [3]), .buy buyWrite, .refresh (request 1 4 []),
          .unknownRequestKind (request 1 9 []), .requestWriteNotTaken (request 1 0 []),
          .ringWrite (granule 0 (messageHeader ++ List.replicate 20 9)), .otherWindowAccess (.write (bytesAt 0x200000 [1, 2, 3, 4]))].all
        fun i => ((nextOf (exec i s)).map fun t => decide (t.path.port = s.path.port) && t.path.passing.isSome) == some true) =
      [true, true] := by decide +kernel

/-- PlainAccessPasses, HeaderReadEvaluates, LatchedPayloadReads: reads that wait with their places, and the words a ring read returns at
its grant. -/
theorem test_witness_reads_wait :
    let s := inserting false (tagged media18 (some (.voided .hold)) guest)
    ([256, 268, 16384, 16512, 0x200000].map fun a => (nextOf (exec (.ringRead (readAt a 1)) s)).bind fun t => t.path.passing) =
      [some (.read (readAt 256 1) (.cell .ring0 2 0)), some (.read (readAt 268 1) (.cell .ring0 2 3)),
        some (.read (readAt 16384 1) .plain), some (.read (readAt 16512 1) (.line 0)), some (.read (readAt 0x200000 1) .plain)] ∧
      ((nextOf (exec (.ringRead (readAt 256 1)) s)).bind fun t => (nextOf (exec .insertedWriteComplete t)).bind fun u =>
        (nextOf (exec .portGrant u)).map fun v => (v.path.passing, v.path.returned.map Returned.data)) =
        some (none, [[0xB7, 0x10, 0x30, 0x12]]) := by decide +kernel

/-- NoOccasionNoChange: a rejected message and an accepted CEILING, under each accepting row but that of CEILING. -/
theorem test_witness_accepting_rows :
    acceptingRows.length = 16 ∧
      [handing 3 12 1 [4] run, handing 1 12 1 [4] run].all (fun s => (acceptingRows.filter fun x => x.1 != .ceiling).all fun x =>
        decide ((nextOf (exec x.1 s)).bind (fun t => t.decoder.handOff) = s.decoder.handOff)) = true := by
  decide +kernel

/-- GranuleZeroRecordsTheTag, PayloadGranulesFollowTheCell: the bytes staged by a granule 0, by a granule 1 and 2 whose first lane is off,
and by no granule of a broken context; a MEDIA header frees the buffer. -/
theorem test_witness_staging :
    let off : BusWrite := { (granule 1 (List.replicate 8 7)) with lanes := (granule 1 (List.replicate 8 7)).lanes.set 0 { data := 7, enabled := false } }
    let staged := fun (w : BusWrite) (s : State) => ((nextOf (exec (.ringWrite w) s)).bind fun t => t.intake.staging.ring0).map fun b =>
      (b.salt, b.bytes)
    staged (granule 0 (messageHeader ++ List.replicate 20 9)) run = some (0x1A2B, List.replicate 20 9 ++ List.replicate 96 0) ∧
      staged off (opened 2 1 true false run) = some (0x1A2B, List.replicate 21 0 ++ List.replicate 7 7 ++ List.replicate 88 0) ∧
      staged (granule 2 (List.replicate 8 7)) (opened 2 2 true false run) =
        some (0x1A2B, List.replicate 52 0 ++ List.replicate 8 7 ++ List.replicate 56 0) ∧
      staged (granule 1 (List.replicate 8 7)) (opened 2 1 true true run) = none ∧
      staged (granule 0 header18) (opened 2 1 true false run) = none := by decide +kernel

/-- AckRemovesRecords: the MARK job with room, with one waiting, held over, and in FAULT; the line of a removed record and of one kept. -/
theorem test_witness_ack_job :
    let s := fun (x : StoreState) (l : List Job) => { journalOf 2 guest with store := { storing.store with state := x, queue := l } }
    ([s .busy [], s .busy [.mark], s .busy (List.replicate 8 .stay), s .fault []].map fun s =>
        (nextOf (exec .ack (handing 3 11 4 (bytesOf 4 1) s))).map fun t =>
          (t.store.queue.count .mark, t.store.heldOver, lineMark t 22, lineMark t 23)) =
      [some (1, [], some false, none), some (1, [], some false, none), some (0, [.mark], some false, none),
        some (0, [], some false, none)] := by decide +kernel

/-- UnlockOutcomes: line 2 after a period, after a wrong PIN, and without a PIN. -/
theorem test_witness_unlock_marks :
    ([(unlockWrite [1, 2, 3, 4], guest), (unlockWrite [1, 2, 3, 5], guest), (unlockWrite [1, 2, 3, 4], run),
        (unlockWrite [1, 2, 3, 4], locked 0 (some { finish := 9000, minutes := 5 }) guest)].map fun x =>
      (nextOf (exec (.unlock x.1) x.2)).map fun t => lineMark t 2) = [some (some false), some (some false), some none, some none] := by
  decide +kernel

/-- Two events of class 2 in PREVIEW, the second at 119 seconds, and one of class 3. -/
def threeEvents : State :=
  setEvents [{ event1111 with preview := .preview, viewed := 50, cells := 6 },
    { event1111 with id := 1112, preview := .preview, viewed := 119, cells := 6 }, { event1111 with id := 1113, tariffClass := 3, viewed := 60 }]
    (expiring 0 0)

/-- AllowanceHoldsViewedSeconds, SecondTimerMeters: a table of three events under AUTO, each in its turn. -/
theorem test_witness_several_events :
    let auto := (tariffBytes 60).set 4 2
    ShowingLaw threeEvents ∧
      (nextOf (exec .tariffDefine (handing 1 4 0 auto threeEvents))).map (fun t => (t.showings.events.map fun e =>
        (e.preview, e.viewed), t.account.purchases.map Purchase.event)) =
        some ([(.preview, 50), (.paid, 60), (.untouched, 60)], [1112]) ∧
      (nextOf (exec .accountSecondTimer (priced (some { tariff1299 with mode := .auto }) threeEvents))).map (fun t =>
        (t.showings.events.map fun e => (e.preview, e.viewed, e.cells), t.account.purchases.map Purchase.event)) =
        some ([(.preview, 51, 0), (.paid, 120, 0), (.untouched, 60, 0)], [1112]) := by
  unfold ShowingLaw
  decide +kernel

/-- ListingTakesRecords: a change to a class whose allowance is met, under CONFIRM, under AUTO paid and refused, and one whose allowance
is not. -/
theorem test_witness_class_change :
    let s := fun (c : Tariff) => setTariff 3 (some c) (listed (fun e => { e with preview := .preview, viewed := 60 }) guest)
    ([s { tariff1299 with allowance := 60 }, s { tariff1299 with allowance := 60, mode := .auto },
        withStay (fun y => { y with remaining := 0 }) (s { tariff1299 with allowance := 30, mode := .auto }), s tariff1299].map fun s =>
      let t := takeListing (recordFor 1111 1220 3) s
      (t.showings.events.map fun e => (e.preview, e.viewed), t.account.held.map HeldRecord.cause)) =
      [([(.spent, 60)], some .confirm), ([(.paid, 60)], none), ([(.spent, 30)], some (.refused .credit)), ([(.preview, 60)], none)] := by
  decide +kernel

/-- MinuteTimers: the lines of an expired purchase and of those that move up, the line past the list, and line 0. -/
theorem test_witness_minute_lines :
    (nextOf (exec .accountMinuteTimer { expiring 0 0 with account := { guest.account with
        purchases := [purchaseOf 1, purchaseOf 2, purchaseOf 3].zip [5001, 5000, 5001] |>.map fun x => x.1 x.2
        freeView := .on (some { day := 812, minute := 1100 }) } })).map (fun t => [0, 5, 6, 7, 8].map (lineMark t)) =
      some [some false, none, some false, some false, none] := by decide +kernel

/-- PlainAccessPasses: the first and the last address of each window, the first behind them, and a mode and a table without windows. -/
theorem test_witness_windows :
    [0, 8191, 8192, 16383, 16384, 16511, 16512, 18207, 18208].map (windowFor run) =
      [.ring { ring := .ring0, slot := 0, byte := 0 }, .ring { ring := .ring0, slot := 63, byte := 127 },
        .ring { ring := .ring1, slot := 0, byte := 0 }, .ring { ring := .ring1, slot := 63, byte := 127 }, .request 0 0, .request 3 7,
        .report 0 0, .report 52 7, .other] ∧
      (CellPlace.mk .ring1 63 127).granule = 3 ∧ (CellPlace.mk .ring1 63 127).word = 31 ∧ run.path.mode = .run ∧
      windowFor State.reset 0 = .other ∧ windowFor { run with path := { run.path with windows := none } } 0 = .other := by
  decide +kernel

/-- RequestWritesAreAnswered: a record of each kind, none and an unknown one. -/
theorem test_witness_request_kinds :
    [request 0 1 [4, 0x57], request 0 2 [1, 2, 3, 4, 0, 30], request 0 3 [5], request 0 4 [], request 0 0 [], request 0 5 []].map
        (fun w => requestOf (recordOf w)) =
      [.buy 1111, .unlock pin1234 30, .relock 5, .refresh, .unknown, .unknown] := by decide +kernel

/-- GranuleZeroRecordsTheTag: the kinds 0, 4 and 15, the flags, a header covered but for one enable, and the tags of ring 1. -/
theorem test_witness_headers :
    ([0x00, 0x4F, 0xFE, 0x31].map fun b => let f := headerFields (header18.set 1 b); (f.kind, f.scrambled)) =
      [(.filler, false), (.filler, true), (.filler, false), (.guide, true)] ∧
      ([(0, 0xB6), (9, 2), (8, 117)].all fun x => !headerValid (sealHeader ((header18.take 10).set x.1 x.2))) = true ∧
      (let off : BusWrite := { (granule 0 header18) with lanes := (granule 0 header18).lanes.set 11 { data := 0x7F, enabled := false } }
       coversHeader (placeOfGranule 0) (granule 0 header18) = true ∧ coversHeader (placeOfGranule 0) off = false) ∧
      tagNumber run .ring0 5 = 5 ∧ tagNumber run .ring1 5 = 69 := by decide +kernel

/-- ArbiterGrants: a read that waits for the port, with another read and a write waiting upstream behind it. -/
theorem test_witness_grant_presents :
    let w := bytesAt 0x200000 [1, 2, 3, 4]
    let s := setPassing (some (.read (readAt 0x200000 1) .plain)) { run with path := { run.path with
      waiting := [.read (readAt 0x200004 1), .write w, .read (readAt 0x200000 1)] } }
    (nextOf (exec .portGrant s)).map (fun t => (t.path.returned.map Returned.address, t.path.passing, t.path.port, t.path.waiting)) =
        some ([0x200000, 0x200004], some (.write w none), .passing, [.read (readAt 0x200000 1)]) ∧
      (nextOf (exec .portGrant (inserting false s))).map (fun t => t.path.waiting) = some s.path.waiting := by decide +kernel

/-- VerdictSteps: a latch of the tag plays no part. -/
theorem test_witness_latch_unused :
    (verdictOf { fields := some media18, latch := some (.voided .hold) } guest).2 = .opened .preview ∧
      (verdictOf { fields := none, latch := some .clear } guest).2 = .raw := by decide +kernel

/-- ImageLoadHoldsOrPasses: a failed load marks line 0 and leaves another line's mark. -/
theorem test_witness_failed_load_marks :
    (nextOf (exec .imageLoad (dirty 5 true State.reset))).map (fun t => (t.path.mode, [0, 1, 5].map (lineMark t))) =
      some (.pass, [some false, none, some true]) := by decide +kernel

/-- GranuleZeroRecordsTheTag, PayloadGranulesFollowTheCell: a counter that changes, over a clear and over a set mark of line 0; one that is
saturated; and a granule that changes none. -/
theorem test_witness_counter_marks :
    let full := { run with intake := { run.intake with abandoned := 65535 } }
    ([(granule 0 [1, 2, 3, 4], run), (granule 0 [1, 2, 3, 4], dirty 0 true run), (granule 2 [1, 2, 3, 4], run), (granule 2 [1, 2, 3, 4], full),
        (granule 2 [1, 2, 3, 4], opened 2 2 false false run)].map fun x =>
      (nextOf (exec (.ringWrite x.1) (dirty 7 true x.2))).map fun t => [0, 1, 7].map (lineMark t)) =
      [some [some false, none, some true], some [some true, none, some true], some [some false, none, some true],
        some [none, none, some true], some [none, none, some true]] := by decide +kernel

/-- RingWriteIsForwarded: granule 0, granules 1 and 2 of a message, a broken and a MEDIA cell's granule 3, one out of order and one of no
open cell hand nothing off. -/
theorem test_witness_nothing_handed_off :
    ([(0, run), (1, opened 2 1 true false run), (2, opened 2 2 true false run), (3, opened 2 3 true true run),
        (3, opened 2 3 false false run), (3, opened 2 1 true false run), (3, opened 1 3 true false run), (3, run)].map fun x =>
      (nextOf (exec (.ringWrite (granule x.1 (messageHeader ++ List.replicate 20 9))) x.2)).map fun t => t.decoder) =
      List.replicate 8 (some run.decoder) := by decide +kernel

/-- ListingTakesRecords: an update that keeps the class, and an insertion, beside other events. -/
theorem test_witness_other_events :
    ([recordFor 1112 1190 2, recordFor 1114 1190 2].map fun r =>
        ((takeListing r threeEvents).showings.events.filter fun e => e.id != r.id, (findEvent (takeListing r threeEvents) r.id).map
          EventRecord.viewed)) =
      [(threeEvents.showings.events.filter fun e => e.id != 1112, some 119), (threeEvents.showings.events, some 0)] := by decide +kernel

/-- LatchedPayloadReads, the key lost: lines 0, 3 and 4, another slot's tag and the other ring's summary; and again with a saturated count
and the summary as it is. -/
theorem test_witness_key_loss_marks :
    let s := tagged { media18 with epoch := 4 } (some (.opened .paid)) (setTag .ring1 2 { fields := some media18, latch := some .clear } guest)
    let x := summaryOf s { media18 with epoch := 4 } (.voided .noKey)
    let again := { s with presentation := { noKey := 65535, summary := { ring0 := some x, ring1 := none } } }
    ([s, again].map fun s => (nextOf (exec (.ringRead (readAt 268 1)) s)).map fun t =>
        ([0, 3, 4].map (lineMark t), readTag t .ring1 2 == readTag s .ring1 2, t.presentation.summary == { ring0 := some x, ring1 := none })) =
      [some ([some false, some false, none], true, true), some ([none, none, none], true, true)] := by decide +kernel

/-- SecondsAdvance, TimeSetsTheClock: a night that turns marks line 1 and begins a STAY job; an index that becomes the stay's own changes
nothing; a clock that becomes valid marks line 0. -/
theorem test_witness_rollover_marks :
    let late := { guest with time := { guest.time with clock := some { day := 813, minute := 359, second := 59 } } }
    let own := fun s => withStay (fun y => { y with nightIndex := some 813 }) s
    let at813 := bytesOf 2 813 ++ bytesOf 2 360 ++ [0]
    let look := fun (t : State) => ([0, 1].map (lineMark t), t.account.generation, t.store.pageNumber)
    ([late, own late].map fun s => (nextOf (exec .secondsAdvance s)).map look) =
        [some ([some false, some false], 59, 1), some ([none, none], 58, 0)] ∧
      ([guest, own guest, own run].map fun s => (nextOf (exec .time (handing 1 6 0 at813 s))).map look) =
        [some ([some false, some false], 59, 1), some ([none, none], 58, 0), some ([some false, none], 0, 0)] := by decide +kernel

/-- ServiceMessages: the records after an add of a known service, of a new one, and of a new one in a full table, with the counter clear and
saturated. -/
theorem test_witness_service_add :
    let body : List Byte := [1, 0, 18, 0, 2]
    let full := fun n => { fullServices with decoder := { guest.decoder with ignored := n } }
    ([guest, setServices [] guest, full 0, full 65535].map fun s => (nextOf (exec .serviceAdd (handing 1 2 0 body s))).map fun t =>
        (t.showings.services.length, t.decoder.ignored, lineMark t 0, t.lock == s.lock, t.account == s.account)) =
      [some (2, 0, none, true, true), some (1, 0, none, true, true), some (64, 1, some false, true, true),
        some (64, 65535, none, true, true)] := by decide +kernel

/-- CheckinStartsAStay, CheckoutEndsTheStay: lines 1 and 2 with attention, those of the purchases that leave, and the line behind them. -/
theorem test_witness_stay_lines :
    ([(Instr.checkin, handing 3 8 1 checkinBytes (buying 2 6000 guest)),
        (.checkout, handing 3 9 2 (bytesOf 2 7301) (buying 2 6000 guest))].map fun x =>
      (nextOf (exec x.1 x.2)).map fun t => [1, 2, 5, 6, 7].map (lineMark t)) =
      List.replicate 2 (some [some true, some true, some false, some false, none]) := by decide +kernel

/-! ### The invariants: a state that has each, and steps on from it -/

theorem test_witness_invariants :
    LockLaw guest ∧ CreditLaw guest ∧ NightLaw guest ∧ JournalLaw guest ∧ KeyLaw guest ∧ PurchaseLaw guest ∧ ShowingLaw guest ∧
      PreviewLaw guest ∧ ServiceLaw guest ∧ QueueLaw guest ∧ MemoryLaw guest ∧ TablesLaw guest ∧ QuietOutsideRun guest ∧
      (nextOf (step (guest.withPending [.buy buyWrite]))).isSome = true := by
  refine ⟨by unfold LockLaw; decide, by unfold CreditLaw; decide, by unfold NightLaw; decide, by unfold JournalLaw; decide,
    keys_guest, by unfold PurchaseLaw; decide, showings_guest, ?_, by unfold ServiceLaw; decide, by unfold QueueLaw; decide,
    by unfold MemoryLaw; decide, tables_guest, ?_, by decide +kernel⟩
  · intro e he
    have h : e = event1111 := by simpa [guest, setEvents] using he
    subst h
    refine ⟨fun _ => rfl, fun t ht => ?_⟩
    have h : tariffOf guest event1111.tariffClass = some tariff1299 := by decide
    rw [h] at ht
    cases ht
    decide
  · intro h
    exact absurd rfl h

/-- TableLawsKept: an event with a live purchase, not in PREVIEW; and the law of the state in LOAD. -/
theorem test_witness_purchase_law :
    PurchaseLaw { guest with account := { guest.account with purchases := [purchaseOf 1111 5001] } } ∧
      livePurchase { guest with account := { guest.account with purchases := [purchaseOf 1111 5001] } } 1111 = true ∧
      PurchaseLaw State.reset ∧ ¬ PurchaseLaw (listed (fun e => { e with preview := .preview })
        { guest with account := { guest.account with purchases := [purchaseOf 1111 5001] } }) := by
  unfold PurchaseLaw
  decide

end Sys2Proof.Tests
end

/-! ### The canonical forms, and the quiet path outside RUN (R4) -/

namespace Sys2Proof.Machine

/-! #### The two memories -/

/-- What writes neither memory keeps both in form. -/
theorem memoryLaw_of_frame {s t : State} (hm : t.memory = s.memory) (he : t.store.eeprom = s.store.eeprom)
    (h : MemoryLaw s) : MemoryLaw t := by
  unfold MemoryLaw
  rw [hm, he]
  exact h

theorem cutMemory_wf (s : State) (h : Memory.wf s.memory = true) : Memory.wf (cutMemory s).memory = true := by
  unfold cutMemory
  split
  · exact writeMemory_wf _ s h
  · exact h

theorem cutPage_wf (s : State) (h : Eeprom.wf s.store.eeprom = true) : Eeprom.wf (cutPage s).store.eeprom = true := by
  unfold cutPage
  split
  · dsimp only
    exact writePage_wf _ _ h
  · exact h

theorem powerOn_memoryLaw (a b : Bool) (s : State) (h : MemoryLaw s) : MemoryLaw (powerOn a b s) := by
  have hm : Memory.wf (cutPage (cutMemory s)).memory = true := by simpa using cutMemory_wf s h.1
  have he : Eeprom.wf (cutPage (cutMemory s)).store.eeprom = true := cutPage_wf _ (by simpa using h.2)
  exact ⟨hm, he⟩

theorem completePassing_memory (w : BusWrite) (k : Option Nat) (s : State) :
    (completePassing w k s).memory = (writeMemory w s).memory := by simp [completePassing, setPort, setPassing]

theorem completeInserted_memory (i : Inserted) (s : State) :
    (completeInserted i s).memory = (writeMemory i.write s).memory := by simp [completeInserted]

theorem completeJob_eeprom (f : InFlight) (s : State) :
    (completeJob f s).store.eeprom = writePage f.current s.store.eeprom := by simp [completeJob, setEeprom]

theorem completePage_eeprom (f : InFlight) (s : State) :
    (completePage f s).store.eeprom = writePage f.current s.store.eeprom := by
  unfold completePage
  split
  · rfl
  · exact completeJob_eeprom f s

theorem enterFault_eeprom (f : InFlight) (s : State) :
    (enterFault f s).store.eeprom = writePage (overrunPage s.freeCount f.current.page) s.store.eeprom := by
  simp [enterFault, setEeprom]

/-- Both memories are written by the completion of a write, a page write and power-on alone, each in canonical form. -/
theorem kept_memoryLaw : Kept MemoryLaw where
  queue _ _ := memoryLaw_of_frame rfl rfl
  power := powerOn_memoryLaw
  resetUnits _ := memoryLaw_of_frame rfl rfl
  resetPath _ := memoryLaw_of_frame (by simp) (by simp)
  image _ _ := memoryLaw_of_frame (by simp) (by simp)
  journal _ _ := memoryLaw_of_frame rfl rfl
  stay _ _ _ := memoryLaw_of_frame (by simp) (by simp)
  handOff _ _ _ := memoryLaw_of_frame (by simp) (by simp)
  accept _ _ := memoryLaw_of_frame (by simp) (by simp)
  grant _ := memoryLaw_of_frame (by simp) (by simp)
  issue _ _ := memoryLaw_of_frame (by simp) (by simp)
  spend _ := memoryLaw_of_frame rfl rfl
  waiting _ _ := memoryLaw_of_frame rfl rfl
  passing w k s h := ⟨by rw [completePassing_memory]; exact writeMemory_wf w s h.1, by simpa using h.2⟩
  inserted i s _ h := ⟨by rw [completeInserted_memory]; exact writeMemory_wf i.write s h.1, by simpa using h.2⟩
  tokens _ _ := memoryLaw_of_frame rfl rfl
  second _ := memoryLaw_of_frame (by simp) (by simp)
  due _ _ _ _ := memoryLaw_of_frame rfl rfl
  meter _ := memoryLaw_of_frame (by simp) (by simp)
  account _ := memoryLaw_of_frame (by simp) (by simp)
  keys _ := memoryLaw_of_frame (by simp) (by simp)
  showings _ := memoryLaw_of_frame (by simp) (by simp)
  lock _ := memoryLaw_of_frame (by simp) (by simp)
  page f s _ h := ⟨by simpa using h.1, by rw [completePage_eeprom]; exact writePage_wf _ _ h.2⟩
  fault f s _ h := ⟨by simpa using h.1, by rw [enterFault_eeprom]; exact writePage_wf _ _ h.2⟩

/-! #### The tables -/

/-- The tags' table is in form. -/
abbrev TagsForm (s : State) : Prop := Sparse.wf blankTag s.intake.tags = true

/-- The dirty set is in form. -/
abbrev ReportForm (s : State) : Prop := Sparse.wf none s.report = true

/-- The classes' table is in form. -/
abbrev TariffsForm (s : State) : Prop := Sparse.wf none s.account.tariffs = true

/-- The pending marks are in form. -/
abbrev PendingForm (s : State) : Prop := Sparse.wf false s.requests.pendingMarks = true

/-- The held results are in form. -/
abbrev HeldForm (s : State) : Prop := Sparse.wf none s.requests.heldResults = true

/-! The slot tags change at a ring write, at a latch, and at the resets. -/

theorem setTag_form (r : Ring) (k : Nat) (t : SlotTag) (s : State) (h : TagsForm s) : TagsForm (setTag r k t s) :=
  Sparse.write_wf _ _ _ _ h

theorem latchVerdict_tags (r : Ring) (k : Nat) (v : Verdict) (s : State) :
    (latchVerdict r k v s).intake.tags = (setLatch r k (some v) s).intake.tags := by
  unfold latchVerdict
  dsimp only
  repeat' split
  all_goals simp

theorem latchVerdict_form (r : Ring) (k : Nat) (v : Verdict) (s : State) (h : TagsForm s) : TagsForm (latchVerdict r k v s) := by
  unfold TagsForm
  rw [latchVerdict_tags]
  exact setTag_form _ _ _ _ h

theorem openCell_form (p : CellPlace) (w : BusWrite) (s : State) (h : TagsForm s) : TagsForm (openCell p w s) := by
  unfold openCell
  split
  · exact setTag_form _ _ _ _ h
  · simpa [TagsForm] using setTag_form p.ring p.slot blankTag (setContext p.ring _ s) h

theorem intakeWrite_form (p : CellPlace) (w : BusWrite) (s : State) (h : TagsForm s) : TagsForm (intakeWrite p w s).1 := by
  have h1 : TagsForm (setLatch p.ring p.slot none s) := setTag_form _ _ _ _ h
  unfold intakeWrite
  dsimp only
  split
  · have h2 := openCell_form p w (closeEarly p.ring (setLatch p.ring p.slot none s)) (by simpa [TagsForm] using h1)
    simpa [TagsForm] using h2
  · simpa [TagsForm] using h1

/-- The commit, a hold and a metering update leave a table alone that they do not write. -/
theorem charges_tagsForm : Charges TagsForm where
  commit _ _ _ h := by simpa [TagsForm] using h
  hold _ _ _ h := by simpa [TagsForm] using h
  meter _ _ _ _ h := h

theorem maintMessage_tags (tag : Half) (s : State) (h : TagsForm s) : TagsForm (maintMessage tag s) := by
  unfold maintMessage
  split
  · exact h
  · rfl

theorem dispatch_tags (a : AddressType) (m : Message) (s : State) (h : TagsForm s) : TagsForm (dispatch a m s) := by
  cases m with
  | maint tag => exact maintMessage_tags tag s h
  | _ => simpa [TagsForm, dispatch] using h

theorem acceptWrite_tags (w : BusWrite) (s : State) (h : TagsForm s) : TagsForm (acceptWrite w s) := by
  unfold acceptWrite
  split
  · exact intakeWrite_form _ w s h
  · simpa [TagsForm] using h
  · simpa [TagsForm] using h
  · exact h

/-- A finding changes a table only where its message's dispatch does. -/
theorem decodeHandOff_keeps {P : State → Prop} (hc : ∀ s, P s → P (clearHandOff s)) (ht : ∀ s, P s → P (countTagFailure s))
    (hi : ∀ s, P s → P (countIgnored s)) (hr : ∀ n s, P s → P (acceptRoom n s)) (hd : ∀ a m s, P s → P (dispatch a m s))
    (hj : ∀ s, P s → P (startJob s)) (h : HandOff) (s : State) (hs : P s) : P (decodeHandOff h s) := by
  unfold decodeHandOff applyFinding
  have h0 := hc s hs
  split
  · exact h0
  · exact ht _ h0
  · exact hi _ h0
  · exact hi _ h0
  · unfold acceptMessage
    refine hj _ (hd _ _ _ ?_)
    split
    · exact hr _ _ h0
    · exact h0

theorem kept_tagsForm : Kept TagsForm where
  queue _ _ h := h
  power _ _ _ _ := rfl
  resetUnits _ _ := rfl
  resetPath _ h := by simpa [TagsForm] using h
  image _ _ h := by simpa [TagsForm] using h
  journal _ _ h := h
  stay _ _ _ h := by simpa [TagsForm] using h
  handOff h s _ := decodeHandOff_keeps (P := TagsForm) (fun _ h => h) (fun _ h => by simpa [TagsForm] using h)
    (fun _ h => by simpa [TagsForm] using h) (fun _ _ h => by simpa [TagsForm] using h) dispatch_tags
    (fun _ h => by simpa [TagsForm] using h) h s
  accept t s h := by
    cases t with
    | read r => exact h
    | write w => exact acceptWrite_tags w s h
  grant := charges_tagsForm.grantPassing latchVerdict_form (fun _ _ h => h) (fun _ _ h => h) (fun _ _ _ h => h)
  issue _ _ h := by simpa [TagsForm] using h
  spend _ h := h
  waiting _ _ h := h
  passing _ _ _ h := by simpa [TagsForm] using h
  inserted _ _ _ h := by simpa [TagsForm] using h
  tokens _ _ h := h
  second _ h := by simpa [TagsForm] using h
  due _ _ _ _ h := h
  meter _ h := by simpa [TagsForm] using h
  account _ h := by simpa [TagsForm] using h
  keys _ h := by simpa [TagsForm] using h
  showings _ h := by simpa [TagsForm] using h
  lock _ h := by simpa [TagsForm] using h
  page _ _ _ h := by simpa [TagsForm] using h
  fault _ _ _ h := by simpa [TagsForm] using h

end Sys2Proof.Machine

namespace Sys2Proof.Machine

/-! The dirty set: each operation that marks lines keeps its form. -/

/-- What leaves the dirty set alone keeps its form. -/
theorem reportForm_of_eq {s t : State} (he : t.report = s.report) (h : ReportForm s) : ReportForm t := by
  unfold ReportForm
  rw [he]
  exact h

/-- A table that lists consecutive lines, each with a mark. -/
theorem wf_range (f : Nat → Bool) (m c : Nat) :
    Sparse.wf none ((List.range' c m).map fun n => (n, some (f n))) = true := by
  induction m generalizing c with
  | zero => rfl
  | succ m ih =>
    rw [List.range'_succ, List.map_cons, Sparse.wf_cons]
    refine ⟨by simp, fun e he => ?_, ih (c + 1)⟩
    obtain ⟨n, hn, rfl⟩ := List.mem_map.1 he
    exact (List.mem_range'_1.1 hn).1

theorem markAllLines_form (s : State) : ReportForm (markAllLines s) := by
  simpa [ReportForm, markAllLines, List.range_eq_range'] using wf_range (fun n => (lineMark s n).getD false) lineCount 0

theorem markAllLinesClear_form (s : State) : ReportForm (markAllLinesClear s) := by
  simpa [ReportForm, markAllLinesClear, List.range_eq_range'] using wf_range (fun _ => false) lineCount 0

theorem startJob_report (s : State) (h : ReportForm s) : ReportForm (startJob s) := (marks_startJob s).wf h

theorem raiseGeneration_report (s : State) (h : ReportForm s) : ReportForm (raiseGeneration s) := (marks_raiseGeneration s).wf h

theorem countIgnored_report (s : State) (h : ReportForm s) : ReportForm (countIgnored s) := (marks_countIgnored s).wf h

theorem accountCheckOut_report (s : State) (h : ReportForm s) : ReportForm (checkOut s) :=
  (marks_lockCheckOut _).wf ((marks_accountCheckOut s).wf h)

theorem checkIn_report (b : CheckinBody) (night : Option Half) (s : State) (h : ReportForm s) : ReportForm (checkIn b night s) :=
  (marks_lockCheckIn _ _ _ _).wf ((marks_accountCheckIn b night s).wf h)

theorem noticeIfChanged_report (before : Option Half) (s : State) (h : ReportForm s) : ReportForm (noticeIfChanged before s) := by
  unfold noticeIfChanged
  repeat' split
  · exact h
  · exact (marks_rolloverNotice _ _).wf h
  · exact h

theorem timeMessage_report (c : WallClock) (s : State) (h : ReportForm s) : ReportForm (timeMessage c s) := by
  unfold timeMessage
  refine noticeIfChanged_report _ _ ?_
  split
  · exact h
  · exact markLine_wf 0 false _ h

theorem charges_reportForm : Charges ReportForm where
  commit := commit_wf
  hold id c s h := (marks_holdEvent id c s).wf h
  meter _ _ _ _ h := h

theorem serviceAddMessage_report (r : ServiceRecord) (s : State) (h : ReportForm s) : ReportForm (serviceAddMessage r s) := by
  unfold serviceAddMessage
  repeat' split
  · exact h
  · exact h
  · exact countIgnored_report s h

theorem checkinMessage_report (b : CheckinBody) (night : Option Half) (s : State) (h : ReportForm s) :
    ReportForm (checkinMessage b night s) := by
  unfold checkinMessage
  repeat' split
  · exact checkIn_report b night s h
  · exact countIgnored_report s h
  · exact checkIn_report b night _ (accountCheckOut_report s h)

theorem checkoutMessage_report (number : Half) (s : State) (h : ReportForm s) : ReportForm (checkoutMessage number s) := by
  unfold checkoutMessage
  split
  · exact accountCheckOut_report s h
  · exact countIgnored_report s h

theorem creditMessage_report (delta : Int) (ceiling : Option Nat) (s : State) (h : ReportForm s) :
    ReportForm (creditMessage delta ceiling s) := by
  unfold creditMessage
  dsimp only
  repeat' split
  · exact countIgnored_report s h
  · exact h
  · exact markLine_wf 1 true _ h

theorem requestMark_report (s : State) : (requestMark s).report = s.report := by simp

theorem ackMessage_report (a : Nat) (s : State) (h : ReportForm s) : ReportForm (ackMessage a s) := by
  unfold ackMessage
  dsimp only
  split
  · exact countIgnored_report s h
  · refine reportForm_of_eq (requestMark_report _) ?_
    exact (marks_markJournalLines _ _).wf h

theorem ceilingMessage_report (room : Bool) (level : Nat) (s : State) (h : ReportForm s) :
    ReportForm (ceilingMessage room level s) := by
  unfold ceilingMessage
  dsimp only
  repeat' split
  · exact h
  · exact (marks_setLock _ s).wf h
  · exact raiseGeneration_report _ ((marks_setLock _ s).wf h)

theorem maintMessage_report (tag : Half) (s : State) (h : ReportForm s) : ReportForm (maintMessage tag s) := by
  unfold maintMessage
  split
  · exact h
  · exact markAllLines_form _

theorem dispatch_report (a : AddressType) (m : Message) (s : State) (h : ReportForm s) : ReportForm (dispatch a m s) := by
  cases m with
  | key v e k => exact h
  | serviceAdd r => exact serviceAddMessage_report r s h
  | serviceDelete v => exact h
  | listing l => exact charges_reportForm.listing (fun _ _ h _ => h) (fun _ _ _ h _ => h) l s h
  | tariffDefine c t => exact charges_reportForm.tariff (fun _ _ _ h => h) c t s h
  | tariffDelete c => exact h
  | pricing p => exact h
  | time c => exact timeMessage_report c s h
  | freeviewOn f => exact (marks_setFreeView _ s).wf h
  | freeviewOff => exact (marks_setFreeView _ s).wf h
  | checkin b => exact checkinMessage_report b _ s h
  | checkout n => exact checkoutMessage_report n s h
  | credit d c => exact creditMessage_report d c s h
  | ack n => exact ackMessage_report n s h
  | ceiling l => exact ceilingMessage_report _ l s h
  | maint tag => exact maintMessage_report tag s h

theorem relockRequest_report (level : Nat) (s : State) (h : ReportForm s) : ReportForm (relockRequest level s) := by
  unfold relockRequest
  have hl := (marks_setLock { s.lock with guestCeiling := min level s.lock.guestCeiling, unlock := none } s).wf h
  dsimp only
  split
  · exact startJob_report _ (raiseGeneration_report _ hl)
  · exact hl

theorem unlockRequest_report (digits : Pin) (minutes : Nat) (s : State) (h : ReportForm s) :
    ReportForm (unlockRequest digits minutes s).1 := by
  unfold unlockRequest
  repeat' split
  · exact h
  · exact markLine_wf 2 false _ h
  · refine markLine_wf 2 false _ ?_
    split <;> exact h
  · exact h

theorem buyRequest_report (id : Half) (k : Nat) (s : State) (h : ReportForm s) : ReportForm (buyRequest id k s).1 := by
  have hc := commit_wf id (some k) s h
  unfold buyRequest
  split <;> rename_i he <;> rw [he] at hc <;> exact hc

theorem answerRequest_report (k : Nat) (q : Request) (s : State) (h : ReportForm s) : ReportForm (answerRequest k q s).1 := by
  cases q with
  | buy id => exact buyRequest_report id k s h
  | unlock d m => exact unlockRequest_report d m s h
  | relock l => exact relockRequest_report l s h
  | refresh => exact markAllLines_form s
  | unknown => exact h

theorem acceptWrite_report (w : BusWrite) (s : State) (h : ReportForm s) : ReportForm (acceptWrite w s) := by
  unfold acceptWrite acceptRequest
  repeat' split
  · exact (counts_intakeWrite _ w s).marks.wf h
  · exact (marks_countDropped s).wf h
  · exact answerRequest_report _ _ s h
  · exact h
  · exact (marks_countDropped s).wf h
  · exact h

theorem latchVerdict_report (r : Ring) (k : Nat) (v : Verdict) (s : State) (h : ReportForm s) : ReportForm (latchVerdict r k v s) := by
  have h2 : ReportForm (if v = .voided .noKey then countNoKey (setLatch r k (some v) s) else setLatch r k (some v) s) := by
    split
    · exact (marks_countNoKey _).wf h
    · exact h
  unfold latchVerdict
  dsimp only
  generalize (if v = .voided .noKey then countNoKey (setLatch r k (some v) s) else setLatch r k (some v) s) = u at h2 ⊢
  repeat' split
  · exact h2
  · exact (marks_setSummary r _ _).wf h2
  · exact h2

theorem issueHead_report (s : State) (h : ReportForm s) : ReportForm (issueHead s) := by
  unfold issueHead
  repeat' split
  · exact h
  · exact Sparse.write_wf _ _ _ _ h
  · exact h

theorem removeExpired_report (s : State) (h : ReportForm s) : ReportForm (removeExpired s) := (marks_removeExpired s).wf h

theorem accountMinute_report (s : State) (h : ReportForm s) : ReportForm (accountMinute s) := by
  have h1 := removeExpired_report s h
  unfold accountMinute endFreeView
  repeat' split
  · exact (marks_setFreeView _ _).wf h1
  · exact h1
  · exact h1

theorem lockMinute_report (s : State) (h : ReportForm s) : ReportForm (lockMinute s) := by
  have h1 : ReportForm (endUnlock s) := by
    unfold endUnlock
    split
    · exact markLine_wf 2 true _ h
    · exact h
  unfold lockMinute endLockout
  split
  · exact markLine_wf 2 false _ h1
  · exact h1

theorem reportJob_report (r : JobReport) (s : State) (h : ReportForm s) : ReportForm (reportJob r s) := by
  cases r with
  | stay g => exact reportForm_of_eq (by simp [reportJob]) h
  | journal n => exact reportForm_of_eq (by simp [reportJob]) ((marks_markStored n s).wf h)
  | mark => exact h

theorem completePage_report (f : InFlight) (s : State) (h : ReportForm s) : ReportForm (completePage f s) := by
  unfold completePage
  split
  · exact h
  · exact (marks_nextJob _).wf (reportJob_report _ _ h)

theorem voidPendingBuys_report (s : State) : (voidPendingBuys s).report = s.report := by simp

theorem enterFault_report (f : InFlight) (s : State) (h : ReportForm s) : ReportForm (enterFault f s) := by
  unfold enterFault
  refine reportForm_of_eq (voidPendingBuys_report _) ?_
  exact (marks_setStoreState .fault _).wf (by simpa [ReportForm] using h)

theorem kept_reportForm : Kept ReportForm where
  queue _ _ h := h
  power _ _ _ _ := rfl
  resetUnits _ h := h
  resetPath s h := by
    unfold setResetPath
    split
    · exact markAllLinesClear_form _
    · exact h
  image s _ h := by
    unfold loadImage
    dsimp only
    split
    · exact h
    · exact markLine_wf 0 false _ h
  journal _ _ h := h
  stay _ _ _ _ := markAllLinesClear_form _
  handOff h s _ := decodeHandOff_keeps (P := ReportForm) (fun _ h => h) (fun s h => (marks_countTagFailure s).wf h)
    countIgnored_report (fun _ _ h => raiseGeneration_report _ h) dispatch_report startJob_report h s
  accept t s h := by
    cases t with
    | read r => exact h
    | write w => exact acceptWrite_report w s h
  grant := charges_reportForm.grantPassing latchVerdict_report (fun _ _ h => h) (fun _ _ h => h) (fun _ _ _ h => h)
  issue s _ h := issueHead_report s h
  spend _ h := h
  waiting _ _ h := h
  passing _ _ s := reportForm_of_eq (by simp)
  inserted _ s _ := reportForm_of_eq (by simp)
  tokens _ _ h := h
  second _ h := noticeIfChanged_report _ _ h
  due _ _ _ _ h := h
  meter := charges_reportForm.meterSecond
  account := accountMinute_report
  keys _ h := h
  showings _ := reportForm_of_eq (by simp)
  lock := lockMinute_report
  page f s _ := completePage_report f s
  fault f s _ := enterFault_report f s

end Sys2Proof.Machine

namespace Sys2Proof.Machine

/-! The classes' table changes at a TARIFF and at a maintenance reset. -/

theorem charges_tariffsForm : Charges TariffsForm where
  commit _ _ _ h := by simpa [TariffsForm] using h
  hold _ _ _ h := h
  meter _ _ _ _ h := h

theorem setTariff_form (c : Nat) (t : Option Tariff) (s : State) (h : TariffsForm s) : TariffsForm (setTariff c t s) :=
  Sparse.write_wf _ _ _ _ h

theorem maintMessage_tariffs (tag : Half) (s : State) (h : TariffsForm s) : TariffsForm (maintMessage tag s) := by
  unfold maintMessage
  split
  · exact h
  · rfl

theorem dispatch_tariffs (a : AddressType) (m : Message) (s : State) (h : TariffsForm s) : TariffsForm (dispatch a m s) := by
  cases m with
  | tariffDefine c t => exact charges_tariffsForm.tariff setTariff_form c t s h
  | tariffDelete c => exact setTariff_form c none s h
  | maint tag => exact maintMessage_tariffs tag s h
  | _ => simpa [TariffsForm, dispatch, pricingMessage] using h

theorem kept_tariffsForm : Kept TariffsForm where
  queue _ _ h := h
  power _ _ _ _ := rfl
  resetUnits _ h := h
  resetPath _ h := by simpa [TariffsForm] using h
  image _ _ h := by simpa [TariffsForm] using h
  journal _ _ h := h
  stay _ _ _ h := by simpa [TariffsForm] using h
  handOff h s _ := decodeHandOff_keeps (P := TariffsForm) (fun _ h => h) (fun _ h => by simpa [TariffsForm] using h)
    (fun _ h => by simpa [TariffsForm] using h) (fun _ _ h => by simpa [TariffsForm] using h) dispatch_tariffs
    (fun _ h => by simpa [TariffsForm] using h) h s
  accept _ _ h := by simpa [TariffsForm] using h
  grant _ h := by simpa [TariffsForm] using h
  issue _ _ h := by simpa [TariffsForm] using h
  spend _ h := h
  waiting _ _ h := h
  passing _ _ _ h := by simpa [TariffsForm] using h
  inserted _ _ _ h := by simpa [TariffsForm] using h
  tokens _ _ h := h
  second _ h := by simpa [TariffsForm] using h
  due _ _ _ _ h := h
  meter _ h := by simpa [TariffsForm] using h
  account _ h := by simpa [TariffsForm] using h
  keys _ h := h
  showings _ h := by simpa [TariffsForm] using h
  lock _ h := by simpa [TariffsForm] using h
  page _ _ _ h := by simpa [TariffsForm] using h
  fault _ _ _ h := by simpa [TariffsForm] using h

/-! A slot's pending mark changes at a BUY, at the completion of its result write, and at the resets. -/

theorem setSlotPending_form (k : Nat) (b : Bool) (s : State) (h : PendingForm s) : PendingForm (setSlotPending k b s) :=
  Sparse.write_wf _ _ _ _ h

theorem buyRequest_pending (id : Half) (k : Nat) (s : State) (h : PendingForm s) : PendingForm (buyRequest id k s).1 := by
  have hc : PendingForm (commit id (some k) s).1 := by simpa [PendingForm] using h
  unfold buyRequest
  split <;> rename_i he <;> rw [he] at hc
  · exact setSlotPending_form k true _ hc
  · exact hc

theorem answerRequest_pending (k : Nat) (q : Request) (s : State) (h : PendingForm s) : PendingForm (answerRequest k q s).1 := by
  cases q with
  | buy id => exact buyRequest_pending id k s h
  | _ => simpa [PendingForm, answerRequest] using h

theorem acceptWrite_pending (w : BusWrite) (s : State) (h : PendingForm s) : PendingForm (acceptWrite w s) := by
  unfold acceptWrite acceptRequest
  repeat' split
  · simpa [PendingForm] using h
  · simpa [PendingForm] using h
  · exact answerRequest_pending _ _ s h
  · exact h
  · simpa [PendingForm] using h
  · exact h

theorem reportInserted_pending (x : Source) (s : State) (h : PendingForm s) : PendingForm (reportInserted x s) := by
  unfold reportInserted
  repeat' split
  · exact h
  · exact setSlotPending_form _ false s h
  · exact h

theorem kept_pendingForm : Kept PendingForm where
  queue _ _ h := h
  power _ _ _ _ := rfl
  resetUnits _ _ := rfl
  resetPath _ h := by simpa [PendingForm] using h
  image _ _ h := by simpa [PendingForm] using h
  journal _ _ h := h
  stay _ _ _ h := by simpa [PendingForm] using h
  handOff _ _ _ h := by simpa [PendingForm] using h
  accept t s h := by
    cases t with
    | read r => exact h
    | write w => exact acceptWrite_pending w s h
  grant _ h := by simpa [PendingForm] using h
  issue _ _ h := by simpa [PendingForm] using h
  spend _ h := h
  waiting _ _ h := h
  passing _ _ _ h := by simpa [PendingForm] using h
  inserted i s _ h := reportInserted_pending i.source _ (by rw [writeMemory_eq]; exact h)
  tokens _ _ h := h
  second _ h := by simpa [PendingForm] using h
  due _ _ _ _ h := h
  meter _ h := by simpa [PendingForm] using h
  account _ h := by simpa [PendingForm] using h
  keys _ h := h
  showings _ h := by simpa [PendingForm] using h
  lock _ h := by simpa [PendingForm] using h
  page _ _ _ h := by simpa [PendingForm] using h
  fault _ _ _ h := by simpa [PendingForm] using h

/-! A held result changes when one is delivered or released, and at the resets. -/

theorem setHeldResult_form (k : Nat) (a : Option Answer) (s : State) (h : HeldForm s) : HeldForm (setHeldResult k a s) :=
  Sparse.write_wf _ _ _ _ h

theorem deliverResult_held (k : Nat) (a : Answer) (s : State) (h : HeldForm s) : HeldForm (deliverResult k a s) := by
  unfold deliverResult
  split
  · exact setHeldResult_form k _ s h
  · exact h

theorem settlePendingBuys_held (s : State) (h : HeldForm s) : HeldForm (settlePendingBuys s) :=
  foldl_keeps (P := HeldForm) _ (fun _ _ => deliverResult_held _ _ _) _ _ h

theorem voidPendingBuys_held (s : State) (h : HeldForm s) : HeldForm (voidPendingBuys s) :=
  foldl_keeps (P := HeldForm) _ (fun _ _ => deliverResult_held _ _ _) _ _ h

theorem reportJob_held (r : JobReport) (s : State) (h : HeldForm s) : HeldForm (reportJob r s) := by
  cases r with
  | stay g => exact settlePendingBuys_held _ h
  | journal n => exact settlePendingBuys_held _ (by simpa [HeldForm] using h)
  | mark => exact h

theorem completePage_held (f : InFlight) (s : State) (h : HeldForm s) : HeldForm (completePage f s) := by
  unfold completePage
  split
  · exact h
  · have hr := reportJob_held f.report (setEeprom (writePage f.current s.store.eeprom) s) h
    simpa [HeldForm, completeJob] using hr

theorem enterFault_held (f : InFlight) (s : State) (h : HeldForm s) : HeldForm (enterFault f s) := by
  unfold enterFault
  exact voidPendingBuys_held _ (by simpa [HeldForm] using h)

theorem releaseHeld_held (k : Option Nat) (s : State) (h : HeldForm s) : HeldForm (releaseHeld k s) := by
  unfold releaseHeld
  repeat' split
  · exact h
  · exact setHeldResult_form _ none s h
  · exact h

theorem kept_heldForm : Kept HeldForm where
  queue _ _ h := h
  power _ _ _ _ := rfl
  resetUnits _ _ := rfl
  resetPath _ h := by simpa [HeldForm] using h
  image _ _ h := by simpa [HeldForm] using h
  journal _ _ h := h
  stay _ _ _ h := by simpa [HeldForm] using h
  handOff _ _ _ h := by simpa [HeldForm] using h
  accept _ _ h := by simpa [HeldForm] using h
  grant _ h := by simpa [HeldForm] using h
  issue _ _ h := by simpa [HeldForm] using h
  spend _ h := h
  waiting _ _ h := h
  passing w k s h := releaseHeld_held k _ (by rw [writeMemory_eq]; exact h)
  inserted _ _ _ h := by simpa [HeldForm] using h
  tokens _ _ h := h
  second _ h := by simpa [HeldForm] using h
  due _ _ _ _ h := h
  meter _ h := by simpa [HeldForm] using h
  account _ h := by simpa [HeldForm] using h
  keys _ h := h
  showings _ h := by simpa [HeldForm] using h
  lock _ h := by simpa [HeldForm] using h
  page f s _ := completePage_held f s
  fault f s _ := enterFault_held f s

/-! #### The quiet path -/

/-- What moves neither the mode, nor ATTN, nor the port keeps the path quiet. -/
theorem quiet_of_frame {s t : State} (hm : t.path.mode = s.path.mode) (ha : t.path.attn = s.path.attn)
    (hp : t.path.port = s.path.port) (h : QuietOutsideRun s) : QuietOutsideRun t := by
  unfold QuietOutsideRun
  rw [hm, ha, hp]
  exact h

/-- A grant to the passing transaction asserts no ATTN and issues no inserted write. -/
theorem grantPassing_quiet (s : State) (h : QuietOutsideRun s) : QuietOutsideRun (grantPassing s) := by
  intro hm
  obtain ⟨ha, hp⟩ := h (by simpa using hm)
  unfold grantPassing
  split
  · refine ⟨?_, by simpa [setPassing] using hp⟩
    unfold returnRead giveBack
    dsimp only
    split <;> simp [setPassing, ha]
  · exact ⟨ha, by simp⟩
  · exact ⟨ha, hp⟩

theorem setResetPath_quiet (s : State) (h : QuietOutsideRun s) : QuietOutsideRun (setResetPath s) := by
  intro hm
  unfold setResetPath at hm ⊢
  split
  · rename_i hr
    simp [hr] at hm
  · rename_i hr
    exact h hr

theorem completeInserted_quiet (i : Inserted) (s : State) (hi : s.path.port = .inserted i) (h : QuietOutsideRun s) :
    QuietOutsideRun (completeInserted i s) := by
  intro hm
  exact absurd hi ((h (by simpa using hm)).2 i)

theorem completePassing_quiet (w : BusWrite) (k : Option Nat) (s : State) (h : QuietOutsideRun s) :
    QuietOutsideRun (completePassing w k s) := by
  intro hm
  refine ⟨by simpa using (h (by simpa using hm)).1, ?_⟩
  simp [completePassing]

theorem loadImage_quiet (s : State) (hl : s.path.mode = .load) (h : QuietOutsideRun s) : QuietOutsideRun (loadImage s) := by
  intro _
  simpa using h (by simp [hl])

theorem kept_quiet : Kept QuietOutsideRun where
  queue _ _ h := h
  power _ _ _ _ _ := ⟨rfl, by simp [powerOn, Path.reset]⟩
  resetUnits _ h := h
  resetPath := setResetPath_quiet
  image := loadImage_quiet
  journal _ _ h := h
  stay _ _ _ _ hm := absurd rfl hm
  handOff _ _ _ := quiet_of_frame (by simp) (by simp) (by simp)
  accept _ _ := quiet_of_frame (by simp) (by simp) (by simp)
  grant := grantPassing_quiet
  issue _ hr _ hm := absurd hr (by simpa using hm)
  spend _ h := h
  waiting _ _ h := h
  passing := completePassing_quiet
  inserted := completeInserted_quiet
  tokens _ _ h := h
  second _ := quiet_of_frame (by simp) (by simp) (by simp)
  due _ _ _ _ h := h
  meter _ := quiet_of_frame (by simp) (by simp) (by simp)
  account _ := quiet_of_frame (by simp) (by simp) (by simp)
  keys _ h := h
  showings _ := quiet_of_frame (by simp) (by simp) (by simp)
  lock _ := quiet_of_frame (by simp) (by simp) (by simp)
  page _ _ _ := quiet_of_frame (by simp) (by simp) (by simp)
  fault _ _ _ := quiet_of_frame (by simp) (by simp) (by simp)

/-- Settles O60: each of the memories, each table and the quiet path is kept by every move a step is made of. -/
theorem formKept : Obligations.FormKept := by
  intro s t ht
  refine ⟨fun h => step_keeps kept_memoryLaw s t h ht, fun h => ?_, fun h => step_keeps kept_quiet s t h ht⟩
  obtain ⟨htags, hreport, htariffs, hpending, hheld⟩ := h
  exact ⟨step_keeps kept_tagsForm s t htags ht, step_keeps kept_reportForm s t hreport ht,
    step_keeps kept_tariffsForm s t htariffs ht, step_keeps kept_pendingForm s t hpending ht,
    step_keeps kept_heldForm s t hheld ht⟩

end Sys2Proof.Machine


/-! ### The bus rows, and the state after reset -/

namespace Sys2Proof.Machine

/-- A bus row whose operand is no transaction faults (R1; log 8). -/
theorem exec_of_illFormed (i : Instr) (s : State) (h : i.wellFormed = false) : exec i s = .fault .notATransaction := by
  cases hx : i.transaction with
  | none => simp [Instr.wellFormed, hx] at h
  | some x =>
    have hw : x.wellFormed = false := by simpa [Instr.wellFormed, hx] using h
    rw [exec_of_transaction i x s hx]
    simp [busRow, hw]

/-- A transaction presented while another is in progress waits (log 5). -/
theorem present_busy (x : Transaction) (s : State) (h : s.path.passing ≠ none) :
    present x s = { s with path := { s.path with waiting := s.path.waiting ++ [x] } } := by
  unfold present
  split
  · contradiction
  · rfl

/-- Settles O2: a bus row is the presentation of its transaction, whichever row it is. -/
theorem busRowsJudgeTheTransaction : Obligations.BusRowsJudgeTheTransaction := by
  refine ⟨exec_of_illFormed, fun i j x s hi hj => ?_, fun i x s hi hw hm hp => ?_⟩
  · rw [exec_of_transaction i x s hi, exec_of_transaction j x s hj]
  · rw [exec_presents i x s hi hw hm, present_busy x s hp]

/-- Settles O4: each field of the state after reset, by evaluation; what is kept for each ring, ring by ring. -/
theorem resetIsPowerOnState : Obligations.ResetIsPowerOnState := by
  unfold Obligations.ResetIsPowerOnState
  have hc : ∀ r, State.reset.intake.context.get r = none := fun r => by cases r <;> rfl
  have hs : ∀ r, State.reset.intake.staging.get r = none := fun r => by cases r <;> rfl
  have hp : ∀ r, State.reset.presentation.summary.get r = none := fun r => by cases r <;> rfl
  simp only [hc, hs, hp, implies_true, true_and]
  and_intros <;> intros <;> rfl

/-! ### Power-on and set reset -/

/-- An event with no message waiting for the Decoder. -/
theorem afterMessage_of_none (act : State → State) (s : State) (h : s.decoder.handOff = none) :
    afterMessage act s = .next (act s) := by simp [afterMessage, finishHandOff, h]

/-- The write on the port is the inserted one, or the passing one. -/
theorem portWrite_iff (s : State) (w : BusWrite) : portWrite s = some w ↔
    (∃ i, s.path.port = .inserted i ∧ i.write = w) ∨ s.path.port = .passing ∧ ∃ k, s.path.passing = some (.write w k) := by
  unfold portWrite
  split
  · rename_i i hi
    simp [hi]
  · rename_i w' k hp hw
    simp [hp, hw]
  · rename_i h1 h2
    constructor
    · intro h
      cases h
    · rintro (⟨i, hi, -⟩ | ⟨hp, k, hw⟩)
      · exact absurd hi (h1 i)
      · exact absurd hw (h2 w k hp)

/-- A lane of a write cut short: the lane of the write, its enable on only where it was. -/
theorem cutLanes_get (count i : Nat) (lanes : List Lane) (k : Nat) : (cutLanes count i lanes)[k]? =
    (lanes[k]?).map fun l => { l with enabled := l.enabled && Config.cutShortTakesNew count (i + k) } := by
  induction lanes generalizing i k with
  | nil => rfl
  | cons l rest ih =>
    cases k with
    | zero => rfl
    | succ k =>
      simp only [cutLanes, List.getElem?_cons_succ]
      rw [ih, Nat.add_right_comm, Nat.add_assoc]

/-- The memory after power-on: each byte as before, or that of an enabled lane of the write on the port. -/
theorem readByte_cutMemory (s : State) (w : BusWrite) (hw : portWrite s = some w) (h : Memory.wf s.memory = true) (a : Nat) :
    readByte (cutMemory s) a = readByte s a ∨
      ∃ k l, w.lanes[k]? = some l ∧ l.enabled = true ∧ (w.address.toNat + k) % s.memorySize.bytes = a % s.memorySize.bytes
        ∧ readByte (cutMemory s) a = l.data := by
  have hc : readByte (cutMemory s) a = readByte (writeLanes w.address.toNat (cutLanes s.freeCount 0 w.lanes) s) a := by
    simp only [cutMemory, hw]
    rfl
  rw [hc]
  rcases readByte_writeLanes w.address.toNat (cutLanes s.freeCount 0 w.lanes) s a h with hs | ⟨k, y, hk, hy, ha, hd⟩
  · exact .inl hs
  · rw [cutLanes_get, Option.map_eq_some_iff] at hk
    obtain ⟨l, hl, rfl⟩ := hk
    simp only [Bool.and_eq_true] at hy
    exact .inr ⟨k, l, hl, hy.1, ha, hd⟩

/-- A byte of a page, by its place in the page. -/
theorem byteAt_readPage (eeprom : List Host.Cell) (page j : Nat) (hj : j < 32) :
    byteAt (readPage eeprom page) j = Sparse.read Config.storeUnlisted eeprom (32 * page + j) := by
  simp [byteAt, readPage, readStore, List.getD, hj]

/-- A byte of a page cut short: the old byte or the new one. -/
theorem byteAt_tornPage (count : Nat) (p : PageWrite) (eeprom : List Host.Cell) (j : Nat) (hj : j < 32) :
    byteAt (tornPage count p eeprom).bytes j = Sparse.read Config.storeUnlisted eeprom (32 * p.page + j) ∨
      byteAt (tornPage count p eeprom).bytes j = byteAt p.bytes j := by
  have hb : byteAt (tornPage count p eeprom).bytes j = cutByte count j (byteAt (readPage eeprom p.page) j) (byteAt p.bytes j) := by
    simp [byteAt, tornPage, List.getD, hj]
  rw [hb, byteAt_readPage eeprom p.page j hj]
  unfold cutByte
  split
  · exact .inr rfl
  · exact .inl rfl

/-- The store after power-on: nothing changes outside the page that was being written, and a byte of it is old or new. -/
theorem read_cutPage (s : State) (f : InFlight) (hf : s.store.inFlight = some f) (h : Eeprom.wf s.store.eeprom = true) (a : Nat) :
    (a / 32 ≠ f.current.page → storeByte (cutPage s) a = storeByte s a) ∧
      (a / 32 = f.current.page → storeByte (cutPage s) a = storeByte s a ∨
        storeByte (cutPage s) a = byteAt f.current.bytes (a % 32)) := by
  have hlen : (tornPage s.freeCount f.current s.store.eeprom).bytes.length = 32 := by simp [tornPage]
  have hpage : (tornPage s.freeCount f.current s.store.eeprom).page = f.current.page := rfl
  have hc : storeByte (cutPage s) a = Sparse.read Config.storeUnlisted
      (writePage (tornPage s.freeCount f.current s.store.eeprom) s.store.eeprom) a := by simp only [storeByte, cutPage, hf]
  rw [hc]
  unfold writePage
  rw [read_writeStore _ _ _ _ h, hlen, hpage]
  refine ⟨fun ha => if_neg (by omega), fun ha => ?_⟩
  have hj : a - 32 * f.current.page = a % 32 := by omega
  have hsum : 32 * f.current.page + a % 32 = a := by omega
  rw [if_pos (by omega), hj]
  have ht := byteAt_tornPage s.freeCount f.current s.store.eeprom (a % 32) (Nat.mod_lt _ (by decide))
  rwa [hsum] at ht

theorem cutMemory_none (s : State) (h : portWrite s = none) : cutMemory s = s := by simp [cutMemory, h]

theorem cutPage_none (s : State) (h : s.store.inFlight = none) : cutPage s = s := by simp [cutPage, h]

/-- The memory power-on leaves. -/
theorem powerOn_memory (a b : Bool) (s : State) : (powerOn a b s).memory = (cutMemory s).memory := by
  simp [powerOn]

/-- The serial store power-on leaves. -/
theorem powerOn_eeprom (a b : Bool) (s : State) : (powerOn a b s).store.eeprom = (cutPage (cutMemory s)).store.eeprom := rfl

/-- Settles O6: power-on is the state at reset over the two memories, each with what was being written cut short. -/
theorem powerOnClearsState : Obligations.PowerOnClearsState := by
  refine ⟨portWrite_iff, fun a b s hm => ?_⟩
  have hs : (cutMemory s).store = s.store := by simp
  refine ⟨powerOn a b s, afterMessage_of_none _ s hm, rfl, fun hf => ?_, fun hw => ?_, fun hl f hf x => ?_, fun hl w hw x => ?_⟩
  · rw [powerOn_eeprom, cutPage_none _ (by rw [hs]; exact hf), hs]
  · rw [powerOn_memory, cutMemory_none s hw]
  · have hc := read_cutPage (cutMemory s) f (by rw [hs]; exact hf) (by rw [hs]; exact hl.2) x
    unfold storeByte at hc ⊢
    rwa [powerOn_eeprom, hs] at *
  · have hc := readByte_cutMemory s w hw hl.1 x
    have hr : readByte (powerOn a b s) x = readByte (cutMemory s) x := by
      have hsize : (powerOn a b s).memorySize = (cutMemory s).memorySize := by simp [powerOn]
      unfold readByte
      rw [powerOn_memory, hsize]
    rwa [hr]

/-- Settles O7: the units' parts in every mode, and the path's part in RUN. -/
theorem setResetRestartsTheSet : Obligations.SetResetRestartsTheSet := by
  intro s hm
  refine ⟨setReset s, afterMessage_of_none _ s hm, ?_, fun hr => ?_, fun hr => ⟨fun n => ?_, ?_, fun hp => ?_, fun i hi => ?_⟩⟩
  all_goals unfold setReset setResetPath
  · split <;> rfl
  · rw [if_neg (by simpa [setResetUnits] using hr)]
    exact ⟨rfl, rfl⟩
  all_goals rw [if_pos (by simpa [setResetUnits] using hr)]
  · exact lineMark_markAllLinesClear n _
  · rfl
  · show s.path.port.quiet = s.path.port
    cases hport : s.path.port with
    | inserted i => exact absurd hport (hp i)
    | _ => rfl
  · show s.path.port.quiet = _
    rw [hi]
    rfl

end Sys2Proof.Machine


/-! ### What a write leaves in memory, and which rows change a memory -/

namespace Sys2Proof.Machine

/-- A byte that no lane of a write reaches is as before. -/
theorem readByte_writeLanes_outside (a : Nat) (l : List Lane) (s : State) (x : Nat) (h : Memory.wf s.memory = true)
    (hx : ∀ n, n < l.length → x % s.memorySize.bytes ≠ (a + n) % s.memorySize.bytes) :
    readByte (writeLanes a l s) x = readByte s x := by
  rcases readByte_writeLanes a l s x h with hs | ⟨k, y, hk, -, ha, -⟩
  · exact hs
  · exact absurd ha.symm (hx k (List.getElem?_eq_some_iff.1 hk).1)

/-- Addresses less than the memory's size apart are distinct in it. -/
theorem mod_ne_of_near (a n size : Nat) (hn : 0 < n) (hs : n < size) : a % size ≠ (a + n) % size := by
  intro h
  have hd := Nat.sub_mod_eq_zero_of_mod_eq h.symm
  rw [Nat.add_sub_cancel_left, Nat.mod_eq_of_lt hs] at hd
  omega

/-- A byte under a lane of a write: the lane's where it is enabled, and as before otherwise (R1). -/
theorem readByte_writeLanes_lane (a : Nat) (l : List Lane) (s : State) (h : Memory.wf s.memory = true)
    (hs : l.length ≤ s.memorySize.bytes) (n : Nat) (y : Lane) (hy : l[n]? = some y) :
    readByte (writeLanes a l s) (a + n) = if y.enabled then y.data else readByte s (a + n) := by
  induction l generalizing a s n with
  | nil => simp at hy
  | cons z rest ih =>
    simp only [writeLanes]
    rw [List.length_cons] at hs
    have hu : Memory.wf (if z.enabled then writeByte a z.data s else s).memory = true := by
      split
      · exact writeByte_wf _ _ _ h
      · exact h
    have hz : (if z.enabled then writeByte a z.data s else s).memorySize = s.memorySize := by split <;> rfl
    cases n with
    | zero =>
      obtain rfl : z = y := by simpa using hy
      rw [Nat.add_zero, readByte_writeLanes_outside _ _ _ _ hu fun n hn => ?_]
      · split
        · exact readByte_writeByte_same _ _ _ h
        · rfl
      · rw [hz, Nat.add_assoc]
        exact mod_ne_of_near a (1 + n) _ (by omega) (by omega)
    | succ n =>
      have hn : n < rest.length := (List.getElem?_eq_some_iff.1 (by simpa using hy : rest[n]? = some y)).1
      have he : a + (n + 1) = a + 1 + n := by omega
      rw [he, ih (a + 1) _ hu (by rw [hz]; omega) n (by simpa using hy)]
      congr 1
      split
      · refine readByte_writeByte_other _ _ _ _ h ?_
        rw [Nat.add_assoc]
        exact (mod_ne_of_near a (1 + n) _ (by omega) (by omega)).symm
      · rfl

/-- A transaction is far shorter than any memory. -/
theorem lanes_le_memory (w : BusWrite) (hw : w.wellFormed = true) (m : MemorySize) : w.lanes.length ≤ m.bytes := by
  have hl : w.lanes.length ≤ 32 := by
    simp only [BusWrite.wellFormed, spanWellFormed, Bool.and_eq_true, decide_eq_true_eq] at hw
    omega
  cases m <;> simp only [MemorySize.bytes] <;> omega

/-- Neither the memory nor its size changes. -/
def SameMemory (s t : State) : Prop := t.memory = s.memory ∧ t.memorySize = s.memorySize

/-- The serial store's bytes do not change. -/
def SameStore (s t : State) : Prop := t.store.eeprom = s.store.eeprom

theorem SameMemory.read {s t : State} (h : SameMemory s t) (a : Nat) : readByte t a = readByte s a := by
  unfold readByte
  rw [h.1, h.2]

theorem SameStore.read {s t : State} (h : SameStore s t) (a : Nat) : storeByte t a = storeByte s a := by
  unfold storeByte
  rw [h]

theorem SameMemory.after {act : State → State} {s t : State} (ha : ∀ x, SameMemory x (act x)) (ht : afterMessage act s = .next t) :
    SameMemory s t := by
  cases ht
  obtain ⟨hm, hs⟩ := ha (finishHandOff s)
  exact ⟨by rw [hm]; simp, by rw [hs]; simp⟩

theorem SameStore.after {act : State → State} {s t : State} (ha : ∀ x, SameStore x (act x)) (ht : afterMessage act s = .next t) :
    SameStore s t := by
  cases ht
  have hs := ha (finishHandOff s)
  unfold SameStore at hs ⊢
  rw [hs]
  simp

theorem busRow_same {x : Transaction} {s t : State} (ht : busRow x s = .next t) : SameMemory s t ∧ SameStore s t := by
  unfold busRow at ht
  split at ht
  · exact ⟨.after (fun _ => ⟨by simp, by simp⟩) ht, .after (fun _ => by simp [SameStore]) ht⟩
  · cases ht

theorem messageRow_same (is : Finding → Bool) (s : State) : SameMemory s (messageRow is s) ∧ SameStore s (messageRow is s) :=
  ⟨⟨by simp, by simp⟩, by simp [SameStore]⟩

/-- An event of the load, and an expiry of a timer, act or do nothing. -/
theorem atPhase_cases (p : LoadPhase) (act : State → State) (s : State) : atPhase p act s = act s ∨ atPhase p act s = s := by
  unfold atPhase
  split
  · exact .inl rfl
  · exact .inr rfl

theorem takeExpiry_cases (due : Timebase → Nat) (taken : Timebase → Timebase) (act : State → State) (s : State) :
    takeExpiry due taken act s = act { s with time := taken s.time } ∨ takeExpiry due taken act s = s := by
  unfold takeExpiry
  split
  · exact .inl rfl
  · exact .inr rfl

theorem loadStayHeld_same (s : State) : SameMemory s (loadStayHeld s) ∧ SameStore s (loadStayHeld s) := by
  unfold loadStayHeld
  split
  · exact ⟨⟨by simp, by simp⟩, by simp [SameStore]⟩
  · exact ⟨⟨rfl, rfl⟩, rfl⟩

theorem atPhase_same {p : LoadPhase} {act : State → State} (ha : ∀ x, SameMemory x (act x) ∧ SameStore x (act x)) (s : State) :
    SameMemory s (atPhase p act s) ∧ SameStore s (atPhase p act s) := by
  rcases atPhase_cases p act s with e | e <;> rw [e]
  · exact ha s
  · exact ⟨⟨rfl, rfl⟩, rfl⟩

theorem takeExpiry_same {due : Timebase → Nat} {taken : Timebase → Timebase} {act : State → State}
    (ha : ∀ x, SameMemory x (act x) ∧ SameStore x (act x)) (s : State) :
    SameMemory s (takeExpiry due taken act s) ∧ SameStore s (takeExpiry due taken act s) := by
  rcases takeExpiry_cases due taken act s with e | e <;> rw [e]
  · exact ha { s with time := taken s.time }
  · exact ⟨⟨rfl, rfl⟩, rfl⟩

theorem insertedComplete_store (s : State) : SameStore s (insertedComplete s) := by
  unfold insertedComplete
  split
  · simp [SameStore]
  · rfl

theorem passingComplete_store (s : State) : SameStore s (passingComplete s) := by
  unfold passingComplete
  split
  · simp [SameStore]
  · rfl

theorem onPageWrite_memory {act : InFlight → State → State} (ha : ∀ f x, SameMemory x (act f x)) (s : State) :
    SameMemory s (onPageWrite act s) := by
  unfold onPageWrite
  split
  · exact ha _ s
  · exact ⟨rfl, rfl⟩

theorem completeLastPage_memory (f : InFlight) (s : State) : SameMemory s (completeLastPage f s) := by
  unfold completeLastPage
  split
  · exact ⟨by simp, by simp⟩
  · exact ⟨rfl, rfl⟩

theorem renewTokens_same (s : State) : SameMemory s (renewTokens s) ∧ SameStore s (renewTokens s) := by
  unfold renewTokens
  split <;> exact ⟨⟨rfl, rfl⟩, rfl⟩

/-- The rows that write neither memory. -/
theorem exec_same (i : Instr) (s t : State) (ht : exec i s = .next t) (hp : ∀ a b, i ≠ .powerOn a b)
    (hport : i ≠ .insertedWriteComplete ∧ i ≠ .passingWriteComplete)
    (hstore : i ≠ .pageWriteComplete ∧ i ≠ .storeJobComplete ∧ i ≠ .storeFault) : SameMemory s t ∧ SameStore s t := by
  have key : ∀ act : State → State, (∀ x, SameMemory x (act x) ∧ SameStore x (act x)) → afterMessage act s = .next t →
      SameMemory s t ∧ SameStore s t := fun act ha h => ⟨.after (fun x => (ha x).1) h, .after (fun x => (ha x).2) h⟩
  cases i with
  | powerOn a b => exact absurd rfl (hp a b)
  | insertedWriteComplete => exact absurd rfl hport.1
  | passingWriteComplete => exact absurd rfl hport.2
  | pageWriteComplete => exact absurd rfl hstore.1
  | storeJobComplete => exact absurd rfl hstore.2.1
  | storeFault => exact absurd rfl hstore.2.2
  | busPassThrough x | otherWindowAccess x => exact busRow_same ht
  | ringRead x | reportRead x => exact busRow_same ht
  | ringWrite x | reportWriteDropped x | requestWriteDropped x | requestWriteNotTaken x | buy x | unlock x | relock x | refresh x
  | unknownRequestKind x => exact busRow_same ht
  | messageRejected | key | serviceAdd | serviceDelete | listing | tariffDefine | tariffDelete | pricing | time | freeviewOn
  | freeviewOff | checkin | checkout | credit | ack | ceiling | maint => cases ht; exact messageRow_same _ s
  | setReset => exact key setReset (fun _ => ⟨⟨by simp [setReset, setResetUnits], by simp [setReset, setResetUnits]⟩,
      by simp [SameStore, setReset, setResetUnits]⟩) ht
  | imageLoad => exact key _ (atPhase_same fun _ => ⟨⟨by simp, by simp⟩, by simp [SameStore]⟩) ht
  | journalLoad => exact key _ (atPhase_same fun _ => ⟨⟨by simp, by simp⟩, by simp [SameStore]⟩) ht
  | stayLoad => exact key _ (atPhase_same loadStayHeld_same) ht
  | portGrant => exact key (fun s => presentWaiting (grantPort s)) (fun _ => ⟨⟨by simp, by simp⟩, by simp [SameStore]⟩) ht
  | refreshPeriodStart => exact key _ renewTokens_same ht
  | secondsAdvance => exact key _ (fun _ => ⟨⟨by simp, by simp⟩, by simp [SameStore]⟩) ht
  | accountSecondTimer | accountMinuteTimer | keyMinuteTimer | showingMinuteTimer | lockMinuteTimer =>
    exact key _ (takeExpiry_same fun _ => ⟨⟨by simp, by simp⟩, by simp [SameStore]⟩) ht

/-- The rows of the serial store leave the memory alone. -/
theorem exec_memory (i : Instr) (s t : State) (ht : exec i s = .next t) (hp : ∀ a b, i ≠ .powerOn a b)
    (hport : i ≠ .insertedWriteComplete ∧ i ≠ .passingWriteComplete) : SameMemory s t := by
  by_cases hstore : i ≠ .pageWriteComplete ∧ i ≠ .storeJobComplete ∧ i ≠ .storeFault
  · exact (exec_same i s t ht hp hport hstore).1
  · obtain rfl | rfl | rfl : i = .pageWriteComplete ∨ i = .storeJobComplete ∨ i = .storeFault := by tauto
    · exact .after (onPageWrite_memory fun _ _ => ⟨by simp, by simp⟩) ht
    · exact .after (onPageWrite_memory completeLastPage_memory) ht
    · exact .after (onPageWrite_memory fun _ _ => ⟨by simp, by simp⟩) ht

/-- The rows of the memory port leave the serial store alone. -/
theorem exec_store (i : Instr) (s t : State) (ht : exec i s = .next t) (hp : ∀ a b, i ≠ .powerOn a b)
    (hstore : i ≠ .pageWriteComplete ∧ i ≠ .storeJobComplete ∧ i ≠ .storeFault) : SameStore s t := by
  by_cases hport : i ≠ .insertedWriteComplete ∧ i ≠ .passingWriteComplete
  · exact (exec_same i s t ht hp hport hstore).2
  · obtain rfl | rfl : i = .insertedWriteComplete ∨ i = .passingWriteComplete := by tauto
    · exact .after insertedComplete_store ht
    · exact .after passingComplete_store ht

/-- Settles O45: a write changes the bytes of its enabled lanes, and only the rows named write a memory. -/
theorem memoryFrame : Obligations.MemoryFrame := by
  refine ⟨fun w s h hw => ⟨fun n l hl => ?_, fun a ha => ?_⟩, fun i s t ht => ⟨fun h1 h2 hp => ?_, fun h1 h2 h3 hp => ?_⟩⟩
  · exact readByte_writeLanes_lane _ _ s h.1 (lanes_le_memory w hw _) n l hl
  · exact readByte_writeLanes_outside _ _ s a h.1 ha
  · exact (exec_memory i s t ht hp ⟨h1, h2⟩).read
  · exact (exec_store i s t ht hp ⟨h1, h2, h3⟩).read

end Sys2Proof.Machine


/-! ### Events of the memory port -/

namespace Sys2Proof.Machine

/-- What keeps a slot's pending mark (R13, R168; log 20). -/
theorem resultToCome_iff (s : State) (k : Nat) : resultToCome s k = true ↔
    (∃ e ∈ s.account.pendingBuys, e.slot = k) ∨ heldResult s k ≠ none ∨ ∃ e ∈ s.path.results, e.slot = k := by
  simp [resultToCome, Option.isSome_iff_ne_none, or_assoc]

/-- A slot's pending mark after one is written. -/
theorem slotPending_setSlotPending (k : Nat) (b : Bool) (s : State) (h : PendingForm s) (j : Nat) :
    slotPending (setSlotPending k b s) j = if j = k then b else slotPending s j := by
  unfold slotPending setSlotPending
  split
  · rename_i hj
    subst hj
    exact Sparse.read_write_same _ _ _ _ h
  · rename_i hj
    exact Sparse.read_write_other _ _ _ _ _ h hj

/-- A held result after one is written. -/
theorem heldResult_setHeldResult (k : Nat) (a : Option Answer) (s : State) (h : HeldForm s) (j : Nat) :
    heldResult (setHeldResult k a s) j = if j = k then a else heldResult s j := by
  unfold heldResult setHeldResult
  split
  · rename_i hj
    subst hj
    exact Sparse.read_write_same _ _ _ _ h
  · rename_i hj
    exact Sparse.read_write_other _ _ _ _ _ h hj

/-- The report of an inserted write's completion touches the pending marks alone. -/
theorem reportInserted_eq (x : Source) (s : State) : reportInserted x s =
    { s with requests := { s.requests with pendingMarks := (reportInserted x s).requests.pendingMarks } } := by
  unfold reportInserted
  repeat' split
  all_goals rfl

/-- The state a completed inserted write is reported on: memory written, the port free, ATTN risen with the mark. -/
def insertedWritten (i : Inserted) (s : State) : State :=
  { s with
    path := { s.path with port := .free, attn := i.attention || s.path.attn }
    memory := (writeMemory i.write s).memory }

theorem completeInserted_eq (i : Inserted) (s : State) :
    completeInserted i s = reportInserted i.source (insertedWritten i s) := by
  unfold completeInserted insertedWritten
  rw [writeMemory_eq]

/-- The pending mark of a result's slot falls unless a result of it is still to come. -/
theorem slotPending_reportInserted (k : Nat) (s : State) (h : PendingForm s) (j : Nat) :
    slotPending (reportInserted (.result k) s) j =
      if j = k then slotPending s k && resultToCome s k else slotPending s j := by
  unfold reportInserted
  dsimp only
  by_cases hr : resultToCome s k = true
  · rw [if_pos hr, hr, Bool.and_true]
    split
    · rename_i hj
      rw [hj]
    · rfl
  · rw [if_neg hr, slotPending_setSlotPending _ _ _ h]
    simp [hr]

/-- Settles O43: the completion of an inserted write is its write in memory, then the report to its owner. -/
theorem insertedWriteCompletes : Obligations.InsertedWriteCompletes := by
  refine ⟨resultToCome_iff, fun s i hm hi ht => ?_⟩
  have hx : insertedComplete s = reportInserted i.source (insertedWritten i s) := by
    rw [← completeInserted_eq]
    simp [insertedComplete, hi]
  have hf : PendingForm (insertedWritten i s) := ht.2.2.2.1
  refine ⟨reportInserted i.source (insertedWritten i s), ?_, ?_, fun n hn => ?_, fun k hk => ⟨fun j hj => ?_, ?_⟩⟩
  · rw [← hx]
    exact afterMessage_of_none _ s hm
  · exact reportInserted_eq _ _
  · rw [hn]
    rfl
  · rw [hk, slotPending_reportInserted k _ hf, if_neg hj]
    rfl
  · rw [hk, slotPending_reportInserted k _ hf, if_pos rfl]
    rfl

/-! #### The passing write -/

/-- The state a completed passing write leaves before a held result is released: memory written, the port and the upstream free. -/
def passingWritten (w : BusWrite) (s : State) : State :=
  { s with path := { s.path with port := .free, passing := none }, memory := (writeMemory w s).memory }

theorem completePassing_eq (w : BusWrite) (k : Option Nat) (s : State) : completePassing w k s = releaseHeld k (passingWritten w s) := by
  unfold completePassing passingWritten setPort setPassing
  rw [writeMemory_eq]

/-- A release touches the insertion queue's results and the held results alone. -/
theorem releaseHeld_eq (k : Option Nat) (s : State) : releaseHeld k s = { s with
    path := { s.path with results := (releaseHeld k s).path.results }
    requests := { s.requests with heldResults := (releaseHeld k s).requests.heldResults } } := by
  unfold releaseHeld
  repeat' split
  all_goals rfl

/-- With no result held for the slot there is nothing to release. -/
theorem releaseHeld_none (k : Nat) (s : State) (h : heldResult s k = none) : releaseHeld (some k) s = s := by
  simp [releaseHeld, h]

/-- A held result joins the insertion queue, and its slot holds none any more (R171). -/
theorem releaseHeld_some (k : Nat) (a : Answer) (s : State) (h : heldResult s k = some a) :
    releaseHeld (some k) s = appendResult k a (setHeldResult k none s) := by
  simp [releaseHeld, h]

/-- Settles O44: the completion of a passing write is its write in memory, then the release of a result held for its slot. -/
theorem passingWriteCompletes : Obligations.PassingWriteCompletes := by
  intro s w slot hm hport hpass ht
  refine ⟨releaseHeld slot (passingWritten w s), ?_, fun hw => ?_, releaseHeld_eq _ _, fun hs => ?_,
    fun k hk => ⟨fun hn => ?_, fun a ha => ?_⟩⟩
  · rw [← completePassing_eq]
    have hx : passingComplete s = presentWaiting (completePassing w slot s) := by simp [passingComplete, hport, hpass]
    rw [← hx]
    exact afterMessage_of_none _ s hm
  · refine presentWaiting_none _ ?_
    simpa [passingWritten] using hw
  · subst hs
    exact ⟨rfl, rfl⟩
  · subst hk
    rw [releaseHeld_none k (passingWritten w s) hn]
    exact ⟨rfl, rfl⟩
  · subst hk
    have hf : HeldForm (passingWritten w s) := ht.2.2.2.2
    rw [releaseHeld_some k a (passingWritten w s) ha]
    refine ⟨rfl, ?_, fun j hj => ?_⟩
    · exact (heldResult_setHeldResult k none _ hf k).trans (if_pos rfl)
    · exact (heldResult_setHeldResult k none _ hf j).trans (if_neg hj)

/-! ### A maintenance reset -/

/-- A maintenance reset adds every line (R19). -/
theorem maintMessage_reset (tag : Half) (s : State) (h : s.decoder.lastMaintenanceTag ≠ some tag) :
    maintMessage tag s = { s with
      intake := { s.intake with tags := [] }
      decoder := { s.decoder with lastMaintenanceTag := some tag }
      keys := { pool := [] }
      showings := { services := [], events := [] }
      lock := s.lock.cleared
      account := { s.account with tariffs := [], pricing := none, freeView := .off }
      report := (maintMessage tag s).report } ∧ AllLinesAdded s (maintMessage tag s) := by
  have hx : maintMessage tag s = { maintenanceReset s with
      decoder := { (maintenanceReset s).decoder with lastMaintenanceTag := some tag } } := if_neg h
  refine ⟨by rw [hx]; rfl, fun n => ?_⟩
  rw [hx]
  exact lineMark_markAllLines n _

/-- MAINT runs its dispatch on the state that a ROOM message's acceptance leaves (R63). -/
theorem exec_maint (s : State) (a : AddressType) (n tag : Half) (hf : Handed s (.accepted a n (.maint tag))) :
    exec .maint s =
      .next (startJob (maintMessage tag (if a = .room then acceptRoom n (clearHandOff s) else clearHandOff s))) := by
  show Host.Outcome.next (messageRow (Finding.accepts .maint) s) = _
  rw [messageRow_accepts .maint s a n (.maint tag) hf rfl]
  rfl

/-- The acceptance of a message leaves alone what a maintenance reset reads. -/
theorem accepted_kept (s : State) (a : AddressType) (n : Half) :
    let x := if a = .room then acceptRoom n (clearHandOff s) else clearHandOff s
    x.decoder.lastMaintenanceTag = s.decoder.lastMaintenanceTag ∧ x.intake = s.intake ∧ x.lock = s.lock ∧
      x.report = s.report := by
  dsimp only
  split
  · rw [acceptRoom_eq]
    exact ⟨rfl, rfl, rfl, rfl⟩
  · exact ⟨rfl, rfl, rfl, rfl⟩

end Sys2Proof.Machine

namespace Sys2Proof

open Machine

/-- Settles O40: the acceptance of a ROOM message, then the reset unless the tag is the last one. -/
theorem maintenanceReset : Obligations.MaintenanceReset := by
  intro s a n tag hf
  dsimp only
  rw [exec_maint s a n tag hf]
  obtain ⟨htag, hintake, hlock, hreport⟩ := accepted_kept s a n
  refine ⟨fun ha => by rw [if_pos ha, acceptRoom_eq], fun hl => ?_, fun hl => ?_⟩
  · have hk : ∀ x : State, x.decoder.lastMaintenanceTag = s.decoder.lastMaintenanceTag → maintMessage tag x = x :=
      fun x hx => if_pos (hx.trans hl)
    rw [hk _ htag]
  · obtain ⟨he, hm⟩ := maintMessage_reset tag _ (by rw [htag]; exact hl)
    refine ⟨_, rfl, fun k => ?_, ?_⟩
    · rw [hm k]
      unfold lineMark
      rw [hreport]
    · rw [← hintake, ← hlock]
      exact he

end Sys2Proof


/-! ### The arbiter (R15, R16) -/

namespace Sys2Proof.Machine

/-- A line stands in the dirty set exactly if the search for the lowest finds one. -/
theorem firstDirty_isSome (s : State) : (firstDirty s).isSome = true ↔ ∃ n, n < 53 ∧ lineMark s n ≠ none := by
  simp [firstDirty, lineCount, Option.isSome_iff_ne_none]

/-- The lowest line in the dirty set. -/
theorem firstDirty_of (s : State) (n : Nat) (m : Bool) (hn : n < lineCount) (hm : lineMark s n = some m)
    (hl : ∀ j, j < n → lineMark s j = none) : firstDirty s = some n := by
  unfold firstDirty
  rw [List.find?_range_eq_some]
  exact ⟨by simp [hm], List.mem_range.2 hn, fun j hj => by simp [hl j hj]⟩

/-- The head of the insertion queue waits in RUN where a result or a line waits (R4, R16). -/
theorem headWaiting_iff (s : State) : headWaiting s = true ↔
    s.path.mode = .run ∧ (s.path.results ≠ [] ∨ ∃ n, n < 53 ∧ lineMark s n ≠ none) := by
  simp [headWaiting, firstDirty_isSome]

/-- The head takes a free port ahead of a passing transaction while a token is left (R16). -/
theorem headGoesFirst_iff (s : State) : headGoesFirst s = true ↔ s.path.mode = .run ∧ 0 < s.path.tokens ∧
    (s.path.results ≠ [] ∨ ∃ n, n < 53 ∧ lineMark s n ≠ none) := by
  simp only [headGoesFirst, Bool.and_eq_true, headWaiting_iff, decide_eq_true_eq]
  tauto

/-- A plain read returns memory as it is. -/
theorem returnRead_plain (r : BusRead) (s : State) : returnRead r .plain s = { s with path := { s.path with
    returned := s.path.returned ++ [{ address := r.address, data := readBytes s r.address.toNat (4 * r.words) }] } } := rfl

/-- A read of report line 0 deasserts ATTN (R17). -/
theorem returnRead_line (r : BusRead) (n : Nat) (s : State) : returnRead r (.line n) s = { s with path := { s.path with
    returned := s.path.returned ++ [{ address := r.address, data := readBytes s r.address.toNat (4 * r.words) }]
    attn := if n = 0 then false else s.path.attn } } := rfl

/-- A new refresh period renews the tokens in RUN (R15). -/
theorem renewTokens_eq (s : State) : renewTokens s = { s with path := { s.path with
    tokens := if s.path.periodRunning = true ∧ s.path.mode = .run then s.path.tokensPerPeriod else s.path.tokens } } := by
  unfold renewTokens
  split <;> rfl

theorem grantPort_busy (s : State) (h : s.path.port ≠ .free) : grantPort s = s := by
  unfold grantPort
  split
  · contradiction
  · rfl

theorem grantPort_free (s : State) (h : s.path.port = .free) : grantPort s = arbitrate s := by simp [grantPort, h]

/-- With nothing waiting for the port there is nothing to grant. -/
theorem arbitrate_idle (s : State) (hw : headWaiting s = false) (hp : s.path.passing = none) : arbitrate s = s := by
  simp [arbitrate, hw, hp]

/-- The passing transaction has the port where no head waits, or no token is left. -/
theorem arbitrate_passing (s : State) (p : Passing) (hp : s.path.passing = some p) (h : headWaiting s = false ∨ s.path.tokens = 0) :
    arbitrate s = grantPassing s := by
  unfold arbitrate
  rw [hp]
  cases hw : headWaiting s with
  | false => rfl
  | true =>
    have ht : s.path.tokens = 0 := by simpa [hw] using h
    simp [ht]

/-- What the head finds when it takes the port: a token spent where a transaction passes. -/
def tokenSpent (s : State) : State :=
  { s with path := { s.path with tokens := if s.path.passing = none then s.path.tokens else s.path.tokens - 1 } }

/-- The head has the port where nothing passes, or a token is left. -/
theorem arbitrate_head (s : State) (hw : headWaiting s = true) (h : s.path.passing = none ∨ 0 < s.path.tokens) :
    arbitrate s = issueHead (tokenSpent s) := by
  unfold arbitrate tokenSpent
  rw [hw]
  cases hp : s.path.passing with
  | none => simp [← hp]
  | some p =>
    have ht : 0 < s.path.tokens := by simpa [hp] using h
    simp [ht, spendToken, hp]

/-- A result at the head becomes a write of its result and reason bytes (R13). -/
theorem issueHead_result (s : State) (e : ResultEntry) (rest : List ResultEntry) (h : s.path.results = e :: rest) :
    issueHead s = { s with path := { s.path with
      port := .inserted { source := .result e.slot, write := resultWrite s e.slot e.answer, attention := e.attention }
      results := rest } } := by
  simp [issueHead, h, setPort]

/-- A line at the head becomes a burst of its granule (R13). -/
theorem issueHead_line (s : State) (n : Nat) (h : s.path.results = []) (hn : firstDirty s = some n) :
    issueHead s = { s with
      path := { s.path with
        port := .inserted { source := .line n, write := lineWrite s n, attention := (lineMark s n).getD false } }
      report := Sparse.write none s.report n none } := by
  simp [issueHead, h, hn, setPort, unmarkLine]

/-- Settles O41: what waits, what is granted, and what the grant does. -/
theorem arbiterGrants : Obligations.ArbiterGrants := by
  refine ⟨headWaiting_iff, fun r s => ⟨returnRead_plain r s, fun n => returnRead_line r n s⟩, fun s hm => ?_, fun _ => rfl,
    fun i x s hi hw hm => exec_presents i x s hi hw hm, fun s h => ?_, fun s hm ht => ⟨grantPort s, ?_, by simp, fun hb => ?_,
      fun hf hw hp => ?_, fun w k hf hp hw => ?_, fun r x hf hp hw => ?_, fun e rest hf hr he hp => ?_,
      fun n m hf hr he hn hl hlow hp => ?_⟩⟩
  · rw [← renewTokens_eq]
    exact afterMessage_of_none _ s hm
  · rcases h with h | h
    · exact presentWaiting_busy s h
    · exact presentWaiting_none s h
  · exact afterMessage_of_none (fun s => presentWaiting (grantPort s)) s hm
  · exact grantPort_busy s hb
  · rw [grantPort_free s hf, arbitrate_idle s hw hp]
  · rw [grantPort_free s hf, arbitrate_passing s _ hp hw]
    simp [grantPassing, hp, setPort]
  · rw [grantPort_free s hf, arbitrate_passing s _ hp hw]
    simp [grantPassing, hp, setPassing]
  · have hw : headWaiting s = true := (headWaiting_iff s).2 ⟨hr, .inl (by simp [he])⟩
    rw [grantPort_free s hf, arbitrate_head s hw hp, issueHead_result (tokenSpent s) e rest he]
    rfl
  · have hw : headWaiting s = true := (headWaiting_iff s).2 ⟨hr, .inr ⟨n, hn, by simp [hl]⟩⟩
    have hd : firstDirty (tokenSpent s) = some n := firstDirty_of s n m hn hl hlow
    have hmark : (lineMark (tokenSpent s) n).getD false = m := by
      show (lineMark s n).getD false = m
      rw [hl]
      rfl
    rw [grantPort_free s hf, arbitrate_head s hw hp, issueHead_line (tokenSpent s) n he hd, hmark]
    refine ⟨rfl, Sparse.read_write_same _ _ _ _ ht.2.1, fun j hj => Sparse.read_write_other _ _ _ _ _ ht.2.1 hj⟩

end Sys2Proof.Machine


/-! ### The load: the image -/

namespace Sys2Proof.Machine

/-- Two extents have no byte in common exactly if no address lies in both. -/
theorem apart_iff (a m b n : Nat) :
    apart a m b n = true ↔ ∀ x, ¬ (within a m x = true ∧ within b n x = true) := by
  simp only [apart, Bool.or_eq_true, beq_iff_eq, decide_eq_true_eq, within_iff]
  constructor
  · intro h x hx
    omega
  · intro h
    by_contra hc
    exact h (max a b) (by omega)

/-- A cell ring's slot count (R2). -/
theorem ringSlotsOk_iff (n : Nat) : ringSlotsOk n = true ↔ 64 ≤ n ∧ n ≤ 4096 := by simp [ringSlotsOk]

/-- The conditions of R2, the last of them on every address. -/
theorem windowsOk_iff (w : WindowTable) : w.ok = true ↔
    (64 ≤ w.ring0Slots ∧ w.ring0Slots ≤ 4096 ∧
      (w.ring1Slots = 0 ∨ 64 ≤ w.ring1Slots ∧ w.ring1Slots ≤ 4096) ∧ w.ring0Slots + w.ring1Slots ≤ 8192 ∧
      4 ≤ w.requestSlots ∧ w.requestSlots ≤ 16 ∧ w.ring0Base % 128 = 0 ∧ w.ring1Base % 128 = 0 ∧
      w.requestBase % 32 = 0 ∧ w.reportBase % 32 = 0 ∧ w.ring0Base + 128 * w.ring0Slots ≤ 67108864 ∧
      (w.ring1Slots ≠ 0 → w.ring1Base + 128 * w.ring1Slots ≤ 67108864) ∧
      w.requestBase + 32 * w.requestSlots ≤ 67108864 ∧ w.reportBase + 1696 ≤ 67108864 ∧
      ∀ a : Nat,
        ¬ (within w.ring0Base (128 * w.ring0Slots) a ∧ within w.ring1Base (128 * w.ring1Slots) a) ∧
        ¬ (within w.ring0Base (128 * w.ring0Slots) a ∧ within w.requestBase (32 * w.requestSlots) a) ∧
        ¬ (within w.ring0Base (128 * w.ring0Slots) a ∧ within w.reportBase 1696 a) ∧
        ¬ (within w.ring1Base (128 * w.ring1Slots) a ∧ within w.requestBase (32 * w.requestSlots) a) ∧
        ¬ (within w.ring1Base (128 * w.ring1Slots) a ∧ within w.reportBase 1696 a) ∧
        ¬ (within w.requestBase (32 * w.requestSlots) a ∧ within w.reportBase 1696 a)) := by
  have hor : (w.ring1Slots = 0 ∨ w.ring1Base + 128 * w.ring1Slots ≤ busBytes) ↔
      (w.ring1Slots ≠ 0 → w.ring1Base + 128 * w.ring1Slots ≤ 67108864) := or_iff_not_imp_left
  simp only [WindowTable.ok, Bool.and_eq_true, Bool.or_eq_true, beq_iff_eq, decide_eq_true_eq, ringSlotsOk_iff, apart_iff,
    and_assoc, hor, forall_and]
  rfl

/-- Whether the image is accepted (R185). -/
theorem imageOk_iff (b : List Byte) :
    imageOk b = true ↔ field b 0 2 = 0x47A1 ∧ wordSum b = 0xA55A ∧ (imageWindows b).ok = true := by
  simp only [imageOk, passesCheck, Bool.and_eq_true, beq_iff_eq, and_assoc]

/-- Settles O8: the tests of the image one by one, its fields, and the two outcomes of its load. -/
theorem imageLoadHoldsOrPasses : Obligations.ImageLoadHoldsOrPasses := by
  refine ⟨wordSum_eq, within_iff, fun _ => rfl, fun b => ?_, fun _ => rfl, fun s hm hmode hphase => ?_⟩
  · dsimp only
    rw [imageOk_iff, windowsOk_iff]
  · have hx : exec .imageLoad s = .next (loadImage s) := by
      show afterMessage (atPhase .image loadImage) s = _
      rw [afterMessage_of_none _ s hm, atPhase, if_pos ⟨hmode, hphase⟩]
    rw [hx]
    refine ⟨fun hok => ?_, fun hno => ?_⟩
    · simp [loadImage, hok, setPhase]
    · refine ⟨loadImage s, rfl, ?_⟩
      have hl : loadImage s = setPhase .idle (markLine 0 false (setMode .pass s)) := by simp [loadImage, hno]
      have hmark : Marking (fun n => n = 0) noLine s (loadImage s) := by
        rw [hl]
        exact ((marks_markClear 0 (setMode .pass s)).after rfl).before rfl
      exact ⟨by rw [hl]; rfl, fun ht => hmark.marks ht.2.1⟩

end Sys2Proof.Machine


/-! ### The load: the stay -/

namespace Sys2Proof.Machine

/-- A record passes its check exactly if its words sum to A55Ah (R179). -/
theorem passesCheck_iff (b : List Byte) : passesCheck b = true ↔ wordSum b = 0xA55A := by simp [passesCheck]

/-- A byte is a given one exactly if its field is. -/
theorem byteAt_eq_iff (b : List Byte) (i n : Nat) (hn : n < 256) : byteAt b i = BitVec.ofNat 8 n ↔ field b i 1 = n := by
  rw [field_one, ← BitVec.toNat_inj, BitVec.toNat_ofNat, Nat.mod_eq_of_lt hn]

/-- A bit of the presence byte, as a digit of its number. -/
theorem presenceBit_iff (h : List Byte) (k : Nat) : presenceBit h k = true ↔ field h 1 1 / 2 ^ k % 2 = 1 := by
  rw [field_one, presenceBit, BitVec.getLsbD, Nat.testBit_eq_decide_div_mod_eq, decide_eq_true_eq]

/-! #### The stored purchases -/

/-- The bytes of purchase entry `n` of pages 10 to 17. -/
def storedEntry (eeprom : List Host.Cell) (n : Nat) : List Byte :=
  readStore eeprom (32 * (10 + n / 2) + 2 + 14 * (n % 2)) 14

/-- Whether entry `n` is in use. -/
def entryUsed (eeprom : List Host.Cell) (n : Nat) : Bool := decide (field (storedEntry eeprom n) 0 2 ≠ 0)

/-- The purchase an entry in use holds. -/
def entryPurchase (b : List Byte) : StoredPurchase where
  event := BitVec.ofNat 16 (field b 0 2)
  rating := (byteAt b 2).toNat / 16
  service := serviceField b 2
  amount := field b 4 3
  remaining := field b 7 3
  sequence := field b 10 4

/-- The stored purchases are those of the entries in use, in entry order. -/
theorem storedPurchases_eq (eeprom : List Host.Cell) :
    storedPurchases eeprom = ((List.range 16).filter (entryUsed eeprom)).map fun n => entryPurchase (storedEntry eeprom n) := by
  have key : ∀ l : List Nat, l.filterMap (fun n => storedPurchase (storedEntry eeprom n)) =
      (l.filter (entryUsed eeprom)).map fun n => entryPurchase (storedEntry eeprom n) := by
    intro l
    induction l with
    | nil => rfl
    | cons n rest ih =>
      by_cases hn : field (storedEntry eeprom n) 0 2 = 0
      · have hs : storedPurchase (storedEntry eeprom n) = none := if_pos hn
        simp only [List.filterMap_cons, hs, ih, List.filter_cons, entryUsed, hn, ne_eq, not_true_eq_false, decide_false]
        rfl
      · have hs : storedPurchase (storedEntry eeprom n) = some (entryPurchase (storedEntry eeprom n)) := if_neg hn
        simp only [List.filterMap_cons, hs, ih, List.filter_cons, entryUsed, hn, ne_eq, not_false_eq_true, decide_true]
        rfl
  exact key _

/-- No purchase is stored exactly if no entry is in use. -/
theorem storedPurchases_isEmpty (eeprom : List Host.Cell) :
    (storedPurchases eeprom).isEmpty = true ↔ ∀ n, n < 16 → entryUsed eeprom n = false := by
  simp [storedPurchases_eq]

/-- The purchases test, entry by entry (R187). -/
theorem purchasesOk_iff (eeprom : List Host.Cell) : purchasesOk (storedPurchases eeprom) = true ↔
    ∀ n, n < 16 → entryUsed eeprom n = true → field (storedEntry eeprom n) 4 3 ≤ 204750 ∧ field (storedEntry eeprom n) 7 3 ≤ 259200 ∧
      ∀ m, m < 16 → entryUsed eeprom m = true → m ≠ n → field (storedEntry eeprom m) 0 2 ≠ field (storedEntry eeprom n) 0 2 := by
  have hev : ∀ m n, (entryPurchase (storedEntry eeprom m)).event = (entryPurchase (storedEntry eeprom n)).event ↔
      field (storedEntry eeprom m) 0 2 = field (storedEntry eeprom n) 0 2 := by
    intro m n
    have hm := field_lt (storedEntry eeprom m) 0 2
    have hn := field_lt (storedEntry eeprom n) 0 2
    simp only [entryPurchase, ← BitVec.toNat_inj, BitVec.toNat_ofNat]
    omega
  have hnodup : ((storedPurchases eeprom).map StoredPurchase.event).Nodup ↔ ∀ n, n < 16 → entryUsed eeprom n = true →
      ∀ m, m < 16 → entryUsed eeprom m = true → m ≠ n → field (storedEntry eeprom m) 0 2 ≠ field (storedEntry eeprom n) 0 2 := by
    rw [storedPurchases_eq, List.map_map, List.nodup_map_iff_inj_on (List.nodup_range.filter _)]
    simp only [List.mem_filter, List.mem_range, Function.comp_apply, hev]
    constructor
    · intro h n hn hu m hm hv hne he
      exact hne (h m ⟨hm, hv⟩ n ⟨hn, hu⟩ he)
    · intro h m hm n hn he
      by_contra hne
      exact h n hn.1 hn.2 m hm.1 hm.2 hne he
  have hall : ((storedPurchases eeprom).all fun p => decide (p.amount ≤ 204750) && decide (p.remaining ≤ 259200)) = true ↔
      ∀ n, n < 16 → entryUsed eeprom n = true →
        field (storedEntry eeprom n) 4 3 ≤ 204750 ∧ field (storedEntry eeprom n) 7 3 ≤ 259200 := by
    simp only [storedPurchases_eq, List.all_map, List.all_eq_true, List.mem_filter, List.mem_range, Function.comp_apply,
      Bool.and_eq_true, decide_eq_true_eq, and_imp]
    rfl
  rw [purchasesOk, Bool.and_eq_true, decide_eq_true_eq, hnodup, hall]
  constructor
  · rintro ⟨h1, h2⟩ n hn hu
    exact ⟨(h2 n hn hu).1, (h2 n hn hu).2, h1 n hn hu⟩
  · intro h
    exact ⟨fun n hn hu => (h n hn hu).2.2, fun n hn hu => ⟨(h n hn hu).1, (h n hn hu).2.1⟩⟩

/-! #### The tests of the stay pages -/

/-- The page tests (R187). -/
theorem stayPagesOk_iff (eeprom : List Host.Cell) : stayPagesOk eeprom = true ↔
    (∀ k, k < 9 → wordSum (readPage eeprom (9 + k)) = 0xA55A) ∧
      ∀ k, k < 8 → field (readPage eeprom (10 + k)) 0 2 = field (readPage eeprom 9) 2 2 := by
  simp only [stayPagesOk, List.all_eq_true, List.mem_range, Bool.and_eq_true, Bool.or_eq_true, beq_iff_eq, passesCheck_iff]
  constructor
  · intro h
    refine ⟨fun k hk => (h k hk).1, fun k hk => ?_⟩
    have hs : 9 + (k + 1) = 10 + k := by omega
    have hf := (h (k + 1) (by omega)).2.resolve_left (by omega)
    rwa [hs] at hf
  · rintro ⟨h1, h2⟩ k hk
    refine ⟨h1 k hk, ?_⟩
    cases k with
    | zero => exact .inl rfl
    | succ k =>
      have hs : 9 + (k + 1) = 10 + k := by omega
      rw [hs]
      exact .inr (h2 k (by omega))

/-- The OCCUPIED test. -/
theorem occupiedOk_iff (h : List Byte) : occupiedOk h = true ↔
    (field h 4 2 ≠ 0 ∧ field h 11 3 ≤ 999999 ∧ field h 8 3 = field h 11 3 + field h 14 3 ∧
      field h 8 3 ≤ 16777215 ∧ field h 17 3 ≤ 999999 ∧ field h 20 3 ≤ 999999 ∧
      (0 < field h 17 3 → field h 20 3 ≤ field h 17 3)) := by
  have hor : (field h 17 3 = 0 ∨ field h 20 3 ≤ field h 17 3) ↔ (0 < field h 17 3 → field h 20 3 ≤ field h 17 3) := by
    rw [or_iff_not_imp_left, Nat.pos_iff_ne_zero]
  simp only [occupiedOk, Bool.and_eq_true, Bool.or_eq_true, bne_iff_ne, beq_iff_eq, decide_eq_true_eq, and_assoc, hor]
  rfl

/-- The VACANT test. -/
theorem vacantOk_iff (eeprom : List Host.Cell) (h : List Byte) : vacantOk h (storedPurchases eeprom) = true ↔
    (field h 4 2 = 0 ∧ field h 8 3 = 0 ∧ field h 11 3 = 0 ∧ field h 14 3 = 0 ∧ field h 17 3 = 0 ∧ field h 20 3 = 0 ∧
      ∀ n, n < 16 → entryUsed eeprom n = false) := by
  simp only [vacantOk, Bool.and_eq_true, beq_iff_eq, storedPurchases_isEmpty, and_assoc]

/-- The state test names the test of its state. -/
theorem stateOk_iff (h : List Byte) (l : List StoredPurchase) : stateOk h l = true ↔
    field h 0 1 = 1 ∧ occupiedOk h = true ∨ field h 0 1 = 0 ∧ vacantOk h l = true := by
  rw [field_one]
  unfold stateOk
  split <;> simp_all

/-! #### What is restored -/

theorem storedPageNumber_eq (eeprom : List Host.Cell) : storedPageNumber eeprom =
    if wordSum (readPage eeprom 9) = 0xA55A then BitVec.ofNat 16 (field (readPage eeprom 9) 2 2) else 0 := by
  simp only [storedPageNumber, passesCheck_iff]

/-- The stay of page 9 (R187). -/
theorem storedStay_eq (h : List Byte) : storedStay h = {
    state := if field h 0 1 = 1 then .occupied else .vacant
    number := BitVec.ofNat 16 (field h 4 2)
    granted := field h 8 3
    remaining := field h 11 3
    spent := field h 14 3
    nightCeiling := field h 17 3
    nightSpent := field h 20 3
    nightIndex := if field h 1 1 / 2 ^ 1 % 2 = 1 then some (BitVec.ofNat 16 (field h 23 2)) else none } := by
  have hs := byteAt_eq_iff h 0 1 (by decide)
  simp only [storedStay, presenceBit_iff, ← hs]
  rfl

/-- The PIN of page 9 (R119). -/
theorem storedPin_eq (h : List Byte) : storedPin h =
    if field h 1 1 / 2 ^ 2 % 2 = 1 ∧ field h 28 1 / 16 ≤ 9 ∧ field h 28 1 % 16 ≤ 9 ∧ field h 29 1 / 16 ≤ 9 ∧ field h 29 1 % 16 ≤ 9 then
      some { first := field h 28 1 / 16, second := field h 28 1 % 16, third := field h 29 1 / 16, fourth := field h 29 1 % 16 }
    else none := by
  simp only [storedPin, presenceBit_iff, pinOf, ← field_one]
  by_cases hb : field h 1 1 / 2 ^ 2 % 2 = 1 <;> simp only [hb, if_true, if_false, true_and, false_and]

/-- The lock fields of page 9, clamped (R119). -/
theorem storedLock_eq (h : List Byte) : storedLock h = {
    roomCeiling := min (field h 25 1) 9
    defaultCeiling := min (field h 26 1) (min (field h 25 1) 9)
    guestCeiling := min (field h 27 1) (min (field h 25 1) 9)
    pin := storedPin h
    unlock := none
    lockout := none
    wrongAttempts := 0
    lockouts := 0 } := by
  simp only [storedLock, ← field_one]
  rfl

/-- A purchase of an entry in use, restored (R187, R190). -/
theorem entryPurchase_restore (b : List Byte) (now next : Nat) : (entryPurchase b).restore now next = {
    event := BitVec.ofNat 16 (field b 0 2)
    service := BitVec.ofNat 12 (field b 2 2)
    rating := field b 2 1 / 16
    title := 0
    amount := field b 4 3
    rentalEnd := now + field b 7 3
    sequence := if field b 10 4 = 0 ∨ next ≤ field b 10 4 then none else some (field b 10 4) } := by
  simp only [StoredPurchase.restore, entryPurchase, field_one]
  rfl

/-- The purchases the load restores. -/
theorem restored_purchases (eeprom : List Host.Cell) (now next : Nat) :
    ((storedPurchases eeprom).map fun p => p.restore now next) = ((List.range 16).filter (entryUsed eeprom)).map fun n => {
      event := BitVec.ofNat 16 (field (storedEntry eeprom n) 0 2)
      service := BitVec.ofNat 12 (field (storedEntry eeprom n) 2 2)
      rating := field (storedEntry eeprom n) 2 1 / 16
      title := 0
      amount := field (storedEntry eeprom n) 4 3
      rentalEnd := now + field (storedEntry eeprom n) 7 3
      sequence := if field (storedEntry eeprom n) 10 4 = 0 ∨ next ≤ field (storedEntry eeprom n) 10 4 then none
        else some (field (storedEntry eeprom n) 10 4) } := by
  rw [storedPurchases_eq, List.map_map]
  exact List.map_congr_left fun n _ => entryPurchase_restore _ now next

theorem rolloverMinute_eq (n : Nat) : (if 1439 < n then 0 else n) = if n ≤ 1439 then n else 0 := by
  split <;> split <;> omega

/-- The load's last step at its step, the image held (R187). -/
theorem exec_stayLoad (i : Image) (s : State) (hm : s.decoder.handOff = none) (hmode : s.path.mode = .load)
    (hphase : s.store.phase = .stay) (hi : s.store.image = some i) : exec .stayLoad s = .next (loadStay i s) := by
  show afterMessage (atPhase .stay loadStayHeld) s = _
  rw [afterMessage_of_none _ s hm, atPhase, if_pos ⟨hmode, hphase⟩, loadStayHeld, hi]

/-- The state the entry into RUN starts from where the stay pages are valid, and where they are not. -/
theorem loadStay_valid (i : Image) (s : State) (h : stayValid s.store.eeprom = true) : loadStay i s =
    enterRun i (restoreStay { s with store := { s.store with pageNumber := storedPageNumber s.store.eeprom } }) := by
  simp [loadStay, h]

theorem loadStay_invalid (i : Image) (s : State) (h : ¬ stayValid s.store.eeprom = true) : loadStay i s =
    enterRun i { s with store := { s.store with pageNumber := storedPageNumber s.store.eeprom } } := by
  simp [loadStay, h]

/-- What the entry into RUN writes (R5, R188). -/
theorem enterRun_eq (i : Image) (s : State) : enterRun i s = { s with
    path := { s.path with
      mode := .run
      windows := some i.windows
      refreshPeriod := clampRange 1 255 i.refreshPeriod
      tokensPerPeriod := min i.tokensPerPeriod 15
      tokens := min i.tokensPerPeriod 15
      periodRunning := true }
    report := (enterRun i s).report
    settings := i.settings
    store := { s.store with phase := .idle, image := none } } := rfl

/-- What the restoration of the stay writes. -/
theorem restoreStay_eq (s : State) : restoreStay s = { s with
    decoder := (restoreStay s).decoder, lock := (restoreStay s).lock, account := (restoreStay s).account } := rfl

/-- What the last step of the load writes beside the restored stay. -/
theorem loadStay_eq (i : Image) (s : State) : loadStay i s = { s with
    path := { s.path with
      mode := .run
      windows := some i.windows
      refreshPeriod := clampRange 1 255 i.refreshPeriod
      tokensPerPeriod := min i.tokensPerPeriod 15
      tokens := min i.tokensPerPeriod 15
      periodRunning := true }
    decoder := (loadStay i s).decoder
    lock := (loadStay i s).lock
    account := (loadStay i s).account
    report := (loadStay i s).report
    settings := i.settings
    store := { s.store with phase := .idle, image := none, pageNumber := storedPageNumber s.store.eeprom } } := by
  generalize hn : storedPageNumber s.store.eeprom = n
  by_cases h : stayValid s.store.eeprom = true
  · rw [loadStay_valid i s h, hn, enterRun_eq, restoreStay_eq]
  · rw [loadStay_invalid i s h, hn, enterRun_eq]

/-- Whether the stay pages are valid, test by test (R187). -/
theorem stayValid_iff (eeprom : List Host.Cell) : let h := readPage eeprom 9
    stayValid eeprom = true ↔
      (∀ k, k < 9 → wordSum (readPage eeprom (9 + k)) = 0xA55A) ∧
      (∀ k, k < 8 → field (readPage eeprom (10 + k)) 0 2 = field h 2 2) ∧
      (field h 0 1 = 1 ∧ (field h 4 2 ≠ 0 ∧ field h 11 3 ≤ 999999 ∧ field h 8 3 = field h 11 3 + field h 14 3 ∧
          field h 8 3 ≤ 16777215 ∧ field h 17 3 ≤ 999999 ∧ field h 20 3 ≤ 999999 ∧
          (0 < field h 17 3 → field h 20 3 ≤ field h 17 3)) ∨
        field h 0 1 = 0 ∧ (field h 4 2 = 0 ∧ field h 8 3 = 0 ∧ field h 11 3 = 0 ∧ field h 14 3 = 0 ∧ field h 17 3 = 0 ∧
          field h 20 3 = 0 ∧ ∀ n, n < 16 → entryUsed eeprom n = false)) ∧
      ∀ n, n < 16 → entryUsed eeprom n = true →
        field (storedEntry eeprom n) 4 3 ≤ 204750 ∧ field (storedEntry eeprom n) 7 3 ≤ 259200 ∧
        ∀ m, m < 16 → entryUsed eeprom m = true → m ≠ n →
          field (storedEntry eeprom m) 0 2 ≠ field (storedEntry eeprom n) 0 2 := by
  dsimp only
  rw [← occupiedOk_iff, ← vacantOk_iff, ← stateOk_iff, ← purchasesOk_iff, ← and_assoc, ← stayPagesOk_iff]
  simp only [stayValid, Bool.and_eq_true, and_assoc]

/-- Settles O10: the tests of the stay pages one by one, the stay they hold, and the entry into RUN. -/
theorem stayLoadEntersRun : Obligations.StayLoadEntersRun := by
  intro i s hm hmode hphase hi
  refine ⟨loadStay i s, exec_stayLoad i s hm hmode hphase hi, ?_, fun n => ?_, fun hv => ?_, fun hv => ?_⟩
  · refine (loadStay_eq i s).trans ?_
    rw [storedPageNumber_eq, Image.settings, rolloverMinute_eq]
    rfl
  · exact lineMark_markAllLinesClear n _
  · rw [loadStay_invalid i s fun h => hv ((stayValid_iff _).1 h)]
    exact ⟨rfl, rfl, rfl⟩
  · rw [loadStay_valid i s ((stayValid_iff _).2 hv)]
    refine ⟨?_, ?_, ?_⟩
    · simp only [← presenceBit_iff]
      rfl
    · rw [← storedPin_eq, ← storedLock_eq]
      rfl
    · rw [← storedStay_eq]
      exact congrArg (fun l => { s.account with stay := storedStay (readPage s.store.eeprom 9), purchases := l })
        (restored_purchases s.store.eeprom s.time.seconds s.journal.next)

end Sys2Proof.Machine


/-! ### Accesses outside the cell rings -/

namespace Sys2Proof.Machine

/-- With no message waiting for the Decoder, the transaction takes the port at once exactly if the path is free. -/
theorem takesPort_iff (s : State) (h : UpstreamFree s) : takesPort s s = true ↔ PathFree s := by
  simp [takesPort, PathFree, h, h.2]

/-- A read accepted on a free upstream port: its words where the path is free, its place in the queue for the port otherwise. -/
theorem exec_read_free (i : Instr) (r : BusRead) (s : State) (h : i.transaction = some (.read r)) (hw : r.wellFormed = true)
    (hu : UpstreamFree s) (hf : PathFree s) : exec i s = .next (returnRead r (readPlace s r) s) := by
  rw [exec_of_read i r s h hw hu, if_pos ((takesPort_iff s hu).2 hf)]

theorem exec_read_waits (i : Instr) (r : BusRead) (s : State) (h : i.transaction = some (.read r)) (hw : r.wellFormed = true)
    (hu : UpstreamFree s) (hf : ¬ PathFree s) :
    exec i s = .next { s with path := { s.path with passing := some (.read r (readPlace s r)) } } := by
  rw [exec_of_read i r s h hw hu, if_neg fun ht => hf ((takesPort_iff s hu).1 ht)]

/-- A write accepted on a free upstream port and forwarded with nothing else done: it holds the port, or waits for it (log 7). -/
theorem grantAtOnce_forward (s : State) (w : BusWrite) (k : Option Nat) : grantAtOnce (setPassing (some (.write w k)) s) =
    { s with path := { s.path with passing := some (.write w k), port := portAfter s s } } := by
  exact grantAtOnce_portAfter s (setPassing (some (.write w k)) s) w k rfl rfl

/-- The window of an address in RUN, where the windows do not overlap there (R2, R3). -/
theorem windowFor_placed (s : State) (t : WindowTable) (a : Nat) (hm : s.path.mode = .run) (ht : s.path.windows = some t) :
    let lies := fun (base size : Nat) => base ≤ a ∧ a < base + size
    let ring0 := lies t.ring0Base (128 * t.ring0Slots)
    let ring1 := lies t.ring1Base (128 * t.ring1Slots)
    let requests := lies t.requestBase (32 * t.requestSlots)
    let report := lies t.reportBase 1696
    (ring0 → windowFor s a = .ring ⟨.ring0, (a - t.ring0Base) / 128, (a - t.ring0Base) % 128⟩) ∧
    (ring1 ∧ ¬ ring0 → windowFor s a = .ring ⟨.ring1, (a - t.ring1Base) / 128, (a - t.ring1Base) % 128⟩) ∧
    (requests ∧ ¬ ring0 ∧ ¬ ring1 → windowFor s a = .request ((a - t.requestBase) / 32) ((a - t.requestBase) / 4 % 8)) ∧
    (report ∧ ¬ ring0 ∧ ¬ ring1 ∧ ¬ requests → windowFor s a = .report ((a - t.reportBase) / 32) ((a - t.reportBase) / 4 % 8)) ∧
    (¬ ring0 ∧ ¬ ring1 ∧ ¬ requests ∧ ¬ report → windowFor s a = .other) := by
  have hsize : reportSize = 1696 := rfl
  dsimp only
  rw [windowFor_run s t a hm ht, placeOf, hsize]
  simp only [within_iff]
  refine ⟨fun h => ?_, fun ⟨h1, h0⟩ => ?_, fun ⟨hq, h0, h1⟩ => ?_, fun ⟨hr, h0, h1, hq⟩ => ?_, fun ⟨h0, h1, hq, hr⟩ => ?_⟩
  · rw [if_pos h]
  · rw [if_neg h0, if_pos h1]
  · rw [if_neg h0, if_neg h1, if_pos hq]
  · rw [if_neg h0, if_neg h1, if_neg hq, if_pos hr]
  · rw [if_neg h0, if_neg h1, if_neg hq, if_neg hr]

/-- Settles O12: the window of an address, and the accesses that no ring write is. -/
theorem plainAccessPasses : Obligations.PlainAccessPasses := by
  refine ⟨fun s t a hm ht => ?_, windowFor_none, headGoesFirst_iff, fun i r s h hw hu hp => ?_, fun i r n j s h hw hu hp => ?_,
    fun i r p s h hw hu hf hp => ?_, fun i w s h hw hu hp => ?_⟩
  · obtain ⟨h0, h1, hq, hr, ho⟩ := windowFor_placed s t a hm ht
    exact ⟨fun h => ⟨_, h0 h.1, rfl, rfl, rfl, granule_of_offset _ _, word_of_offset _ _⟩,
      fun h => ⟨_, h1 ⟨h.1, h.2.1⟩, rfl, rfl, rfl, granule_of_offset _ _, word_of_offset _ _⟩,
      fun h => hq ⟨h.1, h.2.1, h.2.2.1⟩, hr, ho⟩
  · have hplace : readPlace s r = .plain := by
      rcases hp with hp | ⟨k, j, hp⟩ <;> simp [readPlace, hp]
    rw [← hplace]
    exact ⟨fun hf => by rw [exec_read_free i r s h hw hu hf, hplace, returnRead_plain],
      fun hf => exec_read_waits i r s h hw hu hf⟩
  · have hplace : readPlace s r = .line n := by simp [readPlace, hp]
    rw [← hplace]
    exact ⟨fun hf => by rw [exec_read_free i r s h hw hu hf, hplace, returnRead_line],
      fun hf => exec_read_waits i r s h hw hu hf⟩
  · have hplace : readPlace s r = .cell p.ring p.slot p.word := by simp [readPlace, hp]
    rw [← hplace]
    exact exec_read_waits i r s h hw hu hf
  · rw [exec_of_free i _ s h hw hu]
    simp only [acceptTransaction, acceptWrite, hp]
    rw [grantAtOnce_forward]

/-- Settles O13: a dropped write is counted, and nothing is left to pass. -/
theorem droppedWritesAreCounted : Obligations.DroppedWritesAreCounted := by
  intro w s hw hu ht hp
  have ha : acceptWrite w s = countDropped s := by
    rcases hp with ⟨n, j, hp⟩ | ⟨k, j, hp, hk⟩
    · simp [acceptWrite, hp]
    · simp [acceptWrite, hp, acceptRequest, hk]
  have hx : ∀ i : Instr, i.transaction = some (.write w) → exec i s = .next (countDropped s) := by
    intro i hi
    rw [exec_of_free i _ s hi hw hu, acceptTransaction, ha, grantAtOnce_none _ (by simpa using hu.1)]
  refine ⟨countDropped s, hx _ rfl, hx _ rfl, fun hd => if_pos hd, fun hd => ⟨?_, ?_⟩⟩
  · have hc : countDropped s = markLine 0 false { s with path := { s.path with dropped := bump s.path.dropped } } := if_neg hd
    have hb : bump s.path.dropped = s.path.dropped + 1 := if_neg hd
    rw [hc, hb]
    rfl
  · exact ((marks_countDropped s).congr (l' := fun n => n = 0) (fun n => ⟨And.left, fun h => ⟨h, hd⟩⟩) fun _ => Iff.rfl).marks ht.2.1

/-! ### Requests -/

/-- Whether a write is taken, as its lanes have it (R169). -/
theorem isTaken_iff (w : BusWrite) : isTaken w = true ↔
    w.lanes.length = 32 ∧ (∀ l ∈ w.lanes, l.enabled = true) ∧ byteAt (recordOf w) 0 ≠ 0 := by
  simp [isTaken, wholeGranule, and_assoc]

/-- A taken request on a free upstream port: its answer, carried by its own write, which takes the port as `portAfter` says. -/
theorem exec_taken (i : Instr) (w : BusWrite) (k j : Nat) (s : State) (h : i.transaction = some (.write w)) (hw : w.wellFormed = true)
    (hu : UpstreamFree s) (hk : windowFor s w.address.toNat = .request k j) (hs : slotPending s k = false) (ht : isTaken w = true)
    (q : Request) (hq : requestOf (recordOf w) = q) : exec i s = .next
      { (answerRequest k q s).1 with path := { (answerRequest k q s).1.path with
        passing := some (.write (rewriteResult (answerRequest k q s).2 w) (some k))
        port := portAfter s (answerRequest k q s).1 } } := by
  rw [exec_of_request i w k j s h hw hu hk hs ht, hq, grantAtOnce_portAfter s _ _ _ rfl (by simp [setPassing])]
  rfl

/-- Settles O14: the codes, the records, and the answer of a write that is not taken, of no known kind, or a REFRESH. -/
theorem requestWritesAreAnswered : Obligations.RequestWritesAreAnswered := by
  refine ⟨rfl, rfl, requestOf_kinds, fun _ => rfl, fun w k j s hw hu hk hs => ⟨fun hn => ?_, fun hl he h0 => ?_⟩⟩
  · have ht : isTaken w = false := by
      rw [← Bool.not_eq_true, isTaken_iff]
      exact hn
    refine ⟨ht, ?_⟩
    rw [exec_of_free (.requestWriteNotTaken w) (.write w) s rfl hw hu]
    simp only [acceptTransaction, acceptWrite, hk, acceptRequest, hs, ht, Bool.false_eq_true, if_false]
    rw [grantAtOnce_forward]
  · have ht : isTaken w = true := (isTaken_iff w).2 ⟨hl, he, h0⟩
    obtain ⟨-, -, -, hrefresh, hunknown⟩ := requestOf_kinds (recordOf w)
    refine ⟨ht, fun h5 => ?_, fun h4 => ?_⟩
    · have hq : requestOf (recordOf w) = .unknown := hunknown (.inr (by rwa [field_one]))
      exact ⟨_, rewriteResult_carries w (answerRefused .badKind) hl, exec_taken _ w k j s rfl hw hu hk hs ht .unknown hq⟩
    · have hq : requestOf (recordOf w) = .refresh := hrefresh (by rw [field_one, h4]; rfl)
      refine ⟨_, _, rewriteResult_carries w answerDone hl, exec_taken _ w k j s rfl hw hu hk hs ht .refresh hq, fun n => ?_, rfl⟩
      exact lineMark_markAllLines n s

end Sys2Proof.Machine


/-! ### Ring writes -/

namespace Sys2Proof.Machine

theorem PerRing.get_set_same {α : Type} (x : PerRing α) (r : Ring) (a : α) : (x.set r a).get r = a := by cases r <;> rfl

theorem PerRing.get_set_other {α : Type} (x : PerRing α) (r q : Ring) (a : α) (h : q ≠ r) : (x.set r a).get q = x.get q := by
  cases r <;> cases q <;> first | rfl | exact absurd rfl h

/-- A slot's tag after one is written (R22). -/
theorem readTag_setTag (r : Ring) (slot : Nat) (t : SlotTag) (s : State) (h : TagsForm s) (q : Ring) (k : Nat) :
    readTag (setTag r slot t s) q k = if tagNumber s q k = tagNumber s r slot then t else readTag s q k := by
  have hn : tagNumber (setTag r slot t s) q k = tagNumber s q k := rfl
  unfold readTag
  rw [hn]
  unfold setTag
  split
  · rename_i he
    rw [he]
    exact Sparse.read_write_same _ _ _ _ h
  · rename_i he
    exact Sparse.read_write_other _ _ _ _ _ h he

/-- A tag is read from the tags and the windows alone. -/
theorem readTag_congr {s t : State} (ht : t.intake.tags = s.intake.tags) (hp : t.path.windows = s.path.windows) (q : Ring) (k : Nat) :
    readTag t q k = readTag s q k := by
  unfold readTag tagNumber
  rw [ht, hp]

theorem tagNumber_congr {s t : State} (hp : t.path.windows = s.path.windows) (q : Ring) (k : Nat) : tagNumber t q k = tagNumber s q k := by
  unfold tagNumber
  rw [hp]

/-! #### The data forwarded -/

/-- In a message context the enabled payload bytes go on as zeros, and in any other everything as written (R25, R30). -/
theorem stageWrite_data (p : CellPlace) (w : BusWrite) (s : State) :
    ((∃ c, s.intake.context.get p.ring = some c ∧ c.message = true) →
      (stageWrite p w s).2 = { w with lanes := zeroPayload p.byte w.lanes }) ∧
    (¬ (∃ c, s.intake.context.get p.ring = some c ∧ c.message = true) → (stageWrite p w s).2 = w) := by
  unfold stageWrite
  cases hc : s.intake.context.get p.ring with
  | none => simp
  | some c => cases hm : c.message <;> simp [hm]

/-- The context a granule-0 write opens. -/
theorem openCell_context (p : CellPlace) (w : BusWrite) (s : State) : (openCell p w s).intake.context.get p.ring =
    some { slot := p.slot, next := 1, broken := false, message :=
      coversHeader p w && headerValid (headerOf w) && (headerFields (headerOf w)).kind == .message } := by
  unfold openCell
  by_cases h : (coversHeader p w && headerValid (headerOf w)) = true
  · rw [if_pos h, h]
    exact PerRing.get_set_same _ _ _
  · have hb : (coversHeader p w && headerValid (headerOf w)) = false := by simpa using h
    rw [if_neg h, hb]
    simp only [countHeaderError_frame]
    exact PerRing.get_set_same _ _ _

/-- Where a ring write's payload bytes go on as zeros. -/
def Zeroes (p : CellPlace) (w : BusWrite) (s : State) : Prop :=
  (p.granule = 0 ∧ coversHeader p w = true ∧ headerValid (headerOf w) = true ∧ (headerFields (headerOf w)).kind = .message) ∨
    (p.granule ≠ 0 ∧ ∃ c, s.intake.context.get p.ring = some c ∧ c.slot = p.slot ∧ c.next = p.granule ∧ c.message = true)

/-- The data a ring write forwards (R25 to R30). -/
theorem intakeWrite_data (p : CellPlace) (w : BusWrite) (s : State) :
    (Zeroes p w s → (intakeWrite p w s).2 = { w with lanes := zeroPayload p.byte w.lanes }) ∧
      (¬ Zeroes p w s → (intakeWrite p w s).2 = w) := by
  unfold intakeWrite
  by_cases hg : p.granule = 0
  · have hz : Zeroes p w s ↔ ∃ c, (openCell p w (closeEarly p.ring (setLatch p.ring p.slot none s))).intake.context.get p.ring =
        some c ∧ c.message = true := by
      simp [Zeroes, hg, openCell_context, and_assoc]
    simp only [hg, if_true, hz]
    exact stageWrite_data p w _
  · have hc : (setLatch p.ring p.slot none s).intake.context = s.intake.context := rfl
    simp only [hg, if_false, payloadGranule, Zeroes, false_and, false_or, not_false_eq_true, true_and, ne_eq]
    cases hx : s.intake.context.get p.ring with
    | none => simp [hx]
    | some c =>
      simp only [hc, hx, Option.some.injEq, exists_eq_left']
      by_cases hs : c.slot = p.slot
      · by_cases hn : p.granule = c.next
        · have hd := stageWrite_data p w (setLatch p.ring p.slot none s)
          simpa [hc, hx, hs, hn] using hd
        · simp [hs, hn, Ne.symm hn]
      · simp [hs]

/-! #### The tags -/

/-- The tags after a ring write: the slot's own without a latch, its fields changed by a granule 0 alone, and every other as before
(R7, R23, R24). -/
theorem intakeWrite_readTag (p : CellPlace) (w : BusWrite) (s : State) (h : TagsForm s) :
    ∃ tag : SlotTag, tag.latch = none ∧ (p.granule ≠ 0 → tag.fields = (readTag s p.ring p.slot).fields) ∧
      ∀ q k, readTag (intakeWrite p w s).1 q k =
        if tagNumber s q k = tagNumber s p.ring p.slot then tag else readTag s q k := by
  have hlatch := readTag_setTag p.ring p.slot { readTag s p.ring p.slot with latch := none } s h
  by_cases hg : p.granule = 0
  · have hx : (intakeWrite p w s).1 =
        (stageWrite p w (openCell p w (closeEarly p.ring (setLatch p.ring p.slot none s)))).1 := by
      simp [intakeWrite, hg]
    generalize hu : closeEarly p.ring (setLatch p.ring p.slot none s) = u at hx
    have htags : u.intake.tags = (setLatch p.ring p.slot none s).intake.tags := by rw [← hu]; simp
    have hpath : u.path = s.path := by rw [← hu]; simp [setLatch, setTag]
    have hform : TagsForm u := by
      unfold TagsForm
      rw [htags]
      exact setTag_form _ _ _ _ h
    have hopen : ∃ tag : SlotTag, tag.latch = none ∧ (openCell p w u).intake.tags = (setTag p.ring p.slot tag u).intake.tags := by
      unfold openCell
      split
      · exact ⟨_, rfl, rfl⟩
      · exact ⟨blankTag, rfl, by simp [setTag, setContext, tagNumber]⟩
    obtain ⟨tag, hl, ht⟩ := hopen
    refine ⟨tag, hl, fun hne => absurd hg hne, fun q k => ?_⟩
    have hstage : readTag (intakeWrite p w s).1 q k = readTag (setTag p.ring p.slot tag u) q k :=
      readTag_congr (by rw [hx, ← ht]; simp) (by rw [hx]; simp [setTag]) q k
    have hw : u.path.windows = s.path.windows := by rw [hpath]
    rw [hstage, readTag_setTag _ _ _ _ hform, tagNumber_congr hw q k, tagNumber_congr hw p.ring p.slot]
    split
    · rfl
    · rename_i hne
      rw [readTag_congr htags hw]
      exact (hlatch q k).trans (if_neg hne)
  · refine ⟨{ readTag s p.ring p.slot with latch := none }, rfl, fun _ => rfl, fun q k => ?_⟩
    have hx : (intakeWrite p w s).1 = (payloadGranule p w (setLatch p.ring p.slot none s)).1 := by simp [intakeWrite, hg]
    rw [hx, readTag_congr (s := setLatch p.ring p.slot none s) (by simp) (by simp)]
    exact hlatch q k

/-! #### The whole state -/

/-- A ring write changes the Intake Unit, the message handed off and the dirty set alone. -/
theorem intakeWrite_eq (p : CellPlace) (w : BusWrite) (s : State) : (intakeWrite p w s).1 = { s with
    intake := (intakeWrite p w s).1.intake
    decoder := { s.decoder with handOff := (intakeWrite p w s).1.decoder.handOff }
    report := (intakeWrite p w s).1.report } := by
  have h := intakeWrite_frame p w s
  generalize (intakeWrite p w s).1 = t at h ⊢
  obtain ⟨pending, path, intake, ⟨number, tag, failures, ignored, handOff⟩, time, keys, showings, presentation, lock, account,
    journal, requests, report, store, settings, memory, memorySize, freeCount⟩ := t
  obtain ⟨rfl, rfl, rfl, rfl, rfl, rfl, rfl, rfl, rfl, rfl, rfl, rfl, rfl, rfl, rfl, rfl, rfl, rfl, rfl⟩ := h
  rfl

/-- Settles O19: what a ring write forwards, what becomes of the tags, and when a message is handed off. -/
theorem ringWriteIsForwarded : Obligations.RingWriteIsForwarded := by
  intro w p s hw hu ht hp
  obtain ⟨tag, hlatch, hfields, htags⟩ := intakeWrite_readTag p w s ht.1
  obtain ⟨hzero, hplain⟩ := intakeWrite_data p w s
  have hread : ∀ (x : Path) (q : Ring) (k : Nat), x.windows = s.path.windows →
      readTag { (intakeWrite p w s).1 with path := x } q k = readTag (intakeWrite p w s).1 q k :=
    fun x q k hx => readTag_congr (s := (intakeWrite p w s).1) (t := { (intakeWrite p w s).1 with path := x }) rfl (by simp [hx]) q k
  refine ⟨_, (intakeWrite p w s).2, exec_ringWrite w p s hw hu hp, ?_, ?_, ?_, fun hz n l hn => ?_, hplain, ?_, fun hg => ?_,
    fun hd => intakeWrite_decoder w p s hd, fun q k hq => ?_⟩
  · have hport : ∀ x : Path, x.mode = s.path.mode → x.results = s.path.results → x.tokens = s.path.tokens →
        portAfter s { (intakeWrite p w s).1 with path := x } = portAfter s (intakeWrite p w s).1 := by
      intro x h1 h2 h3
      simp [portAfter, takesPort, headGoesFirst, headWaiting, firstDirty, lineMark, h1, h2, h3]
    rw [hport _ (by simp) (by simp) (by simp)]
    exact congrArg (fun u : State => { u with path := { u.path with
      passing := some (.write (intakeWrite p w s).2 none), port := portAfter s (intakeWrite p w s).1 } }) (intakeWrite_eq p w s)
  · by_cases hz : Zeroes p w s
    · rw [hzero hz]
    · rw [hplain hz]
  · by_cases hz : Zeroes p w s
    · rw [hzero hz]
      exact zeroPayload_length _ _
    · rw [hplain hz]
  · rw [hzero hz]
    dsimp only
    rw [zeroPayload_get, hn]
    cases he : l.enabled <;> simp [he]
  · rw [hread _ _ _ (by simp), htags, if_pos rfl]
    exact hlatch
  · rw [hread _ _ _ (by simp), htags, if_pos rfl]
    exact hfields hg
  · rw [hread _ _ _ (by simp), htags, if_neg hq]

end Sys2Proof.Machine


/-! ### What the words of a ring read are -/

namespace Sys2Proof.Machine

/-! #### Bytes and fields of joined words -/

theorem byteAt_append_left (a b : List Byte) (k : Nat) (h : k < a.length) : byteAt (a ++ b) k = byteAt a k := by
  simp [byteAt, List.getD_eq_getElem?_getD, List.getElem?_append_left h]

theorem byteAt_append_right (a b : List Byte) (k : Nat) : byteAt (a ++ b) (a.length + k) = byteAt b k := by
  simp [byteAt, List.getD_eq_getElem?_getD, List.getElem?_append_right]

theorem byteAt_replicate_zero (n k : Nat) : byteAt (List.replicate n 0) k = 0 := by
  simp only [byteAt, List.getD_eq_getElem?_getD, List.getElem?_replicate]
  split <;> rfl

/-- A field that ends within the first word. -/
theorem field_append_left (a b : List Byte) (offset len : Nat) (h : offset + len ≤ a.length) :
    field (a ++ b) offset len = field a offset len := by
  unfold field
  rw [List.drop_append_of_le_length (by omega), List.take_append_of_le_length (by simp; omega)]

/-- A word read and the words after it, each as the verdict has it, are together as the verdict has them. -/
theorem readsUnder_append {s : State} {v : Verdict} {fs : Option TagFields} {w : Nat} {a b a' b' : List Byte}
    (ha : ReadsUnder s v fs w a a') (hb : ReadsUnder s v fs (w + 1) b b') (hw : a.length = 4) :
    ReadsUnder s v fs w (a ++ b) (a' ++ b') := by
  obtain ⟨hla, ha⟩ := ha
  obtain ⟨hlb, hb⟩ := hb
  refine ⟨by simp [hla, hlb], fun k hk => ?_⟩
  by_cases h : k < 4
  · have hx := ha k (by omega)
    have hf : 4 * w + k = 10 → field (a' ++ b') k 2 = field a' k 2 ∧ field (a ++ b) k 2 = field a k 2 := fun hc =>
      ⟨field_append_left _ _ _ _ (by omega), field_append_left _ _ _ _ (by omega)⟩
    dsimp only at hx ⊢
    rw [byteAt_append_left a b k (by omega), byteAt_append_left a' b' k (by omega)]
    obtain ⟨hraw, hopen, hvoid⟩ := hx
    refine ⟨hraw, fun b hv => ?_, fun r hv => ?_⟩
    · obtain ⟨h1, h2, h3⟩ := hopen b hv
      exact ⟨h1, fun hc => by rw [(hf hc).1, (hf hc).2, h2 hc], h3⟩
    · obtain ⟨h1, h2, h3⟩ := hvoid r hv
      exact ⟨h1, fun hc => by rw [(hf hc).1, (hf hc).2, h2 hc], h3⟩
  · obtain ⟨j, rfl⟩ : ∃ j, k = 4 + j := ⟨k - 4, by omega⟩
    have hx := hb j (by simp at hk; omega)
    have hc : 4 * (w + 1) + j = 4 * w + (4 + j) := by omega
    have h1 : byteAt (a ++ b) (4 + j) = byteAt b j := hw ▸ byteAt_append_right a b j
    have h2 : byteAt (a' ++ b') (4 + j) = byteAt b' j := (hla.trans hw) ▸ byteAt_append_right a' b' j
    have h3 : field (a ++ b) (4 + j) 2 = field b j 2 := hw ▸ field_behind a b j 2
    have h4 : field (a' ++ b') (4 + j) 2 = field b' j 2 := (hla.trans hw) ▸ field_behind a' b' j 2
    rw [hc] at hx
    dsimp only at hx ⊢
    rw [h1, h2, h3, h4]
    exact hx

/-- No word, as every verdict has it. -/
theorem readsUnder_nil (s : State) (v : Verdict) (fs : Option TagFields) (w : Nat) : ReadsUnder s v fs w [] [] :=
  ⟨rfl, fun k hk => absurd hk (Nat.not_lt_zero k)⟩

/-- What a read returns rests on the key pool alone. -/
theorem readsUnder_congr {s t : State} {v : Verdict} {fs : Option TagFields} {w : Nat} {a b : List Byte} (hk : t.keys = s.keys)
    (h : ReadsUnder t v fs w a b) : ReadsUnder s v fs w a b := by
  unfold ReadsUnder at h ⊢
  rwa [hk] at h

/-! #### One word -/

/-- A word whose bytes are named. -/
theorem word_cases {word : List Byte} (h : word.length = 4) : ∃ a b c d, word = [a, b, c, d] := by
  match word, h with
  | [a, b, c, d], _ => exact ⟨a, b, c, d, rfl⟩

/-- A number laid in the check bytes of a header word. -/
theorem field_check (a b : Byte) (n : Half) : field ([a, b] ++ bytesOf 2 n.toNat) 2 2 = n.toNat := by
  have h := field_behind [a, b] (bytesOf 2 n.toNat ++ []) 0 2
  rw [field_front, List.append_nil] at h
  exact h.trans (Nat.mod_eq_of_lt n.isLt)

/-- A header word under OPEN (R97). -/
theorem headerWord_opened (s : State) (b : Basis) (fs : Option TagFields) (w : Nat) (word : List Byte) (h : word.length = 4)
    (hw : w < 3) : ReadsUnder s (.opened b) fs w word (headerWord (.opened b) w word) := by
  obtain ⟨x0, x1, x2, x3, rfl⟩ := word_cases h
  refine ⟨by interval_cases w <;> simp [headerWord], fun k hk => ⟨by simp, fun _ _ => ⟨fun hc => ?_, fun hc => ?_, ?_⟩, by simp⟩⟩
  · simp only [List.length_cons, List.length_nil] at hk
    interval_cases w <;> interval_cases k <;> simp [headerWord, byteAt] at hc ⊢
  · obtain ⟨rfl, rfl⟩ : w = 2 ∧ k = 2 := by simp at hk; omega
    refine (field_check x0 x1 _).trans ?_
    rw [BitVec.toNat_add, BitVec.toNat_ofNat, Nat.mod_add_mod]
    rfl
  · simp only [List.length_cons, List.length_nil] at hk
    omega

/-- A header word under VOID (R97). -/
theorem headerWord_voided (s : State) (r : VoidReason) (fs : Option TagFields) (w : Nat) (word : List Byte) (h : word.length = 4)
    (hw : w < 3) : ReadsUnder s (.voided r) fs w word (headerWord (.voided r) w word) := by
  obtain ⟨x0, x1, x2, x3, rfl⟩ := word_cases h
  refine ⟨by interval_cases w <;> simp [headerWord], fun k hk => ⟨by simp, by simp, fun _ _ => ⟨fun hc => ?_, fun hc => ?_, ?_⟩⟩⟩
  · simp only [List.length_cons, List.length_nil] at hk
    interval_cases w <;> interval_cases k <;> simp [headerWord, byteAt] at hc ⊢
  · obtain ⟨rfl, rfl⟩ : w = 2 ∧ k = 2 := by simp at hk; omega
    refine (field_check x0 x1 _).trans ?_
    rw [BitVec.toNat_sub, BitVec.toNat_ofNat, Nat.add_mod_mod, Nat.add_comm, Nat.add_sub_assoc (by decide)]
    rfl
  · simp only [List.length_cons, List.length_nil] at hk
    omega

/-- RAW and CLEAR return memory. -/
theorem readsUnder_stored (s : State) (v : Verdict) (hv : v = .raw ∨ v = .clear) (fs : Option TagFields) (w : Nat) (word : List Byte) :
    ReadsUnder s v fs w word word := by
  refine ⟨rfl, fun k _ => ⟨fun _ => rfl, fun b hb => ?_, fun r hr => ?_⟩⟩
  · rcases hv with rfl | rfl <;> cases hb
  · rcases hv with rfl | rfl <;> cases hr

/-- A header word under a verdict (R97). -/
theorem headerWord_reads (s : State) (v : Verdict) (fs : Option TagFields) (w : Nat) (word : List Byte) (h : word.length = 4)
    (hw : w < 3) : ReadsUnder s v fs w word (headerWord v w word) := by
  cases v with
  | raw => exact readsUnder_stored s _ (.inl rfl) fs w word
  | clear => exact readsUnder_stored s _ (.inr rfl) fs w word
  | opened b => exact headerWord_opened s b fs w word h hw
  | voided r => exact headerWord_voided s r fs w word h hw

/-- Zeros as a payload word under VOID (R100). -/
theorem zeroWord_reads (s : State) (r : VoidReason) (fs : Option TagFields) (w : Nat) (word : List Byte) (h : word.length = 4)
    (hw : 3 ≤ w) : ReadsUnder s (.voided r) fs w word (List.replicate 4 0) :=
  ⟨by simp [h], fun k _ => ⟨by simp, by simp, fun _ _ => ⟨fun hc => by omega, fun hc => by omega,
    fun _ => byteAt_replicate_zero 4 k⟩⟩⟩

/-- Of a payload word under OPEN nothing is said where no tag's fields name a key. -/
theorem openedWord_reads_unkeyed (s : State) (b : Basis) (w : Nat) (word x : List Byte) (h : x.length = word.length)
    (hw : 3 ≤ w) : ReadsUnder s (.opened b) none w word x :=
  ⟨h, fun k _ => ⟨by simp, fun _ _ => ⟨fun hc => by omega, fun hc => by omega, by simp⟩, by simp⟩⟩

/-- A byte of an unscrambled word (R39). -/
theorem byteAt_xorWord (k : Key64) (salt : Half) (j i : Nat) (word : List Byte) (h : word.length = 4) (hi : i < 4) :
    byteAt (xorWord k salt j word) i = byteAt word i ^^^ keystreamByte k salt (4 * j + i) := by
  have hj : (4 * j + i) / 4 = j := by omega
  have hm : (4 * j + i) % 4 = i := by omega
  have hl : (keystreamBytes k salt j).length = 4 := bytesOf_length _ _
  unfold keystreamByte xorWord byteAt
  rw [hj, hm]
  simp [List.getD_eq_getElem?_getD, h, hl, hi]

/-- A payload word under OPEN with the key held: unscrambled below the payload length, stored bytes past it (R98). -/
theorem keyedWord_reads (s : State) (b : Basis) (f : TagFields) (key : Key64) (w : Nat) (word : List Byte) (h : word.length = 4)
    (hw : 3 ≤ w) (hk : lookupKey s.keys.pool f.service f.epoch = some key) : ReadsUnder s (.opened b) (some f) w word
      (if 4 * (w - 3) < f.payloadLength then xorWord key f.salt (w - 3) word else word) := by
  refine ⟨?_, fun k hlt => ⟨by simp, fun _ _ => ⟨fun hc => by omega, fun hc => by omega, ?_⟩, by simp⟩⟩
  · split
    · simp [xorWord, keystreamBytes, h]
    · rfl
  · rintro - _ key' ⟨⟩ hkey
    obtain rfl : key = key' := Option.some.inj (hk.symm.trans hkey)
    have hc : 4 * w + k - 12 = 4 * (w - 3) + k := by omega
    have hj : (4 * (w - 3) + k) / 4 = w - 3 := by omega
    rw [hc, hj]
    split
    · exact byteAt_xorWord _ _ _ _ _ h (h ▸ hlt)
    · rfl

/-- A word under a latched verdict, the key of an OPEN one held where the word is of the payload: as the verdict has it, and nothing
changes. -/
theorem rewriteWord_reads (r : Ring) (slot w : Nat) (word : List Byte) (s : State) (v : Verdict) (h : word.length = 4)
    (hl : (readTag s r slot).latch = some v)
    (hk : ∀ b, v = .opened b →
      (∃ f, (readTag s r slot).fields = some f ∧ lookupKey s.keys.pool f.service f.epoch ≠ none) ∨ w < 3) :
    ∃ x, rewriteWord r slot w word s = (s, x) ∧ ReadsUnder s v (readTag s r slot).fields w word x := by
  unfold rewriteWord
  rw [hl]
  dsimp only
  split
  · rename_i hw
    exact ⟨_, rfl, headerWord_reads s v _ w word h hw⟩
  · rename_i hw
    cases v with
    | raw => exact ⟨_, rfl, readsUnder_stored s _ (.inl rfl) _ w word⟩
    | clear => exact ⟨_, rfl, readsUnder_stored s _ (.inr rfl) _ w word⟩
    | voided reason => exact ⟨_, rfl, zeroWord_reads s reason _ w word h (by omega)⟩
    | opened b =>
      obtain ⟨f, hf, hkey⟩ := (hk b rfl).resolve_right hw
      obtain ⟨key, hkey⟩ := Option.ne_none_iff_exists'.1 hkey
      refine ⟨_, by simp [payloadWord, openedWord, hf, hkey]; rfl, ?_⟩
      rw [hf]
      exact keyedWord_reads s b f key w word h (by omega) hkey

/-! #### The words of a read -/

/-- Words past word 0 under a latched verdict (R90): as the verdict has them, and nothing changes. -/
theorem presentWords_latched (r : Ring) (slot : Nat) (s : State) (v : Verdict) (hl : (readTag s r slot).latch = some v)
    (n w : Nat) (data : List Byte) (hd : data.length = 4 * n) (hw : w ≠ 0)
    (hk : ∀ b, v = .opened b →
      (∃ f, (readTag s r slot).fields = some f ∧ lookupKey s.keys.pool f.service f.epoch ≠ none) ∨ w + n ≤ 3) :
    ∃ x, presentWords r slot n w data s = (s, x) ∧ ReadsUnder s v (readTag s r slot).fields w data x := by
  induction n generalizing w data with
  | zero =>
    obtain rfl := List.length_eq_zero_iff.1 hd
    exact ⟨[], rfl, readsUnder_nil _ _ _ _⟩
  | succ n ih =>
    have h4 : (data.take 4).length = 4 := by simp [hd]
    obtain ⟨x, hx, hread⟩ := rewriteWord_reads r slot w (data.take 4) s v h4 hl fun b hb => (hk b hb).imp_right (by omega)
    obtain ⟨y, hy, hrest⟩ := ih (w + 1) (data.drop 4) (by simp [hd]; omega) (by omega) fun b hb => (hk b hb).imp_right (by omega)
    have hp : presentWord r slot w (data.take 4) s = (s, x) := by
      unfold presentWord
      rw [if_neg (by simp [hw, hl])]
      exact hx
    refine ⟨x ++ y, by simp [presentWords, hp, hy], ?_⟩
    simpa using readsUnder_append hread hrest h4

/-- A read whose first word is judged (R90): the words as the new latch has them, in the state the evaluation leaves. -/
theorem presentWords_judged (r : Ring) (slot : Nat) (s : State) (v : Verdict) (n w : Nat) (data : List Byte)
    (hd : data.length = 4 * (n + 1)) (hw : w = 0 ∨ (readTag s r slot).latch = none)
    (hl : (readTag (evaluate r slot s) r slot).latch = some v)
    (hk : ∀ b, v = .opened b → ∃ f, (readTag (evaluate r slot s) r slot).fields = some f ∧
      lookupKey (evaluate r slot s).keys.pool f.service f.epoch ≠ none) :
    ∃ x, presentWords r slot (n + 1) w data s = (evaluate r slot s, x) ∧
      ReadsUnder (evaluate r slot s) v (readTag (evaluate r slot s) r slot).fields w data x := by
  have h4 : (data.take 4).length = 4 := by simp [hd]
  obtain ⟨x, hx, hread⟩ := rewriteWord_reads r slot w (data.take 4) _ v h4 hl fun b hb => .inl (hk b hb)
  obtain ⟨y, hy, hrest⟩ := presentWords_latched r slot _ v hl n (w + 1) (data.drop 4) (by simp [hd]; omega) (by omega)
    fun b hb => .inl (hk b hb)
  have hp : presentWord r slot w (data.take 4) s = (evaluate r slot s, x) := by
    unfold presentWord
    rw [if_pos hw]
    exact hx
  refine ⟨x ++ y, by simp [presentWords, hp, hy], ?_⟩
  simpa using readsUnder_append hread hrest h4

end Sys2Proof.Machine


/-! ### Latches -/

namespace Sys2Proof.Machine

/-! #### What a latch sets -/

/-- The slot's tag with the verdict latched, every other slot's as before. -/
theorem latchVerdict_readTag (r : Ring) (slot : Nat) (v : Verdict) (s : State) (h : TagsForm s) (q : Ring) (k : Nat) :
    readTag (latchVerdict r slot v s) q k =
      if tagNumber s q k = tagNumber s r slot then { readTag s r slot with latch := some v } else readTag s q k := by
  rw [readTag_congr (s := setLatch r slot (some v) s) (latchVerdict_tags r slot v s) (by simp [setLatch, setTag]) q k]
  exact readTag_setTag r slot _ s h q k

/-- A latch changes the tags, the Presentation Unit and the dirty set alone. -/
theorem latchVerdict_eq (r : Ring) (slot : Nat) (v : Verdict) (s : State) : latchVerdict r slot v s = { s with
    intake := { s.intake with tags := (latchVerdict r slot v s).intake.tags }
    presentation := (latchVerdict r slot v s).presentation
    report := (latchVerdict r slot v s).report } := by
  have h := latchVerdict_frame r slot v s
  generalize latchVerdict r slot v s = t at h ⊢
  obtain ⟨pending, path, ⟨context, staging, tags, errors, abandoned⟩, decoder, time, keys, showings, presentation, lock, account,
    journal, requests, report, store, settings, memory, memorySize, freeCount⟩ := t
  obtain ⟨rfl, rfl, rfl, rfl, rfl, rfl, rfl, rfl, rfl, rfl, rfl, rfl, rfl, rfl, rfl, rfl, rfl, rfl, rfl⟩ := h
  rfl

/-- The state a latch leaves before the summary is set (R102). -/
def latchCounted (r : Ring) (slot : Nat) (v : Verdict) (s : State) : State :=
  if v = .voided .noKey then countNoKey (setLatch r slot (some v) s) else setLatch r slot (some v) s

/-- A verdict other than RAW on a valid tag sets the ring's summary, composed of lookups the latch leaves alone. -/
theorem latchVerdict_of_fields (r : Ring) (slot : Nat) (v : Verdict) (s : State) (f : TagFields)
    (hf : (readTag s r slot).fields = some f) (hv : v ≠ .raw) :
    latchVerdict r slot v s = setSummary r (summaryOf s f v) (latchCounted r slot v s) := by
  have hx : summaryOf (latchCounted r slot v s) f v = summaryOf s f v := by
    unfold latchCounted
    split <;> simp [summaryOf, findShowing, findEvent, tariffOf, setLatch, setTag]
  unfold latchVerdict
  rw [hf]
  dsimp only
  rw [if_neg hv]
  exact congrArg (fun x => setSummary r x (latchCounted r slot v s)) hx

theorem latchVerdict_raw (r : Ring) (slot : Nat) (s : State) : latchVerdict r slot .raw s = setLatch r slot (some .raw) s := by
  unfold latchVerdict
  cases (readTag s r slot).fields <;> simp

theorem setSummary_noKey (r : Ring) (x : Summary) (s : State) : (setSummary r x s).presentation.noKey = s.presentation.noKey := by
  unfold setSummary
  split <;> simp

theorem setSummary_get (r : Ring) (x : Summary) (s : State) (q : Ring) :
    (setSummary r x s).presentation.summary.get q = if q = r then some x else s.presentation.summary.get q := by
  unfold setSummary
  by_cases h : s.presentation.summary.get r = some x
  · rw [if_pos h]
    split
    · rename_i hq
      rw [hq, h]
    · rfl
  · rw [if_neg h]
    simp only [markLine_frame]
    split
    · rename_i hq
      rw [hq, PerRing.get_set_same]
    · rename_i hq
      exact PerRing.get_set_other _ _ _ _ hq

theorem latchCounted_summary (r : Ring) (slot : Nat) (v : Verdict) (s : State) :
    (latchCounted r slot v s).presentation.summary = s.presentation.summary := by
  unfold latchCounted
  split <;> simp [setLatch, setTag]

theorem countNoKey_noKey (s : State) : (countNoKey s).presentation.noKey = bump s.presentation.noKey := by
  unfold countNoKey bump
  split <;> simp_all

theorem latchCounted_noKey (r : Ring) (slot : Nat) (v : Verdict) (s : State) : (latchCounted r slot v s).presentation.noKey =
    if v = .voided .noKey then bump s.presentation.noKey else s.presentation.noKey := by
  unfold latchCounted
  split
  · exact countNoKey_noKey _
  · rfl

theorem latchVerdict_invalid (r : Ring) (slot : Nat) (v : Verdict) (s : State) (hf : (readTag s r slot).fields = none) :
    latchVerdict r slot v s = latchCounted r slot v s := by
  unfold latchVerdict
  rw [hf]
  rfl

/-- VOID NOKEY is counted, saturating (R102). -/
theorem latchVerdict_noKey (r : Ring) (slot : Nat) (v : Verdict) (s : State) : (latchVerdict r slot v s).presentation.noKey =
    if v = .voided .noKey then bump s.presentation.noKey else s.presentation.noKey := by
  cases hf : (readTag s r slot).fields with
  | none => rw [latchVerdict_invalid _ _ _ _ hf, latchCounted_noKey]
  | some f =>
    by_cases hv : v = .raw
    · rw [hv, latchVerdict_raw]
      rfl
    · rw [latchVerdict_of_fields _ _ _ _ f hf hv, setSummary_noKey, latchCounted_noKey]

/-- The other ring's summary stays. -/
theorem latchVerdict_summary_other (r : Ring) (slot : Nat) (v : Verdict) (s : State) (q : Ring) (hq : q ≠ r) :
    (latchVerdict r slot v s).presentation.summary.get q = s.presentation.summary.get q := by
  cases hf : (readTag s r slot).fields with
  | none => rw [latchVerdict_invalid _ _ _ _ hf, latchCounted_summary]
  | some f =>
    by_cases hv : v = .raw
    · rw [hv, latchVerdict_raw]
      rfl
    · rw [latchVerdict_of_fields _ _ _ _ f hf hv, setSummary_get, if_neg hq, latchCounted_summary]

/-- The ring's own summary, under a verdict other than RAW on a valid tag (R103). -/
theorem latchVerdict_summary (r : Ring) (slot : Nat) (v : Verdict) (s : State) (f : TagFields)
    (hf : (readTag s r slot).fields = some f) (hv : v ≠ .raw) :
    (latchVerdict r slot v s).presentation.summary.get r = some (summaryOf s f v) := by
  rw [latchVerdict_of_fields _ _ _ _ f hf hv, setSummary_get, if_pos rfl]

/-- The summary already set and nothing counted, the dirty set stays. -/
theorem latchVerdict_report_same (r : Ring) (slot : Nat) (v : Verdict) (s : State) (f : TagFields)
    (hf : (readTag s r slot).fields = some f) (hv : v ≠ .raw) (hn : v ≠ .voided .noKey)
    (hx : s.presentation.summary.get r = some (summaryOf s f v)) : (latchVerdict r slot v s).report = s.report := by
  rw [latchVerdict_of_fields _ _ _ _ f hf hv, setSummary, latchCounted_summary, if_pos hx, latchCounted, if_neg hn]
  rfl

/-! #### A key lost under OPEN -/

/-- Words of a read under OPEN with the key gone, one of them of the payload (R99): that word latches VOID NOKEY, and from it on the
words are zeros. -/
theorem presentWords_keyLost (r : Ring) (slot : Nat) (s : State) (b : Basis) (f : TagFields) (ht : TagsForm s)
    (hl : (readTag s r slot).latch = some (.opened b)) (hf : (readTag s r slot).fields = some f)
    (hk : lookupKey s.keys.pool f.service f.epoch = none) (n w : Nat) (data : List Byte) (hd : data.length = 4 * n) (hw : w ≠ 0)
    (hn : 0 < n) (h3 : 3 < w + n) :
    ∃ x, presentWords r slot n w data s = (latchVerdict r slot (.voided .noKey) s, x) ∧ ReadsUnder s (.opened b) none w data x ∧
      ∀ k, k < 4 * n → 12 ≤ 4 * w + k → byteAt x k = 0 := by
  induction n generalizing w data with
  | zero => omega
  | succ n ih =>
    have h4 : (data.take 4).length = 4 := by simp [hd]
    have hrest : (data.drop 4).length = 4 * n := by simp [hd]; omega
    have hp : presentWord r slot w (data.take 4) s = rewriteWord r slot w (data.take 4) s := by
      unfold presentWord
      rw [if_neg (by simp [hw, hl])]
    by_cases h : w < 3
    · have hx : rewriteWord r slot w (data.take 4) s = (s, headerWord (.opened b) w (data.take 4)) := by
        unfold rewriteWord
        rw [hl]
        exact if_pos h
      obtain ⟨y, hy, hread, hzero⟩ := ih (w + 1) (data.drop 4) hrest (by omega) (by omega) (by omega)
      have hhead := headerWord_reads s (.opened b) none w _ h4 h
      refine ⟨headerWord (.opened b) w (data.take 4) ++ y, by simp only [presentWords, hp, hx, hy], ?_, fun k hk h12 => ?_⟩
      · simpa using readsUnder_append hhead hread h4
      · obtain ⟨j, rfl⟩ : ∃ j, k = 4 + j := ⟨k - 4, by omega⟩
        have ha := byteAt_append_right (headerWord (.opened b) w (data.take 4)) y j
        rw [hhead.1.trans h4] at ha
        exact ha.trans (hzero j (by omega) (by omega))
    · have hx : rewriteWord r slot w (data.take 4) s = (latchVerdict r slot (.voided .noKey) s, List.replicate 4 0) := by
        unfold rewriteWord
        rw [hl]
        simp only [if_neg h, payloadWord, openedWord, hf, hk]
      have hl' : (readTag (latchVerdict r slot (.voided .noKey) s) r slot).latch = some (.voided .noKey) := by
        rw [latchVerdict_readTag _ _ _ _ ht, if_pos rfl]
      obtain ⟨y, hy, hread⟩ := presentWords_latched r slot _ _ hl' n (w + 1) (data.drop 4) hrest (by omega) (by simp)
      have hlen : (List.replicate 4 (0 : Byte) ++ y).length = data.length := by
        simp [hread.1, hd]; omega
      refine ⟨List.replicate 4 0 ++ y, by simp only [presentWords, hp, hx, hy], openedWord_reads_unkeyed s b w _ _ hlen (by omega),
        fun k hk _ => ?_⟩
      by_cases hk4 : k < 4
      · rw [byteAt_append_left _ _ _ (by simpa using hk4), byteAt_replicate_zero]
      · obtain ⟨j, rfl⟩ : ∃ j, k = 4 + j := ⟨k - 4, by omega⟩
        have ha := byteAt_append_right (List.replicate 4 (0 : Byte)) y j
        have hv := (hread.2 j (by omega)).2.2 .noKey rfl
        rw [List.length_replicate] at ha
        exact ha.trans (hv.2.2 (by omega))

/-! #### Reads under a latch -/

theorem readBytes_length (s : State) (a len : Nat) : (readBytes s a len).length = len := by simp [readBytes]

/-- Words handed back by a read accepted in `s`, in the state `u` its cell's presentation leaves. -/
def handedBack (r : BusRead) (data : List Byte) (s u : State) : State :=
  { u with path := { s.path with returned := s.path.returned ++ [{ address := r.address, data := data }] } }

/-- A read of a cell, returned. -/
theorem returnRead_cell (r : BusRead) (p : CellPlace) (s u : State) (data : List Byte)
    (h : presentWords p.ring p.slot r.words p.word (readBytes s r.address.toNat (4 * r.words)) s = (u, data)) :
    returnRead r (.cell p.ring p.slot p.word) s = handedBack r data s u := by
  have hpath : u.path = s.path := by
    have hx := presentWords_frame p.ring p.slot r.words p.word (readBytes s r.address.toNat (4 * r.words)) s
    rw [h] at hx
    exact hx.2.1
  simp only [returnRead, h, giveBack, hpath, handedBack]

/-- The tags once a verdict is latched in a state with the tags of `s`. -/
theorem latchVerdict_readTag_of (s u : State) (ring : Ring) (slot : Nat) (v : Verdict) (hi : u.intake = s.intake)
    (hp : u.path = s.path) (h : TagsForm s) (q : Ring) (k : Nat) : readTag (latchVerdict ring slot v u) q k =
      if tagNumber s q k = tagNumber s ring slot then { readTag s ring slot with latch := some v } else readTag s q k := by
  have htags : u.intake.tags = s.intake.tags := by rw [hi]
  have hwin : u.path.windows = s.path.windows := by rw [hp]
  have hform : TagsForm u := by
    unfold TagsForm
    rw [htags]
    exact h
  rw [latchVerdict_readTag ring slot v u hform q k, tagNumber_congr hwin q k, tagNumber_congr hwin ring slot,
    readTag_congr htags hwin ring slot, readTag_congr htags hwin q k]

/-- The tags after a read that latched a verdict. -/
theorem handedBack_readTag (r : BusRead) (data : List Byte) (s u : State) (ring : Ring) (slot : Nat) (v : Verdict)
    (hi : u.intake = s.intake) (hp : u.path = s.path) (h : TagsForm s) (q : Ring) (k : Nat) :
    readTag (handedBack r data s (latchVerdict ring slot v u)) q k =
      if tagNumber s q k = tagNumber s ring slot then { readTag s ring slot with latch := some v } else readTag s q k := by
  have hback : readTag (handedBack r data s (latchVerdict ring slot v u)) q k = readTag (latchVerdict ring slot v u) q k :=
    readTag_congr (s := latchVerdict ring slot v u) (t := handedBack r data s (latchVerdict ring slot v u)) rfl
      (by simp [handedBack, hp]) q k
  exact hback.trans (latchVerdict_readTag_of s u ring slot v hi hp h q k)

/-- Its marks: line 0 for a count of VOID NOKEY, and the ring's line for a change of its summary (R103). -/
theorem handedBack_marks (r : BusRead) (data : List Byte) (s u : State) (ring : Ring) (slot : Nat) (v : Verdict) (f : TagFields)
    (hf : (readTag u ring slot).fields = some f) (hv : v ≠ .raw) (hr : ReportForm u) :
    Marks u (handedBack r data s (latchVerdict ring slot v u)) (fun n => n = 0 ∧ v = .voided .noKey ∧ u.presentation.noKey ≠ 65535 ∨
      n = (if ring = .ring0 then 3 else 4) ∧ u.presentation.summary.get ring ≠ some (summaryOf u f v)) fun _ => False := by
  have hline : (if ring = .ring0 then 3 else 4) = summaryLine ring := by cases ring <;> rfl
  rw [hline]
  exact Marks.of_report ((marks_latchVerdict ring slot v u f hf hv).marks hr) rfl rfl

/-- A ring read accepted on a free upstream port: its words returned, or its place in the cell kept for the grant (log 7). -/
theorem exec_ringRead (r : BusRead) (p : CellPlace) (s : State) (hw : r.wellFormed = true) (hu : UpstreamFree s)
    (hp : windowFor s r.address.toNat = .ring p) : exec (.ringRead r) s = .next (if takesPort s s then
        returnRead r (.cell p.ring p.slot p.word) s
      else { s with path := { s.path with passing := some (.read r (.cell p.ring p.slot p.word)) } }) := by
  have hplace : readPlace s r = .cell p.ring p.slot p.word := by simp [readPlace, hp]
  rw [exec_of_read (.ringRead r) r s rfl hw hu, hplace]

/-- A read has a word at least (R1). -/
theorem words_pos (r : BusRead) (h : r.wellFormed = true) : 0 < r.words := by
  simp only [BusRead.wellFormed, spanWellFormed, Bool.and_eq_true, decide_eq_true_eq] at h
  omega

/-- Settles O25: the words are those of the latched verdict, and only a key lost under OPEN changes the state. -/
theorem latchedPayloadReads : Obligations.LatchedPayloadReads := by
  intro r p s v hw hu hp hword hl
  have hlen := readBytes_length s r.address.toNat (4 * r.words)
  have hexec := exec_ringRead r p s hw hu hp
  refine ⟨fun hkey => ?_, fun b f hv hf hk h12 ht => ?_⟩
  · obtain ⟨data, hx, hread⟩ := presentWords_latched p.ring p.slot s v hl r.words p.word _ hlen hword
      fun b hb => (hkey b hb).imp_right (by omega)
    have hret := returnRead_cell r p s s data hx
    exact ⟨data, hread, hret, hexec.trans (by rw [hret]; rfl)⟩
  · subst hv
    obtain ⟨data, hx, hread, hzero⟩ := presentWords_keyLost p.ring p.slot s b f ht.1 hl hf hk r.words p.word _ hlen hword
      (words_pos r hw) (by omega)
    have hret := returnRead_cell r p s _ data hx
    have htag := handedBack_readTag r data s s p.ring p.slot (.voided .noKey) rfl rfl ht.1
    have hmarks := handedBack_marks r data s s p.ring p.slot (.voided .noKey) f hf (by simp) ht.2.1
    refine ⟨_, summaryOf s f (.voided .noKey), data, ⟨hret, by rw [hexec, hret]⟩, hread, hzero,
      congrArg (handedBack r data s) (latchVerdict_eq p.ring p.slot (.voided .noKey) s), ?_, fun q k hne => ?_,
      latchVerdict_noKey _ _ _ _, latchVerdict_summary _ _ _ _ f hf (by simp), latchVerdict_summary_other _ _ _ _, rfl, ?_⟩
    · simp only [htag, if_true, hf]
    · rw [htag, if_neg hne]
    · simpa only [true_and] using hmarks

end Sys2Proof.Machine


/-! ### Evaluations -/

namespace Sys2Proof.Machine

/-! #### An evaluation lists no event and strikes none -/

/-- The listed showings: event ids with their services, in the table's order. -/
def listed (s : State) : List (Half × BitVec 12) := s.showings.events.map fun e => (e.id, e.service)

/-- Whether a showing is listed rests on the ids and services alone. -/
theorem findShowing_isSome (s : State) (v : BitVec 12) (tag : Half) : (findShowing s v tag).isSome =
    (((listed s).find? fun x => x.1 == tag).map fun x => decide (x.2 = v)).getD false := by
  have h : (fun x : Half × BitVec 12 => x.1 == tag) ∘ (fun e : EventRecord => (e.id, e.service)) = fun e => e.id == tag := rfl
  unfold findShowing findEvent listed
  rw [List.find?_map, h]
  cases s.showings.events.find? fun e => e.id == tag with
  | none => rfl
  | some e => by_cases he : e.service = v <;> simp [he]

theorem findShowing_congr {s t : State} (h : listed t = listed s) (v : BitVec 12) (tag : Half) :
    (findShowing t v tag).isSome = (findShowing s v tag).isSome := by
  rw [findShowing_isSome, findShowing_isSome, h]

/-- A change of the event records that keeps ids and services. -/
theorem listed_map {s t : State} {g : EventRecord → EventRecord} (ht : t.showings.events = s.showings.events.map g)
    (hg : ∀ e, (g e).id = e.id ∧ (g e).service = e.service) : listed t = listed s := by
  unfold listed
  rw [ht, List.map_map]
  refine List.map_congr_left fun e _ => ?_
  simp [hg]

theorem listed_updateEvent (id : Half) (f : EventRecord → EventRecord) (s : State)
    (hf : ∀ e, (f e).id = e.id ∧ (f e).service = e.service) : listed (updateEvent id f s) = listed s := by
  refine listed_map (updateEvent_events s id f) fun e => ?_
  split
  · exact hf e
  · exact ⟨rfl, rfl⟩

theorem listed_holdEvent (id : Half) (c : HeldCause) (s : State) : listed (holdEvent id c s) = listed s := by
  have h := listed_updateEvent id (fun e => { e with preview := .spent })
    { s with account := { s.account with held := some { event := id, cause := c } } } fun _ => ⟨rfl, rfl⟩
  refine Eq.trans ?_ h
  simp only [holdEvent, listed, markLine_frame]

theorem listed_removeExpired (s : State) : listed (removeExpired s) = listed s := by
  refine listed_map (g := fun e => if (s.account.purchases.filter fun p => !p.live s.time.seconds).any fun p => p.event == e.id
    then { e with preview := .spent } else e) ?_ fun e => ?_
  · simp [removeExpired]
  · split <;> exact ⟨rfl, rfl⟩

theorem listed_commit (id : Half) (k : Option Nat) (s : State) : listed (commit id k s).1 = listed s := by
  rcases commit_cases id k s with ⟨r, h⟩ | ⟨r, h⟩ | ⟨e, t, _, h⟩ <;> rw [h]
  · exact listed_removeExpired s
  · refine (listed_map (commitEffects_events _ _ _ _ _ _) fun x => ?_).trans (listed_removeExpired s)
    split <;> exact ⟨rfl, rfl⟩

theorem listed_previewEnd (id : Half) (s : State) : listed (previewEnd id s) = listed s := by
  rcases previewEnd_cases id s with h | ⟨c, h⟩ | h | ⟨r, h⟩ <;> rw [h]
  · exact listed_holdEvent _ _ _
  · exact listed_commit _ _ _
  · exact (listed_holdEvent _ _ _).trans (listed_commit _ _ _)

theorem listed_note (id : Half) (s : State) : listed (presentationNote id s) = listed s :=
  listed_updateEvent id _ s fun _ => ⟨rfl, rfl⟩

theorem listed_previewStep (e : EventRecord) (t : Tariff) (s : State) : listed (previewStep e t s).1 = listed s := by
  unfold previewStep
  cases e.preview with
  | preview => exact listed_note _ _
  | spent => rfl
  | paid => rfl
  | untouched =>
    dsimp only
    split
    · exact (listed_note _ _).trans (listed_updateEvent _ _ _ fun _ => ⟨rfl, rfl⟩)
    · exact listed_previewEnd _ _

theorem listed_payStep (e : Option EventRecord) (s : State) : listed (payStep e s).1 = listed s := by
  unfold payStep
  split
  · exact listed_previewStep _ _ _
  · rfl

/-! #### The steps -/

/-- An evaluation answers before step 9 with nothing changed, or with step 9 and 10; an OPEN answer has the key held. -/
theorem judge_cases (f : TagFields) (s : State) :
    ((judge f s).1 = s ∧ ∀ b, (judge f s).2 ≠ .opened b) ∨
      lookupKey s.keys.pool f.service f.epoch ≠ none ∧
        ((judge f s).1 = s ∨ judge f s = payStep (findShowing s f.service f.eventTag) s) := by
  unfold judge
  dsimp only
  by_cases h1 : effectiveCeiling s.lock < ratingOf s f.service (findShowing s f.service f.eventTag)
  · simp [h1]
  by_cases h2 : f.scrambled = true
  · by_cases h3 : lookupKey s.keys.pool f.service f.epoch = none
    · simp [h1, h2, h3]
    · right
      refine ⟨h3, ?_⟩
      simp only [h1, h2, h3, Option.isNone_iff_eq_none, if_false, Bool.not_true, Bool.false_eq_true]
      repeat' split
      all_goals simp
  · simp [h1, h2]

/-- An evaluation keeps which showings are listed. -/
theorem listed_verdictOf (t : SlotTag) (s : State) : listed (verdictOf t s).1 = listed s := by
  unfold verdictOf
  split
  · rfl
  · rename_i f _
    split
    · rcases judge_cases f s with ⟨h, _⟩ | ⟨_, h | h⟩
      · rw [h]
      · rw [h]
      · rw [h, listed_payStep]
    · rfl

/-- A verdict of OPEN is given with the slot's key held (R93). -/
theorem verdictOf_opened (t : SlotTag) (s : State) (b : Basis) (h : (verdictOf t s).2 = .opened b) :
    ∃ f, t.fields = some f ∧ lookupKey s.keys.pool f.service f.epoch ≠ none := by
  unfold verdictOf at h
  split at h
  · cases h
  · rename_i f hf
    split at h
    · rcases judge_cases f s with ⟨_, hn⟩ | ⟨hk, _⟩
      · exact absurd h (hn b)
      · exact ⟨f, hf, hk⟩
    · cases h

theorem previewStep_ne_raw (e : EventRecord) (t : Tariff) (s : State) : (previewStep e t s).2 ≠ .raw := by
  unfold previewStep
  cases e.preview with
  | preview => simp
  | spent => simp
  | paid => simp
  | untouched =>
    dsimp only
    split
    · simp
    · dsimp only
      split <;> simp

theorem payStep_ne_raw (e : Option EventRecord) (s : State) : (payStep e s).2 ≠ .raw := by
  unfold payStep
  split
  · exact previewStep_ne_raw _ _ _
  · simp

theorem judge_ne_raw (f : TagFields) (s : State) : (judge f s).2 ≠ .raw := by
  unfold judge
  dsimp only
  repeat' split
  all_goals simp [payStep_ne_raw]

/-- RAW is the verdict of step 1 alone, which changes nothing. -/
theorem verdictOf_raw (t : SlotTag) (s : State) (h : (verdictOf t s).2 = .raw) : (verdictOf t s).1 = s := by
  unfold verdictOf at h ⊢
  split
  · rfl
  · rename_i f hf
    rw [hf] at h
    dsimp only at h
    split
    · rename_i hk
      rw [if_pos hk] at h
      exact absurd h (judge_ne_raw f s)
    · rfl

/-- The summary of an evaluation: the showing listed as before it, its metering as it leaves it (R102). -/
theorem summaryOf_judged (t : SlotTag) (s : State) (f : TagFields) (v : Verdict) : summaryOf (verdictOf t s).1 f v = {
    service := f.service
    event := f.eventTag
    listed := (findShowing s f.service f.eventTag).isSome
    verdict := v
    metering := (findShowing (verdictOf t s).1 f.service f.eventTag).bind fun e =>
      (tariffOf s e.tariffClass).map fun c => { viewed := e.viewed, allowance := c.allowance } } := by
  have ht : ∀ c, tariffOf (verdictOf t s).1 c = tariffOf s c := fun c => by simp [tariffOf]
  simp only [summaryOf, ht, findShowing_congr (listed_verdictOf t s)]

/-- A read whose first word is judged: its words under the verdict, handed back from the state in which that is latched. -/
theorem returnRead_judged (r : BusRead) (p : CellPlace) (s : State) (hw : r.wellFormed = true) (ht : TagsForm s)
    (hfresh : p.word = 0 ∨ (readTag s p.ring p.slot).latch = none) :
    let tag := readTag s p.ring p.slot
    let v := (verdictOf tag s).2
    ∃ data, ReadsUnder s v tag.fields p.word (readBytes s r.address.toNat (4 * r.words)) data ∧
      returnRead r (.cell p.ring p.slot p.word) s = handedBack r data s (latchVerdict p.ring p.slot v (verdictOf tag s).1) := by
  intro tag v
  have hframe := verdictOf_frame tag s
  obtain ⟨-, hpath, hintake, -⟩ := hframe
  have hkeys : (evaluate p.ring p.slot s).keys = s.keys := by simp
  have htag : readTag (evaluate p.ring p.slot s) p.ring p.slot = { tag with latch := some v } :=
    (latchVerdict_readTag_of s (verdictOf tag s).1 p.ring p.slot v hintake hpath ht p.ring p.slot).trans (if_pos rfl)
  obtain ⟨n, hn⟩ : ∃ n, r.words = n + 1 := ⟨r.words - 1, by have := words_pos r hw; omega⟩
  obtain ⟨data, hx, hread⟩ := presentWords_judged p.ring p.slot s v n p.word (readBytes s r.address.toNat (4 * r.words))
    (by rw [readBytes_length, hn]) hfresh (by rw [htag]) fun b hb => by
      rw [htag, hkeys]
      exact verdictOf_opened tag s b hb
  rw [htag] at hread
  rw [← hn] at hx
  exact ⟨data, readsUnder_congr hkeys hread, returnRead_cell r p s _ data hx⟩

/-- Settles O23: the slot is judged, its verdict latched, and the words returned as that verdict has them. -/
theorem headerReadEvaluates : Obligations.HeaderReadEvaluates := by
  intro r p s hw hu ht hp hfresh
  obtain ⟨data, hread, hret⟩ := returnRead_judged r p s hw ht.1 hfresh
  have hopen := verdictOf_opened (readTag s p.ring p.slot) s
  have hreport : ReportForm (verdictOf (readTag s p.ring p.slot) s).1 := charges_reportForm.verdict _ s ht.2.1
  have hraw := verdictOf_raw (readTag s p.ring p.slot) s
  have hsummary := summaryOf_judged (readTag s p.ring p.slot) s
  have hframe := verdictOf_frame (readTag s p.ring p.slot) s
  dsimp only at hread hret ⊢
  generalize (verdictOf (readTag s p.ring p.slot) s).1 = judged at *
  generalize (verdictOf (readTag s p.ring p.slot) s).2 = v at *
  obtain ⟨-, hpath, hintake, hdecoder, -, hkeys, -, hpres, hlock, -, -, -, -, hreq, -, -, -, -, -, -, hmem, -⟩ := hframe
  have htag := handedBack_readTag r data s judged p.ring p.slot v hintake hpath ht.1
  have hfields : readTag judged p.ring p.slot = readTag s p.ring p.slot :=
    readTag_congr (by rw [hintake]) (by rw [hpath]) p.ring p.slot
  have heq := latchVerdict_eq p.ring p.slot v judged
  rw [hintake] at heq
  have hlatch := latchVerdict_frame p.ring p.slot v judged
  obtain ⟨-, -, -, -, -, -, hdecoder', -, hkeys', -, hlock', -, -, hreq', -, -, hmem', -⟩ := hlatch
  refine ⟨_, data, hret, (exec_ringRead r p s hw hu hp).trans (by rw [hret]), hread, hopen,
    congrArg (handedBack r data s) heq, hmem'.trans hmem, hlock'.trans hlock, hkeys'.trans hkeys, hreq'.trans hreq,
    hdecoder'.trans hdecoder, (htag _ _).trans (if_pos rfl), fun q k hne => (htag q k).trans (if_neg hne), ?_, ?_, ?_, ?_⟩
  · intro hv
    obtain rfl := hraw hv
    rw [hv, latchVerdict_raw]
    exact ⟨rfl, rfl⟩
  · exact (latchVerdict_noKey p.ring p.slot v judged).trans (by rw [hpres])
  · intro q hq
    exact (latchVerdict_summary_other p.ring p.slot v judged q hq).trans (by rw [hpres])
  · intro f hf hv
    have hf' : (readTag judged p.ring p.slot).fields = some f := by rw [hfields, hf]
    rw [← hsummary f v, ← hpres]
    refine ⟨latchVerdict_summary _ _ _ _ f hf' hv, ?_, fun hx hn => latchVerdict_report_same _ _ _ _ f hf' hv hn hx⟩
    exact handedBack_marks r data s judged p.ring p.slot v f hf' hv hreport

end Sys2Proof.Machine


/-! ### Open cells and staged messages -/

namespace Sys2Proof.Machine

/-! #### What each operation of the Intake Unit leaves in a ring's context and buffer -/

@[simp] theorem setContext_get (r : Ring) (c : Option OpenCell) (s : State) : (setContext r c s).intake.context.get r = c :=
  PerRing.get_set_same _ _ _

@[simp] theorem setStaging_get (r : Ring) (b : Option Staging) (s : State) : (setStaging r b s).intake.staging.get r = b :=
  PerRing.get_set_same _ _ _

@[simp] theorem countAbandoned_abandoned (s : State) : (countAbandoned s).intake.abandoned = bump s.intake.abandoned := by
  unfold countAbandoned
  split
  · rename_i h
    exact (not_ne_iff.1 (mt (bump_ne _).1 (not_not.2 h))).symm
  · rfl

@[simp] theorem countHeaderError_headerErrors (s : State) :
    (countHeaderError s).intake.headerErrors = bump s.intake.headerErrors := by
  unfold countHeaderError
  split
  · rename_i h
    exact (not_ne_iff.1 (mt (bump_ne _).1 (not_not.2 h))).symm
  · rfl

/-- An abandoned cell's staged message is lost, and the cell counted (R31, R33). -/
@[simp] theorem abandonCell_intake (r : Ring) (s : State) : (abandonCell r s).intake.staging.get r = none ∧
    (abandonCell r s).intake.abandoned = bump s.intake.abandoned := by simp [abandonCell]

@[simp] theorem closeEarly_context (r : Ring) (s : State) : (closeEarly r s).intake.context.get r = none := by
  unfold closeEarly
  split
  · assumption
  · exact setContext_get _ _ _

theorem closeEarly_unopened (r : Ring) (s : State) (h : s.intake.context.get r = none) : closeEarly r s = s := by
  simp [closeEarly, h]

/-- An early close abandons the cell unless it was abandoned before (R29, R33). -/
theorem closeEarly_opened (r : Ring) (s : State) (c : OpenCell) (h : s.intake.context.get r = some c) :
    (closeEarly r s).intake.staging.get r = (if c.broken then s.intake.staging.get r else none) ∧
      (closeEarly r s).intake.abandoned = if c.broken then s.intake.abandoned else bump s.intake.abandoned := by
  cases hb : c.broken <;> simp [closeEarly, h, hb]

theorem stageWrite_plain (p : CellPlace) (w : BusWrite) (s : State) (c : OpenCell) (h : s.intake.context.get p.ring = some c)
    (hm : c.message = false) : stageWrite p w s = (s, w) := by simp [stageWrite, h, hm]

/-- In a message context the bytes of the staged message are written over (R30). -/
theorem stageWrite_staging (p : CellPlace) (w : BusWrite) (s : State) (c : OpenCell) (h : s.intake.context.get p.ring = some c)
    (hm : c.message = true) : (stageWrite p w s).1.intake.staging.get p.ring =
      (s.intake.staging.get p.ring).map fun b => { b with bytes := stagePayload p.byte w.lanes b.bytes } := by
  simp [stageWrite, h, hm]

/-- A cell of a valid header: its tag recorded, and a message's buffer set up with its salt (R21, R24, R30). -/
theorem openCell_valid (p : CellPlace) (w : BusWrite) (s : State) (hc : coversHeader p w = true)
    (hv : headerValid (headerOf w) = true) : let f := headerFields (headerOf w)
    (openCell p w s).intake.tags = (setTag p.ring p.slot { fields := some f, latch := none } s).intake.tags ∧
      (openCell p w s).intake.headerErrors = s.intake.headerErrors ∧
      (openCell p w s).intake.staging.get p.ring =
        if f.kind = .message then some { salt := f.salt, bytes := List.replicate 116 0 } else none := by
  unfold openCell
  rw [hc, hv, Bool.and_self, if_pos rfl]
  refine ⟨rfl, rfl, (setStaging_get _ _ s).trans ?_⟩
  simp

/-- A cell without a valid header: its tag is left invalid, and the error counted (R24, R33). -/
theorem openCell_invalid (p : CellPlace) (w : BusWrite) (s : State)
    (h : ¬ (coversHeader p w = true ∧ headerValid (headerOf w) = true)) :
    (openCell p w s).intake.tags = (setTag p.ring p.slot blankTag s).intake.tags ∧
      (openCell p w s).intake.headerErrors = bump s.intake.headerErrors ∧
      (openCell p w s).intake.staging = s.intake.staging := by
  unfold openCell
  rw [if_neg (by simpa using h)]
  simp [setTag, setContext, tagNumber]

/-- A whole cell's close frees context and buffer (R28, R32). -/
theorem closeWhole_intake (p : CellPlace) (c : OpenCell) (s : State) : (closeWhole p c s).intake.context.get p.ring = none ∧
    (closeWhole p c s).intake.staging.get p.ring = none := by
  unfold closeWhole
  dsimp only
  repeat' split
  all_goals simp

/-- A whole message is handed off with its salt (R32). -/
theorem closeWhole_handOff (p : CellPlace) (c : OpenCell) (s : State) (b : Staging) (hm : c.message = true)
    (hb : c.broken = false) (h : s.intake.staging.get p.ring = some b) : (closeWhole p c s).decoder.handOff =
      some { ring := p.ring, slot := p.slot, salt := b.salt, bytes := b.bytes } := by
  simp [closeWhole, h, hm, hb]

theorem advanceCell_context (p : CellPlace) (c : OpenCell) (s : State) : (advanceCell p c s).intake.context.get p.ring =
    if p.granule = 3 then none else some { c with next := p.granule + 1 } := by
  unfold advanceCell
  split
  · exact (closeWhole_intake p c s).1
  · exact setContext_get _ _ _

theorem advanceCell_staging (p : CellPlace) (c : OpenCell) (s : State) : (advanceCell p c s).intake.staging.get p.ring =
    if p.granule = 3 then none else s.intake.staging.get p.ring := by
  unfold advanceCell
  split
  · exact (closeWhole_intake p c s).2
  · simp

/-- An out-of-order granule abandons the cell once (R26, R28, R33). -/
theorem breakCell_intake (p : CellPlace) (c : OpenCell) (s : State) :
    (breakCell p c s).intake.context.get p.ring = (if p.granule = 3 then none else some { c with broken := true }) ∧
      (breakCell p c s).intake.abandoned = (if c.broken then s.intake.abandoned else bump s.intake.abandoned) ∧
      (c.broken = false → (breakCell p c s).intake.staging.get p.ring = none) := by
  cases hb : c.broken <;> simp [breakCell, hb]

/-! #### The other ring -/

/-- From `s` to `t` every ring but `r` keeps its context and its staging buffer. -/
def KeepsOther (r : Ring) (s t : State) : Prop := ∀ q, q ≠ r →
  t.intake.context.get q = s.intake.context.get q ∧ t.intake.staging.get q = s.intake.staging.get q

theorem KeepsOther.of_eq {r : Ring} {s t : State} (hc : t.intake.context = s.intake.context)
    (hs : t.intake.staging = s.intake.staging) : KeepsOther r s t := fun _ _ => by rw [hc, hs]; exact ⟨rfl, rfl⟩

theorem KeepsOther.trans {r : Ring} {s t u : State} (a : KeepsOther r s t) (b : KeepsOther r t u) : KeepsOther r s u :=
  fun q hq => ⟨(b q hq).1.trans (a q hq).1, (b q hq).2.trans (a q hq).2⟩

theorem keepsOther_setContext (r : Ring) (c : Option OpenCell) (s : State) : KeepsOther r s (setContext r c s) :=
  fun _ hq => ⟨PerRing.get_set_other _ _ _ _ hq, rfl⟩

theorem keepsOther_setStaging (r : Ring) (b : Option Staging) (s : State) : KeepsOther r s (setStaging r b s) :=
  fun _ hq => ⟨rfl, PerRing.get_set_other _ _ _ _ hq⟩

theorem keepsOther_countAbandoned (r : Ring) (s : State) : KeepsOther r s (countAbandoned s) := .of_eq (by simp) (by simp)

theorem keepsOther_abandonCell (r : Ring) (s : State) : KeepsOther r s (abandonCell r s) :=
  (keepsOther_setStaging r none s).trans (keepsOther_countAbandoned _ _)

/-- A cell is abandoned unless it was before. -/
theorem keepsOther_abandonUnless (r : Ring) (b : Bool) (s : State) : KeepsOther r s (if b then s else abandonCell r s) := by
  split
  · exact .of_eq rfl rfl
  · exact keepsOther_abandonCell _ _

theorem keepsOther_closeEarly (r : Ring) (s : State) : KeepsOther r s (closeEarly r s) := by
  unfold closeEarly
  split
  · exact .of_eq rfl rfl
  · exact (keepsOther_abandonUnless _ _ _).trans (keepsOther_setContext _ _ _)

theorem keepsOther_stageWrite (p : CellPlace) (w : BusWrite) (s : State) : KeepsOther p.ring s (stageWrite p w s).1 := by
  unfold stageWrite
  split
  · split
    · exact keepsOther_setStaging _ _ _
    · exact .of_eq rfl rfl
  · exact .of_eq rfl rfl

theorem keepsOther_openCell (p : CellPlace) (w : BusWrite) (s : State) : KeepsOther p.ring s (openCell p w s) := by
  unfold openCell
  split
  · exact ((keepsOther_setStaging _ _ s).trans (keepsOther_setContext _ _ _)).trans (.of_eq rfl rfl)
  · exact (keepsOther_setContext p.ring (some { slot := p.slot, next := 1, message := false, broken := false }) s).trans
      (.of_eq (by simp) (by simp))

theorem keepsOther_advanceCell (p : CellPlace) (c : OpenCell) (s : State) : KeepsOther p.ring s (advanceCell p c s) := by
  have hclose := (keepsOther_setStaging p.ring none s).trans (keepsOther_setContext p.ring none _)
  unfold advanceCell closeWhole
  split
  · dsimp only
    split
    · split
      · exact hclose.trans (.of_eq rfl rfl)
      · exact hclose
    · exact hclose
  · exact keepsOther_setContext _ _ _

/-- A ring write leaves the other ring's context and buffer alone. -/
theorem keepsOther_intakeWrite (p : CellPlace) (w : BusWrite) (s : State) : KeepsOther p.ring s (intakeWrite p w s).1 := by
  have hlatch : KeepsOther p.ring s (setLatch p.ring p.slot none s) := .of_eq rfl rfl
  unfold intakeWrite
  dsimp only
  split
  · exact ((hlatch.trans (keepsOther_closeEarly _ _)).trans (keepsOther_openCell _ _ _)).trans (keepsOther_stageWrite _ _ _)
  · refine hlatch.trans ?_
    unfold payloadGranule
    split
    · exact keepsOther_countAbandoned _ _
    · split
      · exact (keepsOther_closeEarly _ _).trans (keepsOther_countAbandoned _ _)
      · split
        · exact (keepsOther_stageWrite _ _ _).trans (keepsOther_advanceCell _ _ _)
        · exact (keepsOther_abandonUnless _ _ _).trans (keepsOther_setContext _ _ _)

/-! #### A ring write by its granule and its ring's context -/

/-- A granule 0 closes the ring's context and opens the slot's cell (R24, R29). -/
theorem intakeWrite_first (p : CellPlace) (w : BusWrite) (s : State) (hg : p.granule = 0) : intakeWrite p w s =
    stageWrite p w (openCell p w (closeEarly p.ring (setLatch p.ring p.slot none s))) := by simp [intakeWrite, hg]

/-- A payload granule outside any open cell (R27). -/
theorem intakeWrite_unopened (p : CellPlace) (w : BusWrite) (s : State) (hg : p.granule ≠ 0)
    (h : s.intake.context.get p.ring = none) :
    (intakeWrite p w s).1 = countAbandoned (setLatch p.ring p.slot none s) := by
  simp [intakeWrite, hg, payloadGranule, h]

section
variable (p : CellPlace) (w : BusWrite) (s : State) (c : OpenCell) (hg : p.granule ≠ 0)
  (h : s.intake.context.get p.ring = some c)
include hg h

/-- A payload granule of another slot than the open cell's (R27, R29). -/
theorem intakeWrite_otherSlot (hs : c.slot ≠ p.slot) :
    (intakeWrite p w s).1 = countAbandoned (closeEarly p.ring (setLatch p.ring p.slot none s)) := by
  simp [intakeWrite, hg, payloadGranule, h, hs]

/-- A payload granule in its order (R25, R28). -/
theorem intakeWrite_inOrder (hs : c.slot = p.slot) (hn : p.granule = c.next) :
    (intakeWrite p w s).1 = advanceCell p c (stageWrite p w (setLatch p.ring p.slot none s)).1 := by
  have hg' : c.next ≠ 0 := hn ▸ hg
  simp [intakeWrite, hg', payloadGranule, h, hs, hn]

/-- A payload granule out of its order (R26, R28). -/
theorem intakeWrite_outOfOrder (hs : c.slot = p.slot) (hn : p.granule ≠ c.next) :
    (intakeWrite p w s).1 = breakCell p c (setLatch p.ring p.slot none s) := by
  simp [intakeWrite, hg, payloadGranule, h, hs, hn]

end

/-- A ring write taken on a free upstream port, as far as cells go: the Intake Unit and the Decoder as the intake leaves them, the tags
where the windows place them, and line 0 marked exactly where a counter changes (R33). -/
theorem exec_ringWrite_intake (w : BusWrite) (p : CellPlace) (s : State) (hw : w.wellFormed = true) (hu : UpstreamFree s)
    (hp : windowFor s w.address.toNat = .ring p) : ∃ t, exec (.ringWrite w) s = .next t ∧
      t.intake = (intakeWrite p w s).1.intake ∧ t.decoder = (intakeWrite p w s).1.decoder ∧ t.path.windows = s.path.windows ∧
      (TablesLaw s → Marks s t (fun n => n = 0 ∧ (t.intake.headerErrors ≠ s.intake.headerErrors ∨
        t.intake.abandoned ≠ s.intake.abandoned)) fun _ => False) ∧
      (t.intake.headerErrors = s.intake.headerErrors → t.intake.abandoned = s.intake.abandoned → t.report = s.report) := by
  have hcounts := counts_intakeWrite p w s
  exact ⟨_, exec_ringWrite w p s hw hu hp, rfl, rfl, by simp,
    fun ⟨_, hform, _⟩ => Marks.of_report (hcounts.marks.marks hform) rfl rfl, hcounts.kept⟩

/-- Settles O22: the staged message, written over by the last granule, goes to the Decoder. -/
theorem wholeMessageIsHandedOff : Obligations.WholeMessageIsHandedOff := by
  intro w p s c b hw hu hp hg hc hslot hnext hm hb hstaged hlen
  obtain ⟨t, hexec, hintake, hdecoder, -⟩ := exec_ringWrite_intake w p s hw hu hp
  have ht := intakeWrite_inOrder p w s c (by omega) hc hslot (by omega)
  simp only [advanceCell, if_pos hg] at ht
  have hstage := stageWrite_staging p w (setLatch p.ring p.slot none s) c hc hm
  simp only [setLatch_frame, hstaged, Option.map_some] at hstage
  obtain ⟨hcontext, hstaging⟩ := closeWhole_intake p c (stageWrite p w (setLatch p.ring p.slot none s)).1
  refine ⟨t, _, hexec, ?_, ?_, ?_, fun j hj => stagePayload_get p.byte w.lanes b.bytes j (by omega)⟩
  · rw [hdecoder, ht]
    exact closeWhole_handOff p c _ _ hm hb hstage
  · rw [hintake, ht]
    exact hcontext
  · rw [hintake, ht]
    exact hstaging

/-! #### Payload granules -/

/-- An in-order granule before the last: what becomes of the staged message (R25, R30). -/
theorem intakeWrite_staging (p : CellPlace) (w : BusWrite) (s : State) (c : OpenCell) (hg : p.granule ≠ 0)
    (h : s.intake.context.get p.ring = some c) (hs : c.slot = p.slot) (hn : p.granule = c.next) (h3 : p.granule ≠ 3) :
    (intakeWrite p w s).1.intake.staging.get p.ring = if c.message then
      (s.intake.staging.get p.ring).map fun b => { b with bytes := stagePayload p.byte w.lanes b.bytes }
    else s.intake.staging.get p.ring := by
  rw [intakeWrite_inOrder p w s c hg h hs hn, advanceCell_staging, if_neg h3]
  split
  · rename_i hm
    exact stageWrite_staging p w _ c h hm
  · rename_i hm
    rw [stageWrite_plain p w (setLatch p.ring p.slot none s) c h (by simpa using hm)]
    rfl

/-- Settles O21: the four cases of a payload granule by its ring's context. -/
theorem payloadGranulesFollowTheCell : Obligations.PayloadGranulesFollowTheCell := by
  intro w p s hw hu hp hg
  obtain ⟨t, hexec, hintake, -, -, hmarks, hreport⟩ := exec_ringWrite_intake w p s hw hu hp
  refine ⟨t, hexec, by rw [hintake, intakeWrite_header p w s hg], hmarks, hreport, ?_, ?_, ?_⟩
  all_goals rw [hintake]
  · exact keepsOther_intakeWrite p w s
  · intro hc
    rw [intakeWrite_unopened p w s hg hc]
    simp [hc]
  intro c hc
  refine ⟨fun hslot => ?otherSlot, fun hslot hn => ?inOrder, fun hslot hn => ?outOfOrder⟩
  case otherSlot =>
    obtain ⟨hstaging, habandoned⟩ := closeEarly_opened p.ring (setLatch p.ring p.slot none s) c hc
    rw [intakeWrite_otherSlot p w s c hg hc hslot]
    simp only [countAbandoned_frame, countAbandoned_abandoned, closeEarly_context, hstaging, habandoned, setLatch_frame, true_and]
    split <;> rfl
  case inOrder =>
    have ht := intakeWrite_inOrder p w s c hg hc hslot hn
    have hstage := intakeWrite_staging p w s c hg hc hslot hn
    refine ⟨by simp [ht], by rw [ht, advanceCell_context], fun h3 => ?_, fun h3 hplain => ?_, fun h3 hm _ b hb hlen => ?_⟩
    · rw [ht, advanceCell_staging, if_pos h3]
    · rw [hstage h3]
      rcases hplain with hm | hnone
      · simp [hm]
      · simp [hnone]
    · refine ⟨stagePayload p.byte w.lanes b.bytes, ?_, (stagePayload_length _ _ _).trans hlen,
        fun j hj => stagePayload_get _ _ _ j (by omega)⟩
      rw [hstage h3, if_pos hm, hb]
      rfl
  case outOfOrder =>
    obtain ⟨hcontext, habandoned, hstaging⟩ := breakCell_intake p c (setLatch p.ring p.slot none s)
    rw [intakeWrite_outOfOrder p w s c hg hc hslot hn]
    exact ⟨habandoned, hstaging, hcontext⟩

/-! #### A granule 0 -/

/-- The bytes a message's granule 0 stages over zeros (R30). -/
theorem stagePayload_zeros (lanes : List Lane) (j : Nat) (hj : j < 116) : (stagePayload 0 lanes (List.replicate 116 0))[j]? =
    some (match lanes[12 + j]? with
      | some l => if l.enabled then l.data else 0
      | none => 0) := by
  rw [stagePayload_get 0 lanes _ j (by simpa using hj), Nat.sub_zero, List.getElem?_replicate_of_lt hj]
  cases lanes[12 + j]? with
  | none => rfl
  | some l => cases he : l.enabled <;> simp [he]

section
variable (p : CellPlace) (w : BusWrite) (s : State) (hg : p.granule = 0)
include hg

/-- The context a granule 0 leaves (R24). -/
theorem intakeWrite_first_context : (intakeWrite p w s).1.intake.context.get p.ring =
    some { slot := p.slot, next := 1, broken := false, message :=
      coversHeader p w && headerValid (headerOf w) && (headerFields (headerOf w)).kind == .message } := by
  simp only [intakeWrite_first p w s hg, stageWrite_frame, openCell_context]

/-- A granule 0 counts the cell it closes early, and no other (R29, R33). -/
theorem intakeWrite_first_abandoned :
    (s.intake.context.get p.ring = none → (intakeWrite p w s).1.intake.abandoned = s.intake.abandoned) ∧
      ∀ c, s.intake.context.get p.ring = some c →
        (intakeWrite p w s).1.intake.abandoned = if c.broken then s.intake.abandoned else bump s.intake.abandoned := by
  simp only [intakeWrite_first p w s hg, stageWrite_frame, openCell_frame]
  refine ⟨fun hc => ?_, fun c hc => (closeEarly_opened p.ring (setLatch p.ring p.slot none s) c hc).2⟩
  rw [closeEarly_unopened _ (setLatch p.ring p.slot none s) hc]
  rfl

/-- The slot's tag is the one the opened cell records (R22, R23). -/
theorem intakeWrite_first_tag (ht : TagsForm s) (tag : SlotTag)
    (h : ∀ u, (openCell p w u).intake.tags = (setTag p.ring p.slot tag u).intake.tags) :
    readTag (intakeWrite p w s).1 p.ring p.slot = tag := by
  rw [intakeWrite_first p w s hg]
  generalize hu : closeEarly p.ring (setLatch p.ring p.slot none s) = u
  have hform : TagsForm u := by
    have hlatch : TagsForm (setLatch p.ring p.slot none s) := setTag_form _ _ _ _ ht
    rw [← hu]
    simpa [TagsForm] using hlatch
  calc readTag (stageWrite p w (openCell p w u)).1 p.ring p.slot
      = readTag (setTag p.ring p.slot tag u) p.ring p.slot :=
        readTag_congr (by rw [← h]; simp) (by simp) p.ring p.slot
    _ = tag := by rw [readTag_setTag _ _ _ _ hform, if_pos rfl]

/-- A granule 0 with a valid header records its fields, counts no header error, and sets up the buffer of a message (R21, R24, R30). -/
theorem intakeWrite_first_valid (ht : TagsForm s) (hc : coversHeader p w = true) (hv : headerValid (headerOf w) = true) :
    let f := headerFields (headerOf w)
    readTag (intakeWrite p w s).1 p.ring p.slot = { fields := some f, latch := none } ∧
      (intakeWrite p w s).1.intake.headerErrors = s.intake.headerErrors ∧
      (intakeWrite p w s).1.intake.staging.get p.ring = if f.kind = .message then
        some { salt := f.salt, bytes := stagePayload 0 w.lanes (List.replicate 116 0) } else none := by
  have hopen := fun u => openCell_valid p w u hc hv
  refine ⟨intakeWrite_first_tag p w s hg ht _ fun u => (hopen u).1, ?_, ?_⟩
  · simp [intakeWrite_first p w s hg, (hopen _).2.1]
  have hbyte : p.byte = 0 := ((coversHeader_iff p w).1 hc).1
  have hcontext := openCell_context p w (closeEarly p.ring (setLatch p.ring p.slot none s))
  rw [hc, hv, Bool.and_self, Bool.true_and] at hcontext
  rw [intakeWrite_first p w s hg]
  by_cases hk : (headerFields (headerOf w)).kind = .message
  · rw [stageWrite_staging p w _ _ hcontext (by simpa using hk), (hopen _).2.2, if_pos hk, if_pos hk, hbyte]
    rfl
  · rw [stageWrite_plain p w _ _ hcontext (by simpa using hk), (hopen _).2.2, if_neg hk, if_neg hk]

/-- A granule 0 without a valid header leaves the tag invalid and counts; the buffer is that of the closed cell (R24, R33). -/
theorem intakeWrite_first_invalid (ht : TagsForm s) (h : ¬ (coversHeader p w = true ∧ headerValid (headerOf w) = true)) :
    readTag (intakeWrite p w s).1 p.ring p.slot = { fields := none, latch := none } ∧
      (intakeWrite p w s).1.intake.context.get p.ring = some { slot := p.slot, next := 1, message := false, broken := false } ∧
      (intakeWrite p w s).1.intake.headerErrors = bump s.intake.headerErrors ∧
      (intakeWrite p w s).1.intake.staging.get p.ring =
        (closeEarly p.ring (setLatch p.ring p.slot none s)).intake.staging.get p.ring := by
  have hopen := fun u => openCell_invalid p w u h
  have hb : (coversHeader p w && headerValid (headerOf w)) = false := by simpa using h
  have hcontext := openCell_context p w (closeEarly p.ring (setLatch p.ring p.slot none s))
  rw [hb, Bool.false_and] at hcontext
  have hplain := stageWrite_plain p w _ _ hcontext rfl
  refine ⟨intakeWrite_first_tag p w s hg ht _ fun u => (hopen u).1, ?_, ?_, ?_⟩
  all_goals rw [intakeWrite_first p w s hg, hplain]
  · exact hcontext
  · rw [(hopen _).2.1]
    simp
  · rw [(hopen _).2.2]

end

/-- The kinds of cells by the number the header writes (R21). -/
theorem cellKindOf_eq (n : Nat) : (n = 1 → cellKindOf n = .media) ∧ (n = 2 → cellKindOf n = .message) ∧
    (n = 3 → cellKindOf n = .guide) ∧ (n = 0 ∨ 4 ≤ n → cellKindOf n = .filler) := by
  refine ⟨by rintro rfl; rfl, by rintro rfl; rfl, by rintro rfl; rfl, fun h => ?_⟩
  unfold cellKindOf
  split
  · omega
  · omega
  · omega
  · rfl

/-- Settles O20: a granule 0 with a valid header, one without, and what both do. -/
theorem granuleZeroRecordsTheTag : Obligations.GranuleZeroRecordsTheTag := by
  refine ⟨headerCheck_eq, headerValid_iff, fun b => ?_, coversHeader_iff, fun w => ⟨headerOf_length w, headerOf_byte w⟩,
    fun s k => ⟨rfl, fun t => tagNumber_ring1 s t k⟩, fun w p s hw hu htables hp hg => ?_⟩
  · obtain ⟨hkind, hrest⟩ := headerFields_spec b
    obtain ⟨hmedia, hmessage, hguide, hfiller⟩ := cellKindOf_eq (field b 1 1 / 16)
    dsimp only
    rw [hkind]
    exact ⟨hmedia, hmessage, hguide, hfiller, hrest⟩
  obtain ⟨t, hexec, hintake, -, hwindows, hmarks, hreport⟩ := exec_ringWrite_intake w p s hw hu hp
  obtain ⟨hnone, hsome⟩ := intakeWrite_first_abandoned p w s hg
  have htag : readTag t p.ring p.slot = readTag (intakeWrite p w s).1 p.ring p.slot :=
    readTag_congr (by rw [hintake]) (by rw [hwindows]; simp) p.ring p.slot
  refine ⟨t, hexec, fun hc hv => ?valid, fun hbad => ?invalid, ?_, hmarks, hreport, ?_, ?_⟩
  all_goals rw [hintake]
  case valid =>
    obtain ⟨hfields, herrors, hstaging⟩ := intakeWrite_first_valid p w s hg htables.1 hc hv
    have hcontext := intakeWrite_first_context p w s hg
    rw [hc, hv, Bool.and_self, Bool.true_and] at hcontext
    refine ⟨htag.trans hfields, hcontext, herrors, fun hk => hstaging.trans (if_neg hk), fun hk => ?_⟩
    exact ⟨_, hstaging.trans (if_pos hk), by simp [stagePayload_length], stagePayload_zeros w.lanes⟩
  case invalid =>
    obtain ⟨hfields, hcontext, herrors, hstaging⟩ := intakeWrite_first_invalid p w s hg htables.1 hbad
    have hopened := fun c hc => (closeEarly_opened p.ring (setLatch p.ring p.slot none s) c hc).1
    refine ⟨htag.trans hfields, hcontext, herrors, fun c hc hb => ?_, fun hbroken => hstaging.trans ?_⟩
    · rw [hstaging, hopened c hc, hb]
      rfl
    · cases hc : s.intake.context.get p.ring with
      | none => rw [closeEarly_unopened p.ring (setLatch p.ring p.slot none s) hc]; rfl
      | some c => rw [hopened c hc, hbroken c hc]; rfl
  · exact keepsOther_intakeWrite p w s
  · exact hnone
  · exact hsome

end Sys2Proof.Machine


/-! ### The laws for keys, services, the store queue, showings and purchases (R43, R44, R75, R79, R146, R181) -/

namespace Sys2Proof.Machine

/-! #### The pool after a KEY message -/

/-- A pool splits at the first entry that a test holds of; the pool without it is the two parts. -/
theorem dropFirst_split (p : KeyEntry → Bool) (pool : List KeyEntry) (h : ∃ e ∈ pool, p e = true) :
    ∃ l e r, pool = l ++ e :: r ∧ p e = true ∧ (∀ x ∈ l, p x = false) ∧ dropFirst p pool = l ++ r := by
  induction pool with
  | nil => simp at h
  | cons x rest ih =>
    by_cases hx : p x = true
    · exact ⟨[], x, rest, rfl, hx, by simp, by simp [dropFirst, hx]⟩
    · obtain ⟨l, e, r, hl, he, hn, hd⟩ := ih (by simpa [hx] using h)
      exact ⟨x :: l, e, r, by simp [hl], he, by simpa [hx] using hn, by simp [dropFirst, hx, hd]⟩

/-- Of keys that differ, one entry has a given key: without that key the pool is the parts around it. -/
theorem filter_key_split {α β : Type} [BEq β] [LawfulBEq β] (f : α → β) (l r : List α) (e : α)
    (h : ((l ++ e :: r).map f).Nodup) : (l ++ e :: r).filter (fun x => !(f x == f e)) = l ++ r := by
  have hne : ∀ x ∈ l ++ r, f x ≠ f e := by
    intro x hx he
    simp only [List.map_append, List.map_cons] at h
    have hm : f e ∉ l.map f ++ r.map f := (List.nodup_middle.1 h).notMem
    rw [← List.map_append] at hm
    exact hm (List.mem_map.2 ⟨x, hx, he⟩)
  have hl : l.filter (fun x => !(f x == f e)) = l := List.filter_eq_self.2 fun x hx => by simpa using hne x (by simp [hx])
  have hr : r.filter (fun x => !(f x == f e)) = r := List.filter_eq_self.2 fun x hx => by simpa using hne x (by simp [hx])
  simp [List.filter_append, hl, hr]

/-- The entry a KEY message leaves at the newest end. -/
abbrev newEntry (service : BitVec 12) (epoch : BitVec 4) (key : Key64) (now : Nat) : KeyEntry :=
  { service := service, epoch := epoch, key := key, arrival := now }

/-- What of a pool stays beside the entry of a KEY message (R46 to R49): without the entry refreshed or replaced; at depth without the
service's oldest; in a full pool without its oldest. -/
structure KeyKept (depth : Nat) (service : BitVec 12) (epoch : BitVec 4) (pool kept : List KeyEntry) : Prop where
  held : (∃ e ∈ pool, e.service = service ∧ e.epoch = epoch) →
    ∃ l e r, pool = l ++ e :: r ∧ (e.service = service ∧ e.epoch = epoch) ∧ kept = l ++ r
  atDepth : (∀ e ∈ pool, ¬ (e.service = service ∧ e.epoch = epoch)) → depth ≤ (history pool service).length →
    ∃ l e r, pool = l ++ e :: r ∧ e.service = service ∧ (∀ x ∈ l, x.service ≠ service) ∧ kept = l ++ r
  below : (∀ e ∈ pool, ¬ (e.service = service ∧ e.epoch = epoch)) → (history pool service).length < depth →
    kept = if poolSize ≤ pool.length then pool.tail else pool

theorem keyPool_kept (depth now : Nat) (service : BitVec 12) (epoch : BitVec 4) (key : Key64) (pool : List KeyEntry)
    (hn : (pool.map fun e => (e.service, e.epoch)).Nodup) (hd : 1 ≤ depth) :
    ∃ kept, keyPool depth now service epoch key pool = kept ++ [newEntry service epoch key now] ∧
      KeyKept depth service epoch pool kept := by
  by_cases hs : ∃ e ∈ pool, e.service = service ∧ e.epoch = epoch
  · have hl : (lookupKey pool service epoch).isSome = true := by
      rw [Option.isSome_iff_ne_none, ne_eq, lookupKey_none]
      exact fun h => hs.elim fun e he => h e he.1 he.2
    refine ⟨pool.filter fun e => !(e.service == service && e.epoch == epoch), if_pos hl,
      fun _ => ?_, fun h => absurd hs (by simpa using h), fun h => absurd hs (by simpa using h)⟩
    obtain ⟨e, he, rfl, rfl⟩ := hs
    obtain ⟨l, r, rfl⟩ := List.append_of_mem he
    exact ⟨l, e, r, rfl, ⟨rfl, rfl⟩, filter_key_split (fun e => (e.service, e.epoch)) l r e hn⟩
  · have hl : ¬ (lookupKey pool service epoch).isSome = true := by
      rw [Option.isSome_iff_ne_none, not_not, lookupKey_none]
      exact fun e he h => hs ⟨e, he, h⟩
    refine ⟨makeRoom depth service pool, if_neg hl, fun h => absurd h hs, fun _ hh => ?_, fun _ hh => ?_⟩
    · have hx : ∃ e ∈ pool, (e.service == service) = true := by
        have : history pool service ≠ [] := List.ne_nil_of_length_pos (by omega)
        obtain ⟨e, he⟩ := List.exists_mem_of_ne_nil _ this
        exact ⟨e, List.mem_filter.1 he⟩
      obtain ⟨l, e, r, hp, he, hb, hk⟩ := dropFirst_split _ pool hx
      exact ⟨l, e, r, hp, by simpa using he, by simpa using hb, by simpa [makeRoom, hh] using hk⟩
    · exact if_neg (by omega)

/-- One entry of a service in the place of another leaves every history's length. -/
theorem history_replaced (l r : List KeyEntry) (e x : KeyEntry) (h : x.service = e.service) (v : BitVec 12) :
    (history (l ++ r ++ [x]) v).length = (history (l ++ e :: r) v).length := by
  simp only [history, List.filter_append, List.filter_cons, List.filter_nil, h, List.length_append]
  split
  · simp; omega
  · simp

/-- The law for a pool under a history depth (R43, R44). -/
def PoolForm (depth : Nat) (pool : List KeyEntry) : Prop :=
  pool.length ≤ poolSize ∧ (pool.map fun e => (e.service, e.epoch)).Nodup ∧
    (∀ service, (history pool service).length ≤ depth) ∧ 1 ≤ depth

/-- An entry of a service, in the place of one of that service. -/
theorem PoolForm.replace {depth : Nat} {l r : List KeyEntry} {e x : KeyEntry} (h : PoolForm depth (l ++ e :: r))
    (hx : x.service = e.service) (hn : ((l ++ r ++ [x]).map fun e => (e.service, e.epoch)).Nodup) :
    PoolForm depth (l ++ r ++ [x]) := by
  obtain ⟨hlen, -, hhist, hd⟩ := h
  exact ⟨by simpa using hlen, hn, fun v => by rw [history_replaced l r e x hx]; exact hhist v, hd⟩

/-- An entry of a service below its depth, behind what is left of a pool with a place free. -/
theorem PoolForm.grow {depth : Nat} {pool kept : List KeyEntry} {x : KeyEntry} (h : PoolForm depth pool)
    (hsub : kept.Sublist pool) (hroom : kept.length < poolSize) (hbelow : (history pool x.service).length < depth)
    (hn : ((kept ++ [x]).map fun e => (e.service, e.epoch)).Nodup) : PoolForm depth (kept ++ [x]) := by
  obtain ⟨-, -, hhist, hd⟩ := h
  refine ⟨by rw [List.length_append]; exact hroom, hn, fun v => ?_, hd⟩
  have hle : (history kept v).length ≤ (history pool v).length := (hsub.filter _).length_le
  have hsplit : history (kept ++ [x]) v = history kept v ++ history [x] v := List.filter_append ..
  rw [hsplit, List.length_append]
  by_cases hv : x.service = v
  · subst hv
    have hone : (history [x] x.service).length ≤ 1 := List.length_filter_le ..
    omega
  · have hnone : history [x] v = [] := by simp [history, hv]
    rw [hnone]
    exact hle.trans (hhist v)

/-- An entry of a new service and epoch repeats no key. -/
theorem keys_nodup_append {pool kept : List KeyEntry} {x : KeyEntry} (hn : (pool.map fun e => (e.service, e.epoch)).Nodup)
    (hsub : kept.Sublist pool) (hnew : ∀ e ∈ pool, ¬ (e.service = x.service ∧ e.epoch = x.epoch)) :
    ((kept ++ [x]).map fun e => (e.service, e.epoch)).Nodup := by
  rw [List.map_append]
  refine (hn.sublist (hsub.map _)).append (by simp) (List.disjoint_singleton.2 fun hm => ?_)
  obtain ⟨e, he, hk⟩ := List.mem_map.1 hm
  exact hnew e (hsub.subset he) (Prod.mk.inj hk)

/-- The pool after a KEY message keeps its law: the entry takes the place of the epoch's, of the service's oldest, or of the pool's
oldest, or there was room. -/
theorem keyPool_form (depth now : Nat) (service : BitVec 12) (epoch : BitVec 4) (key : Key64) (pool : List KeyEntry)
    (h : PoolForm depth pool) : PoolForm depth (keyPool depth now service epoch key pool) := by
  have hform := h
  obtain ⟨hlen, hn, -, hd⟩ := h
  obtain ⟨kept, hk, hkept⟩ := keyPool_kept depth now service epoch key pool hn hd
  rw [hk]
  by_cases hs : ∃ e ∈ pool, e.service = service ∧ e.epoch = epoch
  · obtain ⟨l, e, r, rfl, ⟨rfl, rfl⟩, rfl⟩ := hkept.held hs
    refine hform.replace rfl ((List.Perm.nodup_iff ?_).1 hn)
    simp only [List.map_append, List.map_cons, List.map_nil]
    exact List.perm_middle.trans (List.perm_append_singleton _ _).symm
  · have hnew : ∀ e ∈ pool, ¬ (e.service = service ∧ e.epoch = epoch) := fun e he h => hs ⟨e, he, h⟩
    by_cases hdepth : depth ≤ (history pool service).length
    · obtain ⟨l, e, r, rfl, he, -, rfl⟩ := hkept.atDepth hnew hdepth
      exact hform.replace he.symm (keys_nodup_append hn (by simp) hnew)
    · have hbelow := Nat.not_le.1 hdepth
      have hb := hkept.below hnew hbelow
      have hsub : kept.Sublist pool := by
        rw [hb]
        split
        · exact List.tail_sublist _
        · exact .refl _
      have hroom : kept.length < poolSize := by
        rw [hb]
        split
        · rw [List.length_tail]
          have : 0 < poolSize := by decide
          omega
        · omega
      exact hform.grow hsub hroom hbelow (keys_nodup_append hn hsub hnew)

/-- The law for key histories and the pool, but for what it says of LOAD. -/
def KeyForm (s : State) : Prop := PoolForm s.settings.historyDepth s.keys.pool

theorem keyMessage_form (service : BitVec 12) (epoch : BitVec 4) (key : Key64) (s : State) (h : KeyForm s) :
    KeyForm (keyMessage service epoch key s) := keyPool_form _ _ service epoch key _ h

/-! #### What a move does to the mode LOAD and the hand-off -/

/-- A move that enters LOAD not at all, and there hands no message off. -/
def KeepsLoad (s t : State) : Prop := t.path.mode = .load → s.path.mode = .load ∧ t.decoder.handOff = s.decoder.handOff

theorem KeepsLoad.of_eq {s t : State} (hm : t.path.mode = s.path.mode) (hh : t.decoder.handOff = s.decoder.handOff) :
    KeepsLoad s t := fun h => ⟨hm ▸ h, hh⟩

/-- Outside RUN an acceptance only takes the upstream port (R4). -/
theorem acceptTransaction_outside (x : Transaction) (s : State) (h : s.path.mode ≠ .run) :
    ∃ p, acceptTransaction x s = setPassing p s := by
  cases x with
  | read r => exact ⟨_, rfl⟩
  | write w =>
    refine ⟨some (.write w none), ?_⟩
    simp only [acceptTransaction, acceptWrite, windowFor_none s w.address.toNat (.inl h)]

theorem acceptTransaction_keepsLoad (x : Transaction) (s : State) : KeepsLoad s (acceptTransaction x s) := by
  intro h
  have hm : s.path.mode = .load := by simpa using h
  obtain ⟨p, hp⟩ := acceptTransaction_outside x s (by simp [hm])
  exact ⟨hm, by rw [hp]; rfl⟩

theorem loadImage_keepsLoad (s : State) : KeepsLoad s (loadImage s) := by
  intro h
  unfold loadImage at h ⊢
  dsimp only at h ⊢
  split
  · rename_i hok
    rw [if_pos hok] at h
    exact ⟨h, rfl⟩
  · rename_i hok
    rw [if_neg hok] at h
    simp at h

theorem loadStay_keepsLoad (i : Image) (s : State) : KeepsLoad s (loadStay i s) := by
  rw [loadStay_eq]
  intro h
  cases h

/-! #### Keys -/

/-- The law for keys, in what every mode has and what LOAD has beside. -/
theorem keyLaw_iff (s : State) :
    KeyLaw s ↔ KeyForm s ∧ (s.path.mode = .load → s.keys.pool = [] ∧ s.decoder.handOff = none) := by
  simp only [KeyLaw, KeyForm, PoolForm, and_assoc]

/-- What moves neither the pool nor the depth keeps the law for keys. -/
theorem keyLaw_of_frame {s t : State} (hl : KeepsLoad s t) (hk : t.keys = s.keys)
    (hd : t.settings.historyDepth = s.settings.historyDepth) (h : KeyLaw s) : KeyLaw t := by
  rw [keyLaw_iff] at h ⊢
  obtain ⟨hform, hload⟩ := h
  refine ⟨by unfold KeyForm; rw [hk, hd]; exact hform, fun hm => ?_⟩
  obtain ⟨hs, hh⟩ := hl hm
  rw [hk, hh]
  exact hload hs

/-- A pool that loses entries keeps its form. -/
theorem keyForm_of_sublist {s t : State} (hk : t.keys.pool.Sublist s.keys.pool)
    (hd : t.settings.historyDepth = s.settings.historyDepth) (h : KeyForm s) : KeyForm t := by
  obtain ⟨hlen, hn, hhist, hdepth⟩ := h
  unfold KeyForm
  rw [hd]
  exact ⟨hk.length_le.trans hlen, hn.sublist (hk.map _), fun v => ((hk.filter _).length_le).trans (hhist v), hdepth⟩

/-- An empty pool is in form under any depth from 1. -/
theorem keyForm_of_nil {s : State} (hk : s.keys.pool = []) (hd : 1 ≤ s.settings.historyDepth) : KeyForm s := by
  unfold KeyForm
  rw [hk]
  exact ⟨by simp, by simp, fun v => by simp [history], hd⟩

theorem maintMessage_keyForm (tag : Half) (s : State) (h : KeyForm s) : KeyForm (maintMessage tag s) := by
  unfold maintMessage
  split
  · exact h
  · exact keyForm_of_nil rfl h.2.2.2

theorem dispatch_keyForm (a : AddressType) (m : Message) (s : State) (h : KeyForm s) : KeyForm (dispatch a m s) := by
  cases m with
  | key service epoch key => exact keyMessage_form service epoch key s h
  | serviceDelete v => exact keyForm_of_sublist (s := s) List.filter_sublist rfl h
  | maint tag => exact maintMessage_keyForm tag s h
  | _ => exact keyForm_of_sublist (s := s) (by simp [dispatch]) (by simp [dispatch]) h

/-- A message handed off meets no LOAD, by the law, so its owner's act needs to keep the form alone. -/
theorem decodeHandOff_keyLaw (x : HandOff) (s : State) (hx : s.decoder.handOff = some x) (h : KeyLaw s) :
    KeyLaw (decodeHandOff x s) := by
  rw [keyLaw_iff] at h ⊢
  obtain ⟨hform, hload⟩ := h
  refine ⟨?_, fun hm => ?_⟩
  · have hf : ∀ {u v : State}, v.keys = u.keys → v.settings = u.settings → KeyForm u → KeyForm v := by
      intro u v hk hs
      exact keyForm_of_sublist (by rw [hk]) (by rw [hs])
    exact decodeHandOff_keeps (P := KeyForm) (fun _ => hf rfl rfl) (fun _ => hf (by simp) (by simp)) (fun _ => hf (by simp) (by simp))
      (fun _ _ => hf (by simp) (by simp)) dispatch_keyForm (fun _ => hf (by simp) (by simp)) x s hform
  · have hn := (hload (by simpa using hm)).2
    rw [hx] at hn
    cases hn

/-- The depth RUN takes from the image (R45). -/
theorem settings_historyDepth (i : Image) : 1 ≤ i.settings.historyDepth := by
  simp only [Image.settings, clampRange]
  omega

/-- The pool changes at KEY, SERVICE delete, ageing and the resets, its depth at the entry into RUN with the pool empty. -/
theorem kept_keyLaw : Kept KeyLaw where
  queue _ _ := keyLaw_of_frame (.of_eq rfl rfl) rfl rfl
  power _ _ _ _ := (keyLaw_iff _).2 ⟨keyForm_of_nil rfl (Nat.le_refl 1), fun _ => ⟨rfl, rfl⟩⟩
  resetUnits _ := keyLaw_of_frame (.of_eq rfl rfl) rfl rfl
  resetPath _ := keyLaw_of_frame (.of_eq (by simp) (by simp)) (by simp) (by simp)
  image s _ := keyLaw_of_frame (loadImage_keepsLoad s) (by simp) (by simp)
  journal _ _ := keyLaw_of_frame (.of_eq rfl rfl) rfl rfl
  stay i s hm h := (keyLaw_iff _).2 ⟨keyForm_of_nil (by simpa using (((keyLaw_iff s).1 h).2 hm).1)
    (by rw [loadStay_eq]; exact settings_historyDepth i), fun hr => by rw [loadStay_eq] at hr; cases hr⟩
  handOff := decodeHandOff_keyLaw
  accept x s := keyLaw_of_frame (acceptTransaction_keepsLoad x s) (by simp) (by simp)
  grant _ := keyLaw_of_frame (.of_eq (by simp) (by simp)) (by simp) (by simp)
  issue _ _ := keyLaw_of_frame (.of_eq (by simp) (by simp)) (by simp) (by simp)
  spend _ := keyLaw_of_frame (.of_eq rfl rfl) rfl rfl
  waiting _ _ := keyLaw_of_frame (.of_eq rfl rfl) rfl rfl
  passing _ _ _ := keyLaw_of_frame (.of_eq (by simp) (by simp)) (by simp) (by simp)
  inserted _ _ _ := keyLaw_of_frame (.of_eq (by simp) (by simp)) (by simp) (by simp)
  tokens _ _ := keyLaw_of_frame (.of_eq rfl rfl) rfl rfl
  second _ := keyLaw_of_frame (.of_eq (by simp) (by simp)) (by simp) (by simp)
  due _ _ _ _ := keyLaw_of_frame (.of_eq rfl rfl) rfl rfl
  meter _ := keyLaw_of_frame (.of_eq (by simp) (by simp)) (by simp) (by simp)
  account _ := keyLaw_of_frame (.of_eq (by simp) (by simp)) (by simp) (by simp)
  keys s h := by
    rw [keyLaw_iff] at h ⊢
    refine ⟨keyForm_of_sublist (s := s) List.filter_sublist rfl h.1, fun hm => ⟨?_, (h.2 hm).2⟩⟩
    simp [ageKeys, (h.2 hm).1]
  showings _ := keyLaw_of_frame (.of_eq (by simp) (by simp)) (by simp) (by simp)
  lock _ := keyLaw_of_frame (.of_eq (by simp) (by simp)) (by simp) (by simp)
  page _ _ _ := keyLaw_of_frame (.of_eq (by simp) (by simp)) (by simp) (by simp)
  fault _ _ _ := keyLaw_of_frame (.of_eq (by simp) (by simp)) (by simp) (by simp)

/-! #### Services -/

/-- What leaves the service table alone keeps its law. -/
theorem serviceLaw_of_frame {s t : State} (hs : t.showings.services = s.showings.services) (h : ServiceLaw s) : ServiceLaw t := by
  unfold ServiceLaw
  rw [hs]
  exact h

/-- An add leaves one record of its service: in the place of its old one, or at the end of a table with room (R76). -/
theorem serviceAddMessage_serviceLaw (r : ServiceRecord) (s : State) (h : ServiceLaw s) : ServiceLaw (serviceAddMessage r s) := by
  obtain ⟨hlen, hn⟩ := h
  unfold serviceAddMessage
  split
  · have hid : (s.showings.services.map fun x => if x.service = r.service then r else x).map ServiceRecord.service =
        s.showings.services.map ServiceRecord.service := by
      rw [List.map_map]
      refine List.map_congr_left fun x _ => ?_
      by_cases hx : x.service = r.service <;> simp [hx]
    exact ⟨by simpa using hlen, by rw [setServices_services, hid]; exact hn⟩
  · rename_i hf
    split
    · rename_i hroom
      have hnew : ∀ x ∈ s.showings.services, x.service ≠ r.service := by
        rw [← findService_none]
        simpa using hf
      refine ⟨by rw [setServices_services, List.length_append]; exact hroom, ?_⟩
      rw [setServices_services, List.map_append]
      refine hn.append (by simp) ?_
      simpa [List.Disjoint] using hnew
    · exact serviceLaw_of_frame (by simp) ⟨hlen, hn⟩

theorem dropService_serviceLaw (v : BitVec 12) (s : State) (h : ServiceLaw s) : ServiceLaw (dropService v s) :=
  ⟨(List.filter_sublist.length_le).trans h.1, h.2.sublist (List.filter_sublist.map _)⟩

theorem maintMessage_serviceLaw (tag : Half) (s : State) (h : ServiceLaw s) : ServiceLaw (maintMessage tag s) := by
  unfold maintMessage
  split
  · exact h
  · exact ⟨by simp [maintenanceReset], by simp [maintenanceReset]⟩

theorem dispatch_serviceLaw (a : AddressType) (m : Message) (s : State) (h : ServiceLaw s) : ServiceLaw (dispatch a m s) := by
  cases m with
  | serviceAdd r => exact serviceAddMessage_serviceLaw r s h
  | serviceDelete v => exact dropService_serviceLaw v s h
  | maint tag => exact maintMessage_serviceLaw tag s h
  | _ => exact serviceLaw_of_frame (by simp [dispatch]) h

/-- The service table changes at a SERVICE message and at the resets. -/
theorem kept_serviceLaw : Kept ServiceLaw where
  queue _ _ := serviceLaw_of_frame rfl
  power _ _ _ _ := ⟨Nat.zero_le _, List.nodup_nil⟩
  resetUnits _ := serviceLaw_of_frame rfl
  resetPath _ := serviceLaw_of_frame (by simp)
  image _ _ := serviceLaw_of_frame (by simp)
  journal _ _ := serviceLaw_of_frame rfl
  stay _ _ _ := serviceLaw_of_frame (by simp)
  handOff x s _ := decodeHandOff_keeps (P := ServiceLaw) (fun _ => serviceLaw_of_frame rfl) (fun _ => serviceLaw_of_frame (by simp))
    (fun _ => serviceLaw_of_frame (by simp)) (fun _ _ => serviceLaw_of_frame (by simp)) dispatch_serviceLaw
    (fun _ => serviceLaw_of_frame (by simp)) x s
  accept _ _ := serviceLaw_of_frame (by simp)
  grant _ := serviceLaw_of_frame (by simp)
  issue _ _ := serviceLaw_of_frame (by simp)
  spend _ := serviceLaw_of_frame rfl
  waiting _ _ := serviceLaw_of_frame rfl
  passing _ _ _ := serviceLaw_of_frame (by simp)
  inserted _ _ _ := serviceLaw_of_frame (by simp)
  tokens _ _ := serviceLaw_of_frame rfl
  second _ := serviceLaw_of_frame (by simp)
  due _ _ _ _ := serviceLaw_of_frame rfl
  meter _ := serviceLaw_of_frame (by simp)
  account _ := serviceLaw_of_frame (by simp)
  keys _ := serviceLaw_of_frame rfl
  showings _ := serviceLaw_of_frame (by simp)
  lock _ := serviceLaw_of_frame (by simp)
  page _ _ _ := serviceLaw_of_frame (by simp)
  fault _ _ _ := serviceLaw_of_frame (by simp)

/-! #### Acceptances -/

/-- A request's answer is a commit and its slot's mark, or one act of the Lock Unit or on the dirty set, or nothing. -/
theorem answerRequest_keeps {P : State → Prop} (hc : ∀ id k s, P s → P (commit id k s).1)
    (hs : ∀ k b s, P s → P (setSlotPending k b s)) (hu : ∀ d m s, P s → P (unlockRequest d m s).1)
    (hr : ∀ l s, P s → P (relockRequest l s)) (hm : ∀ s, P s → P (markAllLines s)) (k : Nat) (q : Request) (s : State)
    (h : P s) : P (answerRequest k q s).1 := by
  cases q with
  | buy id =>
    have hb := hc id (some k) s h
    unfold answerRequest buyRequest
    dsimp only
    split <;> rename_i he <;> rw [he] at hb
    · exact hs _ _ _ hb
    · exact hb
  | unlock d m => exact hu d m s h
  | relock l => exact hr l s h
  | refresh => exact hm s h
  | unknown => exact h

/-- An acceptance is the taking of the port, behind a ring write's intake, a dropped write's count or a request's answer. -/
theorem acceptTransaction_keeps {P : State → Prop} (hp : ∀ p s, P s → P (setPassing p s))
    (hi : ∀ p w s, P s → P (intakeWrite p w s).1) (hd : ∀ s, P s → P (countDropped s))
    (hq : ∀ k q s, P s → P (answerRequest k q s).1) (x : Transaction) (s : State) (h : P s) : P (acceptTransaction x s) := by
  cases x with
  | read r => exact hp _ _ h
  | write w =>
    unfold acceptTransaction acceptWrite acceptRequest
    dsimp only
    repeat' split
    · exact hp _ _ (hi _ _ _ h)
    · exact hd _ h
    · exact hp _ _ (hq _ _ _ h)
    · exact hp _ _ h
    · exact hd _ h
    · exact hp _ _ h

/-! #### The store queue -/

/-- The law for the store queue, said of the two lists. -/
def QueueForm (queue : List Job) (held : List HeldJob) : Prop :=
  queue.length ≤ queuePlaces ∧ (∀ h : HeldJob, queue.count h.job ≤ 1) ∧ held.Nodup ∧
    (held ≠ [] → queue.length = queuePlaces) ∧ ∀ h ∈ held, h.job ∉ queue

theorem queueForm_nil : QueueForm [] [] :=
  ⟨Nat.zero_le _, fun _ => Nat.zero_le _, List.nodup_nil, fun hn => absurd rfl hn, fun _ h => nomatch h⟩

theorem queueLaw_iff (s : State) : QueueLaw s ↔ QueueForm s.store.queue s.store.heldOver := by
  have hc : (∀ h : HeldJob, s.store.queue.count h.job ≤ 1) ↔
      s.store.queue.count .stay ≤ 1 ∧ s.store.queue.count .mark ≤ 1 :=
    ⟨fun h => ⟨h .stay, h .mark⟩, fun h x => by cases x <;> simp [HeldJob.job, h]⟩
  simp only [QueueLaw, QueueForm, hc, and_assoc]

theorem queueLaw_of_frame {s t : State} (hq : t.store.queue = s.store.queue) (hh : t.store.heldOver = s.store.heldOver)
    (h : QueueLaw s) : QueueLaw t := by
  unfold QueueLaw
  rw [hq, hh]
  exact h

theorem queueLaw_of_store {s t : State} (hs : t.store = s.store) : QueueLaw s → QueueLaw t :=
  queueLaw_of_frame (by rw [hs]) (by rw [hs])

/-- A queue with a free place holds no request over. -/
theorem QueueForm.held_nil {queue : List Job} {held : List HeldJob} (h : QueueForm queue held) (hl : queue.length < queuePlaces) :
    held = [] := by
  obtain ⟨-, -, -, hfull, -⟩ := h
  by_contra hn
  have := hfull hn
  omega

/-- A job that none of its kind waits for joins a queue with a free place. -/
theorem QueueForm.append {queue : List Job} {held : List HeldJob} (h : QueueForm queue held) (hl : queue.length < queuePlaces)
    (j : Job) (hj : ∀ x : HeldJob, x.job = j → j ∉ queue) : QueueForm (queue ++ [j]) held := by
  rw [h.held_nil hl]
  obtain ⟨-, hone, -, -, -⟩ := h
  refine ⟨by rw [List.length_append]; exact hl, fun x => ?_, List.nodup_nil, fun hn => absurd rfl hn, by simp⟩
  rw [List.count_append, List.count_singleton]
  split
  · rename_i he
    have he : j = x.job := by simpa using he
    rw [← he, List.count_eq_zero.2 (hj x he.symm)]
  · exact hone x

/-- A request is held over where the queue is full and none of its kind waits or is held over. -/
theorem QueueForm.hold {queue : List Job} {held : List HeldJob} (h : QueueForm queue held) (hl : ¬ queue.length < queuePlaces)
    (x : HeldJob) (hq : x.job ∉ queue) (hx : x ∉ held) : QueueForm queue (held ++ [x]) := by
  obtain ⟨hlen, hone, hn, -, hnot⟩ := h
  refine ⟨hlen, hone, ?_, fun _ => by omega, ?_⟩
  · exact hn.append (by simp) (List.disjoint_singleton.2 hx)
  · intro y hy
    rcases List.mem_append.1 hy with hy | hy
    · exact hnot y hy
    · rw [List.mem_singleton.1 hy]
      exact hq

theorem HeldJob.job_inj {x y : HeldJob} (h : x.job = y.job) : x = y := by
  cases x with
  | stay => cases y with
    | stay => rfl
    | mark => cases h
  | mark => cases y with
    | stay => cases h
    | mark => rfl

/-- The oldest job leaves, and the request first held over takes a place at the end. -/
theorem QueueForm.begin {j : Job} {rest : List Job} {held : List HeldJob} (h : QueueForm (j :: rest) held) :
    QueueForm (rest ++ (held.take 1).map HeldJob.job) (held.drop 1) := by
  obtain ⟨hlen, hone, hn, hfull, hnot⟩ := h
  rw [List.length_cons] at hlen hfull
  have hone' : ∀ x : HeldJob, rest.count x.job ≤ 1 := fun x => (List.count_le_count_cons ..).trans (hone x)
  cases held with
  | nil => exact ⟨by simp; omega, by simpa using hone', by simp, by simp, by simp⟩
  | cons x later =>
    rw [List.nodup_cons] at hn
    have hfull := hfull (by simp)
    simp only [List.mem_cons, not_or] at hnot
    have hx := (hnot x (.inl rfl)).2
    refine ⟨by simp; omega, fun y => ?_, hn.2, fun _ => by simp; omega, fun y hy => ?_⟩
    · simp only [List.take_succ_cons, List.take_zero, List.map_cons, List.map_nil, List.count_append, List.count_singleton]
      split
      · rename_i he
        have he : x.job = y.job := by simpa using he
        rw [← he, List.count_eq_zero.2 hx]
      · exact hone' y
    · have hne : y ≠ x := fun he => hn.1 (he ▸ hy)
      have hj : y.job ≠ x.job := fun he => hne (HeldJob.job_inj he)
      simp [hj, (hnot y (.inr hy)).2]

theorem joinQueue_queueLaw (h : HeldJob) (s : State) (hs : QueueLaw s) : QueueLaw (joinQueue h.job h s) := by
  rw [queueLaw_iff] at hs
  unfold joinQueue
  split
  · rwa [queueLaw_iff]
  · rename_i hq
    split
    · rename_i hl
      rw [queueLaw_iff]
      exact hs.append hl _ fun _ _ => hq
    · rename_i hl
      split
      · rwa [queueLaw_iff]
      · rename_i hh
        rw [queueLaw_iff]
        exact hs.hold hl h hq hh

theorem requestStay_queueLaw (s : State) (h : QueueLaw s) : QueueLaw (requestStay s) := by
  unfold requestStay
  split
  · exact joinQueue_queueLaw .stay s h
  · exact h

theorem requestMark_queueLaw (s : State) (h : QueueLaw s) : QueueLaw (requestMark s) := by
  unfold requestMark
  split
  · exact joinQueue_queueLaw .mark s h
  · exact h

theorem raiseGeneration_queueLaw (s : State) (h : QueueLaw s) : QueueLaw (raiseGeneration s) :=
  requestStay_queueLaw _ (queueLaw_of_store rfl h)

theorem setStoreState_queueLaw (x : StoreState) (s : State) (h : QueueLaw s) : QueueLaw (setStoreState x s) :=
  queueLaw_of_frame (by simp) (by simp) h

theorem launchJob_queueLaw (j : Job) (s : State) (h : QueueLaw s) : QueueLaw (launchJob j s) :=
  queueLaw_of_frame (by simp) (by simp) h

theorem beginJob_queueLaw (s : State) (h : QueueLaw s) : QueueLaw (beginJob s) := by
  unfold beginJob
  split
  · exact h
  · rename_i j rest hq
    refine setStoreState_queueLaw _ _ (launchJob_queueLaw _ _ ?_)
    rw [queueLaw_iff, hq] at h
    rw [queueLaw_iff]
    exact h.begin

theorem startJob_queueLaw (s : State) (h : QueueLaw s) : QueueLaw (startJob s) := by
  unfold startJob
  split
  · exact beginJob_queueLaw s h
  · exact h

theorem nextJob_queueLaw (s : State) (h : QueueLaw s) : QueueLaw (nextJob s) := by
  have h1 : QueueLaw (setInFlight none s) := queueLaw_of_frame rfl rfl h
  unfold nextJob
  dsimp only
  split
  · exact setStoreState_queueLaw _ _ h1
  · exact beginJob_queueLaw _ h1

/-- A JOURNAL job finds the place that check 9 saw (R181). -/
theorem appendCharge_queueLaw (r : ChargeRecord) (s : State) (hl : s.store.queue.length < queuePlaces) (h : QueueLaw s) :
    QueueLaw (appendCharge r s) := by
  unfold appendCharge requestJournal
  split
  · rw [queueLaw_iff] at h ⊢
    exact h.append hl _ fun x hx => by cases x <;> cases hx
  · exact queueLaw_of_store rfl h

theorem commitEffects_queueLaw (e : EventRecord) (t : Tariff) (rating total : Nat) (k : Option Nat) (s : State)
    (hl : 0 < total → s.store.queue.length < queuePlaces) (h : QueueLaw s) : QueueLaw (commitEffects e t rating total k s) := by
  unfold commitEffects
  dsimp only
  have hp : ∀ n u, QueueLaw u → QueueLaw (addPendingBuy k n u) := fun n u => queueLaw_of_store (by simp)
  refine startJob_queueLaw _ (hp _ _ (raiseGeneration_queueLaw _ ?_))
  split
  · rename_i ht
    exact appendCharge_queueLaw _ _ (by simpa using hl ht) (queueLaw_of_store (by simp) h)
  · exact queueLaw_of_store (by simp) h

theorem commit_queueLaw (id : Half) (k : Option Nat) (s : State) (h : QueueLaw s) : QueueLaw (commit id k s).1 := by
  rcases commit_cases id k s with ⟨r, e⟩ | ⟨r, e⟩ | ⟨e, t, hp, he⟩
  · rw [e]
    exact h
  · rw [e]
    exact queueLaw_of_store (by simp) h
  · rw [he]
    have hr : ¬ 8 < s.store.queue.length + (if 0 < totalOf s t then 1 else 0) + (if Job.stay ∈ s.store.queue then 0 else 1) :=
      fun hx => by simpa [hp.queue] using (lacksRoom_iff s (totalOf s t)).2 hx
    refine commitEffects_queueLaw _ _ _ _ _ _ (fun ht => ?_) (queueLaw_of_store (by simp) h)
    rw [if_pos ht] at hr
    simp only [removeExpired_frame, queuePlaces]
    omega

theorem charges_queueLaw : Charges QueueLaw where
  commit := commit_queueLaw
  hold _ _ _ := queueLaw_of_store rfl
  meter _ _ _ _ := queueLaw_of_store rfl

theorem noticeIfChanged_queueLaw (before : Option Half) (s : State) (h : QueueLaw s) : QueueLaw (noticeIfChanged before s) := by
  unfold noticeIfChanged rolloverNotice
  repeat' split
  all_goals first
    | exact h
    | exact startJob_queueLaw _ (raiseGeneration_queueLaw _ (queueLaw_of_store rfl h))

theorem ackMessage_queueLaw (a : Nat) (s : State) (h : QueueLaw s) : QueueLaw (ackMessage a s) := by
  unfold ackMessage
  dsimp only
  split
  · exact queueLaw_of_store (by simp) h
  · exact requestMark_queueLaw _ (queueLaw_of_store (by simp) h)

theorem ceilingMessage_queueLaw (room : Bool) (level : Nat) (s : State) (h : QueueLaw s) :
    QueueLaw (ceilingMessage room level s) := by
  have hl : ∀ l, QueueLaw (setLock l s) := fun l => queueLaw_of_store (by simp) h
  unfold ceilingMessage
  dsimp only
  repeat' split
  all_goals first
    | exact h
    | exact hl _
    | exact raiseGeneration_queueLaw _ (hl _)

theorem dispatch_queueLaw (a : AddressType) (m : Message) (s : State) (h : QueueLaw s) : QueueLaw (dispatch a m s) := by
  cases m with
  | listing l =>
    exact charges_queueLaw.listing (fun _ _ h _ => queueLaw_of_store rfl h) (fun _ _ _ h _ => queueLaw_of_store rfl h) l s h
  | tariffDefine c t => exact charges_queueLaw.tariff (fun _ _ _ => queueLaw_of_store rfl) c t s h
  | time c => exact noticeIfChanged_queueLaw _ _ (queueLaw_of_store (by split <;> rfl) h)
  | ack n => exact ackMessage_queueLaw n s h
  | ceiling n => exact ceilingMessage_queueLaw _ n s h
  | _ => exact queueLaw_of_store (by simp [dispatch]) h

theorem relockRequest_queueLaw (level : Nat) (s : State) (h : QueueLaw s) : QueueLaw (relockRequest level s) := by
  have hl : ∀ l, QueueLaw (setLock l s) := fun l => queueLaw_of_store (by simp) h
  unfold relockRequest
  dsimp only
  split
  · exact startJob_queueLaw _ (raiseGeneration_queueLaw _ (hl _))
  · exact hl _

theorem answerRequest_queueLaw (k : Nat) (q : Request) (s : State) : QueueLaw s → QueueLaw (answerRequest k q s).1 :=
  answerRequest_keeps commit_queueLaw (fun _ _ _ => queueLaw_of_store rfl) (fun _ _ _ => queueLaw_of_store (by simp))
    relockRequest_queueLaw (fun _ => queueLaw_of_store rfl) k q s

theorem reportJob_queueLaw (r : JobReport) (s : State) (h : QueueLaw s) : QueueLaw (reportJob r s) :=
  queueLaw_of_frame (by simp) (by simp) h

theorem completePage_queueLaw (f : InFlight) (s : State) (h : QueueLaw s) : QueueLaw (completePage f s) := by
  unfold completePage
  split
  · exact queueLaw_of_frame rfl rfl h
  · exact nextJob_queueLaw _ (reportJob_queueLaw _ _ (queueLaw_of_frame rfl rfl h))

theorem enterFault_queueLaw (f : InFlight) (s : State) : QueueLaw (enterFault f s) := by
  rw [queueLaw_iff]
  have hq : (enterFault f s).store.queue = [] := by simp [enterFault]
  have hh : (enterFault f s).store.heldOver = [] := by simp [enterFault]
  rw [hq, hh]
  exact queueForm_nil

/-- The queue changes at the requests of R181, at a job's start and completion, at FAULT and at power-on. -/
theorem kept_queueLaw : Kept QueueLaw where
  queue _ _ := queueLaw_of_store rfl
  power _ _ _ _ := (queueLaw_iff _).2 queueForm_nil
  resetUnits _ := queueLaw_of_store rfl
  resetPath _ := queueLaw_of_store (by simp)
  image _ _ := queueLaw_of_frame (by simp) (by simp)
  journal _ _ := queueLaw_of_frame rfl rfl
  stay _ _ _ := queueLaw_of_frame (by simp) (by simp)
  handOff x s _ := decodeHandOff_keeps (P := QueueLaw) (fun _ => queueLaw_of_store rfl) (fun _ => queueLaw_of_store (by simp))
    (fun _ => queueLaw_of_store (by simp)) (fun _ _ h => raiseGeneration_queueLaw _ (queueLaw_of_store rfl h)) dispatch_queueLaw
    startJob_queueLaw x s
  accept := acceptTransaction_keeps (fun _ _ => queueLaw_of_store rfl) (fun _ _ _ => queueLaw_of_store (by simp))
    (fun _ => queueLaw_of_store (by simp)) answerRequest_queueLaw
  grant := charges_queueLaw.grantPassing (fun _ _ _ _ => queueLaw_of_store (by simp)) (fun _ _ => queueLaw_of_store rfl)
    (fun _ _ => queueLaw_of_store rfl) (fun _ _ _ => queueLaw_of_store rfl)
  issue _ _ := queueLaw_of_store (by simp)
  spend _ := queueLaw_of_store rfl
  waiting _ _ := queueLaw_of_store rfl
  passing _ _ _ := queueLaw_of_store (by simp)
  inserted _ _ _ := queueLaw_of_store (by simp)
  tokens _ _ := queueLaw_of_store rfl
  second s h := noticeIfChanged_queueLaw _ _ (queueLaw_of_store rfl h)
  due _ _ _ _ := queueLaw_of_store rfl
  meter := charges_queueLaw.meterSecond
  account _ := queueLaw_of_store (by simp)
  keys _ := queueLaw_of_store rfl
  showings _ := queueLaw_of_store (by simp)
  lock _ := queueLaw_of_store (by simp)
  page f s _ := completePage_queueLaw f s
  fault f s _ _ := enterFault_queueLaw f s

end Sys2Proof.Machine


namespace Sys2Proof.Machine

/-! #### The moves of previews

`Charges` asks a law to bear any change of an event record that keeps its id. The laws for showings and for purchases bear less: a count
keeps the record's place and its preview state, and a preview begins only on an event without a live purchase. -/

/-- A change of an event record's counts: id, start and preview state stay. -/
def CountsOnly (f : EventRecord → EventRecord) : Prop :=
  ∀ e, (f e).id = e.id ∧ (f e).start = e.start ∧ (f e).preview = e.preview

/-- What the operations on previews are made of. -/
structure Previews (P : State → Prop) : Prop where
  commit : ∀ id k s, P s → P (commit id k s).1
  hold : ∀ id c s, P s → P (holdEvent id c s)
  count : ∀ id f s, CountsOnly f → P s → P (updateEvent id f s)
  begins : ∀ id s, livePurchase s id = false → P s → P (beginPreview id s)

variable {P : State → Prop}

theorem Previews.previewEnd (k : Previews P) (id : Half) (s : State) (h : P s) : P (previewEnd id s) := by
  rcases previewEnd_cases id s with e | ⟨c, e⟩ | e | ⟨r, e⟩ <;> rw [e]
  · exact h
  · exact k.hold _ _ _ h
  · exact k.commit _ _ _ h
  · exact k.hold _ _ _ (k.commit _ _ _ h)

theorem Previews.classChange (k : Previews P) (id : Half) (s : State) (h : P s) : P (classChange id s) := by
  have hc : ∀ n, P (updateEvent id (fun e => { e with viewed := n }) s) := fun n => k.count _ _ _ (fun _ => ⟨rfl, rfl, rfl⟩) h
  unfold Machine.classChange
  split
  · exact h
  · split
    · exact h
    · dsimp only
      split
      · exact k.previewEnd _ _ (hc _)
      · exact hc _

theorem Previews.meterSecond (k : Previews P) (s : State) (h : P s) : P (meterSecond s) := by
  refine foldl_keeps _ (fun s id h => ?_) _ _ h
  unfold meterEvent
  split
  · exact h
  · rename_i e _
    refine k.count _ _ _ (fun _ => ⟨rfl, rfl, rfl⟩) ?_
    have hc : P (updateEvent e.id (fun e => { e with viewed := e.viewed + 1 }) s) := k.count _ _ _ (fun _ => ⟨rfl, rfl, rfl⟩) h
    unfold addViewed
    dsimp only
    split
    · split
      · exact k.previewEnd _ _ hc
      · exact hc
    · exact h

/-- A LISTING: what each record's update or insertion keeps, with the class changes between. -/
theorem Previews.listing (k : Previews P) (hi : ∀ r s, P s → findEvent s r.id = none → P (listEvent r s))
    (hu : ∀ r e s, P s → findEvent s r.id = some e → P (relistEvent r e s)) (l : List ListingRecord) (s : State) (h : P s) :
    P (listingMessage l s) := by
  refine foldl_keeps _ (fun s r h => ?_) _ _ h
  unfold takeListing
  split
  · split
    · exact hu _ _ _ h ‹_›
    · exact k.classChange _ _ (hu _ _ _ h ‹_›)
  · exact hi _ _ h ‹_›

theorem Previews.tariff (k : Previews P) (ht : ∀ c t s, P s → P (setTariff c t s)) (c : Nat) (t : Tariff) (s : State) (h : P s) :
    P (tariffDefineMessage c t s) := by
  unfold tariffDefineMessage
  dsimp only
  split
  · exact ht _ _ _ h
  · exact foldl_keeps _ (fun _ _ hx => k.classChange _ _ hx) _ _ (ht _ _ _ h)

/-- Step 10 on an event without a live purchase (R95). -/
theorem Previews.previewStep (k : Previews P) (e : EventRecord) (t : Tariff) (s : State) (hl : livePurchase s e.id = false) (h : P s) :
    P (previewStep e t s).1 := by
  have hn : ∀ x, P x → P (presentationNote e.id x) := fun x => k.count _ _ _ fun _ => ⟨rfl, rfl, rfl⟩
  unfold Machine.previewStep
  cases e.preview with
  | preview => exact hn _ h
  | spent => exact h
  | paid => exact h
  | untouched =>
    dsimp only
    split
    · exact hn _ (k.begins _ _ hl h)
    · exact k.previewEnd _ _ h

theorem findShowing_id {s : State} {v : BitVec 12} {tag : Half} {e : EventRecord} (h : findShowing s v tag = some e) : e.id = tag := by
  unfold findShowing at h
  split at h
  · rename_i x hx
    split at h
    · cases h
      exact findEvent_id hx
    · cases h
  · cases h

/-- An evaluation that goes to steps 9 and 10 found no live purchase of its event (R93). -/
theorem judge_pays (f : TagFields) (s : State) : (judge f s).1 = s ∨
    livePurchase s f.eventTag = false ∧ judge f s = payStep (findShowing s f.service f.eventTag) s := by
  unfold judge
  dsimp only
  repeat' split
  all_goals first
    | exact .inl rfl
    | exact .inr ⟨by simpa using ‹¬ livePurchase s f.eventTag = true›, rfl⟩

theorem Previews.verdict (k : Previews P) (t : SlotTag) (s : State) (h : P s) : P (verdictOf t s).1 := by
  unfold verdictOf
  split
  · exact h
  · rename_i f _
    split
    · rcases judge_pays f s with e | ⟨hl, e⟩ <;> rw [e]
      · exact h
      · unfold payStep
        split
        · rename_i x _ _ hx _
          exact k.previewStep _ _ _ (by rw [findShowing_id hx]; exact hl) h
        · exact h
    · exact h

/-- A ring read keeps what the evaluation of its slot and a latch keep. -/
theorem presentWords_keeps (he : ∀ r n s, P s → P (evaluate r n s)) (hl : ∀ r n v s, P s → P (latchVerdict r n v s)) (r : Ring)
    (slot n w : Nat) (x : List Byte) (s : State) (h : P s) : P (presentWords r slot n w x s).1 := by
  have hr : ∀ w x s, P s → P (rewriteWord r slot w x s).1 := by
    intro w x s h
    unfold rewriteWord payloadWord openedWord
    repeat' split
    all_goals first
      | exact h
      | exact hl _ _ _ _ h
  have hp : ∀ w x s, P s → P (presentWord r slot w x s).1 := by
    intro w x s h
    unfold presentWord
    apply hr
    split
    · exact he _ _ _ h
    · exact h
  induction n generalizing w x s with
  | zero => exact h
  | succ n ih => exact ih _ _ _ (hp _ _ _ h)

/-- The grant to the passing transaction: a law of showings and accounts bears the path's own fields and a latch. -/
theorem Previews.grantPassing (k : Previews P) (hl : ∀ r n v s, P s → P (latchVerdict r n v s))
    (hp : ∀ s p, P s → P { s with path := p }) (s : State) (h : P s) : P (grantPassing s) := by
  have he : ∀ r n s, P s → P (evaluate r n s) := fun r n s h => hl _ _ _ _ (k.verdict _ _ h)
  unfold Machine.grantPassing
  split
  · unfold returnRead giveBack
    dsimp only
    split
    · exact hp _ _ (hp _ _ h)
    · exact hp _ _ (hp _ _ (hp _ _ h))
    · exact hp _ _ (presentWords_keeps he hl _ _ _ _ _ _ (hp _ _ h))
  · exact hp _ _ h
  · exact h

end Sys2Proof.Machine


namespace Sys2Proof.Machine

/-! #### Showings -/

/-- A showing table that loses records keeps its law. -/
theorem showingLaw_of_sublist {s t : State} (he : t.showings.events.Sublist s.showings.events) (h : ShowingLaw s) : ShowingLaw t :=
  ⟨he.length_le.trans h.1, h.2.1.sublist (he.map _), h.2.2.sublist he⟩

theorem showingLaw_of_frame {s t : State} (he : t.showings.events = s.showings.events) : ShowingLaw s → ShowingLaw t :=
  showingLaw_of_sublist (by rw [he])

/-- A change of the records that keeps ids and starts keeps the order. -/
theorem showingLaw_of_map {s t : State} {g : EventRecord → EventRecord} (he : t.showings.events = s.showings.events.map g)
    (hg : ∀ e, (g e).id = e.id ∧ (g e).start = e.start) (h : ShowingLaw s) : ShowingLaw t := by
  obtain ⟨hlen, hn, hord⟩ := h
  have hid : (s.showings.events.map g).map EventRecord.id = s.showings.events.map EventRecord.id := by
    rw [List.map_map]
    exact List.map_congr_left fun e _ => (hg e).1
  unfold ShowingLaw
  rw [he, hid, List.length_map, List.pairwise_map]
  refine ⟨hlen, hn, hord.imp fun {a b} hab => ?_⟩
  simpa only [EventRecord.before_iff, hg] using hab

theorem updateEvent_showingLaw (id : Half) (f : EventRecord → EventRecord) (s : State)
    (hf : ∀ e, (f e).id = e.id ∧ (f e).start = e.start) (h : ShowingLaw s) : ShowingLaw (updateEvent id f s) := by
  refine showingLaw_of_map (updateEvent_events s id f) (fun e => ?_) h
  split
  · exact hf e
  · exact ⟨rfl, rfl⟩

/-- The events after the removals of check 7 (R136). -/
theorem removeExpired_events (s : State) : (removeExpired s).showings.events = s.showings.events.map fun e =>
    if s.account.purchases.any (fun p => p.event == e.id && decide (p.rentalEnd ≤ s.time.seconds))
    then { e with preview := .spent } else e := by
  rw [removeExpired_eq]

theorem removeExpired_purchases (s : State) :
    (removeExpired s).account.purchases = s.account.purchases.filter fun p => decide (s.time.seconds < p.rentalEnd) := by
  rw [removeExpired_eq]

theorem removeExpired_showingLaw (s : State) (h : ShowingLaw s) : ShowingLaw (removeExpired s) := by
  refine showingLaw_of_map (removeExpired_events s) (fun e => ?_) h
  split <;> exact ⟨rfl, rfl⟩

theorem commit_showingLaw (id : Half) (k : Option Nat) (s : State) (h : ShowingLaw s) : ShowingLaw (commit id k s).1 := by
  rcases commit_cases id k s with ⟨r, e⟩ | ⟨r, e⟩ | ⟨e, t, -, he⟩
  · rw [e]
    exact h
  · rw [e]
    exact removeExpired_showingLaw s h
  · rw [he]
    refine showingLaw_of_map (commitEffects_events _ _ _ _ _ _) (fun x => ?_) (removeExpired_showingLaw s h)
    split <;> exact ⟨rfl, rfl⟩

theorem previews_showingLaw : Previews ShowingLaw where
  commit := commit_showingLaw
  hold id _ s h := updateEvent_showingLaw id _ { s with account := _ } (fun _ => ⟨rfl, rfl⟩) h
  count id f s hf := updateEvent_showingLaw id f s fun e => ⟨(hf e).1, (hf e).2.1⟩
  begins id s _ := updateEvent_showingLaw id _ s fun _ => ⟨rfl, rfl⟩

/-- A record of a new id takes its place in a table without it. -/
theorem insertEvent_ids (e : EventRecord) (l : List EventRecord) (hn : (l.map EventRecord.id).Nodup)
    (hnew : ∀ x ∈ l, x.id ≠ e.id) :
    ((insertEvent e l).map EventRecord.id).Nodup := by
  refine (((insertEvent_perm e l).map _).nodup_iff).2 ?_
  rw [List.map_cons, List.nodup_cons]
  exact ⟨fun hm => by obtain ⟨x, hx, hid⟩ := List.mem_map.1 hm; exact hnew x hx hid, hn⟩

theorem insertEvent_length (e : EventRecord) (l : List EventRecord) : (insertEvent e l).length = l.length + 1 :=
  (insertEvent_perm e l).length_eq

theorem listEvent_showingLaw (r : ListingRecord) (s : State) (h : ShowingLaw s) (hf : findEvent s r.id = none) :
    ShowingLaw (listEvent r s) := by
  obtain ⟨hlen, hn, hord⟩ := h
  have hnew : ∀ x ∈ s.showings.events, x.id ≠ r.fresh.id := (findEvent_none s r.id).1 hf
  have hi := insertEvent_ids r.fresh _ hn hnew
  have ho := insertEvent_ordered r.fresh _ hord hnew
  have hl := insertEvent_length r.fresh s.showings.events
  unfold listEvent
  dsimp only
  split
  · refine ⟨?_, hi.sublist ((List.dropLast_sublist _).map _), ho.sublist (List.dropLast_sublist _)⟩
    rw [setEvents_events, List.length_dropLast, hl]
    exact hlen
  · rename_i hle
    exact ⟨Nat.not_lt.1 hle, hi, ho⟩

theorem relistEvent_showingLaw (r : ListingRecord) (e : EventRecord) (s : State) (h : ShowingLaw s)
    (hf : findEvent s r.id = some e) : ShowingLaw (relistEvent r e s) := by
  have hm := (findEvent_some s r.id h e).1 hf
  obtain ⟨hlen, hn, hord⟩ := h
  have hsub : (s.showings.events.filter fun x => x.id != r.id).Sublist s.showings.events := List.filter_sublist
  have hnew : ∀ x ∈ s.showings.events.filter fun x => x.id != r.id, x.id ≠ (r.over e).id := by
    intro x hx
    exact bne_iff_ne.1 (List.mem_filter.1 hx).2
  have hlt : (s.showings.events.filter fun x => x.id != r.id).length < s.showings.events.length :=
    List.length_filter_lt_length_iff_exists.2 ⟨e, hm.1, by simpa using hm.2⟩
  refine ⟨?_, insertEvent_ids _ _ (hn.sublist (hsub.map _)) hnew, insertEvent_ordered _ _ (hord.sublist hsub) hnew⟩
  rw [relistEvent, setEvents_events, insertEvent_length]
  omega

theorem accountCheckOut_events (s : State) : (accountCheckOut s).showings.events =
    s.showings.events.map fun e => { e with preview := .untouched, viewed := 0, cells := 0 } := by
  simp [accountCheckOut, resetMetering]

theorem accountCheckIn_events (b : CheckinBody) (night : Option Half) (s : State) : (accountCheckIn b night s).showings.events =
    s.showings.events.map fun e => { e with preview := .untouched, viewed := 0, cells := 0 } := by
  simp [accountCheckIn, resetMetering]

theorem checkOut_showingLaw (s : State) (h : ShowingLaw s) : ShowingLaw (checkOut s) :=
  showingLaw_of_frame (by simp [checkOut]) (showingLaw_of_map (accountCheckOut_events s) (fun _ => ⟨rfl, rfl⟩) h)

theorem checkIn_showingLaw (b : CheckinBody) (night : Option Half) (s : State) (h : ShowingLaw s) : ShowingLaw (checkIn b night s) :=
  showingLaw_of_frame (by simp [checkIn]) (showingLaw_of_map (accountCheckIn_events b night s) (fun _ => ⟨rfl, rfl⟩) h)

/-- A CHECKIN is ignored, or is a check-in behind a check-out or none (R123). -/
theorem checkinMessage_keeps {P : State → Prop} (hc : ∀ s, P s → P (countIgnored s)) (ho : ∀ s, P s → P (checkOut s))
    (hi : ∀ b n s, P s → P (checkIn b n s)) (b : CheckinBody) (night : Option Half) (s : State) (h : P s) :
    P (checkinMessage b night s) := by
  unfold checkinMessage
  repeat' split
  · exact hi _ _ _ h
  · exact hc _ h
  · exact hi _ _ _ (ho _ h)

theorem checkoutMessage_keeps {P : State → Prop} (hc : ∀ s, P s → P (countIgnored s)) (ho : ∀ s, P s → P (checkOut s))
    (number : Half) (s : State) (h : P s) : P (checkoutMessage number s) := by
  unfold checkoutMessage
  split
  · exact ho _ h
  · exact hc _ h

theorem maintMessage_showingLaw (tag : Half) (s : State) (h : ShowingLaw s) : ShowingLaw (maintMessage tag s) := by
  unfold maintMessage
  split
  · exact h
  · exact showingLaw_of_sublist (List.nil_sublist _) h

theorem dispatch_showingLaw (a : AddressType) (m : Message) (s : State) (h : ShowingLaw s) : ShowingLaw (dispatch a m s) := by
  cases m with
  | listing l => exact previews_showingLaw.listing listEvent_showingLaw relistEvent_showingLaw l s h
  | tariffDefine c t => exact previews_showingLaw.tariff (fun _ _ _ => showingLaw_of_frame rfl) c t s h
  | serviceDelete v => exact showingLaw_of_sublist (s := s) List.filter_sublist h
  | checkin b =>
    exact checkinMessage_keeps (fun _ => showingLaw_of_frame (by simp)) checkOut_showingLaw checkIn_showingLaw b _ s h
  | checkout n => exact checkoutMessage_keeps (fun _ => showingLaw_of_frame (by simp)) checkOut_showingLaw n s h
  | maint tag => exact maintMessage_showingLaw tag s h
  | _ => exact showingLaw_of_frame (by simp [dispatch]) h

theorem retireEvents_sublist (s : State) : (retireEvents s).showings.events.Sublist s.showings.events := by
  unfold retireEvents
  split
  · exact .refl _
  · exact List.filter_sublist

theorem accountMinute_events (s : State) : (accountMinute s).showings.events = (removeExpired s).showings.events := by
  simp [accountMinute]

/-- The showing table changes at the messages that list, delete and reset, at the second timer and evaluations in its metering, and
at its minute timer. -/
theorem kept_showingLaw : Kept ShowingLaw where
  queue _ _ := showingLaw_of_frame rfl
  power _ _ _ _ := ⟨Nat.zero_le _, List.nodup_nil, List.Pairwise.nil⟩
  resetUnits _ := showingLaw_of_frame rfl
  resetPath _ := showingLaw_of_frame (by simp)
  image _ _ := showingLaw_of_frame (by simp)
  journal _ _ := showingLaw_of_frame rfl
  stay _ _ _ := showingLaw_of_frame (by simp)
  handOff x s _ := decodeHandOff_keeps (P := ShowingLaw) (fun _ => showingLaw_of_frame rfl) (fun _ => showingLaw_of_frame (by simp))
    (fun _ => showingLaw_of_frame (by simp)) (fun _ _ => showingLaw_of_frame (by simp)) dispatch_showingLaw
    (fun _ => showingLaw_of_frame (by simp)) x s
  accept := acceptTransaction_keeps (fun _ _ => showingLaw_of_frame rfl) (fun _ _ _ => showingLaw_of_frame (by simp))
    (fun _ => showingLaw_of_frame (by simp)) (answerRequest_keeps commit_showingLaw (fun _ _ _ => showingLaw_of_frame rfl)
      (fun _ _ _ => showingLaw_of_frame (by simp)) (fun _ _ => showingLaw_of_frame (by simp)) (fun _ => showingLaw_of_frame rfl))
  grant := previews_showingLaw.grantPassing (fun _ _ _ _ => showingLaw_of_frame (by simp)) (fun _ _ => showingLaw_of_frame rfl)
  issue _ _ := showingLaw_of_frame (by simp)
  spend _ := showingLaw_of_frame rfl
  waiting _ _ := showingLaw_of_frame rfl
  passing _ _ _ := showingLaw_of_frame (by simp)
  inserted _ _ _ := showingLaw_of_frame (by simp)
  tokens _ _ := showingLaw_of_frame rfl
  second _ := showingLaw_of_frame (by simp)
  due _ _ _ _ := showingLaw_of_frame rfl
  meter := previews_showingLaw.meterSecond
  account s h := showingLaw_of_frame (accountMinute_events s) (removeExpired_showingLaw s h)
  keys _ := showingLaw_of_frame rfl
  showings s := showingLaw_of_sublist (retireEvents_sublist s)
  lock _ := showingLaw_of_frame (by simp)
  page _ _ _ := showingLaw_of_frame (by simp)
  fault _ _ _ := showingLaw_of_frame (by simp)

/-! #### Purchases -/

/-- The law for purchases, but for what it says of LOAD (R146). -/
def PurchaseForm (s : State) : Prop :=
  s.account.purchases.length ≤ purchasePlaces ∧ (s.account.purchases.map Purchase.event).Nodup ∧
    ∀ e ∈ s.showings.events, e.preview = .preview → livePurchase s e.id = false

theorem purchaseLaw_iff (s : State) : PurchaseLaw s ↔
    PurchaseForm s ∧ (s.path.mode = .load → s.showings.events = [] ∧ s.decoder.handOff = none) := by
  simp only [PurchaseLaw, PurchaseForm, and_assoc]

/-- With purchases that leave and time that passes, no purchase comes to life. -/
theorem livePurchase_mono {s t : State} (hp : t.account.purchases ⊆ s.account.purchases) (hn : s.time.seconds ≤ t.time.seconds)
    {id : Half} (h : livePurchase s id = false) : livePurchase t id = false := by
  rw [← Bool.not_eq_true, livePurchase_iff] at h ⊢
  rintro ⟨p, hm, he, hl⟩
  exact h ⟨p, hp hm, he, by omega⟩

/-- Purchases leave, time passes, and no event comes into PREVIEW: the form stays. -/
theorem purchaseForm_of_events {s t : State} (hp : t.account.purchases.Sublist s.account.purchases)
    (hn : s.time.seconds ≤ t.time.seconds)
    (he : ∀ e ∈ t.showings.events, e.preview = .preview → ∃ x ∈ s.showings.events, x.id = e.id ∧ x.preview = .preview)
    (h : PurchaseForm s) : PurchaseForm t := by
  obtain ⟨hlen, hnodup, hlive⟩ := h
  refine ⟨hp.length_le.trans hlen, hnodup.sublist (hp.map _), fun e hm hpre => ?_⟩
  obtain ⟨x, hx, hid, hxp⟩ := he e hm hpre
  exact livePurchase_mono hp.subset hn (hid ▸ hlive x hx hxp)

/-- The same, where the events are as they were or some have left. -/
theorem purchaseForm_of_sublist {s t : State} (hp : t.account.purchases.Sublist s.account.purchases)
    (hn : s.time.seconds ≤ t.time.seconds) (he : t.showings.events.Sublist s.showings.events) : PurchaseForm s → PurchaseForm t :=
  purchaseForm_of_events hp hn fun e hm hpre => ⟨e, he.subset hm, rfl, hpre⟩

theorem purchaseForm_of_frame {s t : State} (hp : t.account.purchases = s.account.purchases) (hn : s.time.seconds ≤ t.time.seconds)
    (he : t.showings.events = s.showings.events) : PurchaseForm s → PurchaseForm t :=
  purchaseForm_of_sublist (by rw [hp]) hn (by rw [he])

/-- The same, where each event changes on its own and none comes into PREVIEW. -/
theorem purchaseForm_of_map {s t : State} {g : EventRecord → EventRecord} (hp : t.account.purchases.Sublist s.account.purchases)
    (hn : s.time.seconds ≤ t.time.seconds) (he : t.showings.events = s.showings.events.map g)
    (hg : ∀ e, (g e).id = e.id ∧ ((g e).preview = .preview → e.preview = .preview)) : PurchaseForm s → PurchaseForm t := by
  refine purchaseForm_of_events hp hn fun e hm hpre => ?_
  rw [he] at hm
  obtain ⟨x, hx, rfl⟩ := List.mem_map.1 hm
  exact ⟨x, hx, (hg x).1.symm, (hg x).2 hpre⟩

theorem updateEvent_purchaseForm (id : Half) (f : EventRecord → EventRecord) (s : State)
    (hf : ∀ e, (f e).id = e.id ∧ ((f e).preview = .preview → e.preview = .preview)) :
    PurchaseForm s → PurchaseForm (updateEvent id f s) := by
  refine purchaseForm_of_map (.refl _) (Nat.le_refl _) (updateEvent_events s id f) fun e => ?_
  split
  · exact hf e
  · exact ⟨rfl, fun h => h⟩

theorem removeExpired_purchaseForm (s : State) : PurchaseForm s → PurchaseForm (removeExpired s) := by
  refine purchaseForm_of_map ?_ (by simp) (removeExpired_events s) fun e => ?_
  · rw [removeExpired_purchases]
    exact List.filter_sublist
  · split
    · exact ⟨rfl, by simp⟩
    · exact ⟨rfl, id⟩

/-- After the removals, an event without a live purchase has none at all. -/
theorem removeExpired_no_purchase (s : State) (id : Half) (h : livePurchase s id = false) :
    ∀ p ∈ (removeExpired s).account.purchases, p.event ≠ id := by
  rw [removeExpired_purchases]
  intro p hp he
  rw [← Bool.not_eq_true, livePurchase_iff] at h
  exact h ⟨p, (List.mem_filter.1 hp).1, he, by simpa using (List.mem_filter.1 hp).2⟩

/-- The effects of a commit whose event has no purchase, with a place free for its own (R137). -/
theorem commitEffects_purchaseForm (e : EventRecord) (t : Tariff) (rating total : Nat) (k : Option Nat) (s : State)
    (hplace : s.account.purchases.length < purchasePlaces) (hnew : ∀ p ∈ s.account.purchases, p.event ≠ e.id)
    (h : PurchaseForm s) : PurchaseForm (commitEffects e t rating total k s) := by
  obtain ⟨-, hn, hlive⟩ := h
  unfold PurchaseForm livePurchase
  rw [commitEffects_purchases, commitEffects_events, List.length_append, List.map_append]
  refine ⟨hplace, ?_, fun x hx hpre => ?_⟩
  · refine hn.append (by simp) (List.disjoint_singleton.2 ?_)
    simpa [purchaseRecord] using hnew
  · obtain ⟨y, hy, rfl⟩ := List.mem_map.1 hx
    split at hpre
    · cases hpre
    · rename_i hne
      rw [if_neg hne, List.any_append, Bool.or_eq_false_iff]
      refine ⟨by simpa [livePurchase] using hlive y hy hpre, ?_⟩
      simpa [purchaseRecord] using fun he => absurd he.symm hne

theorem commit_purchaseForm (id : Half) (k : Option Nat) (s : State) (h : PurchaseForm s) : PurchaseForm (commit id k s).1 := by
  rcases commit_cases id k s with ⟨r, e⟩ | ⟨r, e⟩ | ⟨e, t, hp, he⟩
  · rw [e]
    exact h
  · rw [e]
    exact removeExpired_purchaseForm s h
  · rw [he]
    refine commitEffects_purchaseForm _ _ _ _ _ _ hp.place ?_ (removeExpired_purchaseForm s h)
    rw [findEvent_id hp.listed]
    exact removeExpired_no_purchase s id hp.notLive

/-- A preview begins on an event without a live purchase, and ends with the event SPENT or PAID. -/
theorem previews_purchaseForm : Previews PurchaseForm where
  commit := commit_purchaseForm
  hold id _ s h := updateEvent_purchaseForm id _ { s with account := { s.account with held := _ } } (fun _ => ⟨rfl, by simp⟩) h
  count id f s hf := updateEvent_purchaseForm id f s fun e => ⟨(hf e).1, fun h => (hf e).2.2 ▸ h⟩
  begins id s hl h := by
    refine ⟨h.1, h.2.1, fun e hm hpre => ?_⟩
    obtain ⟨x, hx, rfl⟩ := List.mem_map.1 hm
    by_cases hid : x.id = id
    · rw [if_pos hid]
      exact hid ▸ hl
    · rw [if_neg hid] at hpre ⊢
      exact h.2.2 x hx hpre

/-- Without purchases there is nothing to hold. -/
theorem purchaseForm_of_nil {s : State} (hp : s.account.purchases = []) : PurchaseForm s := by
  unfold PurchaseForm livePurchase
  rw [hp]
  exact ⟨Nat.zero_le _, List.nodup_nil, fun _ _ _ => rfl⟩

theorem listEvent_purchaseForm (r : ListingRecord) (s : State) : PurchaseForm s → PurchaseForm (listEvent r s) := by
  refine purchaseForm_of_events (.refl _) (Nat.le_refl _) fun e hm hpre => ?_
  have hi : e ∈ insertEvent r.fresh s.showings.events := by
    unfold listEvent at hm
    dsimp only at hm
    split at hm
    · exact List.mem_of_mem_dropLast hm
    · exact hm
  rcases (mem_insertEvent _ _ _).1 hi with rfl | hi
  · cases hpre
  · exact ⟨e, hi, rfl, hpre⟩

theorem relistEvent_purchaseForm (r : ListingRecord) (x : EventRecord) (s : State) (hf : findEvent s r.id = some x) :
    PurchaseForm s → PurchaseForm (relistEvent r x s) := by
  refine purchaseForm_of_events (.refl _) (Nat.le_refl _) fun e hm hpre => ?_
  rcases (mem_insertEvent _ _ _).1 hm with rfl | hi
  · exact ⟨x, List.mem_of_find?_eq_some hf, findEvent_id hf, hpre⟩
  · exact ⟨e, (List.mem_filter.1 hi).1, rfl, hpre⟩

theorem checkOut_purchases (s : State) : (checkOut s).account.purchases = [] := by
  simp [checkOut, accountCheckOut, lockCheckOut, resetMetering]

theorem checkIn_purchases (b : CheckinBody) (night : Option Half) (s : State) : (checkIn b night s).account.purchases = [] := by
  simp [checkIn, accountCheckIn, lockCheckIn, resetMetering]

theorem maintMessage_purchaseForm (tag : Half) (s : State) (h : PurchaseForm s) : PurchaseForm (maintMessage tag s) := by
  unfold maintMessage
  split
  · exact h
  · exact purchaseForm_of_sublist (s := s) (.refl _) (Nat.le_refl _) (List.nil_sublist _) h

theorem dispatch_purchaseForm (a : AddressType) (m : Message) (s : State) (h : PurchaseForm s) : PurchaseForm (dispatch a m s) := by
  cases m with
  | listing l =>
    exact previews_purchaseForm.listing (fun r s h _ => listEvent_purchaseForm r s h)
      (fun r e s h hf => relistEvent_purchaseForm r e s hf h) l s h
  | tariffDefine c t =>
    exact previews_purchaseForm.tariff (fun _ _ _ => purchaseForm_of_frame rfl (Nat.le_refl _) rfl) c t s h
  | serviceDelete v => exact purchaseForm_of_sublist (s := s) (by simp [dispatch]) (by simp) List.filter_sublist h
  | checkin b =>
    exact checkinMessage_keeps (P := PurchaseForm) (fun _ => purchaseForm_of_frame (by simp) (by simp) (by simp))
      (fun s _ => purchaseForm_of_nil (checkOut_purchases s)) (fun b n s _ => purchaseForm_of_nil (checkIn_purchases b n s)) b _ s h
  | checkout n =>
    exact checkoutMessage_keeps (P := PurchaseForm) (fun _ => purchaseForm_of_frame (by simp) (by simp) (by simp))
      (fun s _ => purchaseForm_of_nil (checkOut_purchases s)) n s h
  | maint tag => exact maintMessage_purchaseForm tag s h
  | _ => exact purchaseForm_of_frame (by simp [dispatch]) (by simp) (by simp [dispatch]) h

/-- What keeps the form, enters LOAD not at all and lists no event there keeps the law. -/
theorem purchaseLaw_of_form {s t : State} (hl : KeepsLoad s t) (he : s.showings.events = [] → t.showings.events = [])
    (hf : PurchaseForm s → PurchaseForm t) (h : PurchaseLaw s) : PurchaseLaw t := by
  rw [purchaseLaw_iff] at h ⊢
  obtain ⟨hform, hload⟩ := h
  refine ⟨hf hform, fun hm => ?_⟩
  obtain ⟨hs, hh⟩ := hl hm
  rw [hh]
  exact ⟨he (hload hs).1, (hload hs).2⟩

theorem purchaseLaw_of_frame {s t : State} (hl : KeepsLoad s t) (hp : t.account.purchases = s.account.purchases)
    (hn : s.time.seconds ≤ t.time.seconds) (he : t.showings.events = s.showings.events) : PurchaseLaw s → PurchaseLaw t :=
  purchaseLaw_of_form hl (fun h => he.trans h) (purchaseForm_of_frame hp hn he)

/-- No event is listed. -/
def Unlisted (s : State) : Prop := s.showings.events = []

theorem removeExpired_unlisted (s : State) (h : Unlisted s) : Unlisted (removeExpired s) :=
  (removeExpired_events s).trans (by rw [h]; rfl)

theorem commit_unlisted (id : Half) (k : Option Nat) (s : State) (h : Unlisted s) : Unlisted (commit id k s).1 := by
  rcases commit_cases id k s with ⟨r, e⟩ | ⟨r, e⟩ | ⟨e, t, -, he⟩
  · rw [e]
    exact h
  · rw [e]
    exact removeExpired_unlisted s h
  · rw [he]
    exact (commitEffects_events _ _ _ _ _ _).trans (by rw [removeExpired_unlisted s h]; rfl)

theorem updateEvent_unlisted (id : Half) (f : EventRecord → EventRecord) (s : State) (h : Unlisted s) :
    Unlisted (updateEvent id f s) :=
  (updateEvent_events s id f).trans (by rw [h]; rfl)

/-- Metering lists no event. -/
theorem charges_unlisted : Charges Unlisted where
  commit := commit_unlisted
  hold id _ s h := updateEvent_unlisted id _ { s with account := { s.account with held := _ } } h
  meter id f s _ := updateEvent_unlisted id f s

theorem storedPurchases_length (eeprom : List Host.Cell) : (storedPurchases eeprom).length ≤ purchasePlaces :=
  (List.length_filterMap_le _ _).trans_eq List.length_range

/-- The restored list: a place for each entry, and no event twice by the purchases test (R187). -/
theorem loadStay_purchaseForm (i : Image) (s : State) (hu : s.showings.events = []) (h : PurchaseForm s) :
    PurchaseForm (loadStay i s) := by
  obtain ⟨hlen, hn, -⟩ := h
  have hlive : ∀ e ∈ (loadStay i s).showings.events, e.preview = .preview → livePurchase (loadStay i s) e.id = false := by
    simp [hu]
  by_cases hv : stayValid s.store.eeprom = true
  · have hp : (loadStay i s).account.purchases =
        (storedPurchases s.store.eeprom).map fun p => p.restore s.time.seconds s.journal.next := by
      rw [loadStay_valid i s hv]
      rfl
    have hok : ((storedPurchases s.store.eeprom).map StoredPurchase.event).Nodup := by
      simp only [stayValid, purchasesOk, Bool.and_eq_true, decide_eq_true_eq] at hv
      exact hv.2.1
    refine ⟨?_, ?_, hlive⟩
    · rw [hp, List.length_map]
      exact storedPurchases_length _
    · rw [hp, List.map_map]
      exact hok
  · have hp : (loadStay i s).account.purchases = s.account.purchases := by
      rw [loadStay_invalid i s hv]
      rfl
    exact ⟨by rw [hp]; exact hlen, by rw [hp]; exact hn, hlive⟩

/-- A message handed off meets no LOAD, by the law, so its owner's act needs to keep the form alone. -/
theorem decodeHandOff_purchaseLaw (x : HandOff) (s : State) (hx : s.decoder.handOff = some x) (h : PurchaseLaw s) :
    PurchaseLaw (decodeHandOff x s) := by
  rw [purchaseLaw_iff] at h ⊢
  obtain ⟨hform, hload⟩ := h
  refine ⟨?_, fun hm => ?_⟩
  · exact decodeHandOff_keeps (P := PurchaseForm) (fun _ => purchaseForm_of_frame rfl (Nat.le_refl _) rfl)
      (fun _ => purchaseForm_of_frame (by simp) (by simp) (by simp)) (fun _ => purchaseForm_of_frame (by simp) (by simp) (by simp))
      (fun _ _ => purchaseForm_of_frame (by simp) (by simp) (by simp)) dispatch_purchaseForm
      (fun _ => purchaseForm_of_frame (by simp) (by simp) (by simp)) x s hform
  · have hn := (hload (by simpa using hm)).2
    rw [hx] at hn
    cases hn

theorem answerRequest_purchaseForm (k : Nat) (q : Request) (s : State) : PurchaseForm s → PurchaseForm (answerRequest k q s).1 :=
  answerRequest_keeps commit_purchaseForm (fun _ _ _ => purchaseForm_of_frame rfl (Nat.le_refl _) rfl)
    (fun _ _ _ => purchaseForm_of_frame (by simp) (by simp) (by simp))
    (fun _ _ => purchaseForm_of_frame (by simp) (by simp) (by simp)) (fun _ => purchaseForm_of_frame rfl (Nat.le_refl _) rfl) k q s

theorem acceptTransaction_purchaseForm (x : Transaction) (s : State) : PurchaseForm s → PurchaseForm (acceptTransaction x s) :=
  acceptTransaction_keeps (P := PurchaseForm) (fun _ _ => purchaseForm_of_frame rfl (Nat.le_refl _) rfl)
    (fun _ _ _ => purchaseForm_of_frame (by simp) (by simp) (by simp)) (fun _ => purchaseForm_of_frame (by simp) (by simp) (by simp))
    answerRequest_purchaseForm x s

theorem acceptTransaction_unlisted (x : Transaction) (s : State) : Unlisted s → Unlisted (acceptTransaction x s) :=
  acceptTransaction_keeps (fun _ _ h => h) (fun _ _ _ h => by simpa [Unlisted] using h) (fun _ h => by simpa [Unlisted] using h)
    (answerRequest_keeps commit_unlisted (fun _ _ _ h => h) (fun _ _ _ h => by simpa [Unlisted] using h)
      (fun _ _ h => by simpa [Unlisted] using h) (fun _ h => h)) x s

theorem advanceSecond_seconds (s : State) : s.time.seconds ≤ (advanceSecond s).time.seconds := by
  have h : (advanceSecond s).time.seconds = s.time.seconds + 1 := by
    simp only [advanceSecond, noticeIfChanged_frame]
    split <;> rfl
  omega

/-- The purchase list changes at a commit, at a removal, at the stay messages and at the resets and the load; the previews beside it
change as `Previews` says. -/
theorem kept_purchaseLaw : Kept PurchaseLaw where
  queue _ _ := purchaseLaw_of_frame (.of_eq rfl rfl) rfl (Nat.le_refl _) rfl
  power _ _ _ _ := (purchaseLaw_iff _).2 ⟨purchaseForm_of_nil rfl, fun _ => ⟨rfl, rfl⟩⟩
  resetUnits _ := purchaseLaw_of_frame (.of_eq rfl rfl) rfl (Nat.le_refl _) rfl
  resetPath _ := purchaseLaw_of_frame (.of_eq (by simp) (by simp)) (by simp) (by simp) (by simp)
  image s _ := purchaseLaw_of_frame (loadImage_keepsLoad s) (by simp) (by simp) (by simp)
  journal _ _ := purchaseLaw_of_frame (.of_eq rfl rfl) rfl (Nat.le_refl _) rfl
  stay i s hm h := purchaseLaw_of_form (loadStay_keepsLoad i s) (by simp)
    (loadStay_purchaseForm i s (((purchaseLaw_iff s).1 h).2 hm).1) h
  handOff := decodeHandOff_purchaseLaw
  accept x s := purchaseLaw_of_form (acceptTransaction_keepsLoad x s) (acceptTransaction_unlisted x s)
    (acceptTransaction_purchaseForm x s)
  grant s := purchaseLaw_of_form (.of_eq (by simp) (by simp))
    (charges_unlisted.grantPassing (fun _ _ _ _ h => by simpa [Unlisted] using h) (fun _ _ h => h) (fun _ _ h => h)
      (fun _ _ _ h => h) s)
    (previews_purchaseForm.grantPassing (fun _ _ _ _ => purchaseForm_of_frame (by simp) (by simp) (by simp))
      (fun _ _ => purchaseForm_of_frame rfl (Nat.le_refl _) rfl) s)
  issue _ _ := purchaseLaw_of_frame (.of_eq (by simp) (by simp)) (by simp) (by simp) (by simp)
  spend _ := purchaseLaw_of_frame (.of_eq rfl rfl) rfl (Nat.le_refl _) rfl
  waiting _ _ := purchaseLaw_of_frame (.of_eq rfl rfl) rfl (Nat.le_refl _) rfl
  passing _ _ _ := purchaseLaw_of_frame (.of_eq (by simp) (by simp)) (by simp) (by simp) (by simp)
  inserted _ _ _ := purchaseLaw_of_frame (.of_eq (by simp) (by simp)) (by simp) (by simp) (by simp)
  tokens _ _ := purchaseLaw_of_frame (.of_eq rfl rfl) rfl (Nat.le_refl _) rfl
  second s := purchaseLaw_of_frame (.of_eq (by simp) (by simp)) (by simp) (advanceSecond_seconds s) (by simp)
  due _ _ hs _ := purchaseLaw_of_frame (.of_eq rfl rfl) rfl (Nat.le_of_eq hs.symm) rfl
  meter s := purchaseLaw_of_form (.of_eq (by simp) (by simp)) (charges_unlisted.meterSecond s) (previews_purchaseForm.meterSecond s)
  account s h := purchaseLaw_of_frame (s := removeExpired s) (.of_eq (by simp) (by simp)) (by simp [accountMinute]) (by simp)
    (accountMinute_events s) (purchaseLaw_of_form (.of_eq (by simp) (by simp)) (removeExpired_unlisted s)
      (removeExpired_purchaseForm s) h)
  keys _ := purchaseLaw_of_frame (.of_eq rfl rfl) rfl (Nat.le_refl _) rfl
  showings s := purchaseLaw_of_form (.of_eq (by simp) (by simp)) (fun h => List.sublist_nil.1 (h ▸ retireEvents_sublist s))
    (purchaseForm_of_sublist (by simp) (by simp) (retireEvents_sublist s))
  lock _ := purchaseLaw_of_frame (.of_eq (by simp) (by simp)) (by simp) (by simp) (by simp)
  page _ _ _ := purchaseLaw_of_frame (.of_eq (by simp) (by simp)) (by simp) (by simp) (by simp)
  fault _ _ _ := purchaseLaw_of_frame (.of_eq (by simp) (by simp)) (by simp) (by simp) (by simp)

/-- Settles O58: each of the five laws is kept by every move a step is made of. -/
theorem tableLawsKept : Obligations.TableLawsKept := fun s t ht =>
  ⟨fun h => step_keeps kept_keyLaw s t h ht, fun h => step_keeps kept_purchaseLaw s t h ht,
    fun h => step_keeps kept_showingLaw s t h ht, fun h => step_keeps kept_serviceLaw s t h ht,
    fun h => step_keeps kept_queueLaw s t h ht⟩

end Sys2Proof.Machine


/-! ### The laws at reset -/

namespace Sys2Proof.Machine

/-- At reset the lists are empty, and with them what the laws ask of their entries. -/
theorem keyLaw_reset : KeyLaw State.reset :=
  (keyLaw_iff _).2 ⟨keyForm_of_nil rfl (Nat.le_refl 1), fun _ => ⟨rfl, rfl⟩⟩

theorem purchaseLaw_reset : PurchaseLaw State.reset := (purchaseLaw_iff _).2 ⟨purchaseForm_of_nil rfl, fun _ => ⟨rfl, rfl⟩⟩

theorem showingLaw_reset : ShowingLaw State.reset := ⟨Nat.zero_le _, List.nodup_nil, List.Pairwise.nil⟩

theorem previewLaw_reset : PreviewLaw State.reset := fun _ he => nomatch he

theorem journalLaw_reset : JournalLaw State.reset := ⟨rfl, rfl, Nat.zero_le _⟩

theorem queueLaw_reset : QueueLaw State.reset := (queueLaw_iff _).2 queueForm_nil

/-- Settles O5: the lists, tables and memories of the state at reset are empty, its amounts 0. -/
theorem lawsHoldAtReset : Obligations.LawsHoldAtReset :=
  ⟨⟨Nat.zero_le _, Nat.le_refl _, Nat.le_refl _⟩, ⟨rfl, fun _ => ⟨rfl, rfl, rfl⟩⟩, fun h => absurd h (Nat.lt_irrefl 0),
    journalLaw_reset, keyLaw_reset, purchaseLaw_reset, showingLaw_reset, ⟨Nat.zero_le _, List.nodup_nil⟩, previewLaw_reset,
    queueLaw_reset, ⟨rfl, rfl⟩, ⟨rfl, rfl, rfl, rfl, rfl⟩, fun _ => ⟨rfl, fun _ h => nomatch h⟩⟩

end Sys2Proof.Machine


/-! ### The cell cipher -/

namespace Sys2Proof.Machine

/-- A half turned left by 11 places is turned right by 5 (R37). -/
theorem rotateLeft_eleven (x : Half) : x.rotateLeft 11 = x.rotateRight 5 := by
  simp [BitVec.rotateLeft, BitVec.rotateRight, BitVec.rotateLeftAux, BitVec.rotateRightAux, BitVec.or_comm]

/-- A key is its four words, K0 most significant. -/
theorem key_eq_words (k : Key64) : k = keyWord k 0 ++ keyWord k 1 ++ keyWord k 2 ++ keyWord k 3 := by
  simp only [keyWord]
  rw [BitVec.extractLsb'_append_extractLsb'_eq_extractLsb' (by rfl), BitVec.extractLsb'_append_extractLsb'_eq_extractLsb' (by rfl),
    BitVec.extractLsb'_append_extractLsb'_eq_extractLsb' (by rfl)]
  exact BitVec.extractLsb'_eq_self.symm

/-- A byte of a number's low bytes, most significant first. -/
theorem byteAt_bytesOf (len n i : Nat) (h : i < len) : (byteAt (bytesOf len n) i).toNat = n / 256 ^ (len - 1 - i) % 256 := by
  induction len generalizing i with
  | zero => omega
  | succ len ih =>
    cases i with
    | zero => simp [bytesOf, byteAt]
    | succ i =>
      have hs : len + 1 - 1 - (i + 1) = len - 1 - i := by omega
      rw [hs, ← ih i (by omega)]
      simp [bytesOf, byteAt]

theorem keystreamByte_toNat (k : Key64) (salt : Half) (p : Nat) :
    (keystreamByte k salt p).toNat = (keystreamWord k salt (p / 4)).toNat / 256 ^ (3 - p % 4) % 256 :=
  byteAt_bytesOf 4 _ _ (Nat.mod_lt _ (by decide))

theorem mixRound_spec (x : Byte) (m : MixState) :
    (mixRound x m).a.toNat = (m.a.toNat + m.b.toNat + x.toNat) % 65536 ∧
      (mixRound x m).d = (m.d ^^^ (mixRound x m).a).rotateLeft 5 ∧
      (mixRound x m).c.toNat = (m.c.toNat + (mixRound x m).d.toNat) % 65536 ∧
      (mixRound x m).b = (m.b ^^^ (mixRound x m).c).rotateLeft 11 ∧
      (mixRound x m).b = (m.b ^^^ (mixRound x m).c).rotateRight 5 := by
  refine ⟨?_, rfl, BitVec.toNat_add _ _, rfl, rotateLeft_eleven _⟩
  simp [mixRound, BitVec.toNat_add]

theorem plainBody_spec (k : Key64) (salt : Half) (payload : List Byte) (len : Nat) : (plainBody k salt payload len).length = len ∧
    ∀ i, i < len → byteAt (plainBody k salt payload len) i = byteAt payload (8 + i) ^^^ keystreamByte k salt (8 + i) := by
  refine ⟨by simp [plainBody], fun i hi => ?_⟩
  simp [plainBody, byteAt, hi]

/-- The starting state tells the index: the tag's is no payload word's (R38, R41). -/
theorem mixStart_index (k : Key64) (salt i j : Half) (h : mixStart k salt i = mixStart k salt j) : i = j :=
  (BitVec.xor_right_inj (keyWord k 1)).1 (congrArg MixState.b h)

end Sys2Proof.Machine

namespace Sys2Proof

open Machine

/-- Settles O54: the round word by word, and what is built of rounds. -/
theorem mixRound : Obligations.MixRound := by
  refine ⟨mixRound_spec, fun k salt index => ⟨_, _, _, _, key_eq_words k, rfl⟩, fun _ _ _ => rfl, keystreamByte_toNat,
    plainBody_spec, fun _ _ _ => rfl, fun k salt j hj h => ?_⟩
  have hn : j % 65536 = 65535 := congrArg BitVec.toNat (mixStart_index k salt _ _ h)
  omega

end Sys2Proof


/-! ### KEY and SERVICE messages -/

namespace Sys2Proof.Machine

/-- A KEY row runs its message's act, and a job that waits then begins. -/
theorem exec_key (s : State) (a : AddressType) (n : Half) (service : BitVec 12) (epoch : BitVec 4) (key : Key64) (ha : a ≠ .room)
    (hf : Handed s (.accepted a n (.key service epoch key))) :
    exec .key s = .next (startJob (keyMessage service epoch key (clearHandOff s))) :=
  congrArg Host.Outcome.next (messageRow_dispatch .key s a n _ ha hf rfl)

/-- Settles O29: the pool keeps what `KeyKept` says and the message's entry joins its newest end. -/
theorem keyMessageSetsTheKey : Obligations.KeyMessageSetsTheKey := by
  intro s a n service epoch key hlaw ha hf
  obtain ⟨hlen, hn, -, hd, -⟩ := hlaw
  obtain ⟨kept, hk, hkept⟩ := keyPool_kept s.settings.historyDepth s.time.seconds service epoch key s.keys.pool hn hd
  have hx : keyMessage service epoch key (clearHandOff s) = { s with
      decoder := { s.decoder with handOff := none }
      keys := { pool := kept ++ [newEntry service epoch key s.time.seconds] } } := by
    rw [← hk]
    rfl
  refine ⟨kept, ?_, hkept.held, fun hs => ⟨hkept.atDepth hs, fun hh => ?_⟩⟩
  · rw [exec_key s a n service epoch key ha hf, hx]
  · have hfull : poolSize ≤ s.keys.pool.length ↔ s.keys.pool.length = 128 := ⟨fun h => Nat.le_antisymm hlen h, fun h => h.ge⟩
    rw [hkept.below hs hh]
    exact if_congr hfull rfl rfl

/-- A SERVICE add where the service has a record or the table has room: only the service table changes (R76). -/
theorem serviceAddMessage_taken (r : ServiceRecord) (s : State)
    (h : findService s r.service ≠ none ∨ s.showings.services.length < tableSize) : serviceAddMessage r s =
      { s with showings := { s.showings with services := (serviceAddMessage r s).showings.services } } := by
  unfold serviceAddMessage
  split
  · rfl
  · rename_i hf
    have hroom := h.resolve_left fun hn => hf (Option.isSome_iff_ne_none.2 hn)
    rw [if_pos hroom]
    rfl

/-- The records after an add that is taken: the message's, and those of the other services (R76). -/
theorem mem_serviceAddMessage (r : ServiceRecord) (s : State)
    (h : findService s r.service ≠ none ∨ s.showings.services.length < tableSize) (x : ServiceRecord) :
    x ∈ (serviceAddMessage r s).showings.services ↔ x = r ∨ (x ∈ s.showings.services ∧ x.service ≠ r.service) := by
  unfold serviceAddMessage
  split
  · rename_i hf
    obtain ⟨y, hy, hys⟩ : ∃ y ∈ s.showings.services, y.service = r.service := by
      rw [Option.isSome_iff_ne_none, ne_eq, findService_none] at hf
      simpa using hf
    rw [setServices_services, List.mem_map]
    constructor
    · rintro ⟨z, hz, rfl⟩
      split
      · exact .inl rfl
      · exact .inr ⟨hz, ‹_›⟩
    · rintro (rfl | ⟨hx, hne⟩)
      · exact ⟨y, hy, if_pos hys⟩
      · exact ⟨x, hx, if_neg hne⟩
  · rename_i hf
    have hnone : findService s r.service = none := by simpa using hf
    rw [if_pos (h.resolve_left fun hn => hn hnone), setServices_services, List.mem_append, List.mem_singleton]
    have hother : x ∈ s.showings.services → x.service ≠ r.service := (findService_none s r.service).1 hnone x
    tauto

/-- In a full table without the service's record the message is ignored and counted (R76). -/
theorem serviceAddMessage_full (r : ServiceRecord) (s : State) (hf : findService s r.service = none)
    (hl : tableSize ≤ s.showings.services.length) : serviceAddMessage r s = countIgnored s := by
  unfold serviceAddMessage
  rw [hf, if_neg (by simp), if_neg (Nat.not_lt.2 hl)]

/-- A SERVICE delete purges the service's record, its events and its keys (R53, R77). -/
theorem serviceDeleteMessage_eq (v : BitVec 12) (s : State) : serviceDeleteMessage v s = { s with
    keys := { pool := s.keys.pool.filter fun e => decide (e.service ≠ v) }
    showings := {
      services := s.showings.services.filter fun r => decide (r.service ≠ v)
      events := s.showings.events.filter fun e => decide (e.service ≠ v) } } := by
  have hb : ∀ x : BitVec 12, (x != v) = decide (x ≠ v) := fun x => by by_cases h : x = v <;> simp [h]
  simp only [serviceDeleteMessage, purgeKeys, dropService, setEvents, setServices, hb]

/-- Settles O30: an add is taken, or ignored and counted, and a delete purges. -/
theorem serviceMessages : Obligations.ServiceMessages := by
  intro s a n ha
  refine ⟨fun r hlaw hf => ?_, fun v hf => ?_⟩
  · refine ⟨serviceAddMessage r (clearHandOff s), congrArg Host.Outcome.next (messageRow_dispatch .serviceAdd s a n _ ha hf rfl),
      fun h => ⟨serviceAddMessage_taken r (clearHandOff s) h, serviceAddMessage_serviceLaw r _ hlaw,
        mem_serviceAddMessage r (clearHandOff s) h⟩, fun hnone hfull => ?_⟩
    rw [serviceAddMessage_full r (clearHandOff s) hnone hfull]
    exact ⟨countIgnored_eq (clearHandOff s), fun ht => (marks_countIgnored (clearHandOff s)).marks ht.2.1⟩
  · refine congrArg Host.Outcome.next ((messageRow_dispatch .serviceDelete s a n _ ha hf rfl).trans ?_)
    exact congrArg startJob (serviceDeleteMessage_eq v (clearHandOff s))

end Sys2Proof.Machine


/-! ### The minute timers -/

namespace Sys2Proof.Machine

/-- An expiry that is due is taken (R70; log 10). -/
theorem exec_expiry (due : Timebase → Nat) (taken : Timebase → Timebase) (act : State → State) (s : State)
    (hm : s.decoder.handOff = none) (hr : s.path.mode = .run) (hd : 0 < due s.time) :
    afterMessage (takeExpiry due taken act) s = .next (act { s with time := taken s.time }) := by
  rw [afterMessage_of_none _ s hm, takeExpiry, if_pos ⟨hr, hd⟩]

/-! #### Free-view -/

/-- The end of free-view moves free-view and the dirty set alone. -/
theorem endFreeView_eq (s : State) : endFreeView s = { s with
    account := { s.account with freeView := (endFreeView s).account.freeView }, report := (endFreeView s).report } := by
  unfold endFreeView setFreeView
  repeat' split
  all_goals rfl

/-- The end of free-view with an end set and the clock valid (R151). -/
theorem endFreeView_freeView (s : State) (m : Moment) (c : WallClock) (hf : s.account.freeView = .on (some m))
    (hc : s.time.clock = some c) : (endFreeView s).account.freeView =
      if m.day.toNat * 1440 + m.minute ≤ c.day.toNat * 1440 + c.minute then .off else s.account.freeView := by
  simp only [endFreeView, hf, hc, Moment.count, setFreeView]
  split
  · simp
  · exact hf

/-- Without an end, or with the clock invalid, free-view does not end. -/
theorem endFreeView_none (s : State) (h : s.time.clock = none ∨ s.account.freeView = .off ∨ s.account.freeView = .on none) :
    endFreeView s = s := by
  unfold endFreeView
  split
  · simp_all
  · rfl

theorem marks_endFreeView (s : State) :
    Marking (fun n => n = 0 ∧ (endFreeView s).account.freeView ≠ s.account.freeView) noLine s (endFreeView s) := by
  unfold endFreeView
  split
  · split
    · have hoff : (setFreeView .off s).account.freeView = .off := by
        unfold setFreeView
        split <;> simp_all
      exact (marks_setFreeView .off s).congr (fun n => by rw [hoff, ne_comm]) fun _ => Iff.rfl
    · exact (Marking.of_eq rfl).congr (by simp) fun _ => Iff.rfl
  · exact (Marking.of_eq rfl).congr (by simp) fun _ => Iff.rfl

/-! #### Lock periods -/

/-- A running period whose end is not reached. -/
def stillRunning (now : Nat) (p : Option Period) : Option Period := p.filter fun p => decide (now < p.finish)

theorem stillRunning_over {now : Nat} {p : Option Period} (h : periodOver now p = true) : stillRunning now p = none ∧ p ≠ none := by
  cases p with
  | none => cases h
  | some p =>
    have hp : p.finish ≤ now := by simpa [periodOver] using h
    exact ⟨Option.filter_eq_none_iff.2 fun _ hx => by cases hx; simpa using hp, by simp⟩

theorem stillRunning_running {now : Nat} {p : Option Period} (h : ¬ periodOver now p = true) : stillRunning now p = p := by
  cases p with
  | none => rfl
  | some p =>
    have hp : now < p.finish := by simpa [periodOver] using h
    simp [stillRunning, hp]

theorem endUnlock_eq (s : State) : endUnlock s = { s with
    lock := { s.lock with unlock := stillRunning s.time.seconds s.lock.unlock }, report := (endUnlock s).report } := by
  unfold endUnlock
  split
  · rw [(stillRunning_over ‹_›).1]
    rfl
  · rw [stillRunning_running ‹_›]

theorem endLockout_eq (s : State) : endLockout s = { s with
    lock := { s.lock with lockout := stillRunning s.time.seconds s.lock.lockout }, report := (endLockout s).report } := by
  unfold endLockout
  split
  · rw [(stillRunning_over ‹_›).1]
    rfl
  · rw [stillRunning_running ‹_›]

/-- An unlock period that ends marks line 2 with attention, a lockout that ends without (R117). -/
theorem marks_endUnlock (s : State) :
    Marking (fun n => n = 2 ∧ stillRunning s.time.seconds s.lock.unlock ≠ s.lock.unlock)
      (fun n => n = 2 ∧ stillRunning s.time.seconds s.lock.unlock ≠ s.lock.unlock) s (endUnlock s) := by
  unfold endUnlock
  split
  · obtain ⟨hn, hp⟩ := stillRunning_over ‹_›
    exact ((marks_markLine 2 true _).after rfl).congr (by simp [hn, hp.symm]) (by simp [hn, hp.symm])
  · rw [stillRunning_running ‹_›]
    exact (Marking.of_eq rfl).congr (by simp) (by simp)

theorem marks_endLockout (s : State) :
    Marking (fun n => n = 2 ∧ stillRunning s.time.seconds s.lock.lockout ≠ s.lock.lockout) noLine s (endLockout s) := by
  unfold endLockout
  split
  · obtain ⟨hn, hp⟩ := stillRunning_over ‹_›
    exact ((marks_markClear 2 _).after rfl).congr (by simp [hn, hp.symm]) fun _ => Iff.rfl
  · rw [stillRunning_running ‹_›]
    exact (Marking.of_eq rfl).congr (by simp) fun _ => Iff.rfl

/-- The Lock Unit's minute expiry: both periods, and nothing else but the dirty set. -/
theorem lockMinute_eq (s : State) : lockMinute s = { s with
    lock := { s.lock with
      unlock := stillRunning s.time.seconds s.lock.unlock, lockout := stillRunning s.time.seconds s.lock.lockout }
    report := (lockMinute s).report } := by
  unfold lockMinute
  rw [endLockout_eq, endUnlock_eq]

theorem marks_lockMinute (s : State) : Marking (fun n => n = 2 ∧ (lockMinute s).lock ≠ s.lock)
    (fun n => n = 2 ∧ (lockMinute s).lock.unlock ≠ s.lock.unlock) s (lockMinute s) := by
  have hx : ∀ x y, ({ s.lock with unlock := x, lockout := y } : Lock) ≠ s.lock ↔
      x ≠ s.lock.unlock ∨ y ≠ s.lock.lockout := by
    intro x y
    rw [ne_eq, ← not_and_or, not_iff_not]
    exact ⟨fun h => ⟨congrArg Lock.unlock h, congrArg Lock.lockout h⟩, fun ⟨h1, h2⟩ => by rw [h1, h2]⟩
  have hu : (endUnlock s).lock.lockout = s.lock.lockout ∧ (endUnlock s).time = s.time := by rw [endUnlock_eq]; exact ⟨rfl, rfl⟩
  have hm := (marks_endUnlock s).trans (marks_endLockout (endUnlock s))
  rw [hu.1, hu.2] at hm
  refine hm.congr (fun n => ?_) fun n => ?_
  · rw [lockMinute_eq, hx]
    tauto
  · rw [lockMinute_eq]
    tauto

/-! #### The Account Unit and the Showing Tables -/

/-- The Account Unit's minute expiry: the removals, the end of free-view, and nothing else but the dirty set. -/
theorem accountMinute_eq (s : State) : accountMinute s = { s with
    showings := { s.showings with
      events := s.showings.events.map fun e =>
        if s.account.purchases.any (fun p => p.event == e.id && decide (p.rentalEnd ≤ s.time.seconds))
        then { e with preview := .spent } else e }
    account := { s.account with
      purchases := s.account.purchases.filter fun p => decide (s.time.seconds < p.rentalEnd)
      freeView := (accountMinute s).account.freeView }
    report := (accountMinute s).report } := by
  unfold accountMinute
  rw [endFreeView_eq, removeExpired_eq]

/-- The minute expiry marks the places of the list whose content changes, and line 0 where free-view ends (R146, R151). -/
theorem marks_accountMinute (s : State) : Marking (fun n => n = 0 ∧ (accountMinute s).account.freeView ≠ s.account.freeView ∨
    5 ≤ n ∧ n < 21 ∧ (accountMinute s).account.purchases[n - 5]? ≠ s.account.purchases[n - 5]?) noLine s (accountMinute s) := by
  have hf : (removeExpired s).account.freeView = s.account.freeView := by simp
  have hp : (accountMinute s).account.purchases = s.account.purchases.filter fun p => p.live s.time.seconds := by
    rw [accountMinute_eq]
    rfl
  have hm := (marks_removeExpired s).plain (marks_endFreeView (removeExpired s))
  rw [hf] at hm
  refine hm.congr (fun n => ?_) fun _ => Iff.rfl
  rw [hp, or_comm, ne_comm (a := s.account.purchases[n - 5]?)]
  rfl

/-- The Showing Tables' minute expiry: each record due leaves (R83, R84). -/
theorem retireEvents_eq (s : State) : retireEvents s = { s with showings := { s.showings with
    events := match s.time.clock with
      | none => s.showings.events
      | some c => s.showings.events.filter fun e =>
        !decide (e.finish.day.toNat * 1440 + e.finish.minute + s.settings.retention < c.day.toNat * 1440 + c.minute) } } := by
  unfold retireEvents
  cases s.time.clock with
  | none => rfl
  | some c => rfl

/-- Settles O48: each timer's row takes its expiry and runs its unit's act. -/
theorem minuteTimers : Obligations.MinuteTimers := by
  intro s hm hr ht
  refine ⟨fun hd => ?_, fun hd => exec_expiry _ _ ageKeys s hm hr hd, fun hd => ?_, fun hd => ?_⟩
  · refine ⟨_, exec_expiry _ _ accountMinute s hm hr hd, accountMinute_eq _, fun m c hf hc => ?_,
      (marks_accountMinute _).marks ht.2.1, fun h => ?_⟩
    · refine (endFreeView_freeView _ m c ?_ ?_).trans ?_
      · simpa using hf
      · simpa using hc
      · simp
    · unfold accountMinute
      rw [endFreeView_none _ (by simpa using h)]
      simp
  · exact (exec_expiry _ _ retireEvents s hm hr hd).trans (congrArg Host.Outcome.next (retireEvents_eq _))
  · exact ⟨_, exec_expiry _ _ lockMinute s hm hr hd, lockMinute_eq _, (marks_lockMinute _).marks ht.2.1⟩

end Sys2Proof.Machine

/-! ### Rows and the message handed off (R56, R74; logs 9 and 11) -/

namespace Sys2Proof.Machine

/-- An event finds the same state whether a message still waits or the Decoder has finished with it. -/
theorem afterMessage_decodeHandOff (act : State → State) (h : HandOff) (s : State) (hs : s.decoder.handOff = some h) :
    afterMessage act s = afterMessage act (decodeHandOff h s) := by
  have hn : (decodeHandOff h s).decoder.handOff = none := by simp [decodeHandOff]
  rw [afterMessage_of_none act _ hn]
  simp [afterMessage, finishHandOff, hs]

theorem busRow_decodeHandOff (t : Transaction) (h : HandOff) (s : State) (hs : s.decoder.handOff = some h) :
    busRow t s = busRow t (decodeHandOff h s) := by
  unfold busRow
  rw [afterMessage_decodeHandOff (present t) h s hs]

/-- Settles O3: the rows are the Decoder's own, those of the bus, and the other events of the part. -/
theorem messageFinishedFirst : Obligations.MessageFinishedFirst := by
  intro h s hs
  refine ⟨by simp [decodeHandOff], fun i hi => ?_⟩
  cases i
  case messageRejected | key | serviceAdd | serviceDelete | listing | tariffDefine | tariffDelete | pricing | time | freeviewOn
      | freeviewOff | checkin | checkout | credit | ack | ceiling | maint =>
    exact absurd (by decide) hi
  case busPassThrough | ringWrite | ringRead | reportRead | reportWriteDropped | otherWindowAccess | requestWriteDropped
      | requestWriteNotTaken | buy | unlock | relock | refresh | unknownRequestKind =>
    exact busRow_decodeHandOff _ h s hs
  case portGrant => exact afterMessage_decodeHandOff (fun s => presentWaiting (grantPort s)) h s hs
  all_goals exact afterMessage_decodeHandOff _ h s hs

/-! #### Rows with no occasion -/

theorem atPhase_out (p : LoadPhase) (act : State → State) (s : State) (h : s.path.mode ≠ .load ∨ s.store.phase ≠ p) :
    atPhase p act s = s := if_neg fun ⟨hm, hp⟩ => h.elim (· hm) (· hp)

theorem takeExpiry_notDue (due : Timebase → Nat) (taken : Timebase → Timebase) (act : State → State) (s : State)
    (h : s.path.mode ≠ .run ∨ due s.time = 0) : takeExpiry due taken act s = s :=
  if_neg fun ⟨hm, hd⟩ => h.elim (· hm) (Nat.pos_iff_ne_zero.1 hd ·)

theorem insertedComplete_none (s : State) (h : ∀ i, s.path.port ≠ .inserted i) : insertedComplete s = s := by
  unfold insertedComplete
  split
  · rename_i i hi
    exact absurd hi (h i)
  · rfl

theorem passingComplete_none (s : State) (h : s.path.port ≠ .passing) : passingComplete s = s := by
  unfold passingComplete
  split
  · exact absurd ‹_› h
  · rfl

theorem onPageWrite_none (act : InFlight → State → State) (s : State) (h : s.store.inFlight = none) :
    onPageWrite act s = s := by simp [onPageWrite, h]

/-- On a page before a job's last the completion of the job has no occasion (log 29). -/
theorem completeLastPage_earlier (s : State) (f : InFlight) (hf : s.store.inFlight = some f) (hl : f.later ≠ []) :
    onPageWrite completeLastPage s = s := by simp [onPageWrite, hf, completeLastPage, hl]

theorem loadStayHeld_none (s : State) (h : s.store.image = none) : loadStayHeld s = s := by simp [loadStayHeld, h]

/-- The last step of the load without its phase or without an image. -/
theorem stayStep_out (s : State) (h : s.path.mode ≠ .load ∨ s.store.phase ≠ .stay ∨ s.store.image = none) :
    atPhase .stay loadStayHeld s = s := by
  rcases h with hm | hp | hi
  · exact atPhase_out _ _ s (.inl hm)
  · exact atPhase_out _ _ s (.inr hp)
  · unfold atPhase
    rw [loadStayHeld_none s hi, ite_self]

/-- The accepting rows are rows of their message's kind. -/
theorem exec_acceptingRow (i : Instr) (row : MessageRow) (h : (i, row) ∈ acceptingRows) (s : State) :
    exec i s = .next (messageRow (Finding.accepts row) s) := by
  have hall : ∀ x ∈ acceptingRows, exec x.1 s = .next (messageRow (Finding.accepts x.2) s) := by
    simp only [acceptingRows, List.forall_mem_cons]
    exact ⟨rfl, rfl, rfl, rfl, rfl, rfl, rfl, rfl, rfl, rfl, rfl, rfl, rfl, rfl, rfl, rfl, List.forall_mem_nil _⟩
  exact hall (i, row) h

/-- A message row is MESSAGE_REJECTED or an accepting one. -/
theorem messageRow_kinds (i : Instr) (h : i ∈ [Instr.messageRejected, .key, .serviceAdd, .serviceDelete, .listing, .tariffDefine,
    .tariffDelete, .pricing, .time, .freeviewOn, .freeviewOff, .checkin, .checkout, .credit, .ack, .ceiling, .maint]) :
    i = .messageRejected ∨ ∃ row, (i, row) ∈ acceptingRows := by
  have hl : i = .messageRejected ∨ i ∈ acceptingRows.map Prod.fst := by simpa [acceptingRows] using h
  simpa using hl

theorem messageRow_none (is : Finding → Bool) (s : State) (h : s.decoder.handOff = none) : messageRow is s = s := by
  simp [messageRow, h]

/-- A message stays where it is at a row that its finding does not call for (log 9). -/
theorem messageRow_other (is : Finding → Bool) (s : State) (f : Finding) (hf : Handed s f) (h : is f = false) :
    messageRow is s = s := by
  obtain ⟨x, hx, hf⟩ := hf
  simp [messageRow, hx, hf, h]

/-- A finding that accepts no message of a row. -/
theorem accepts_other (f : Finding) (row : MessageRow) (h : ∀ a n m, f = .accepted a n m → m.row ≠ row) :
    Finding.accepts row f = false := by
  cases f with
  | accepted a n m => simpa [Finding.accepts, Finding.message] using h a n m rfl
  | _ => rfl

/-- No message row has an occasion while no message is handed off. -/
theorem exec_messageRow_none (i : Instr) (s : State) (hs : s.decoder.handOff = none)
    (h : i = .messageRejected ∨ ∃ row, (i, row) ∈ acceptingRows) : exec i s = .next s := by
  rcases h with rfl | ⟨row, hrow⟩
  · exact congrArg Host.Outcome.next (messageRow_none _ s hs)
  · rw [exec_acceptingRow i row hrow, messageRow_none _ s hs]

/-- Settles O11: each row's own test of its occasion, and the message rows by what they accept. -/
theorem noOccasionNoChange : Obligations.NoOccasionNoChange := by
  refine ⟨fun s hs => ?_, fun s f hf => ⟨fun a n m hm => ?_, fun i row hrow hother => ?_⟩⟩
  · have idle : ∀ {act : State → State}, act s = s → afterMessage act s = .next s := fun h => by
      rw [afterMessage_of_none _ s hs, h]
    exact ⟨fun h => idle (atPhase_out _ _ s h), fun h => idle (atPhase_out _ _ s h), fun h => idle (stayStep_out s h),
      fun i hi => exec_messageRow_none i s hs (messageRow_kinds i hi),
      fun h => idle (takeExpiry_notDue _ _ _ s h), fun h => idle (takeExpiry_notDue _ _ _ s h),
      fun h => idle (takeExpiry_notDue _ _ _ s h), fun h => idle (takeExpiry_notDue _ _ _ s h),
      fun h => idle (takeExpiry_notDue _ _ _ s h), fun h => idle (insertedComplete_none s h),
      fun h => idle (passingComplete_none s h),
      fun h => ⟨idle (onPageWrite_none _ s h), idle (onPageWrite_none _ s h), idle (onPageWrite_none _ s h)⟩,
      fun f hf hl => idle (completeLastPage_earlier s f hf hl)⟩
  · exact congrArg Host.Outcome.next (messageRow_other _ s f hf (by rw [hm]; rfl))
  · rw [exec_acceptingRow i row hrow, messageRow_other _ s f hf (accepts_other f row hother)]

end Sys2Proof.Machine

/-! ### The tests of a message (R57 to R62) -/

namespace Sys2Proof.Machine

/-! #### The window of room-message numbers -/

theorem numberFresh_some (l n : Half) : numberFresh (some l) n = true ↔
    1 ≤ (n.toNat + 65536 - l.toNat) % 65536 ∧ (n.toNat + 65536 - l.toNat) % 65536 ≤ 32767 := by
  have hd : (n - l).toNat = (n.toNat + 65536 - l.toNat) % 65536 := by
    rw [BitVec.toNat_sub]
    omega
  have hz : n ≠ l ↔ 1 ≤ (n.toNat + 65536 - l.toNat) % 65536 := by
    rw [ne_eq, ← BitVec.toNat_inj]
    have hn := n.isLt
    have hl := l.isLt
    omega
  simp only [numberFresh, Bool.and_eq_true, bne_iff_ne, decide_eq_true_eq, hd, hz]

/-- Tests 5 to 7 of a kind that its address type allows, the number fresh or not tested: the body decides. -/
theorem testContent_body (last : Option Half) (a : AddressType) (payload body : List Byte) (k : MessageKind)
    (hk : messageKindOf (byteAt payload 3).toNat = some k) (ha : kindAllowed k a = true)
    (hn : a ≠ .room ∨ numberFresh last (BitVec.ofNat 16 (field payload 4 2)) = true) :
    (bodyOf k body = none → testContent last a payload body = .ignored) ∧
      ∀ m, bodyOf k body = some m →
        testContent last a payload body = .accepted a (BitVec.ofNat 16 (field payload 4 2)) m := by
  have hs : ¬ (a = .room ∧ numberFresh last (BitVec.ofNat 16 (field payload 4 2)) = false) := by
    rcases hn with hn | hn <;> simp [hn]
  constructor
  · intro hb
    simp [testContent, hk, ha, hs, hb]
  · intro m hb
    simp [testContent, hk, ha, hs, hb]

theorem testContent_stale (last : Option Half) (payload body : List Byte) (k : MessageKind)
    (hk : messageKindOf (byteAt payload 3).toNat = some k) (ha : kindAllowed k .room = true)
    (hn : numberFresh last (BitVec.ofNat 16 (field payload 4 2)) = false) : testContent last .room payload body = .stale := by
  simp [testContent, hk, ha, hn]

theorem testContent_notAllowed (last : Option Half) (a : AddressType) (payload body : List Byte) (k : MessageKind)
    (hk : messageKindOf (byteAt payload 3).toNat = some k) (ha : kindAllowed k a = false) :
    testContent last a payload body = .ignored := by
  simp [testContent, hk, ha]

theorem testContent_noKind (last : Option Half) (a : AddressType) (payload body : List Byte)
    (hk : messageKindOf (byteAt payload 3).toNat = none) : testContent last a payload body = .ignored := by
  simp [testContent, hk]

/-- The tests of a SITE or GROUP message do not look at L. -/
theorem testContent_last (l l' : Option Half) (a : AddressType) (payload body : List Byte) (ha : a ≠ .room) :
    testContent l a payload body = testContent l' a payload body := by simp [testContent, ha]

theorem countIgnored_ignored (s : State) : (countIgnored s).decoder.ignored = bump s.decoder.ignored := by
  rw [countIgnored_eq]

theorem acceptMessage_lastNumber (a : AddressType) (ha : a ≠ .room) (n : Half) (m : Message) (s : State) :
    (acceptMessage a n m s).decoder.lastNumber = s.decoder.lastNumber := by simp [acceptMessage, ha]

/-- Settles O27: the distance past L, and where the tests and the acceptance look at L. -/
theorem numberWindow : Obligations.NumberWindow := by
  refine ⟨fun n l => ⟨rfl, numberFresh_some l n⟩, fun last payload body k hk ha => ⟨testContent_stale last payload body k hk ha,
    fun hn => ?_⟩, countIgnored_ignored, fun a ha => ⟨fun l l' payload body => testContent_last l l' a payload body ha,
    acceptMessage_lastNumber a ha⟩⟩
  obtain ⟨hnone, hsome⟩ := testContent_body last .room payload body k hk ha (.inr hn)
  obtain ⟨hnone', hsome'⟩ := testContent_body none .room payload body k hk ha (.inr rfl)
  cases hb : bodyOf k body with
  | none => simp [hnone hb, hnone' hb]
  | some m => simp [hsome m hb, hsome' m hb]

end Sys2Proof.Machine

/-! ### The bodies of messages (13, section 13.2) -/

namespace Sys2Proof.Machine

theorem field_two_lt (b : List Byte) (offset : Nat) : field b offset 2 < 65536 := field_lt b offset 2

theorem serviceField_reserved (b : List Byte) (offset : Nat) :
    serviceField b offset = reservedService ↔ field b offset 2 % 4096 = 4095 := by
  rw [← BitVec.toNat_inj]
  exact Iff.rfl

theorem halfField_zero (b : List Byte) (offset : Nat) : BitVec.ofNat 16 (field b offset 2) = 0 ↔ field b offset 2 = 0 := by
  rw [← BitVec.toNat_inj, BitVec.toNat_ofNat, Nat.mod_eq_of_lt (field_two_lt b offset)]
  exact Iff.rfl

theorem flagAt_eq (b : List Byte) (offset : Nat) : flagAt b offset = decide (field b offset 1 ≠ 0) := by
  have hz : byteAt b offset = 0 ↔ (byteAt b offset).toNat = 0 := by
    rw [← BitVec.toNat_inj]
    exact Iff.rfl
  rw [field_one, Bool.eq_iff_iff, flagAt, bne_iff_ne, decide_eq_true_iff, ne_eq, ne_eq, hz]

/-- A field of a record's first bytes is the record's. -/
theorem field_take (b : List Byte) (n offset len : Nat) (h : offset + len ≤ n) : field (b.take n) offset len = field b offset len := by
  unfold field
  rw [List.drop_take, List.take_take, Nat.min_eq_left (by omega)]

theorem field_drop (b : List Byte) (n offset len : Nat) : field (b.drop n) offset len = field b (n + offset) len := by
  unfold field
  rw [List.drop_drop]

/-! #### KEY and SERVICE -/

theorem bodyOf_key (b : List Byte) : bodyOf .key b = if b.length = 11 ∧ field b 0 2 % 4096 ≠ 4095 then
    some (.key (BitVec.ofNat 12 (field b 0 2)) (BitVec.ofNat 4 (field b 2 1)) (BitVec.ofNat 64 (field b 3 8))) else none := by
  simp only [bodyOf, lengthAllowed, keyBody, beq_iff_eq, serviceField_reserved, ← field_one]
  rw [← ite_not (field b 0 2 % 4096 = 4095), ← ite_and]
  rfl

theorem serviceClassOf_eq (n : Nat) : serviceClassOf n = if n ≤ 1 then some (if n = 0 then .free else .pay) else none := by
  match n with
  | 0 => rfl
  | 1 => rfl
  | n + 2 => simp [serviceClassOf]

/-- The operations of a SERVICE body: 1 adds, 2 deletes (R76, R77). -/
theorem serviceBody_eq (b : List Byte) : serviceBody b = if field b 1 2 % 4096 ≠ 4095 then
      if field b 0 1 = 1 ∧ field b 3 1 ≤ 1 ∧ field b 4 1 ≤ 9 then
        some (.serviceAdd {
          service := BitVec.ofNat 12 (field b 1 2)
          cls := if field b 3 1 = 0 then .free else .pay
          defaultRating := field b 4 1 })
      else if field b 0 1 = 2 then some (.serviceDelete (BitVec.ofNat 12 (field b 1 2))) else none
    else none := by
  simp only [serviceBody, serviceField_reserved, ← field_one, serviceClassOf_eq]
  by_cases hr : field b 1 2 % 4096 = 4095
  · simp [hr]
  · rw [if_neg hr, if_pos hr]
    split
    · rename_i hadd
      by_cases hc : field b 3 1 ≤ 1 <;> by_cases hd : field b 4 1 ≤ 9 <;> simp [hadd, hc, hd, serviceField]
    · rename_i hdelete
      simp [hdelete, serviceField]
    · rename_i hadd hdelete
      rw [if_neg fun h => hadd h.1, if_neg hdelete]

theorem bodyOf_service (b : List Byte) : bodyOf .service b = if b.length = 5 ∧ field b 1 2 % 4096 ≠ 4095 then
      if field b 0 1 = 1 ∧ field b 3 1 ≤ 1 ∧ field b 4 1 ≤ 9 then
        some (.serviceAdd {
          service := BitVec.ofNat 12 (field b 1 2)
          cls := if field b 3 1 = 0 then .free else .pay
          defaultRating := field b 4 1 })
      else if field b 0 1 = 2 then some (.serviceDelete (BitVec.ofNat 12 (field b 1 2))) else none
    else none := by
  simp only [bodyOf, lengthAllowed, beq_iff_eq, serviceBody_eq]
  rw [← ite_and]

/-! #### LISTING -/

/-- One record of a LISTING body (R78). -/
theorem listingRecord_some (b : List Byte) (r : ListingRecord) :
    listingRecord b = some r ↔ ListingFits (listingAt b 0) ∧ listingAt b 0 = r := by
  have hat : listingAt b 0 = {
      id := BitVec.ofNat 16 (field b 0 2), service := serviceField b 2, start := momentField b 4, finish := momentField b 8
      tariffClass := (byteAt b 12).toNat, rating := (byteAt b 13).toNat, title := BitVec.ofNat 32 (field b 14 4) } := by
    simp only [← field_one]
    rfl
  rw [hat]
  simp only [listingRecord, Option.ite_none_right_eq_some, Option.some.injEq]
  exact Iff.rfl

theorem listingAt_take (b : List Byte) : listingAt (b.take 18) 0 = listingAt b 0 := by
  simp [listingAt, momentAt, field_take]

theorem listingAt_drop (b : List Byte) (n i : Nat) : listingAt (b.drop n) i = listingAt b (n + i) := by
  simp only [listingAt, momentAt, field_drop, Nat.add_assoc]

/-- One more record in front. -/
theorem listingRecords_succ (n : Nat) (b : List Byte) (l : List ListingRecord) : listingRecords (n + 1) b = some l ↔
    ∃ r rest, listingRecord (b.take 18) = some r ∧ listingRecords n (b.drop 18) = some rest ∧ r :: rest = l := by
  rw [listingRecords]
  cases listingRecord (b.take 18) with
  | none => simp
  | some r => cases listingRecords n (b.drop 18) <;> simp

/-- The records of a body are read all or none (R78). -/
theorem listingRecords_some (n : Nat) (b : List Byte) (l : List ListingRecord) : listingRecords n b = some l ↔
    (∀ i, i < n → ListingFits (listingAt b (18 * i))) ∧ (List.range n).map (fun i => listingAt b (18 * i)) = l := by
  induction n generalizing b l with
  | zero => simp [listingRecords]
  | succ n ih =>
    have hstep : ∀ i, listingAt (b.drop 18) (18 * i) = listingAt b (18 * (i + 1)) := fun i => by
      rw [listingAt_drop, Nat.mul_add, Nat.add_comm]
    have hmap : (List.range (n + 1)).map (fun i => listingAt b (18 * i)) =
        listingAt b 0 :: (List.range n).map fun i => listingAt b (18 * (i + 1)) := by
      rw [List.range_succ_eq_map, List.map_cons, List.map_map]
      rfl
    rw [listingRecords_succ, Nat.forall_lt_succ_left, hmap]
    simp only [listingRecord_some, listingAt_take, ih, hstep]
    constructor
    · rintro ⟨r, rest, ⟨hfirst, rfl⟩, ⟨hrest, rfl⟩, rfl⟩
      exact ⟨⟨hfirst, hrest⟩, rfl⟩
    · rintro ⟨⟨hfirst, hrest⟩, rfl⟩
      exact ⟨_, _, ⟨hfirst, rfl⟩, ⟨hrest, rfl⟩, rfl⟩

/-- A LISTING body holds one to four records. -/
theorem lengthAllowed_listing (n : Nat) : lengthAllowed .listing n = true ↔ ∃ k, 1 ≤ k ∧ k ≤ 4 ∧ n = 18 * k := by
  simp only [lengthAllowed, Bool.or_eq_true, beq_iff_eq]
  constructor
  · intro h
    exact ⟨n / 18, by omega, by omega, by omega⟩
  · rintro ⟨k, h1, h4, rfl⟩
    omega

theorem bodyOf_listing (b : List Byte) (m : Message) : bodyOf .listing b = some m ↔ ∃ n, 1 ≤ n ∧ n ≤ 4 ∧ b.length = 18 * n ∧
    (∀ i, i < n → ListingFits (listingAt b (18 * i))) ∧ m = .listing ((List.range n).map fun i => listingAt b (18 * i)) := by
  simp only [bodyOf, Option.ite_none_right_eq_some, lengthAllowed_listing, Option.map_eq_some_iff, listingRecords_some]
  constructor
  · rintro ⟨⟨n, h1, h4, hl⟩, l, ⟨hfits, rfl⟩, rfl⟩
    rw [hl, Nat.mul_div_cancel_left n (by decide)] at hfits ⊢
    exact ⟨n, h1, h4, rfl, hfits, rfl⟩
  · rintro ⟨n, h1, h4, hl, hfits, rfl⟩
    rw [hl, Nat.mul_div_cancel_left n (by decide)]
    exact ⟨⟨n, h1, h4, rfl⟩, _, ⟨hfits, rfl⟩, rfl⟩

/-! #### TARIFF, PRICING, TIME and FREEVIEW -/

theorem purchaseModeOf_eq (n : Nat) :
    purchaseModeOf n = if n = 1 ∨ n = 2 then some (if n = 1 then .confirm else .auto) else none := by
  match n with
  | 0 => rfl
  | 1 => rfl
  | 2 => rfl
  | n + 3 => simp [purchaseModeOf]

theorem clampHours_eq (n : Nat) : clampHours n = max 1 (min n 72) := by
  unfold clampHours
  split <;> omega

/-- The operations of a TARIFF body: 1 defines, 2 deletes (R129). -/
theorem tariffBody_eq (b : List Byte) : tariffBody b = if field b 0 1 ≤ 7 then
      if field b 1 1 = 1 ∧ (field b 4 1 = 1 ∨ field b 4 1 = 2) then
        some (.tariffDefine (field b 0 1) {
          base := field b 2 2
          mode := if field b 4 1 = 1 then .confirm else .auto
          allowance := min (field b 5 2) 3600
          hours := max 1 (min (field b 7 1) 72)
          stepCode := field b 8 1 % 8
          usesBand := decide (field b 9 1 ≠ 0) })
      else if field b 1 1 = 2 then some (.tariffDelete (field b 0 1)) else none
    else none := by
  simp only [tariffBody, ← field_one, purchaseModeOf_eq, clampHours_eq, flagAt_eq]
  by_cases hc : field b 0 1 ≤ 7
  · rw [if_neg (Nat.not_lt.2 hc), if_pos hc]
    split
    · rename_i hdefine
      by_cases hm : field b 4 1 = 1 ∨ field b 4 1 = 2 <;> simp [hdefine, hm]
    · rename_i hdelete
      simp [hdelete]
    · rename_i hdefine hdelete
      rw [if_neg fun h => hdefine h.1, if_neg hdelete]
  · rw [if_pos (Nat.not_le.1 hc), if_neg hc]

theorem bodyOf_tariff (b : List Byte) : bodyOf .tariff b = if b.length = 10 ∧ field b 0 1 ≤ 7 then
      if field b 1 1 = 1 ∧ (field b 4 1 = 1 ∨ field b 4 1 = 2) then
        some (.tariffDefine (field b 0 1) {
          base := field b 2 2
          mode := if field b 4 1 = 1 then .confirm else .auto
          allowance := min (field b 5 2) 3600
          hours := max 1 (min (field b 7 1) 72)
          stepCode := field b 8 1 % 8
          usesBand := decide (field b 9 1 ≠ 0) })
      else if field b 1 1 = 2 then some (.tariffDelete (field b 0 1)) else none
    else none := by
  simp only [bodyOf, lengthAllowed, beq_iff_eq, tariffBody_eq]
  rw [← ite_and]

theorem bodyOf_pricing (b : List Byte) :
    let band : Nat → Band := fun n => { start := field b (1 + 3 * n) 2, percent := min (field b (3 + 3 * n) 1) 250 }
    bodyOf .pricing b =
      if b.length = 13 ∧ field b 1 2 ≤ 1439 ∧ field b 4 2 ≤ 1439 ∧ field b 7 2 ≤ 1439 ∧ field b 10 2 ≤ 1439 then
        some (.pricing { tax := min (field b 0 1) 250, band0 := band 0, band1 := band 1, band2 := band 2, band3 := band 3 })
      else none := by
  simp only [bodyOf, lengthAllowed, pricingBody, bandField, beq_iff_eq, Pricing.bands, List.all_cons, List.all_nil, Bool.and_true,
    Bool.and_eq_true, decide_eq_true_eq, ← field_one]
  rw [← ite_and]

theorem bodyOf_time (b : List Byte) : bodyOf .time b = if b.length = 5 ∧ field b 2 2 ≤ 1439 ∧ field b 4 1 ≤ 59 then
    some (.time { day := BitVec.ofNat 16 (field b 0 2), minute := field b 2 2, second := field b 4 1 }) else none := by
  simp only [bodyOf, lengthAllowed, timeBody, beq_iff_eq, ← field_one]
  rw [← ite_and]

/-- The operations of a FREEVIEW body: 1 is on, with an end where one is present, 2 is off (R151). -/
theorem freeviewBody_eq (b : List Byte) : freeviewBody b =
    if field b 0 1 = 1 ∧ field b 1 1 = 0 then some (.freeviewOn none)
    else if field b 0 1 = 1 ∧ field b 4 2 ≤ 1439 then some (.freeviewOn (some (momentAt b 2)))
    else if field b 0 1 = 2 then some .freeviewOff else none := by
  simp only [freeviewBody, ← field_one, flagAt_eq]
  split
  · rename_i hon
    by_cases he : field b 1 1 = 0
    · simp [hon, he]
    · simp only [hon, he, and_false, if_false, true_and, ne_eq, not_false_eq_true, decide_true, if_true, OfNat.one_ne_ofNat]
      rfl
  · rename_i hoff
    simp [hoff]
  · rename_i hon hoff
    rw [if_neg fun h => hon h.1, if_neg fun h => hon h.1, if_neg hoff]

/-! #### CHECKIN to MAINT -/

theorem bodyOf_checkin (b : List Byte) : bodyOf .checkin b = if b.length = 14 ∧ field b 0 2 ≠ 0 then
      some (.checkin {
        number := BitVec.ofNat 16 (field b 0 2)
        credit := field b 2 3
        nightCeiling := field b 5 3
        roomCeiling := field b 8 1
        defaultCeiling := field b 9 1
        pin := if field b 10 1 ≤ 9 ∧ field b 11 1 ≤ 9 ∧ field b 12 1 ≤ 9 ∧ field b 13 1 ≤ 9 then
            some { first := field b 10 1, second := field b 11 1, third := field b 12 1, fourth := field b 13 1 }
          else none })
    else none := by
  simp only [bodyOf, lengthAllowed, checkinBody, beq_iff_eq, halfField_zero, ← field_one]
  rw [← ite_not (field b 0 2 = 0), ← ite_and]
  rfl

theorem bodyOf_checkout (b : List Byte) : bodyOf .checkout b =
    if b.length = 2 ∧ field b 0 2 ≠ 0 then some (.checkout (BitVec.ofNat 16 (field b 0 2))) else none := by
  simp only [bodyOf, lengthAllowed, checkoutBody, beq_iff_eq, halfField_zero]
  rw [← ite_not (field b 0 2 = 0), ← ite_and]

/-- A signed field of three bytes. -/
theorem signedField_eq (b : List Byte) (offset : Nat) : signedField b offset =
    if field b offset 3 < 8388608 then (field b offset 3 : Int) else (field b offset 3 : Int) - 16777216 := by
  have hf : field b offset 3 < 16777216 := field_lt b offset 3
  rw [signedField, BitVec.toInt_eq_toNat_cond, BitVec.toNat_ofNat, Nat.mod_eq_of_lt hf]
  split <;> split <;> omega

theorem bodyOf_credit (b : List Byte) : bodyOf .credit b = if b.length = 9 then
      some (.credit (if field b 2 3 < 8388608 then (field b 2 3 : Int) else (field b 2 3 : Int) - 16777216)
        (if field b 5 1 = 0 then none else some (field b 6 3)))
    else none := by
  simp only [bodyOf, lengthAllowed, creditBody, beq_iff_eq, signedField_eq, flagAt_eq, decide_eq_true_eq, ite_not]

theorem bodyOf_freeview (b : List Byte) : bodyOf .freeview b = if b.length = 6 then
      if field b 0 1 = 1 ∧ field b 1 1 = 0 then some (.freeviewOn none)
      else if field b 0 1 = 1 ∧ field b 4 2 ≤ 1439 then some (.freeviewOn (some (momentAt b 2)))
      else if field b 0 1 = 2 then some .freeviewOff else none
    else none := by
  simp only [bodyOf, lengthAllowed, beq_iff_eq, freeviewBody_eq]

theorem bodyOf_ack (b : List Byte) : bodyOf .ack b = if b.length = 4 then some (.ack (field b 0 4)) else none := by
  simp only [bodyOf, lengthAllowed, beq_iff_eq]

theorem bodyOf_ceiling (b : List Byte) : bodyOf .ceiling b = if b.length = 1 then some (.ceiling (field b 0 1)) else none := by
  simp only [bodyOf, lengthAllowed, beq_iff_eq, ← field_one]

theorem bodyOf_maint (b : List Byte) : bodyOf .maint b =
    if b.length = 2 then some (.maint (BitVec.ofNat 16 (field b 0 2))) else none := by
  simp only [bodyOf, lengthAllowed, beq_iff_eq]

/-- Test 7 and the contents of a body, kind by kind. -/
theorem bodiesRead (b : List Byte) : BodiesRead b :=
  ⟨bodyOf_key b, bodyOf_service b, bodyOf_listing b, bodyOf_tariff b, bodyOf_pricing b, bodyOf_time b, bodyOf_freeview b,
    bodyOf_checkin b, bodyOf_checkout b, bodyOf_credit b, bodyOf_ack b, bodyOf_ceiling b, bodyOf_maint b⟩

end Sys2Proof.Machine


/-! ### The seven tests in their order (R57 to R61) -/

namespace Sys2Proof.Machine

theorem addressTypeOf_none (n : Nat) (h : n = 0 ∨ 3 < n) : addressTypeOf n = none := by
  match n with
  | 0 => rfl
  | 1 | 2 | 3 => omega
  | n + 4 => rfl

theorem addressTypeOf_some (a : AddressType) (n : Nat) (h : (a, n) ∈ [(AddressType.site, 1), (.group, 2), (.room, 3)]) :
    addressTypeOf n = some a := by
  have hall : ∀ x ∈ [(AddressType.site, 1), (.group, 2), (.room, 3)], addressTypeOf x.2 = some x.1 := by decide
  exact hall _ h

theorem messageKindOf_none (n : Nat) (h : n = 0 ∨ 13 < n) : messageKindOf n = none := by
  match n with
  | 0 => rfl
  | 1 | 2 | 3 | 4 | 5 | 6 | 7 | 8 | 9 | 10 | 11 | 12 | 13 => omega
  | n + 14 => rfl

/-- The kinds with their codes (13, section 13.2). -/
def kindCodes : List (MessageKind × Nat) :=
  [(.key, 1), (.service, 2), (.listing, 3), (.tariff, 4), (.pricing, 5), (.time, 6), (.freeview, 7), (.checkin, 8), (.checkout, 9),
    (.credit, 10), (.ack, 11), (.ceiling, 12), (.maint, 13)]

theorem messageKindOf_some (k : MessageKind) (n : Nat) (h : (k, n) ∈ kindCodes) : messageKindOf n = some k := by
  have hall : ∀ x ∈ kindCodes, messageKindOf x.2 = some x.1 := by decide
  exact hall _ h

/-- The address types of the kinds, by their codes (R60). -/
theorem kindAllowed_iff (k : MessageKind) (n : Nat) (h : (k, n) ∈ kindCodes) (a : AddressType) :
    kindAllowed k a = true ↔ if n ≤ 7 then a ≠ .room else if n ≤ 11 then a = .room else a ≠ .site := by
  have hall : ∀ x ∈ kindCodes, kindAllowed x.1 a = true ↔
      if x.2 ≤ 7 then a ≠ .room else if x.2 ≤ 11 then a = .room else a ≠ .site := by cases a <;> decide
  exact hall _ h

theorem targetMatches_iff (c : Settings) (a : AddressType) (target : Half) : targetMatches c a target = true ↔
    a = .site ∨ a = .group ∧ target = c.groupId ∧ c.groupId ≠ 0 ∨ a = .room ∧ target = c.roomId := by
  cases a <;> simp [targetMatches]

theorem messageKey_eq (c : Settings) (a : AddressType) : messageKey c a = if a = .room then c.roomKey else c.siteKey := by
  cases a <;> rfl

section
variable (c : Settings) (last : Option Half) (salt : Half) (payload : List Byte)

/-- Test 1. -/
theorem testMessage_noAddress (h : addressTypeOf (field payload 0 1) = none) : testMessage c last salt payload = .ignored := by
  simp [testMessage, ← field_one, h]

variable (a : AddressType) (ha : addressTypeOf (field payload 0 1) = some a)
include ha

/-- Test 2. -/
theorem testMessage_passedOver (ht : ¬ targetMatches c a (BitVec.ofNat 16 (field payload 1 2)) = true) :
    testMessage c last salt payload = .passedOver := by
  simp [testMessage, ← field_one, ha, ht]

/-- Tests 3 and 4. -/
theorem testMessage_tagFailure (ht : targetMatches c a (BitVec.ofNat 16 (field payload 1 2)) = true)
    (hn : 106 < field payload 6 1 ∨ ¬ messageTag (messageKey c a) salt
      (payload.take 8 ++ plainBody (messageKey c a) salt payload (field payload 6 1)) =
        BitVec.ofNat 16 (field payload (8 + field payload 6 1) 2)) :
    testMessage c last salt payload = .tagFailure := by
  simp only [testMessage, ha, ht, Bool.not_true, Bool.false_eq_true, if_false, ← field_one]
  split
  · rfl
  · exact if_neg (hn.resolve_left ‹_›)

/-- Tests 5 to 7 decide on a message whose tag is correct. -/
theorem testMessage_content (ht : targetMatches c a (BitVec.ofNat 16 (field payload 1 2)) = true)
    (hl : field payload 6 1 ≤ 106) (hg : messageTag (messageKey c a) salt
      (payload.take 8 ++ plainBody (messageKey c a) salt payload (field payload 6 1)) =
        BitVec.ofNat 16 (field payload (8 + field payload 6 1) 2)) :
    testMessage c last salt payload =
      testContent last a payload (plainBody (messageKey c a) salt payload (field payload 6 1)) := by
  simp only [testMessage, ha, ht, Bool.not_true, Bool.false_eq_true, if_false, ← field_one]
  rw [if_neg (Nat.not_lt.2 hl), if_pos hg]

end

/-! #### What a rejected message changes (R66) -/

/-- A message that fails test 3 or 4: its counter, and the mark of line 0. -/
theorem countTagFailure_eq (s : State) : countTagFailure s = { s with
    decoder := { s.decoder with tagFailures := bump s.decoder.tagFailures }, report := (countTagFailure s).report } := by
  unfold countTagFailure
  split
  · rename_i h
    have hb : bump s.decoder.tagFailures = s.decoder.tagFailures := by simp [bump, h]
    rw [hb]
  · rfl

/-- A saturated counter marks nothing. -/
theorem countTagFailure_saturated (s : State) (h : s.decoder.tagFailures = 65535) : countTagFailure s = s := if_pos h

theorem countIgnored_saturated (s : State) (h : s.decoder.ignored = 65535) : countIgnored s = s := if_pos h

theorem exec_messageRejected (s : State) (f : Finding) (hf : Handed s f) (h : f.isRejection = true) :
    exec .messageRejected s = .next (applyFinding f (clearHandOff s)) :=
  congrArg Host.Outcome.next (messageRow_of _ s f hf h)

/-- Settles O26: the tests one by one, the bodies kind by kind, and the counter of each failed test. -/
theorem rejectedMessagesAreCounted : Obligations.RejectedMessagesAreCounted := by
  refine ⟨fun _ _ => rfl, fun c last salt payload => ⟨fun h => testMessage_noAddress c last salt payload (addressTypeOf_none _ h),
    fun a hcode => ?_⟩, bodiesRead, fun s ⟨_, hreport, _⟩ => ⟨(exec_messageRejected s _ · rfl), fun hf => ?_, fun hf => ?_⟩⟩
  · have ha := addressTypeOf_some a _ hcode
    dsimp only
    rw [← targetMatches_iff, ← messageKey_eq]
    refine ⟨testMessage_passedOver c last salt payload a ha, testMessage_tagFailure c last salt payload a ha,
      fun htarget hlen htag => ?_⟩
    rw [testMessage_content c last salt payload a ha htarget hlen htag, field_one payload 3]
    refine ⟨fun h => testContent_noKind last a payload _ (messageKindOf_none _ h), fun k hk => ?_⟩
    have hkind := messageKindOf_some k _ hk
    rw [← kindAllowed_iff k _ hk a]
    refine ⟨fun h => testContent_notAllowed last a payload _ k hkind (by simpa using h), fun h hroom hn => ?_,
      fun h hn => testContent_body last a payload _ k hkind h hn⟩
    subst hroom
    exact testContent_stale last payload _ k hkind h hn
  · refine ⟨countTagFailure (clearHandOff s), exec_messageRejected s _ hf rfl, countTagFailure_eq (clearHandOff s),
      ((marks_countTagFailure (clearHandOff s)).after rfl).marks hreport, fun h => ?_⟩
    rw [countTagFailure_saturated (clearHandOff s) h]
    rfl
  · refine ⟨countIgnored (clearHandOff s), hf.elim (exec_messageRejected s _ · rfl) (exec_messageRejected s _ · rfl),
      countIgnored_eq (clearHandOff s), ((marks_countIgnored (clearHandOff s)).after rfl).marks hreport, fun h => ?_⟩
    rw [countIgnored_saturated (clearHandOff s) h]
    rfl

end Sys2Proof.Machine

/-! ### What a rise of the stay generation requests (R152, R178, R181) -/

namespace Sys2Proof.Machine

theorem storeUsable_iff (s : State) : storeUsable s = true ↔ s.store.state = .ready ∨ s.store.state = .busy := by
  simp [storeUsable]

/-- A request coalesces into one waiting, else joins the end of the queue, or is held over in a full one. -/
theorem joinQueue_eq (j : Job) (h : HeldJob) (s : State) : joinQueue j h s = { s with store := { s.store with
    queue := if j ∉ s.store.queue ∧ s.store.queue.length < 8 then s.store.queue ++ [j] else s.store.queue
    heldOver := if j ∉ s.store.queue ∧ 8 ≤ s.store.queue.length ∧ h ∉ s.store.heldOver then s.store.heldOver ++ [h]
      else s.store.heldOver } } := by
  unfold joinQueue queuePlaces
  split
  · simp [*]
  · split
    · simp [*, Nat.not_le.2 ‹_›]
    · split
      · simp [*]
      · simp [*, Nat.not_lt.1 ‹_›]

/-- A request for a STAY job, which finds no queue in FAULT and ABSENT. -/
theorem requestStay_eq (s : State) : requestStay s = { s with store := { s.store with
    queue := if ((s.store.state = .ready ∨ s.store.state = .busy) ∧ Job.stay ∉ s.store.queue) ∧ s.store.queue.length < 8 then
      s.store.queue ++ [.stay] else s.store.queue
    heldOver := if ((s.store.state = .ready ∨ s.store.state = .busy) ∧ Job.stay ∉ s.store.queue) ∧ 8 ≤ s.store.queue.length ∧
        HeldJob.stay ∉ s.store.heldOver then s.store.heldOver ++ [.stay] else s.store.heldOver } } := by
  unfold requestStay
  by_cases h : storeUsable s = true
  · rw [if_pos h, joinQueue_eq]
    simp [(storeUsable_iff s).1 h]
  · rw [if_neg h]
    simp [mt (storeUsable_iff s).2 h]

end Sys2Proof.Machine


/-! ### ROOM messages (R63) -/

namespace Sys2Proof.Machine

/-- The state on which the owner of a ROOM message acts: L is its number, and the stay generation has risen. -/
def roomAccepted (n : Half) (s : State) : State := { s with
  decoder := { s.decoder with handOff := none, lastNumber := some n }
  account := { s.account with generation := s.account.generation + 1 }
  store := (raiseGeneration s).store }

theorem acceptRoom_clearHandOff (n : Half) (s : State) : acceptRoom n (clearHandOff s) = roomAccepted n s := acceptRoom_eq s n

/-- A ROOM message: acceptance, the owner's act, and the job that then begins. -/
theorem messageRow_roomAccepted (row : MessageRow) (s : State) (n : Half) (m : Message) (hf : Handed s (.accepted .room n m))
    (h : m.row = row) : messageRow (Finding.accepts row) s = startJob (dispatch .room m (roomAccepted n s)) := by
  rw [messageRow_room row s n m hf h, acceptRoom_clearHandOff]

/-- No owner of a ROOM message raises the stay generation again. -/
theorem dispatch_room_generation (m : Message) (s : State)
    (h : m.row ∈ [MessageRow.checkin, .checkout, .credit, .ack, .ceiling, .maint]) :
    (dispatch .room m s).account.generation = s.account.generation := by
  cases m with
  | ceiling level =>
    simp only [dispatch, ceilingMessage, beq_self_eq_true, if_true]
    split <;> simp
  | checkin b => simp [dispatch]
  | checkout number => simp [dispatch]
  | credit delta ceiling => simp [dispatch]
  | ack a => simp [dispatch]
  | maint tag => simp [dispatch]
  | _ => simp [Message.row] at h

/-- Settles O28: the acceptance raises the generation once, and a rise requests a STAY job. -/
theorem roomAcceptance : Obligations.RoomAcceptance := by
  refine ⟨fun s n m i hf hi => ?_, fun s => requestStay_eq _⟩
  have hsub : ∀ x ∈ [(Instr.checkin, MessageRow.checkin), (.checkout, .checkout), (.credit, .credit), (.ack, .ack),
      (.ceiling, .ceiling), (.maint, .maint)], x ∈ acceptingRows := by decide
  have hrow := List.mem_map_of_mem (f := Prod.snd) hi
  refine ⟨startJob (dispatch .room m (roomAccepted n s)), ?_, ?_, ?_, ?_⟩
  · rw [exec_acceptingRow i m.row (hsub _ hi), messageRow_roomAccepted m.row s n m hf rfl]
  · simp [roomAccepted]
  · simp [roomAccepted]
  · simpa [roomAccepted] using dispatch_room_generation m (roomAccepted n s) hrow

/-! #### Check-in and check-out -/

/-- A change of the purchase list moves the list and the dirty set alone. -/
theorem setPurchases_eq (l : List Purchase) (s : State) : setPurchases l s = { s with
    account := { s.account with purchases := l }, report := (setPurchases l s).report } := by
  have hmark : ∀ (t : State) (n : Nat), ∃ r,
      (if s.account.purchases[n]? = l[n]? then t else markLine (5 + n) false t) = { t with report := r } := by
    intro t n
    split
    · exact ⟨t.report, rfl⟩
    · exact ⟨_, rfl⟩
  obtain ⟨r, h⟩ := foldMarks_frame _ hmark (List.range purchasePlaces) { s with account := { s.account with purchases := l } }
  have hs : setPurchases l s = { s with account := { s.account with purchases := l }, report := r } := h
  rw [hs]

/-- The end of a stay in both owners (R111, R125). -/
theorem checkOut_eq (s : State) : checkOut s = { s with
    account := { s.account with stay := Stay.vacantWith s.account.stay.nightIndex, purchases := [], held := none }
    lock := { s.lock.cleared with guestCeiling := s.lock.defaultCeiling, pin := none }
    showings := { s.showings with
      events := s.showings.events.map fun e => { e with preview := .untouched, viewed := 0, cells := 0 } }
    report := (checkOut s).report } := by
  unfold checkOut lockCheckOut accountCheckOut
  rw [setPurchases_eq]
  rfl

/-- The stay a check-in starts (R124). -/
def CheckinBody.stay (b : CheckinBody) (night : Option Half) : Stay where
  state := .occupied
  number := b.number
  granted := min b.credit 999999
  remaining := min b.credit 999999
  spent := 0
  nightCeiling := min b.nightCeiling 999999
  nightSpent := 0
  nightIndex := night

/-- The lock a check-in leaves (R110). -/
def CheckinBody.lock (b : CheckinBody) : Lock where
  roomCeiling := min b.roomCeiling 9
  defaultCeiling := min b.defaultCeiling (min b.roomCeiling 9)
  guestCeiling := min b.defaultCeiling (min b.roomCeiling 9)
  pin := b.pin
  unlock := none
  lockout := none
  wrongAttempts := 0
  lockouts := 0

/-- What a new stay sets in both owners, but for the lines it marks (R110, R124). -/
def CheckinBody.started (b : CheckinBody) (night : Option Half) (s : State) : State := { s with
  account := { s.account with stay := b.stay night, purchases := [], held := none }
  lock := b.lock
  showings := { s.showings with
    events := s.showings.events.map fun e => { e with preview := .untouched, viewed := 0, cells := 0 } } }

theorem checkIn_eq (b : CheckinBody) (night : Option Half) (s : State) :
    checkIn b night s = { b.started night s with report := (checkIn b night s).report } := by
  unfold checkIn lockCheckIn accountCheckIn
  rw [setPurchases_eq]
  rfl

/-- A check-in leaves the same whether or not another stay ends first (R123). -/
theorem checkIn_checkOut (b : CheckinBody) (night : Option Half) (s : State) :
    checkIn b night (checkOut s) = { b.started night s with report := (checkIn b night (checkOut s)).report } := by
  rw [checkIn_eq, checkOut_eq]
  simp only [CheckinBody.started, List.map_map]
  rfl

/-- The lines of the purchases that leave, and lines 1 and 2 with attention (R128, R146; log 22). -/
theorem marks_checkOut (s : State) :
    Marking (fun k => 5 ≤ k ∧ k < 21 ∧ s.account.purchases[k - 5]? ≠ none) (fun k => k = 1 ∨ k = 2) s (checkOut s) :=
  ((marks_accountCheckOut s).trans (marks_lockCheckOut _)).congr (by simp) fun _ => Iff.rfl

theorem marks_checkIn (b : CheckinBody) (night : Option Half) (s : State) :
    Marking (fun k => 5 ≤ k ∧ k < 21 ∧ s.account.purchases[k - 5]? ≠ none) (fun k => k = 1 ∨ k = 2) s (checkIn b night s) :=
  ((marks_accountCheckIn b night s).trans (marks_lockCheckIn _ _ _ _)).congr (by simp) fun _ => Iff.rfl

/-- The stay that ends first has no purchase left, so the check-in marks no further line. -/
theorem marks_checkIn_checkOut (b : CheckinBody) (night : Option Half) (s : State) :
    Marking (fun k => 5 ≤ k ∧ k < 21 ∧ s.account.purchases[k - 5]? ≠ none) (fun k => k = 1 ∨ k = 2) s
      (checkIn b night (checkOut s)) := by
  refine ((marks_checkOut s).trans (marks_checkIn b night (checkOut s))).congr (fun k => ?_) fun _ => or_self_iff
  simp [checkOut_purchases]

theorem checkinMessage_ignored (b : CheckinBody) (night : Option Half) (s : State) (ho : s.account.stay.state = .occupied)
    (hn : s.account.stay.number = b.number) : checkinMessage b night s = countIgnored s := by
  simp [checkinMessage, ho, hn]

/-- A new stay: in a vacant room at once, in an occupied one after the stay there has ended (R123). -/
theorem checkinMessage_new (b : CheckinBody) (night : Option Half) (s : State)
    (h : s.account.stay.state = .vacant ∨ s.account.stay.number ≠ b.number) :
    checkinMessage b night s = { b.started night s with report := (checkinMessage b night s).report } ∧
    Marking (fun k => 5 ≤ k ∧ k < 21 ∧ s.account.purchases[k - 5]? ≠ none) (fun k => k = 1 ∨ k = 2) s
      (checkinMessage b night s) := by
  cases hs : s.account.stay.state with
  | vacant =>
    have hx : checkinMessage b night s = checkIn b night s := by simp [checkinMessage, hs]
    rw [hx]
    exact ⟨checkIn_eq b night s, marks_checkIn b night s⟩
  | occupied =>
    have hn : s.account.stay.number ≠ b.number := h.resolve_left (by simp [hs])
    have hx : checkinMessage b night s = checkIn b night (checkOut s) := by simp [checkinMessage, hs, hn]
    rw [hx]
    exact ⟨checkIn_checkOut b night s, marks_checkIn_checkOut b night s⟩

/-- A CHECKOUT that names the stay ends it; any other is ignored (R125). -/
theorem checkoutMessage_named (number : Half) (s : State) (ho : s.account.stay.state = .occupied)
    (hn : s.account.stay.number = number) : checkoutMessage number s = checkOut s := if_pos ⟨ho, hn⟩

theorem checkoutMessage_ignored (number : Half) (s : State) (h : s.account.stay.state = .vacant ∨ s.account.stay.number ≠ number) :
    checkoutMessage number s = countIgnored s := by
  refine if_neg fun ⟨ho, hn⟩ => ?_
  rcases h with hv | hne
  · simp [ho] at hv
  · exact hne hn

/-- A message its owner ignores: counted, and line 0 marked where the counter is not saturated (R66). -/
theorem marks_roomIgnored (n : Half) (s : State) :
    Marking (fun k => k = 0 ∧ s.decoder.ignored ≠ 65535) noLine s (countIgnored (roomAccepted n s)) :=
  (marks_countIgnored (roomAccepted n s)).after rfl

/-- Settles O35: the acceptance, and then an ignored message or a new stay. -/
theorem checkinStartsAStay : Obligations.CheckinStartsAStay := by
  rintro s n b ⟨-, hreport, -⟩ hf
  refine ⟨checkinMessage b (nightIndex s) (roomAccepted n s),
    congrArg Host.Outcome.next (messageRow_roomAccepted .checkin s n _ hf rfl), fun ho hn => ?_, fun h => ?_⟩
  · rw [checkinMessage_ignored b _ (roomAccepted n s) ho hn]
    exact ⟨countIgnored_eq (roomAccepted n s), (marks_roomIgnored n s).marks hreport⟩
  · obtain ⟨he, hm⟩ := checkinMessage_new b (nightIndex s) (roomAccepted n s) h
    exact ⟨he, (hm.after rfl).marks hreport⟩

/-- Settles O36: the acceptance, and then the end of the stay named or an ignored message. -/
theorem checkoutEndsTheStay : Obligations.CheckoutEndsTheStay := by
  rintro s n number ⟨-, hreport, -⟩ hf
  refine ⟨checkoutMessage number (roomAccepted n s),
    congrArg Host.Outcome.next (messageRow_roomAccepted .checkout s n _ hf rfl), fun ho hn => ?_, fun h => ?_⟩
  · rw [checkoutMessage_named number (roomAccepted n s) ho hn]
    exact ⟨checkOut_eq (roomAccepted n s), ((marks_checkOut (roomAccepted n s)).after rfl).marks hreport⟩
  · rw [checkoutMessage_ignored number (roomAccepted n s) h]
    exact ⟨countIgnored_eq (roomAccepted n s), (marks_roomIgnored n s).marks hreport⟩

end Sys2Proof.Machine

/-! ### CREDIT and ACK -/

namespace Sys2Proof.Machine

/-! #### CREDIT -/

/-- Credit remaining after a delta, on the integers (R126). -/
theorem creditAfter_eq (remaining spent : Nat) (delta : Int) : (creditAfter remaining spent delta : Int) =
    min (min (max 0 ((remaining : Int) + delta)) 999999) (16777215 - spent : Nat) := by
  simp only [creditAfter, moneyLimit, grantLimit]
  omega

/-- The night ceiling after a value (R126). -/
theorem ceilingAfter_eq (nightSpent v : Nat) : ceilingAfter nightSpent v = if v = 0 then 0 else max (min v 999999) nightSpent := by
  unfold ceilingAfter moneyLimit
  by_cases hv : v = 0
  · simp [hv]
  · have hm : min v 999999 ≠ 0 := by omega
    rw [if_neg hm, if_neg hv]

theorem creditMessage_vacant (delta : Int) (ceiling : Option Nat) (s : State) (h : s.account.stay.state = .vacant) :
    creditMessage delta ceiling s = countIgnored s := by simp [creditMessage, h]

/-- A CREDIT of a stay moves the stay alone, and marks line 1 with attention where the stay changes (R126, R128). -/
theorem creditMessage_occupied (delta : Int) (ceiling : Option Nat) (s : State) (h : s.account.stay.state = .occupied) :
    creditMessage delta ceiling s = { s with
      account := { s.account with stay := s.account.stay.credited delta ceiling }
      report := (creditMessage delta ceiling s).report } ∧
    Marking noLine (fun k => k = 1 ∧ s.account.stay.credited delta ceiling ≠ s.account.stay) s
      (creditMessage delta ceiling s) := by
  have hx : creditMessage delta ceiling s = if s.account.stay = s.account.stay.credited delta ceiling then s
      else markLine 1 true (setStay (s.account.stay.credited delta ceiling) s) := by simp [creditMessage, h]
  rw [hx]
  split
  · rename_i hy
    rw [← hy]
    exact ⟨rfl, (Marking.of_eq rfl).congr (fun _ => Iff.rfl) (by simp)⟩
  · rename_i hy
    exact ⟨rfl, ((marks_markAttention 1 (setStay _ s)).after rfl).congr (fun _ => Iff.rfl) (by simp [Ne.symm hy])⟩

/-- Settles O37: the acceptance, and then an ignored message or the clamped stay. -/
theorem creditAdjustsTheStay : Obligations.CreditAdjustsTheStay := by
  rintro s n delta ceiling ⟨-, hreport, -⟩ hf
  refine ⟨creditMessage delta ceiling (roomAccepted n s),
    congrArg Host.Outcome.next (messageRow_roomAccepted .credit s n _ hf rfl), fun hv => ?_, fun ho => ?_⟩
  · rw [creditMessage_vacant delta ceiling (roomAccepted n s) hv]
    exact ⟨countIgnored_eq (roomAccepted n s), (marks_roomIgnored n s).marks hreport⟩
  · obtain ⟨he, hm⟩ := creditMessage_occupied delta ceiling (roomAccepted n s) ho
    have hstay : (creditMessage delta ceiling (roomAccepted n s)).account.stay = s.account.stay.credited delta ceiling := by
      rw [he]
      rfl
    have hsum := creditAfter_eq s.account.stay.remaining s.account.stay.spent delta
    refine ⟨?_, ?_, ?_, ?_⟩
    · rw [hstay]
      exact hsum
    · rw [hstay, ← hsum]
      exact Nat.cast_add _ _
    · refine he.trans ?_
      rw [hstay]
      cases ceiling with
      | none => rfl
      | some v =>
        simp only [← ceilingAfter_eq]
        rfl
    · rw [hstay]
      exact (hm.after rfl).marks hreport

/-! #### ACK -/

/-- The lines of removed records are marked, and nothing else changes. -/
theorem markJournalLines_eq (l : List ChargeRecord) (s : State) :
    markJournalLines l s = { s with report := (markJournalLines l s).report } := by
  obtain ⟨r, h⟩ := foldMarks_frame (fun s (r : ChargeRecord) => markLine (journalLine r.sequence) false s)
    (fun _ _ => ⟨_, rfl⟩) l s
  have hs : markJournalLines l s = { s with report := r } := h
  rw [hs]

theorem ackMessage_ignored (a : Nat) (s : State) (h : a ≤ s.journal.mark ∨ s.journal.records = []) :
    ackMessage a s = countIgnored s := if_pos h

/-- An ACK past the mark of a journal that holds records (R163, R164, R165). -/
theorem ackMessage_removes (a : Nat) (s : State) (ha : s.journal.mark < a) (hr : s.journal.records ≠ []) :
    ackMessage a s = { s with
      journal := { s.journal with
        records := s.journal.records.filter fun r => decide (a < r.sequence), mark := min a (s.journal.next - 1) }
      store := (requestMark s).store
      report := (ackMessage a s).report } ∧
    Marking (fun k => ∃ r ∈ s.journal.records, r.sequence ≤ a ∧ 21 + r.sequence % 32 = k) noLine s (ackMessage a s) := by
  have hx : ackMessage a s = requestMark (markJournalLines (s.journal.records.filter fun r => decide (r.sequence ≤ a))
      { s with journal := { s.journal with
          records := s.journal.records.filter fun r => decide (a < r.sequence), mark := min a (s.journal.next - 1) } }) :=
    if_neg fun h => h.elim (Nat.not_le.2 ha) hr
  rw [hx]
  constructor
  · rw [markJournalLines_eq, requestMark_eq, requestMark_eq s]
  · have marked : ∀ t : State, t.report = s.report →
        Marking (fun k => ∃ r ∈ s.journal.records, r.sequence ≤ a ∧ 21 + r.sequence % 32 = k) noLine s
          (requestMark (markJournalLines (s.journal.records.filter fun r => decide (r.sequence ≤ a)) t)) :=
      fun t h => (((marks_markJournalLines _ t).after h).before (requestMark_report _)).congr (by simp [and_assoc]) fun _ => Iff.rfl
    exact marked _ rfl

/-- The records that stay, where their numbers follow the mark without a gap (R157). -/
theorem filter_sequence (l : List ChargeRecord) (mark a : Nat)
    (h : l.map ChargeRecord.sequence = (List.range l.length).map fun i => mark + 1 + i) :
    l.filter (fun r => decide (a < r.sequence)) = l.drop (a - mark) := by
  induction l generalizing mark with
  | nil => simp
  | cons x rest ih =>
    rw [List.length_cons, List.range_succ_eq_map, List.map_cons, List.map_cons, List.map_map, List.cons.injEq] at h
    obtain ⟨hx, hrest⟩ := h
    have hih := ih (mark + 1) (hrest.trans (List.map_congr_left fun i _ => by simp only [Function.comp]; omega))
    by_cases ha : a ≤ mark
    · rw [List.filter_cons_of_pos (by simp; omega), hih, Nat.sub_eq_zero_of_le ha, Nat.sub_eq_zero_of_le (by omega)]
      rfl
    · rw [List.filter_cons_of_neg (by simp; omega), hih, show a - mark = (a - (mark + 1)) + 1 by omega]
      rfl

/-- What an ACK past the mark leaves of a journal that holds records: those after its number, the oldest gone (R157, R163). -/
theorem ackMessage_journal (a : Nat) (s : State) (hlaw : JournalLaw s) (ha : s.journal.mark < a) (hr : s.journal.records ≠ []) :
    (ackMessage a s).journal.mark = min a (s.journal.next - 1) ∧
      (ackMessage a s).journal.records = s.journal.records.drop (a - s.journal.mark) ∧
      (ackMessage a s).decoder.ignored = s.decoder.ignored := by
  rw [← filter_sequence s.journal.records s.journal.mark a hlaw.1, (ackMessage_removes a s ha hr).1]
  exact ⟨rfl, rfl, rfl⟩

/-- Settles O38: a request for a MARK job, and the four cases of an ACK after its acceptance. -/
theorem ackRemovesRecords : Obligations.AckRemovesRecords := by
  refine ⟨requestMark_eq, fun s n a hlaw ⟨_, hreport, _⟩ hf => ?_⟩
  have ⟨_, hnext, _⟩ := hlaw
  have ignored : a ≤ s.journal.mark ∨ s.journal.records = [] →
      ackMessage a (roomAccepted n s) = countIgnored (roomAccepted n s) := ackMessage_ignored a (roomAccepted n s)
  have removed := ackMessage_journal a (roomAccepted n s) hlaw
  have hj : (startJob (ackMessage a (roomAccepted n s))).journal = (ackMessage a (roomAccepted n s)).journal := by simp
  have hd : (startJob (ackMessage a (roomAccepted n s))).decoder = (ackMessage a (roomAccepted n s)).decoder := by simp
  refine ⟨startJob (ackMessage a (roomAccepted n s)), ackMessage a (roomAccepted n s),
    congrArg Host.Outcome.next (messageRow_roomAccepted .ack s n _ hf rfl), rfl, fun h => ?_, fun ha hr => ?_,
    by simp [roomAccepted], by simp [roomAccepted], by simp [roomAccepted], by simp [roomAccepted], by simp [roomAccepted],
    fun h => ?_, fun ha hlt hr => ?_, fun hle hr => ?_⟩
  · rw [ignored h]
    exact ⟨countIgnored_eq (roomAccepted n s), (marks_roomIgnored n s).marks hreport⟩
  · obtain ⟨he, hm⟩ := ackMessage_removes a (roomAccepted n s) ha hr
    exact ⟨he, (hm.after rfl).marks hreport⟩
  · rw [hj, hd, ignored h, countIgnored_ignored]
    exact ⟨by simp [roomAccepted], rfl⟩
  · obtain ⟨hmark, hrecords, hignored⟩ := removed ha hr
    rw [hj, hd]
    exact ⟨hmark.trans (Nat.min_eq_left (Nat.le_sub_one_of_lt hlt)), hrecords, hignored⟩
  · have ha : s.journal.mark < a := by omega
    obtain ⟨hmark, hrecords, hignored⟩ := removed ha hr
    rw [hj, hd]
    refine ⟨hmark.trans (Nat.min_eq_right (Nat.sub_le_of_le_add (Nat.le_succ_of_le hle))), hrecords.trans ?_, hignored⟩
    refine List.drop_eq_nil_of_le ?_
    show s.journal.records.length ≤ a - s.journal.mark
    omega

end Sys2Proof.Machine

/-! ### CEILING -/

namespace Sys2Proof.Machine

/-- A CEILING to the ROOM: the lock, and line 2 where it changes (R109, R112). -/
theorem ceilingMessage_room (level : Nat) (s : State) : ceilingMessage true level s = setLock (s.lock.lowered (min level 9)) s := by
  simp only [ceilingMessage, if_true]
  split
  · rename_i h
    exact (if_pos h).symm
  · rfl

/-- What a rise does to a state whose store is that of another. -/
theorem raiseGeneration_on (s t : State) (h : t.store = s.store) : raiseGeneration t = { t with
    account := { t.account with generation := t.account.generation + 1 }, store := (raiseGeneration s).store } :=
  (raiseGeneration_eq t).trans (by rw [raiseGeneration_store s t h])

/-- A CEILING to the GROUP that changes a field raises the stay generation besides (R112). -/
theorem ceilingMessage_group (level : Nat) (s : State) :
    ceilingMessage false level s = { s with
      lock := s.lock.lowered (min level 9)
      account := { s.account with generation := s.account.generation + (if s.lock.lowered (min level 9) ≠ s.lock then 1 else 0) }
      store := if s.lock.lowered (min level 9) ≠ s.lock then (raiseGeneration s).store else s.store
      report := (ceilingMessage false level s).report } := by
  have hx : ceilingMessage false level s = if s.lock = s.lock.lowered (min level 9) then s
      else raiseGeneration (setLock (s.lock.lowered (min level 9)) s) := by simp [ceilingMessage]
  rw [hx]
  by_cases hl : s.lock.lowered (min level 9) = s.lock
  · rw [if_pos hl.symm, if_neg (not_not.2 hl), if_neg (not_not.2 hl), hl]
    simp
  · rw [if_neg (Ne.symm hl), if_pos hl, if_pos hl, raiseGeneration_on s _ (by simp), setLock_eq]

theorem marks_ceilingMessage (room : Bool) (level : Nat) (s : State) :
    Marking (fun k => k = 2 ∧ s.lock.lowered (min level 9) ≠ s.lock) noLine s (ceilingMessage room level s) := by
  unfold ceilingMessage
  dsimp only
  split
  · rename_i h
    exact (Marking.of_eq rfl).congr (by simp [← h]) fun _ => Iff.rfl
  · have hl := (marks_setLock (s.lock.lowered (min level 9)) s).congr (fun k => and_congr_right' ne_comm) fun _ => Iff.rfl
    split
    · exact hl
    · exact (hl.plain (marks_raiseGeneration _)).congr (by simp) fun _ => Iff.rfl

/-- Settles O39: to the ROOM after its acceptance, to the GROUP by the lock's change. -/
theorem ceilingSetsTheRoom : Obligations.CeilingSetsTheRoom := by
  rintro s a n level ⟨-, hreport, -⟩ hf
  by_cases ha : a = .room
  · subst ha
    refine ⟨ceilingMessage true level (roomAccepted n s),
      congrArg Host.Outcome.next (messageRow_roomAccepted .ceiling s n _ hf rfl), ?_,
      ((marks_ceilingMessage true level (roomAccepted n s)).after rfl).marks hreport⟩
    simp only [true_or, if_true]
    rw [ceilingMessage_room]
    exact setLock_eq _ _
  · have hg : (a == .room) = false := by simpa using ha
    have he := ceilingMessage_group level (clearHandOff s)
    rw [raiseGeneration_store s (clearHandOff s) rfl] at he
    refine ⟨ceilingMessage false level (clearHandOff s), ?_, ?_,
      ((marks_ceilingMessage false level (clearHandOff s)).after rfl).marks hreport⟩
    · rw [← hg]
      exact congrArg Host.Outcome.next (messageRow_dispatch .ceiling s a n _ ha hf rfl)
    · rw [if_neg ha]
      simp only [ha, false_or]
      exact he

end Sys2Proof.Machine


/-! ### The clock and the night index (R69 to R73, R127) -/

namespace Sys2Proof.Machine

/-- A night starts: the stay's index and night spending, line 1, and a rise of the stay generation (R127, R128). -/
def startNight (night : Half) (s : State) : State :=
  raiseGeneration (markLine 1 false (setStay { s.account.stay with nightIndex := some night, nightSpent := 0 } s))

theorem startNight_eq (night : Half) (s : State) : startNight night s = { s with
    account := { s.account with
      stay := { s.account.stay with nightIndex := some night, nightSpent := 0 }, generation := s.account.generation + 1 }
    store := (raiseGeneration s).store
    report := (startNight night s).report } := by
  have h : startNight night s = _ := raiseGeneration_on s _ rfl
  rw [h]
  rfl

theorem marks_startNight (night : Half) (s : State) : Marking (fun k => k = 1) noLine s (startNight night s) := by
  have marked : ∀ t : State, t.report = s.report → Marking (fun k => k = 1) noLine s (raiseGeneration (markLine 1 false t)) :=
    fun t h => (((marks_markClear 1 t).after h).plain (marks_raiseGeneration _)).congr (by simp) fun _ => Iff.rfl
  exact marked _ rfl

/-- A change of the night index, unless to the stay's own, starts a night, whose STAY job may begin (R73, R127; log 25). -/
theorem noticeIfChanged_startNight (before : Option Half) (s : State) (night : Half) (hn : nightIndex s = some night) :
    noticeIfChanged before s =
      if before = some night ∨ s.account.stay.nightIndex = some night then s else startJob (startNight night s) :=
  noticeIfChanged_eq before s night hn

theorem nightIndex_none (s : State) (h : s.time.clock = none) : nightIndex s = none := by simp [nightIndex, h]

theorem nightIndex_some (s : State) (c : WallClock) (h : s.time.clock = some c) :
    nightIndex s = some (if s.settings.rolloverMinute ≤ c.minute then c.day else c.day - 1) := by
  simp [nightIndex, h, nightOf]

/-! #### TIME -/

/-- The clock set by a TIME message, line 0 marked where it becomes valid (R71, R72, R174). -/
def setClock (c : WallClock) (s : State) : State :=
  if s.time.clock.isSome then { s with time := { s.time with clock := some c } }
  else markLine 0 false { s with time := { s.time with clock := some c } }

theorem setClock_eq (c : WallClock) (s : State) : setClock c s = { s with
    time := { s.time with clock := some c }, report := (setClock c s).report } := by
  unfold setClock
  split <;> rfl

theorem marks_setClock (c : WallClock) (s : State) : Marking (fun k => k = 0 ∧ s.time.clock = none) noLine s (setClock c s) :=
  ((marks_ite _ 0 { s with time := { s.time with clock := some c } } _ rfl).after rfl).congr (by simp) fun _ => Iff.rfl

/-- A TIME message sets the clock, and sends a notice where the night index changes (R72, R73). -/
theorem timeMessage_eq (c : WallClock) (s : State) : timeMessage c s = noticeIfChanged (nightIndex s) (setClock c s) := rfl

theorem nightIndex_setClock (c : WallClock) (s : State) :
    nightIndex (setClock c s) = some (nightOf s.settings.rolloverMinute c) := by
  rw [setClock_eq]
  rfl

/-- What a TIME message leaves: the clock, and a new night where the index turns, from the one before and from the stay's own. -/
theorem timeMessage_startJob (c : WallClock) (s : State) :
    let turns := nightIndex s ≠ some (nightOf s.settings.rolloverMinute c) ∧
      s.account.stay.nightIndex ≠ some (nightOf s.settings.rolloverMinute c)
    ∃ u, startJob (timeMessage c s) = startJob u ∧
      u = { s with
        time := { s.time with clock := some c }
        account := { s.account with
          stay := if turns then
            { s.account.stay with nightIndex := some (nightOf s.settings.rolloverMinute c), nightSpent := 0 } else s.account.stay
          generation := s.account.generation + (if turns then 1 else 0) }
        store := if turns then (raiseGeneration s).store else s.store
        report := u.report } ∧
      Marking (fun n => n = 0 ∧ s.time.clock = none ∨ n = 1 ∧ turns) noLine s u := by
  have hnight := nightIndex_setClock c s
  generalize nightOf s.settings.rolloverMinute c = night at hnight ⊢
  have hstay : (setClock c s).account = s.account := by rw [setClock_eq]
  have hstore : (setClock c s).store = s.store := by rw [setClock_eq]
  rw [timeMessage_eq, noticeIfChanged_startNight _ _ night hnight, hstay]
  by_cases hturns : nightIndex s ≠ some night ∧ s.account.stay.nightIndex ≠ some night
  · refine ⟨startNight night (setClock c s), ?_, ?_, ?_⟩
    · rw [if_neg (not_or.2 hturns), startJob_again]
    · simp only [if_pos hturns]
      rw [startNight_eq, raiseGeneration_store s _ hstore, setClock_eq]
    · exact ((marks_setClock c s).plain (marks_startNight night _)).congr (by simp [hturns]) fun _ => Iff.rfl
  · refine ⟨setClock c s, ?_, ?_, ?_⟩
    · rw [if_pos (by tauto)]
    · simp only [if_neg hturns]
      rw [setClock_eq]
      simp
    · exact (marks_setClock c s).congr (by simp [hturns]) fun _ => Iff.rfl

/-- Settles O34: the clock is set, and then a night turns or nothing more changes. -/
theorem timeSetsTheClock : Obligations.TimeSetsTheClock := by
  refine ⟨fun s => ⟨nightIndex_none s, nightIndex_some s⟩, fun s a n c ha ⟨_, hreport, _⟩ hf => ?_⟩
  obtain ⟨u, hu, he, hm⟩ := timeMessage_startJob c (clearHandOff s)
  rw [raiseGeneration_store s (clearHandOff s) rfl] at he
  refine ⟨u, ?_, he, (hm.after rfl).marks hreport⟩
  rw [← hu]
  exact congrArg Host.Outcome.next (messageRow_dispatch .time s a n _ ha hf rfl)

/-! #### An advance of the seconds count -/

/-- The Timebase after an advance of the seconds count (R69, R70, R71). -/
theorem advanceSecond_time (s : State) :
    (advanceSecond s).time = if s.path.mode = .run then s.time.advance.expire else s.time.advance := by
  simp [advanceSecond]

/-- The night index rests on the clock and the rollover minute. -/
theorem nightIndex_advanceSecond (s : State) :
    nightIndex (advanceSecond s) = nightIndex { s with time := (advanceSecond s).time } := by
  simp [nightIndex]

theorem advanceSecond_notice (s : State) :
    advanceSecond s = noticeIfChanged (nightIndex s) { s with time := (advanceSecond s).time } := by
  rw [advanceSecond_time]
  rfl

/-- The clock's night index is none only while the clock is invalid, before the advance and after. -/
theorem nightIndex_advanceSecond_none (s : State) (h : nightIndex (advanceSecond s) = none) : nightIndex s = none := by
  rw [nightIndex, Option.map_eq_none_iff, advanceSecond_time] at h
  refine nightIndex_none s ?_
  split at h <;> simpa [Timebase.expire, Timebase.advance] using h

/-- An index that stays, or that becomes the stay's own, changes nothing more (R73, R127). -/
theorem advanceSecond_stays (s : State)
    (h : nightIndex (advanceSecond s) = nightIndex s ∨ nightIndex (advanceSecond s) = s.account.stay.nightIndex) :
    advanceSecond s = { s with time := (advanceSecond s).time } := by
  rw [nightIndex_advanceSecond] at h
  cases hn : nightIndex { s with time := (advanceSecond s).time } with
  | none =>
    conv_lhs => rw [advanceSecond_notice s]
    simp [noticeIfChanged, hn]
  | some night =>
    rw [hn] at h
    conv_lhs => rw [advanceSecond_notice s, noticeIfChanged_startNight _ _ night hn]
    exact if_pos (h.imp Eq.symm Eq.symm)

/-- Any other index starts a night. -/
theorem advanceSecond_turns (s : State) (hs : nightIndex (advanceSecond s) ≠ nightIndex s)
    (hy : nightIndex (advanceSecond s) ≠ s.account.stay.nightIndex) : ∃ night, nightIndex (advanceSecond s) = some night ∧
      advanceSecond s = startJob (startNight night { s with time := (advanceSecond s).time }) := by
  cases hn : nightIndex (advanceSecond s) with
  | none => exact absurd (hn.trans (nightIndex_advanceSecond_none s hn).symm) hs
  | some night =>
    rw [hn] at hs hy
    refine ⟨night, rfl, ?_⟩
    rw [nightIndex_advanceSecond] at hn
    conv_lhs => rw [advanceSecond_notice s, noticeIfChanged_startNight _ _ night hn]
    exact if_neg fun h => h.elim (fun h => hs h.symm) fun h => hy h.symm

/-- Settles O46: the Timebase field by field, and then the night index. -/
theorem secondsAdvance : Obligations.SecondsAdvance := by
  intro s hm
  have htime := advanceSecond_time s
  refine ⟨advanceSecond s, afterMessage_of_none _ s hm, ?_, fun hc => ?_, fun c hc => ?_, ?_, advanceSecond_stays s, fun hs hy => ?_⟩
  · rw [htime]
    split <;> rfl
  · rw [htime]
    split <;> simp [Timebase.expire, Timebase.advance, hc]
  · rw [htime]
    split <;> simp [Timebase.expire, Timebase.advance, hc, WallClock.tick]
  · rw [htime]
    by_cases hr : s.path.mode = .run
    · simp only [hr, true_and, if_true]
      exact ⟨rfl, rfl, rfl, rfl, rfl⟩
    · simp [hr, Timebase.advance]
  · obtain ⟨night, hn, hx⟩ := advanceSecond_turns s hs hy
    refine ⟨startNight night { s with time := (advanceSecond s).time }, hx, ?_, fun ⟨_, hreport, _⟩ => ?_⟩
    · rw [hn, ← raiseGeneration_store s { s with time := (advanceSecond s).time } rfl]
      exact startNight_eq night _
    · exact ((marks_startNight night _).after rfl).marks hreport

end Sys2Proof.Machine


/-! ### A refused BUY -/

namespace Sys2Proof.Machine

/-! #### The checks of R135, in their order -/

theorem commit_noStay (id : Half) (k : Option Nat) (s : State) (h : s.account.stay.state = .vacant) :
    commit id k s = (s, some .noStay) := if_pos h

theorem commit_noEvent (id : Half) (k : Option Nat) (s : State) (ho : s.account.stay.state = .occupied)
    (he : findEvent s id = none) : commit id k s = (s, some .noEvent) := by simp [commit, ho, he]

theorem commit_noTariff (id : Half) (k : Option Nat) (s : State) (e : EventRecord) (ho : s.account.stay.state = .occupied)
    (he : findEvent s id = some e) (hc : tariffOf s e.tariffClass = none) : commit id k s = (s, some .noTariff) := by
  simp [commit, ho, he, hc]

/-- Checks 4 to 6, on a listed event of a defined class, and what comes behind them (R135). -/
theorem commit_listed (id : Half) (k : Option Nat) (s : State) (e : EventRecord) (c : Tariff)
    (ho : s.account.stay.state = .occupied) (he : findEvent s id = some e) (hc : tariffOf s e.tariffClass = some c) :
    commit id k s =
      if effectiveCeiling s.lock < ratingOf s e.service (some e) then (s, some .locked)
      else if livePurchase s id = true then (s, some .already)
      else if s.store.state = .fault ∨ s.store.state = .absent then (s, some .storeFault)
      else commitChecked e c (ratingOf s e.service (some e)) (totalOf s c) k (removeExpired s) := by
  simp [commit, ho, he, hc]

theorem lacksRoom_removeExpired (s : State) (total : Nat) : lacksRoom (removeExpired s) total = lacksRoom s total := by
  simp [lacksRoom]

/-- Checks 7 to 11, whose fields but for the purchases are those before the removals of check 7 (R135, R136). -/
theorem commitChecked_removeExpired (e : EventRecord) (c : Tariff) (rating total : Nat) (k : Option Nat) (s : State) :
    commitChecked e c rating total k (removeExpired s) =
      if 16 ≤ (s.account.purchases.filter fun p => decide (s.time.seconds < p.rentalEnd)).length then
        (removeExpired s, some .purchasesFull)
      else if 0 < total ∧ 32 ≤ s.journal.records.length then (removeExpired s, some .journalFull)
      else if lacksRoom s total = true then (removeExpired s, some .storeBusy)
      else if s.account.stay.remaining < total then (removeExpired s, some .credit)
      else if 0 < s.account.stay.nightCeiling ∧ s.account.stay.nightCeiling < s.account.stay.nightSpent + total then
        (removeExpired s, some .ceiling)
      else (commitEffects e c rating total k (removeExpired s), none) := by
  simp [commitChecked, lacksRoom_removeExpired, removeExpired_purchases, purchasePlaces, journalPlaces]

/-! #### The answer -/

/-- A BUY whose commit is refused: the state the commit leaves, and the passing write that carries the reason (R149, R169). -/
theorem exec_buy_refused (w : BusWrite) (k j : Nat) (s u : State) (id : Half) (r : Reason) (hw : w.wellFormed = true)
    (hu : UpstreamFree s) (hk : windowFor s w.address.toNat = .request k j) (hs : slotPending s k = false)
    (ht : isTaken w = true) (hq : requestOf (recordOf w) = .buy id) (hc : commit id (some k) s = (u, some r)) :
    exec (.buy w) s = .next { u with path := { u.path with
      passing := some (.write (rewriteResult (answerRefused r) w) (some k)), port := portAfter s u } } := by
  have hb : answerRequest k (.buy id) s = (u, answerRefused r) := by simp [answerRequest, buyRequest, hc]
  rw [exec_taken (.buy w) w k j s rfl hw hu hk hs ht _ hq, hb]

/-- Settles O17: the lookups, and each check's reason behind the checks that pass. -/
theorem buyIsRefusedInOrder : Obligations.BuyIsRefusedInOrder := by
  refine ⟨fun s id e h => findEvent_some s id h e, findEvent_none, livePurchase_iff, fun _ _ => rfl,
    fun s => ⟨removeExpired_eq s, fun ht k => lineMark_removeExpired s ht.2.1 k⟩, lacksRoom_iff, ?_⟩
  intro w k j s id hw hu hk hs ht hq early late
  have answers : ∀ r, CarriesAnswer w (answerRefused r) (rewriteResult (answerRefused r) w) :=
    fun r => rewriteResult_carries w _ (isTaken_length w ht)
  have isEarly : ∀ r, (∀ slot, commit id slot s = (s, some r)) → early r := fun r hc =>
    ⟨_, hc, answers r, exec_buy_refused w k j s s id r hw hu hk hs ht hq (hc _)⟩
  have isLate : ∀ r, (∀ slot, commit id slot s = (removeExpired s, some r)) → late r := fun r hc => by
    refine ⟨_, _, hc, answers r, exec_buy_refused w k j s _ id r hw hu hk hs ht hq (hc _), ?_⟩
    have hp : (removeExpired s).path = s.path := by simp
    rw [← hp]
    rfl -- the port's own place plays no part in `portAfter`
  refine ⟨fun hv => isEarly _ fun _ => commit_noStay _ _ _ hv, fun ho =>
    ⟨fun he => isEarly _ fun _ => commit_noEvent _ _ _ ho he, fun e he =>
    ⟨fun hc => isEarly _ fun _ => commit_noTariff _ _ _ _ ho he hc, fun c hc => ?_⟩⟩⟩
  have hcommit := fun slot => commit_listed id slot s e c ho he hc
  simp only [commitChecked_removeExpired] at hcommit
  refine ⟨fun hr => isEarly _ fun _ => by rw [hcommit, if_pos hr], fun hr => ?_⟩
  simp only [if_neg (Nat.not_lt.2 hr)] at hcommit
  refine ⟨fun hl => isEarly _ fun _ => by rw [hcommit, if_pos hl], fun hl => ?_⟩
  simp only [hl, Bool.false_eq_true, if_false] at hcommit
  refine ⟨fun hf => isEarly _ fun _ => by rw [hcommit, if_pos hf], fun hb => ?_⟩
  have hf : ¬ (s.store.state = .fault ∨ s.store.state = .absent) := by rcases hb with hb | hb <;> simp [hb]
  simp only [if_neg hf] at hcommit
  refine ⟨fun hp => isLate _ fun _ => by rw [hcommit, if_pos hp], fun hp => ?_⟩
  simp only [if_neg (Nat.not_le.2 hp)] at hcommit
  refine ⟨fun hj => isLate _ fun _ => by rw [hcommit, if_pos hj], fun hj => ?_⟩
  simp only [if_neg hj] at hcommit
  refine ⟨fun hl => isLate _ fun _ => by rw [hcommit, if_pos hl], fun hl => ?_⟩
  simp only [hl, Bool.false_eq_true, if_false] at hcommit
  refine ⟨fun hm => isLate _ fun _ => by rw [hcommit, if_pos hm], fun hm hn hx => ?_⟩
  exact isLate _ fun _ => by rw [hcommit, if_neg (Nat.not_lt.2 hm), if_pos ⟨hn, hx⟩]

end Sys2Proof.Machine


/-! ### The ten steps of an evaluation -/

namespace Sys2Proof.Machine

/-! #### An event after a change of the table that keeps ids -/

theorem findEvent_of_map {s t : State} {g : EventRecord → EventRecord} (ht : t.showings.events = s.showings.events.map g)
    (hg : ∀ x, (g x).id = x.id) (id : Half) : findEvent t id = (findEvent s id).map g := by
  unfold findEvent
  rw [ht, List.find?_map]
  have hp : ((fun e : EventRecord => e.id == id) ∘ g) = fun e => e.id == id := funext fun x => by simp [hg]
  rw [hp]

/-- The event of a successful commit is PAID (R137). -/
theorem findEvent_commitEffects (e : EventRecord) (c : Tariff) (rating total : Nat) (k : Option Nat) (s : State) :
    findEvent (commitEffects e c rating total k s) e.id = (findEvent s e.id).map fun x => { x with preview := .paid } := by
  rw [findEvent_of_map (commitEffects_events e c rating total k s) (fun x => by split <;> rfl)]
  cases he : findEvent s e.id with
  | none => rfl
  | some x => simp [findEvent_id he]

/-- The removals of check 7 change no more of an event than its preview state (R136). -/
theorem findEvent_removeExpired (s : State) (id : Half) (e : EventRecord) (he : findEvent s id = some e) :
    ∃ p, findEvent (removeExpired s) id = some { e with preview := p } := by
  rw [findEvent_of_map (removeExpired_events s) (fun x => by split <;> rfl), he, Option.map_some]
  split
  · exact ⟨_, rfl⟩
  · exact ⟨e.preview, rfl⟩

/-- A successful commit leaves its event PAID and changes nothing else of it. -/
theorem findEvent_commit_paid (id : Half) (k : Option Nat) (s : State) (e : EventRecord) (he : findEvent s id = some e)
    (h : (commit id k s).2 = none) : findEvent (commit id k s).1 id = some { e with preview := .paid } := by
  rcases commit_cases id k s with ⟨r, hc⟩ | ⟨r, hc⟩ | ⟨x, c, hp, hc⟩
  · rw [hc] at h
    cases h
  · rw [hc] at h
    cases h
  · obtain rfl : e = x := Option.some.inj (he.symm.trans hp.listed)
    obtain ⟨p, hr⟩ := findEvent_removeExpired s id e he
    rw [← findEvent_id he] at hr ⊢
    rw [← findEvent_id he] at hc
    rw [hc, findEvent_commitEffects, hr]
    rfl

/-- A refused commit changes no more of an event than its preview state (R136). -/
theorem findEvent_commit_refused (id : Half) (k : Option Nat) (s : State) (e : EventRecord) (r : Reason)
    (he : findEvent s id = some e) (h : (commit id k s).2 = some r) :
    ∃ p, findEvent (commit id k s).1 id = some { e with preview := p } := by
  rcases commit_cases id k s with ⟨x, hc⟩ | ⟨x, hc⟩ | ⟨x, c, -, hc⟩
  · exact ⟨e.preview, by rw [hc, he]⟩
  · obtain ⟨p, hr⟩ := findEvent_removeExpired s id e he
    exact ⟨p, by rw [hc, hr]⟩
  · rw [hc] at h
    cases h

/-! #### An event after the end of its preview (R143, R144) -/

/-- An event held is SPENT. -/
theorem findEvent_held {u t : State} {id : Half} {e : EventRecord}
    (ht : t.showings.events = u.showings.events.map fun x => if x.id = id then { x with preview := .spent } else x)
    (he : findEvent u id = some e) : findEvent t id = some { e with preview := .spent } := by
  rw [findEvent_of_map ht (fun x => by split <;> rfl), he, Option.map_some, if_pos (findEvent_id he)]

/-- Under CONFIRM the event is SPENT, and the held record names it. -/
theorem endsPreview_confirmed {id : Half} {s t : State} {e : EventRecord} (h : EndsPreview id .confirm s t)
    (he : findEvent s id = some e) : findEvent t id = some { e with preview := .spent } ∧
      t.account = { s.account with held := some { event := id, cause := .confirm } } := by
  obtain ⟨ht, -⟩ := h.1 rfl
  exact ⟨findEvent_held (congrArg (fun x : State => x.showings.events) ht) he, congrArg State.account ht⟩

/-- Under AUTO, with the commit refused, the event is SPENT, and the held record names it and the reason. -/
theorem endsPreview_refused {id : Half} {s t : State} {e : EventRecord} {r : Reason} (h : EndsPreview id .auto s t)
    (he : findEvent s id = some e) (hr : (commit id none s).2 = some r) : findEvent t id = some { e with preview := .spent } ∧
      t.account.held = some { event := id, cause := .refused r } := by
  obtain ⟨ht, -⟩ := (h.2 rfl).2 r hr
  obtain ⟨p, hp⟩ := findEvent_commit_refused id none s e r he hr
  exact ⟨findEvent_held (e := { e with preview := p }) (congrArg (fun x : State => x.showings.events) ht) hp,
    congrArg (fun x : State => x.account.held) ht⟩

/-! #### Steps 1 to 8 (R92, R93) -/

section
variable (f : TagFields) (s : State)

theorem verdictOf_media (latch : Option Verdict) (hk : f.kind = .media) :
    verdictOf { fields := some f, latch := latch } s = judge f s := if_pos hk

theorem verdictOf_other (latch : Option Verdict) (hk : f.kind ≠ .media) :
    verdictOf { fields := some f, latch := latch } s = (s, .raw) := if_neg hk

/-- Steps 2 to 8 in their order, and what comes behind them. -/
theorem judge_steps : judge f s =
    if effectiveCeiling s.lock < ratingOf s f.service (findShowing s f.service f.eventTag) then (s, .voided .lock)
    else if f.scrambled = false then (s, .clear)
    else if lookupKey s.keys.pool f.service f.epoch = none then (s, .voided .noKey)
    else if isFreeService s f.service = true then (s, .opened .free)
    else if livePurchase s f.eventTag = true then (s, .opened .paid)
    else if s.account.freeView ≠ .off then (s, .opened .freeView)
    else payStep (findShowing s f.service f.eventTag) s := by
  unfold judge
  simp only [Option.isNone_iff_eq_none, Bool.not_eq_true']

end

/-! #### Steps 9 and 10 (R94, R95) -/

theorem payStep_noEvent (e : Option EventRecord) (s : State) (h : s.account.stay.state = .vacant ∨ e = none) :
    payStep e s = (s, .voided .hold) := by
  rcases h with h | rfl
  · simp [payStep, h]
  · cases h : s.account.stay.state <;> simp [payStep, h]

theorem payStep_noTariff (e : EventRecord) (s : State) (hc : tariffOf s e.tariffClass = none) :
    payStep (some e) s = (s, .voided .hold) := by
  cases h : s.account.stay.state <;> simp [payStep, h, hc]

theorem payStep_tariff (e : EventRecord) (c : Tariff) (s : State) (ho : s.account.stay.state = .occupied)
    (hc : tariffOf s e.tariffClass = some c) : payStep (some e) s = previewStep e c s := by simp [payStep, ho, hc]

theorem previewStep_preview (e : EventRecord) (c : Tariff) (s : State) (h : e.preview = .preview) :
    previewStep e c s = (updateEvent e.id (fun x => { x with cells := bump x.cells }) s, .opened .preview) := by
  simp [previewStep, h, presentationNote]

theorem previewStep_over (e : EventRecord) (c : Tariff) (s : State) (h : e.preview = .spent ∨ e.preview = .paid) :
    previewStep e c s = (s, .voided .hold) := by
  rcases h with h | h <;> simp [previewStep, h]

/-- The begin of a preview, with its first note (R140). -/
theorem previewStep_begins (e : EventRecord) (c : Tariff) (s : State) (h : e.preview = .untouched) (ha : 0 < c.allowance) :
    previewStep e c s =
      (updateEvent e.id (fun x => { x with preview := .preview, cells := bump x.cells }) s, .opened .preview) := by
  simp only [previewStep, h, ha, if_true, presentationNote, beginPreview, updateEvent, setEvents, List.map_map]
  congr 4
  funext x
  by_cases hx : x.id = e.id <;> simp [hx]

/-- Under an allowance of 0 the preview ends at once, and the event it leaves decides the verdict (R95). -/
theorem previewStep_ends (e : EventRecord) (c : Tariff) (s : State) (h : e.preview = .untouched) (ha : c.allowance = 0) :
    previewStep e c s = (previewEnd e.id s,
      if (findEvent (previewEnd e.id s) e.id).map EventRecord.preview = some .paid then .opened .paid else .voided .hold) := by
  simp [previewStep, h, ha]

theorem findShowing_event {s : State} {v : BitVec 12} {tag : Half} {e : EventRecord} (h : findShowing s v tag = some e) :
    findEvent s tag = some e := by
  unfold findShowing at h
  split at h
  · rename_i x hx
    split at h
    · rwa [← h]
    · cases h
  · cases h

/-- Settles O24: the lookups, and each step's verdict behind the steps that do not decide. -/
theorem verdictSteps : Obligations.VerdictSteps := by
  refine ⟨fun s v => ⟨findService_none s v, findService_some s v, isFreeService_iff s v⟩,
    fun s v tag h => ⟨findShowing_none s v tag h, findShowing_some s v tag h⟩, ratingOf_rows,
    fun s v epoch h => ⟨lookupKey_none _ v epoch, lookupKey_some _ v epoch h.2.1⟩, livePurchase_iff, ?_⟩
  intro f latch s ht
  refine ⟨rfl, verdictOf_other f s latch, fun hk => ?_⟩
  rw [verdictOf_media f s latch hk]
  intro e judged v events
  have hj : judged = _ := judge_steps f s
  refine ⟨fun hr => hj.trans (if_pos hr), fun hr => ?_⟩
  rw [if_neg (Nat.not_lt.2 hr)] at hj
  refine ⟨fun hs => hj.trans (if_pos hs), fun hs => ?_⟩
  rw [if_neg (by simp [hs])] at hj
  refine ⟨fun hl => hj.trans (if_pos hl), fun hl => ?_⟩
  rw [if_neg hl] at hj
  refine ⟨fun hf => hj.trans (if_pos hf), fun hf => ?_⟩
  rw [if_neg (by simp [hf])] at hj
  refine ⟨fun hp => hj.trans (if_pos hp), fun hp => ?_⟩
  rw [if_neg (by simp [hp])] at hj
  refine ⟨fun hv => hj.trans (if_pos hv), fun hv => ?_⟩
  rw [if_neg (by simp [hv])] at hj
  refine ⟨fun hn => hj.trans (payStep_noEvent _ s hn), fun x hx ho => ?_⟩
  have hid : x.id = f.eventTag := findShowing_id hx
  have he : findEvent s f.eventTag = some x := findShowing_event hx
  have hpay : judged = payStep (some x) s := by rw [hj, ← hx]
  refine ⟨fun hc => hpay.trans (payStep_noTariff x s hc), fun c hc => ?_⟩
  rw [payStep_tariff x c s ho hc] at hpay
  have hends : EndsPreview f.eventTag c.mode s (previewEnd f.eventTag s) := previewEnd_ends _ s x c he hc
  refine ⟨fun hp => ?_, fun hp => hpay.trans (previewStep_over x c s hp), fun hp ha => ?_, fun hp ha hm => ?_, fun hp ha hm => ?_⟩
  · rw [hpay, previewStep_preview x c s hp, hid]
    rfl
  · rw [hpay, previewStep_begins x c s hp ha, hid]
    rfl
  · rw [previewStep_ends x c s hp ha, hid] at hpay
    rw [hm] at hends
    obtain ⟨heq, hmarks⟩ := hends.1 rfl
    refine ⟨_, hpay.trans ?_, heq, hmarks ht⟩
    rw [(endsPreview_confirmed hends he).1, if_neg (by simp)]
  · rw [previewStep_ends x c s hp ha, hid] at hpay
    rw [hm] at hends
    refine ⟨fun hcommit => hpay.trans ?_, fun r hcommit => ?_⟩
    · rw [(hends.2 rfl).1 hcommit, findEvent_commit_paid _ _ s x he hcommit]
      rfl
    · obtain ⟨heq, hmarks⟩ := (hends.2 rfl).2 r hcommit
      refine ⟨_, hpay.trans ?_, heq, hmarks ht⟩
      rw [(endsPreview_refused hends he hcommit).1, if_neg (by simp)]

end Sys2Proof.Machine


/-! ### LISTING -/

namespace Sys2Proof.Machine

/-! #### One record: an update, a class change, an insertion (R81, R82) -/

theorem takeListing_update (r : ListingRecord) (s : State) (e : EventRecord) (he : findEvent s r.id = some e)
    (hc : e.tariffClass = r.tariffClass) : takeListing r s = relistEvent r e s := by simp [takeListing, he, hc]

theorem takeListing_reclass (r : ListingRecord) (s : State) (e : EventRecord) (he : findEvent s r.id = some e)
    (hc : e.tariffClass ≠ r.tariffClass) : takeListing r s = classChange r.id (relistEvent r e s) := by
  simp [takeListing, he, hc]

theorem takeListing_insert (r : ListingRecord) (s : State) (he : findEvent s r.id = none) : takeListing r s = listEvent r s := by
  simp [takeListing, he]

/-- The operations on previews keep the stay's number: a commit charges the stay and changes no more of it. -/
theorem charges_stayNumber (n : Half) : Charges fun s => s.account.stay.number = n where
  commit id k s h := by
    rcases commit_stay id k s with hy | ⟨total, hy, -⟩ <;> rw [hy] <;> exact h
  hold _ _ _ h := h
  meter _ _ _ _ h := h

theorem takeListing_stayNumber (r : ListingRecord) (s : State) :
    (takeListing r s).account.stay.number = s.account.stay.number :=
  (charges_stayNumber _).listing (fun _ _ h _ => h) (fun _ _ _ h _ => h) [r] s rfl

/-! #### An update (R81) -/

/-- The records after an update: the updated one, and those of the other ids. -/
theorem mem_relistEvent (r : ListingRecord) (e : EventRecord) (s : State) (x : EventRecord) :
    x ∈ (relistEvent r e s).showings.events ↔ x = r.over e ∨ (x ∈ s.showings.events ∧ x.id ≠ r.id) := by
  rw [relistEvent, setEvents_events, mem_insertEvent, List.mem_filter, bne_iff_ne]

theorem findEvent_relistEvent (r : ListingRecord) (e : EventRecord) (s : State) (h : ShowingLaw s)
    (he : findEvent s r.id = some e) : findEvent (relistEvent r e s) r.id = some (r.over e) :=
  (findEvent_some _ _ (relistEvent_showingLaw r e s h he) _).2 ⟨(mem_relistEvent r e s _).2 (.inl rfl), rfl⟩

/-- An update moves a record and adds none: an id is listed once. -/
theorem relistEvent_length (r : ListingRecord) (e : EventRecord) (s : State) (h : ShowingLaw s)
    (he : findEvent s r.id = some e) : (relistEvent r e s).showings.events.length = s.showings.events.length := by
  obtain ⟨hm, hid⟩ := (findEvent_some s r.id h e).1 he
  have hone : s.showings.events.countP (fun x => x.id == r.id) = 1 := by
    have hc := List.count_eq_one_of_mem h.2.1 (List.mem_map_of_mem (f := EventRecord.id) hm)
    rw [hid, List.count, List.countP_map] at hc
    exact hc
  have hsplit := List.length_eq_countP_add_countP (fun x : EventRecord => x.id == r.id) (l := s.showings.events)
  rw [relistEvent, setEvents_events, insertEvent_length, ← List.countP_eq_length_filter, hsplit, hone, Nat.add_comm]
  exact congrArg (1 + ·) (List.countP_congr fun x _ => by simp)

/-! #### The class change of an updated record (R145) -/

/-- An event after a class change to a defined class: its viewed seconds held to the allowance, and its preview ended where it then
stands at it. -/
theorem classChange_event (s : State) (id : Half) (e : EventRecord) (c : Tariff) (he : findEvent s id = some e)
    (hc : tariffOf s e.tariffClass = some c) :
    ∃ p, findEvent (classChange id s) id = some { e with viewed := min e.viewed c.allowance, preview := p } ∧
      (¬ (e.preview = .preview ∧ c.allowance ≤ e.viewed) → p = e.preview ∧ (classChange id s).account = s.account) ∧
      (e.preview = .preview → c.allowance ≤ e.viewed →
        (c.mode = .confirm → p = .spent ∧
          (classChange id s).account = { s.account with held := some { event := id, cause := .confirm } }) ∧
        (c.mode = .auto → (p = .paid ∧ (classChange id s).account.held = s.account.held) ∨
          p = .spent ∧ ∃ x, (classChange id s).account.held = some { event := id, cause := .refused x })) := by
  obtain ⟨hkeeps, hends⟩ := classChange_spec s id e c he hc
  have hheld := findEvent_map s id e (fun x => { x with viewed := min e.viewed c.allowance }) (fun _ => rfl) he
  by_cases hp : e.preview = .preview ∧ c.allowance ≤ e.viewed
  · have hend := hends hp.1 hp.2
    cases hm : c.mode with
    | confirm =>
      rw [hm] at hend
      obtain ⟨hfind, hacc⟩ := endsPreview_confirmed hend hheld
      exact ⟨_, hfind, fun hn => absurd hp hn, fun _ _ => ⟨fun _ => ⟨rfl, hacc⟩, nofun⟩⟩
    | auto =>
      rw [hm] at hend
      cases hr : (commit id none (updateEvent id (fun x => { x with viewed := min e.viewed c.allowance }) s)).2 with
      | none =>
        have ht := (hend.2 rfl).1 hr
        refine ⟨.paid, ?_, fun hn => absurd hp hn, fun _ _ => ⟨nofun, fun _ => .inl ⟨rfl, ?_⟩⟩⟩
        · rw [ht, findEvent_commit_paid _ _ _ _ hheld hr]
        · rw [ht]
          simp
      | some x =>
        obtain ⟨hfind, hacc⟩ := endsPreview_refused hend hheld hr
        exact ⟨_, hfind, fun hn => absurd hp hn, fun _ _ => ⟨nofun, fun _ => .inr ⟨rfl, x, hacc⟩⟩⟩
  · refine ⟨e.preview, ?_, fun _ => ⟨rfl, ?_⟩, fun h1 h2 => absurd ⟨h1, h2⟩ hp⟩
    · rw [hkeeps hp, hheld]
    · rw [hkeeps hp]
      rfl

/-! #### An insertion (R82) -/

/-- A table with room takes the new record. -/
theorem listEvent_room (r : ListingRecord) (s : State) (h : s.showings.events.length < 64) :
    (listEvent r s).showings.events = insertEvent r.fresh s.showings.events := by
  have hl := insertEvent_length r.fresh s.showings.events
  simp only [listEvent, setEvents_events, tableSize, hl]
  exact if_neg (by omega)

/-- A full table takes it and drops the last. -/
theorem listEvent_full (r : ListingRecord) (s : State) (h : s.showings.events.length = 64) :
    (listEvent r s).showings.events = (insertEvent r.fresh s.showings.events).dropLast := by
  have hl := insertEvent_length r.fresh s.showings.events
  simp only [listEvent, setEvents_events, tableSize, hl]
  exact if_pos (by omega)

/-- What the drop of the last record leaves of an ordered table: all but the one that every other is before. -/
theorem dropLast_ordered (l : List EventRecord) (hne : l ≠ []) (hn : (l.map EventRecord.id).Nodup)
    (ho : l.Pairwise fun a b => a.before b = true) : ∃ last ∈ l, (∀ e ∈ l, e ≠ last → e.before last = true) ∧
      ∀ e, e ∈ l.dropLast ↔ e ∈ l ∧ e ≠ last := by
  obtain ⟨init, last, rfl⟩ := (List.eq_nil_or_concat' l).resolve_left hne
  have hlast : last ∉ init := fun hm => (List.nodup_append.1 hn.of_map).2.2 last hm last (by simp) rfl
  have hbefore := (List.pairwise_append.1 ho).2.2
  refine ⟨last, by simp, fun e he hx => ?_, fun e => ?_⟩
  · rcases List.mem_append.1 he with he | he
    · exact hbefore e he last (by simp)
    · exact absurd (List.mem_singleton.1 he) hx
  · rw [List.dropLast_concat, List.mem_append, List.mem_singleton]
    constructor
    · exact fun he => ⟨.inl he, fun hx => hlast (hx ▸ he)⟩
    · exact fun ⟨he, hx⟩ => he.resolve_right hx

/-- Settles O31: the row, and then one record by whether its id is listed and keeps its class. -/
theorem listingTakesRecords : Obligations.ListingTakesRecords := by
  refine ⟨EventRecord.before_iff, fun _ => rfl, fun s a n l ha hf =>
    congrArg Host.Outcome.next (messageRow_dispatch .listing s a n _ ha hf rfl), fun s r hlaw => ?_⟩
  refine ⟨by simp, by simp, by simp, by simp, by simp, takeListing_stayNumber r s, fun e he hc => ?_, fun e he hc => ?_, fun he => ?_⟩
  · rw [takeListing_update r s e he hc]
    exact ⟨findEvent_relistEvent r e s hlaw he, relistEvent_length r e s hlaw he, rfl, relistEvent_showingLaw r e s hlaw he,
      mem_relistEvent r e s⟩
  · rw [takeListing_reclass r s e he hc]
    have hfind := findEvent_relistEvent r e s hlaw he
    have hchange : ∃ u, u = { s with showings := { s.showings with events := u.showings.events } } ∧ ShowingLaw u ∧
        (∀ x, x ∈ u.showings.events ↔ x = r.over e ∨ (x ∈ s.showings.events ∧ x.id ≠ r.id)) ∧
        classChange r.id (relistEvent r e s) = classChange r.id u :=
      ⟨relistEvent r e s, rfl, relistEvent_showingLaw r e s hlaw he, mem_relistEvent r e s, rfl⟩
    cases ht : tariffOf s r.tariffClass with
    | none =>
      have hsame : classChange r.id (relistEvent r e s) = relistEvent r e s := classChange_none _ _ (by rw [hfind]; exact ht)
      refine ⟨r.over e, by rw [hsame, hfind], rfl, rfl, rfl, rfl, rfl, rfl, rfl, hchange, nofun, fun _ => ⟨rfl, rfl, ?_⟩⟩
      rw [hsame]
      rfl
    | some c =>
      obtain ⟨p, hp, hkept, hended⟩ := classChange_event (relistEvent r e s) r.id (r.over e) c hfind ht
      refine ⟨_, hp, rfl, rfl, rfl, rfl, rfl, rfl, rfl, hchange, fun c' hc' => ?_, nofun⟩
      obtain rfl : c = c' := Option.some.inj hc'
      exact ⟨rfl, hkept, hended⟩
  · rw [takeListing_insert r s he]
    have hnew : ∀ x ∈ s.showings.events, x.id ≠ r.fresh.id := (findEvent_none s r.id).1 he
    have hlisted := listEvent_showingLaw r s hlaw he
    refine ⟨rfl, hlisted, fun hroom => ?_, fun hfull => ?_⟩
    · have hmem : ∀ x, x ∈ (listEvent r s).showings.events ↔ x = r.fresh ∨ (x ∈ s.showings.events ∧ x.id ≠ r.id) := by
        intro x
        rw [listEvent_room r s hroom, mem_insertEvent]
        exact or_congr_right ⟨fun hx => ⟨hx, hnew x hx⟩, And.left⟩
      exact ⟨(findEvent_some _ _ hlisted _).2 ⟨(hmem _).2 (.inl rfl), rfl⟩,
        by rw [listEvent_room r s hroom, insertEvent_length], hmem⟩
    · obtain ⟨-, hn, ho⟩ := hlaw
      have hperm := insertEvent_perm r.fresh s.showings.events
      obtain ⟨last, hlast, hbefore, hdrop⟩ := dropLast_ordered _ (by intro h; simp [h] at hperm)
        (insertEvent_ids r.fresh _ hn hnew) (insertEvent_ordered r.fresh _ ho hnew)
      rw [listEvent_full r s hfull]
      simp only [hperm.mem_iff] at hlast hbefore hdrop
      exact ⟨last, hlast, hbefore, hdrop⟩

end Sys2Proof.Machine

/-! ### The law for ceilings (R105, R108) -/

namespace Sys2Proof.Machine

/-- The law for ceilings, said of the Lock Unit's fields alone. -/
def Lock.Lawful (l : Lock) : Prop := l.roomCeiling ≤ 9 ∧ l.defaultCeiling ≤ l.roomCeiling ∧ l.guestCeiling ≤ l.roomCeiling

theorem lockLaw_iff (s : State) : LockLaw s ↔ s.lock.Lawful := Iff.rfl

theorem lockLaw_of_frame {s t : State} (h : t.lock = s.lock) (hs : LockLaw s) : LockLaw t := by
  rw [lockLaw_iff, h]
  exact hs

/-- A guest ceiling moved to one within the room ceiling keeps the law, as the periods, the counts and the PIN do. -/
theorem Lock.Lawful.of_guest {l m : Lock} (h : l.Lawful) (hr : m.roomCeiling = l.roomCeiling)
    (hd : m.defaultCeiling = l.defaultCeiling) (hg : m.guestCeiling ≤ l.roomCeiling) : m.Lawful := by
  obtain ⟨hroom, hdefault, -⟩ := h
  exact ⟨hr ▸ hroom, by rw [hr, hd]; exact hdefault, by rw [hr]; exact hg⟩

@[simp] theorem setLock_lock (l : Lock) (s : State) : (setLock l s).lock = l := by
  rw [setLock_eq]

/-! #### Messages to the Lock Unit -/

/-- A check-out returns the guest ceiling to the default one, which the law bounds too (R111). -/
theorem checkOut_lockLaw (s : State) (h : LockLaw s) : LockLaw (checkOut s) := by
  have ⟨_, hdefault, _⟩ := h
  rw [lockLaw_iff, checkOut_eq]
  exact Lock.Lawful.of_guest h rfl rfl hdefault

/-- A check-in clamps the room ceiling to 9, and both guest ceilings to the room ceiling (R110). -/
theorem CheckinBody.lock_lawful (b : CheckinBody) : b.lock.Lawful :=
  ⟨Nat.min_le_right _ _, Nat.min_le_right _ _, Nat.min_le_right _ _⟩

theorem checkinMessage_lockLaw (b : CheckinBody) (night : Option Half) (s : State) (h : LockLaw s) :
    LockLaw (checkinMessage b night s) := by
  by_cases hnew : s.account.stay.state = .vacant ∨ s.account.stay.number ≠ b.number
  · rw [lockLaw_iff, (checkinMessage_new b night s hnew).1]
    exact b.lock_lawful
  · obtain ⟨hv, hn⟩ := not_or.1 hnew
    have ho : s.account.stay.state = .occupied := by
      cases hs : s.account.stay.state with
      | vacant => exact absurd hs hv
      | occupied => rfl
    rw [checkinMessage_ignored b night s ho (not_not.1 hn)]
    exact lockLaw_of_frame (by simp) h

theorem checkoutMessage_lockLaw (number : Half) (s : State) (h : LockLaw s) : LockLaw (checkoutMessage number s) := by
  unfold checkoutMessage
  split
  · exact checkOut_lockLaw s h
  · exact lockLaw_of_frame (by simp) h

/-- Under a new room ceiling both guest ceilings are pulled down to it (R112). -/
theorem Lock.lowered_lawful (l : Lock) (level : Nat) (h : level ≤ 9) : (l.lowered level).Lawful :=
  ⟨h, Nat.min_le_right _ _, Nat.min_le_right _ _⟩

theorem ceilingMessage_lock (room : Bool) (level : Nat) (s : State) :
    (ceilingMessage room level s).lock = s.lock.lowered (min level 9) := by
  cases room with
  | true => rw [ceilingMessage_room, setLock_lock]
  | false => rw [ceilingMessage_group]

theorem maintMessage_lockLaw (tag : Half) (s : State) (h : LockLaw s) : LockLaw (maintMessage tag s) := by
  by_cases ht : s.decoder.lastMaintenanceTag = some tag
  · rwa [maintMessage, if_pos ht]
  · rw [lockLaw_iff, (maintMessage_reset tag s ht).1]
    exact h

theorem dispatch_lockLaw (a : AddressType) (m : Message) (s : State) (h : LockLaw s) : LockLaw (dispatch a m s) := by
  cases m with
  | checkin b => exact checkinMessage_lockLaw b _ s h
  | checkout number => exact checkoutMessage_lockLaw number s h
  | ceiling level =>
    rw [lockLaw_iff, dispatch, ceilingMessage_lock]
    exact Lock.lowered_lawful _ _ (Nat.min_le_right _ _)
  | maint tag => exact maintMessage_lockLaw tag s h
  | _ => exact lockLaw_of_frame (by simp [dispatch]) h

/-! #### Requests to the Lock Unit -/

/-- The lock after a RELOCK (R113). -/
def Lock.relocked (l : Lock) (level : Nat) : Lock := { l with guestCeiling := min level l.guestCeiling, unlock := none }

/-- A RELOCK up to the begin of a job: the lock changes, and a fall of the guest ceiling raises the stay generation (R113). -/
def relock (level : Nat) (s : State) : State :=
  if level < s.lock.guestCeiling then raiseGeneration (setLock (s.lock.relocked level) s) else setLock (s.lock.relocked level) s

theorem relockRequest_eq (level : Nat) (s : State) :
    relockRequest level s = if level < s.lock.guestCeiling then startJob (relock level s) else relock level s := by
  simp only [relockRequest, inf_lt_right, not_le]
  unfold relock
  split <;> rfl

/-- What a RELOCK moves beside the dirty set. -/
theorem relock_eq (level : Nat) (s : State) : relock level s = { s with
    lock := s.lock.relocked level
    account := { s.account with generation := s.account.generation + (if level < s.lock.guestCeiling then 1 else 0) }
    store := if level < s.lock.guestCeiling then (raiseGeneration s).store else s.store
    report := (relock level s).report } := by
  unfold relock
  split
  · rw [raiseGeneration_on s _ (by simp), setLock_eq]
  · rw [setLock_eq]
    simp

/-- A RELOCK that changes the lock marks line 2 without attention (R109). -/
theorem marks_relock (level : Nat) (s : State) :
    Marking (fun k => k = 2 ∧ s.lock.relocked level ≠ s.lock) noLine s (relock level s) := by
  have hl := (marks_setLock (s.lock.relocked level) s).congr (fun k => and_congr_right' ne_comm) fun _ => Iff.rfl
  unfold relock
  split
  · exact (hl.plain (marks_raiseGeneration _)).congr (by simp) fun _ => Iff.rfl
  · exact hl

theorem relockRequest_lock (level : Nat) (s : State) : (relockRequest level s).lock = s.lock.relocked level := by
  have hr : (relock level s).lock = s.lock.relocked level := by rw [relock_eq]
  rw [relockRequest_eq]
  split
  · rw [← hr]
    simp
  · exact hr

theorem relockRequest_lockLaw (level : Nat) (s : State) (h : LockLaw s) : LockLaw (relockRequest level s) := by
  have ⟨_, _, hguest⟩ := h
  rw [lockLaw_iff, relockRequest_lock]
  exact Lock.Lawful.of_guest h rfl rfl ((Nat.min_le_right _ _).trans hguest)

/-- The length of a lockout in bases, by the lockouts before it (R116). -/
theorem lockoutFactor_eq (n : Nat) : lockoutFactor n = if n ≤ 2 then 2 ^ n else 8 := by
  match n with
  | 0 | 1 | 2 => rfl
  | n + 3 => simp [lockoutFactor]

/-- The lock after a wrong PIN: the count rises, and from 2 it returns to 0 with a lockout (R116). -/
def Lock.mistaken (l : Lock) (now base : Nat) : Lock :=
  if l.wrongAttempts < 2 then { l with wrongAttempts := l.wrongAttempts + 1 } else l.lockedOut now base

theorem wrongPin_eq (s : State) :
    wrongPin s = markLine 2 false { s with lock := s.lock.mistaken s.time.seconds s.settings.lockoutBase } := by
  unfold wrongPin Lock.mistaken
  by_cases h : s.lock.wrongAttempts < 2
  · rw [if_pos h, if_pos (Nat.succ_lt_succ h)]
  · rw [if_neg h, if_neg fun hs => h (Nat.lt_of_succ_lt_succ hs)]

/-- The lock after a correct PIN (R115). -/
def Lock.opened (l : Lock) (now minutes : Nat) : Lock :=
  { l with unlock := some { finish := now + 60 * minutes, minutes := minutes }, wrongAttempts := 0, lockouts := 0 }

theorem startUnlock_eq (minutes : Nat) (s : State) : startUnlock minutes s =
    markLine 2 false { s with lock := s.lock.opened s.time.seconds (grantedMinutes s minutes) } := rfl

/-- Test 1 of R114. -/
theorem unlockRequest_noPin (digits : Pin) (minutes : Nat) (s : State)
    (h : s.account.stay.state = .vacant ∨ s.lock.pin = none) : unlockRequest digits minutes s = (s, answerRefused .noPin) := by
  rcases h with h | h
  · simp [unlockRequest, h, answerRefused]
  · cases hs : s.account.stay.state <;> simp [unlockRequest, hs, h, answerRefused]

section

variable (digits pin : Pin) (minutes : Nat) (s : State)

/-- Tests 2 to 4 of R114, on a stay with a PIN. -/
theorem unlockRequest_pin (ho : s.account.stay.state = .occupied) (hp : s.lock.pin = some pin) : unlockRequest digits minutes s =
    if s.lock.lockout.isSome then (s, answerRefused .lockedOut)
    else if digits = pin then (startUnlock minutes s, answerDone)
    else (wrongPin s, answerRefused .wrongPin) := by
  simp [unlockRequest, ho, hp, answerRefused, answerDone]

theorem unlockRequest_lockedOut (ho : s.account.stay.state = .occupied) (hp : s.lock.pin = some pin) (hl : s.lock.lockout ≠ none) :
    unlockRequest digits minutes s = (s, answerRefused .lockedOut) := by
  rw [unlockRequest_pin digits pin minutes s ho hp, if_pos (Option.isSome_iff_ne_none.2 hl)]

theorem unlockRequest_right (ho : s.account.stay.state = .occupied) (hp : s.lock.pin = some pin) (hl : s.lock.lockout = none)
    (hd : digits = pin) : unlockRequest digits minutes s = (startUnlock minutes s, answerDone) := by
  rw [unlockRequest_pin digits pin minutes s ho hp, hl, if_neg (by simp), if_pos hd]

theorem unlockRequest_wrong (ho : s.account.stay.state = .occupied) (hp : s.lock.pin = some pin) (hl : s.lock.lockout = none)
    (hd : digits ≠ pin) : unlockRequest digits minutes s = (wrongPin s, answerRefused .wrongPin) := by
  rw [unlockRequest_pin digits pin minutes s ho hp, hl, if_neg (by simp), if_neg hd]

/-- What an UNLOCK can come to: a refusal that changes nothing, or a changed lock with line 2 marked (R114 to R116). -/
theorem unlockRequest_cases :
    (∃ r, (r = .noPin ∨ r = .lockedOut) ∧ unlockRequest digits minutes s = (s, answerRefused r)) ∨
    ∃ l a, (a = answerDone ∧ l = s.lock.opened s.time.seconds (grantedMinutes s minutes) ∨
        a = answerRefused .wrongPin ∧ l = s.lock.mistaken s.time.seconds s.settings.lockoutBase) ∧
      unlockRequest digits minutes s = (markLine 2 false { s with lock := l }, a) := by
  cases ho : s.account.stay.state with
  | vacant => exact .inl ⟨.noPin, .inl rfl, unlockRequest_noPin digits minutes s (.inl ho)⟩
  | occupied =>
    cases hp : s.lock.pin with
    | none => exact .inl ⟨.noPin, .inl rfl, unlockRequest_noPin digits minutes s (.inr hp)⟩
    | some pin =>
      by_cases hl : s.lock.lockout = none
      · by_cases hd : digits = pin
        · have hr := unlockRequest_right digits pin minutes s ho hp hl hd
          rw [startUnlock_eq] at hr
          exact .inr ⟨_, _, .inl ⟨rfl, rfl⟩, hr⟩
        · have hw := unlockRequest_wrong digits pin minutes s ho hp hl hd
          rw [wrongPin_eq] at hw
          exact .inr ⟨_, _, .inr ⟨rfl, rfl⟩, hw⟩
      · exact .inl ⟨.lockedOut, .inr rfl, unlockRequest_lockedOut digits pin minutes s ho hp hl⟩

end

/-- Neither a period nor a count is a ceiling. -/
theorem Lock.mistaken_lawful {l : Lock} (now base : Nat) (h : l.Lawful) : (l.mistaken now base).Lawful := by
  unfold Lock.mistaken
  split
  · exact h
  · exact h

theorem unlockRequest_lockLaw (digits : Pin) (minutes : Nat) (s : State) (h : LockLaw s) :
    LockLaw (unlockRequest digits minutes s).1 := by
  rcases unlockRequest_cases digits minutes s with ⟨r, -, he⟩ | ⟨l, a, ⟨-, rfl⟩ | ⟨-, rfl⟩, he⟩
  · rwa [he]
  · rw [he]
    exact h
  · rw [he]
    exact Lock.mistaken_lawful _ _ h

theorem answerRequest_lockLaw (k : Nat) (q : Request) (s : State) : LockLaw s → LockLaw (answerRequest k q s).1 :=
  answerRequest_keeps (P := LockLaw) (fun _ _ _ => lockLaw_of_frame (by simp)) (fun _ _ _ => lockLaw_of_frame rfl)
    unlockRequest_lockLaw relockRequest_lockLaw (fun _ => lockLaw_of_frame rfl) k q s

/-! #### The minute timer, and the load -/

theorem lockMinute_lockLaw (s : State) (h : LockLaw s) : LockLaw (lockMinute s) := by
  rw [lockLaw_iff, lockMinute_eq]
  exact h

/-- The ceilings of page 9 are clamped as those of a check-in (R119). -/
theorem storedLock_lawful (h : List Byte) : (storedLock h).Lawful :=
  ⟨Nat.min_le_right _ _, Nat.min_le_right _ _, Nat.min_le_right _ _⟩

theorem loadStay_lockLaw (i : Image) (s : State) (h : LockLaw s) : LockLaw (loadStay i s) := by
  by_cases hv : stayValid s.store.eeprom = true
  · rw [loadStay_valid i s hv]
    exact storedLock_lawful _
  · rw [loadStay_invalid i s hv]
    exact h

/-- The ceilings change at CHECKIN, CHECKOUT, CEILING and RELOCK, at the restoration of the stay and at power-on. -/
theorem kept_lockLaw : Kept LockLaw where
  queue _ _ := lockLaw_of_frame rfl
  power _ _ _ _ := ⟨Nat.zero_le _, Nat.le_refl _, Nat.le_refl _⟩
  resetUnits _ := lockLaw_of_frame rfl
  resetPath _ := lockLaw_of_frame (by simp)
  image _ _ := lockLaw_of_frame (by simp)
  journal _ _ := lockLaw_of_frame rfl
  stay i s _ := loadStay_lockLaw i s
  handOff x s _ := decodeHandOff_keeps (P := LockLaw) (fun _ => lockLaw_of_frame rfl) (fun _ => lockLaw_of_frame (by simp))
    (fun _ => lockLaw_of_frame (by simp)) (fun _ _ => lockLaw_of_frame (by simp)) dispatch_lockLaw
    (fun _ => lockLaw_of_frame (by simp)) x s
  accept := acceptTransaction_keeps (fun _ _ => lockLaw_of_frame rfl) (fun _ _ _ => lockLaw_of_frame (by simp))
    (fun _ => lockLaw_of_frame (by simp)) answerRequest_lockLaw
  grant _ := lockLaw_of_frame (by simp)
  issue _ _ := lockLaw_of_frame (by simp)
  spend _ := lockLaw_of_frame rfl
  waiting _ _ := lockLaw_of_frame rfl
  passing _ _ _ := lockLaw_of_frame (by simp)
  inserted _ _ _ := lockLaw_of_frame (by simp)
  tokens _ _ := lockLaw_of_frame rfl
  second _ := lockLaw_of_frame (by simp)
  due _ _ _ _ := lockLaw_of_frame rfl
  meter _ := lockLaw_of_frame (by simp)
  account _ := lockLaw_of_frame (by simp)
  keys _ := lockLaw_of_frame rfl
  showings _ := lockLaw_of_frame (by simp)
  lock := lockMinute_lockLaw
  page _ _ _ := lockLaw_of_frame (by simp)
  fault _ _ _ := lockLaw_of_frame (by simp)

/-- Under the law the guest ceiling is the lower of the two (R108). -/
theorem effectiveCeiling_of_lawful {l : Lock} (h : l.Lawful) :
    effectiveCeiling l = if l.unlock.isSome then l.roomCeiling else l.guestCeiling := by
  obtain ⟨-, -, hguest⟩ := h
  rw [effectiveCeiling, Nat.min_eq_right hguest]

theorem effectiveCeiling_le_room (l : Lock) : effectiveCeiling l ≤ l.roomCeiling := by
  unfold effectiveCeiling
  split
  · exact Nat.le_refl _
  · exact Nat.min_le_left _ _

/-- Settles O55: each move keeps the ceilings' order, and so does every step. -/
theorem lockLawKept : Obligations.LockLawKept :=
  ⟨step_keeps kept_lockLaw, fun _ => rfl, fun s h => ⟨effectiveCeiling_le_room s.lock, effectiveCeiling_of_lawful h⟩⟩

end Sys2Proof.Machine


/-! ### RELOCK and UNLOCK (R113 to R116) -/

namespace Sys2Proof.Machine

/-- A taken request whose answer leaves the path alone: its effects, and the write that carries its answer. -/
theorem exec_taken_answer (i : Instr) (w : BusWrite) (k j : Nat) (s : State) (q : Request) (h : i.transaction = some (.write w))
    (hw : w.wellFormed = true) (hu : UpstreamFree s) (hk : windowFor s w.address.toNat = .request k j)
    (hs : slotPending s k = false) (ht : isTaken w = true) (hq : requestOf (recordOf w) = q)
    (hp : (answerRequest k q s).1.path = s.path) : ∃ t, exec i s = .next t ∧ t = { (answerRequest k q s).1 with
      path := { s.path with
        passing := some (.write (rewriteResult (answerRequest k q s).2 w) (some k)), port := portAfter s t } } := by
  refine ⟨_, exec_taken i w k j s h hw hu hk hs ht q hq, ?_⟩
  rw [← hp]
  rfl -- the port's own place plays no part in `portAfter`

/-- Settles O15: the RELOCK's lock, generation and mark, and the job that then begins. -/
theorem relockLowersTheCeiling : Obligations.RelockLowersTheCeiling := by
  rintro w k j s hw hu ⟨-, hreport, -⟩ hk hs ht hkind
  have hq : requestOf (recordOf w) = .relock (byteAt (recordOf w) 8).toNat := by
    obtain ⟨-, -, hrelock, -⟩ := requestOf_kinds (recordOf w)
    rw [← field_one]
    exact hrelock (by rw [field_one, hkind]; rfl)
  generalize (byteAt (recordOf w) 8).toNat = level at hq ⊢
  obtain ⟨t, hexec, hstate⟩ := exec_taken_answer (.relock w) w k j s _ rfl hw hu hk hs ht hq (by simp [answerRequest])
  have hlock : (relock level s).lock = s.lock.relocked level := by rw [relock_eq]
  refine ⟨rewriteResult answerDone w, t, relock level s, rewriteResult_carries w _ (isTaken_length w ht), hexec, relock_eq level s,
    ?_, ?_⟩
  · rw [hlock]
    exact (marks_relock level s).marks hreport
  · rw [← relockRequest_eq]
    exact hstate

/-- The lock and the dirty set are all that an UNLOCK can change. -/
theorem unlockRequest_eq (digits : Pin) (minutes : Nat) (s : State) : (unlockRequest digits minutes s).1 = { s with
    lock := (unlockRequest digits minutes s).1.lock, report := (unlockRequest digits minutes s).1.report } := by
  rcases unlockRequest_cases digits minutes s with ⟨r, -, he⟩ | ⟨l, a, -, he⟩
  · rw [he]
  · rw [he]
    rfl

/-- A refusal that changes nothing marks nothing (R114). -/
theorem unlockRequest_unmarked (digits : Pin) (minutes : Nat) (s : State)
    (h : (unlockRequest digits minutes s).2.reason = some .noPin ∨ (unlockRequest digits minutes s).2.reason = some .lockedOut) :
    (unlockRequest digits minutes s).1.report = s.report := by
  rcases unlockRequest_cases digits minutes s with ⟨r, -, he⟩ | ⟨l, a, ⟨rfl, -⟩ | ⟨rfl, -⟩, he⟩
  · rw [he]
  · simp [he, answerDone] at h
  · simp [he, answerRefused] at h

/-- A period and a wrong PIN mark line 2 without attention, and no other line (R109). -/
theorem unlockRequest_marked (digits : Pin) (minutes : Nat) (s : State) (hw : Sparse.wf none s.report = true)
    (h : (unlockRequest digits minutes s).2.result = .done ∨ (unlockRequest digits minutes s).2.reason = some .wrongPin) (n : Nat) :
    lineMark (unlockRequest digits minutes s).1 n = if n = 2 then some ((lineMark s 2).getD false) else lineMark s n := by
  rcases unlockRequest_cases digits minutes s with ⟨r, rfl | rfl, he⟩ | ⟨l, a, -, he⟩
  · simp [he, answerRefused] at h
  · simp [he, answerRefused] at h
  · rw [he]
    exact lineMark_markLine 2 n false { s with lock := l } hw

/-- Settles O16: the marks by what the UNLOCK can come to, the answer and the lock by the tests of R114. -/
theorem unlockOutcomes : Obligations.UnlockOutcomes := by
  intro w k j s digits minutes hw hu hk hs ht hq
  obtain ⟨t, hexec, hstate⟩ := exec_taken_answer (.unlock w) w k j s _ rfl hw hu hk hs ht hq (by simp [answerRequest])
  have hlock : t.lock = (unlockRequest digits minutes s).1.lock := by rw [hstate]; rfl
  have hreport : t.report = (unlockRequest digits minutes s).1.report := by rw [hstate]; rfl
  refine ⟨_, t, (unlockRequest digits minutes s).2, rewriteResult_carries w _ (isTaken_length w ht), hexec, ?_, fun hr => ?_,
    fun hr ⟨_, hform, _⟩ n => ?_, fun hv => ?_, fun pin ho hp => ⟨fun hl => ?_, fun hl hd => ?_, fun hl hd => ?_⟩⟩
  · rw [hlock, hreport]
    refine hstate.trans ?_
    simp only [answerRequest]
    rw [unlockRequest_eq]
  · rw [hreport, unlockRequest_unmarked digits minutes s hr]
  · rw [← unlockRequest_marked digits minutes s hform hr n, lineMark, lineMark, hreport]
  · rw [hlock, unlockRequest_noPin digits minutes s hv]
    exact ⟨rfl, rfl⟩
  · rw [hlock, unlockRequest_lockedOut digits pin minutes s ho hp hl]
    exact ⟨rfl, rfl⟩
  · rw [hlock, unlockRequest_right digits pin minutes s ho hp hl hd]
    exact ⟨rfl, rfl⟩
  · rw [hlock, unlockRequest_wrong digits pin minutes s ho hp hl hd, wrongPin_eq, ← lockoutFactor_eq]
    exact ⟨rfl, fun h => if_pos h, fun h => if_neg (Nat.not_lt.2 h)⟩

end Sys2Proof.Machine

/-! ### The laws for credit and for the night ceiling (R121, R122) -/

namespace Sys2Proof.Machine

/-- The laws for credit and for the night ceiling, said of the stay's fields alone. -/
structure Stay.Lawful (y : Stay) : Prop where
  sum : y.remaining + y.spent = y.granted
  vacant : y.state = .vacant → y.remaining = 0 ∧ y.spent = 0 ∧ y.granted = 0
  night : 0 < y.nightCeiling → y.nightSpent ≤ y.nightCeiling

/-- Both laws of a state. -/
def StayLaws (s : State) : Prop := s.account.stay.Lawful

theorem stayLaws_iff (s : State) : StayLaws s ↔ CreditLaw s ∧ NightLaw s :=
  ⟨fun ⟨hsum, hvacant, hnight⟩ => ⟨⟨hsum, hvacant⟩, hnight⟩, fun ⟨⟨hsum, hvacant⟩, hnight⟩ => ⟨hsum, hvacant, hnight⟩⟩

theorem stayLaws_of_frame {s t : State} (h : t.account.stay = s.account.stay) (hs : StayLaws s) : StayLaws t := by
  unfold StayLaws
  rw [h]
  exact hs

/-- A charge that the credit covers and the night ceiling admits (R137). -/
theorem Stay.Lawful.charged {y : Stay} (h : y.Lawful) (total : Nat) (ho : y.state = .occupied) (hc : total ≤ y.remaining)
    (hn : 0 < y.nightCeiling → y.nightSpent + total ≤ y.nightCeiling) : (y.charged total).Lawful where
  sum := by
    show y.remaining - total + (y.spent + total) = y.granted
    have := h.sum
    omega
  vacant hv := by
    have hv : y.state = .vacant := hv
    simp [ho] at hv
  night hx := (Nat.min_le_left _ _).trans (hn hx)

/-- A CREDIT grants what remains and what is spent, and never sets a night ceiling below night spent (R126). -/
theorem Stay.Lawful.credited {y : Stay} (h : y.Lawful) (delta : Int) (ceiling : Option Nat) (ho : y.state = .occupied) :
    (y.credited delta ceiling).Lawful where
  sum := rfl
  vacant hv := by
    have hv : y.state = .vacant := hv
    simp [ho] at hv
  night hx := by
    cases ceiling with
    | none => exact h.night hx
    | some v =>
      have hx : 0 < ceilingAfter y.nightSpent v := hx
      show y.nightSpent ≤ ceilingAfter y.nightSpent v
      rw [ceilingAfter_eq] at hx ⊢
      split at hx
      · exact absurd hx (Nat.lt_irrefl 0)
      · rw [if_neg ‹_›]
        exact Nat.le_max_right _ _

/-- A new night starts with nothing spent (R127). -/
theorem Stay.Lawful.newNight {y : Stay} (h : y.Lawful) (night : Option Half) :
    { y with nightIndex := night, nightSpent := 0 }.Lawful := ⟨h.sum, h.vacant, fun _ => Nat.zero_le _⟩

theorem Stay.vacantWith_lawful (night : Option Half) : (Stay.vacantWith night).Lawful :=
  ⟨rfl, fun _ => ⟨rfl, rfl, rfl⟩, fun _ => Nat.zero_le _⟩

theorem CheckinBody.stay_lawful (b : CheckinBody) (night : Option Half) : (b.stay night).Lawful :=
  ⟨rfl, nofun, fun _ => Nat.zero_le _⟩

/-! #### The moves -/

theorem charges_stayLaws : Charges StayLaws where
  commit id k s h := by
    unfold StayLaws
    rcases commit_stay id k s with hy | ⟨total, hy, ho, hc, hn⟩
    · rw [hy]
      exact h
    · rw [hy]
      exact h.charged total ho hc hn
  hold _ _ _ h := h
  meter _ _ _ _ h := h

theorem checkinMessage_stayLaws (b : CheckinBody) (night : Option Half) (s : State) (h : StayLaws s) :
    StayLaws (checkinMessage b night s) := by
  unfold checkinMessage
  split
  · unfold StayLaws
    rw [checkIn_eq]
    exact b.stay_lawful night
  · split
    · exact stayLaws_of_frame (by simp) h
    · unfold StayLaws
      rw [checkIn_eq]
      exact b.stay_lawful night

theorem checkoutMessage_stayLaws (number : Half) (s : State) (h : StayLaws s) : StayLaws (checkoutMessage number s) := by
  unfold checkoutMessage
  split
  · unfold StayLaws
    rw [checkOut_eq]
    exact Stay.vacantWith_lawful _
  · exact stayLaws_of_frame (by simp) h

theorem creditMessage_stayLaws (delta : Int) (ceiling : Option Nat) (s : State) (h : StayLaws s) :
    StayLaws (creditMessage delta ceiling s) := by
  cases ho : s.account.stay.state with
  | vacant =>
    rw [creditMessage_vacant delta ceiling s ho]
    exact stayLaws_of_frame (by simp) h
  | occupied =>
    unfold StayLaws
    rw [(creditMessage_occupied delta ceiling s ho).1]
    exact h.credited delta ceiling ho

theorem noticeIfChanged_stayLaws (before : Option Half) (s : State) (h : StayLaws s) : StayLaws (noticeIfChanged before s) := by
  cases hn : nightIndex s with
  | none =>
    unfold noticeIfChanged
    rw [hn]
    exact h
  | some night =>
    rw [noticeIfChanged_startNight before s night hn]
    split
    · exact h
    · refine stayLaws_of_frame (s := startNight night s) (by simp) ?_
      unfold StayLaws
      rw [startNight_eq]
      exact h.newNight _

theorem dispatch_stayLaws (a : AddressType) (m : Message) (s : State) (h : StayLaws s) : StayLaws (dispatch a m s) := by
  cases m with
  | listing l => exact charges_stayLaws.listing (fun _ _ h _ => h) (fun _ _ _ h _ => h) l s h
  | tariffDefine cls c => exact charges_stayLaws.tariff (fun _ _ _ h => h) cls c s h
  | time c =>
    rw [dispatch, timeMessage_eq]
    exact noticeIfChanged_stayLaws _ _ (stayLaws_of_frame (by rw [setClock_eq]) h)
  | checkin b => exact checkinMessage_stayLaws b _ s h
  | checkout number => exact checkoutMessage_stayLaws number s h
  | credit delta ceiling => exact creditMessage_stayLaws delta ceiling s h
  | _ => exact stayLaws_of_frame (by simp [dispatch]) h

theorem answerRequest_stayLaws (k : Nat) (q : Request) (s : State) : StayLaws s → StayLaws (answerRequest k q s).1 :=
  answerRequest_keeps (P := StayLaws) charges_stayLaws.commit (fun _ _ _ => stayLaws_of_frame rfl)
    (fun _ _ _ => stayLaws_of_frame (by simp)) (fun _ _ => stayLaws_of_frame (by simp)) (fun _ => stayLaws_of_frame rfl) k q s

/-! #### The load -/

/-- The tests of page 9 are the laws: OCCUPIED with its sum and its night, VACANT with every field 0 (R187). -/
theorem storedStay_lawful (h : List Byte) (l : List StoredPurchase) (hok : stateOk h l = true) : (storedStay h).Lawful := by
  unfold stateOk at hok
  split at hok
  · rename_i h0
    simp only [vacantOk, Bool.and_eq_true, beq_iff_eq] at hok
    obtain ⟨⟨⟨⟨⟨⟨-, hgranted⟩, hremaining⟩, hspent⟩, hceiling⟩, -⟩, -⟩ := hok
    exact ⟨by simp [storedStay, hgranted, hremaining, hspent], fun _ => ⟨hremaining, hspent, hgranted⟩,
      fun hx => absurd hx (by simp [storedStay, hceiling])⟩
  · rename_i h1
    simp only [occupiedOk, Bool.and_eq_true, Bool.or_eq_true, beq_iff_eq, decide_eq_true_eq] at hok
    obtain ⟨⟨⟨⟨⟨-, hsum⟩, -⟩, -⟩, -⟩, hnight⟩ := hok
    have hbyte : byteAt h 0 = 1 := BitVec.eq_of_toNat_eq h1
    exact ⟨hsum.symm, fun hv => by simp [storedStay, hbyte] at hv, fun hx => hnight.resolve_left (Nat.ne_of_gt hx)⟩
  · cases hok

theorem loadStay_stayLaws (i : Image) (s : State) (h : StayLaws s) : StayLaws (loadStay i s) := by
  by_cases hv : stayValid s.store.eeprom = true
  · rw [loadStay_valid i s hv]
    simp only [stayValid, Bool.and_eq_true] at hv
    exact storedStay_lawful _ _ hv.1.2
  · rw [loadStay_invalid i s hv]
    exact h

/-- The stay changes at a commit, at CHECKIN, CHECKOUT and CREDIT, when the night turns, at its restoration and at power-on. -/
theorem kept_stayLaws : Kept StayLaws where
  queue _ _ := stayLaws_of_frame rfl
  power _ _ _ _ := Stay.vacantWith_lawful none
  resetUnits _ := stayLaws_of_frame rfl
  resetPath _ := stayLaws_of_frame (by simp)
  image _ _ := stayLaws_of_frame (by simp)
  journal _ _ := stayLaws_of_frame rfl
  stay i s _ := loadStay_stayLaws i s
  handOff x s _ := decodeHandOff_keeps (P := StayLaws) (fun _ => stayLaws_of_frame rfl) (fun _ => stayLaws_of_frame (by simp))
    (fun _ => stayLaws_of_frame (by simp)) (fun _ _ => stayLaws_of_frame (by simp)) dispatch_stayLaws
    (fun _ => stayLaws_of_frame (by simp)) x s
  accept := acceptTransaction_keeps (fun _ _ => stayLaws_of_frame rfl) (fun _ _ _ => stayLaws_of_frame (by simp))
    (fun _ => stayLaws_of_frame (by simp)) answerRequest_stayLaws
  grant := charges_stayLaws.grantPassing (fun _ _ _ _ => stayLaws_of_frame (by simp)) (fun _ _ h => h) (fun _ _ h => h)
    (fun _ _ _ h => h)
  issue _ _ := stayLaws_of_frame (by simp)
  spend _ := stayLaws_of_frame rfl
  waiting _ _ := stayLaws_of_frame rfl
  passing _ _ _ := stayLaws_of_frame (by simp)
  inserted _ _ _ := stayLaws_of_frame (by simp)
  tokens _ _ := stayLaws_of_frame rfl
  second s h := noticeIfChanged_stayLaws _ _ h
  due _ _ _ _ := stayLaws_of_frame rfl
  meter := charges_stayLaws.meterSecond
  account _ := stayLaws_of_frame (by simp)
  keys _ := stayLaws_of_frame rfl
  showings _ := stayLaws_of_frame (by simp)
  lock _ := stayLaws_of_frame (by simp)
  page _ _ _ := stayLaws_of_frame (by simp)
  fault _ _ _ := stayLaws_of_frame (by simp)

/-- Settles O56: each move keeps both laws, and so does every step. -/
theorem stayLawsKept : Obligations.StayLawsKept := fun s t hcredit hnight hstep =>
  (stayLaws_iff t).1 (step_keeps kept_stayLaws s t ((stayLaws_iff s).2 ⟨hcredit, hnight⟩) hstep)

end Sys2Proof.Machine

/-! ### The charge and the band in force (R132, R133) -/

namespace Sys2Proof.Machine

/-! #### The stages of a charge (R133) -/

theorem stepUnits_table (code : Nat) (h : code ≤ 7) : [1, 2, 5, 10, 20, 25, 50, 100][code]? = some (stepUnits code) := by
  interval_cases code <;> rfl

theorem stepUnits_bounds (code : Nat) : 1 ≤ stepUnits code ∧ stepUnits code ≤ 100 := by
  unfold stepUnits
  split <;> simp

/-- Stage 1 at the ends of its ranges. -/
theorem banded_le (base percent : Nat) (hb : base ≤ 65535) (hp : percent ≤ 250) : (base * percent + 50) / 100 ≤ 163838 := by
  have := Nat.mul_le_mul hb hp
  omega

/-- Rounding adds half a step at most. -/
theorem roundedPrice_le (base percent step : Nat) :
    roundedPrice base percent step ≤ (base * percent + 50) / 100 + step / 2 := Nat.div_mul_le_self _ _

/-- A banded price below half a step rounds to 0. -/
theorem roundedPrice_eq_zero (base percent step : Nat) (h : (base * percent + 50) / 100 + step / 2 < step) :
    roundedPrice base percent step = 0 := by
  simp [roundedPrice, Nat.div_eq_of_lt h]

theorem chargeTotal_eq_zero (base percent step tax : Nat) (h : (base * percent + 50) / 100 + step / 2 < step) :
    chargeTotal base percent step tax = 0 := by
  simp [chargeTotal, roundedPrice_eq_zero base percent step h]

/-- Settles O52: the table of steps, the two bounds, and the prices that round to 0. -/
theorem chargeStages : Obligations.ChargeStages := by
  intro base percent code t hbase hpercent hcode ht
  obtain ⟨hstep, hstep'⟩ := stepUnits_bounds code
  have hbanded := banded_le base percent hbase hpercent
  have hrounded := roundedPrice_le base percent (stepUnits code)
  refine ⟨stepUnits code, _, _, _, stepUnits_table code hcode, rfl, rfl, rfl, rfl, rfl, hbanded, ?_, fun hzero => ?_⟩
  · have htax := Nat.mul_le_mul (show roundedPrice base percent (stepUnits code) ≤ 163888 by omega) ht
    simp only [chargeTotal]
    omega
  · refine chargeTotal_eq_zero _ _ _ _ ?_
    rcases hzero with rfl | rfl | hsmall <;> omega

/-! #### The band in force (R132) -/

/-- The latest band of those that a test admits: none starts later, and of equal starts it is the highest numbered. -/
theorem latestBand_filter (p : Band → Bool) (l : List Band) :
    (latestBand (l.filter p) = none ∧ ∀ x ∈ l, p x = false) ∨
    ∃ (k : Nat) (b : Band), latestBand (l.filter p) = some b ∧ l[k]? = some b ∧ p b = true ∧
      ∀ (j : Nat) (x : Band), l[j]? = some x → p x = true → x.start < b.start ∨ (x.start = b.start ∧ j ≤ k) := by
  induction l with
  | nil => exact .inl ⟨rfl, nofun⟩
  | cons y rest ih =>
    cases hy : p y with
    | false =>
      rw [List.filter_cons_of_neg (by simp [hy])]
      rcases ih with ⟨hnone, hall⟩ | ⟨k, b, hb, hk, hpb, hlate⟩
      · exact .inl ⟨hnone, List.forall_mem_cons.2 ⟨hy, hall⟩⟩
      · refine .inr ⟨k + 1, b, hb, hk, hpb, fun j x hj hx => ?_⟩
        cases j with
        | zero =>
          obtain rfl : y = x := Option.some.inj hj
          exact absurd hx (by simp [hy])
        | succ j => exact (hlate j x hj hx).imp_right (And.imp_right Nat.succ_le_succ)
    | true =>
      rw [List.filter_cons_of_pos hy, latestBand]
      rcases ih with ⟨hnone, hall⟩ | ⟨k, b, hb, hk, hpb, hlate⟩
      · rw [hnone]
        refine .inr ⟨0, y, rfl, rfl, hy, fun j x hj hx => ?_⟩
        cases j with
        | zero =>
          obtain rfl : y = x := Option.some.inj hj
          exact .inr ⟨rfl, Nat.le_refl 0⟩
        | succ j => exact absurd hx (by simp [hall x (List.mem_of_getElem? hj)])
      · simp only [hb]
        by_cases hle : y.start ≤ b.start
        · rw [if_pos hle]
          refine .inr ⟨k + 1, b, rfl, hk, hpb, fun j x hj hx => ?_⟩
          cases j with
          | zero =>
            obtain rfl : y = x := Option.some.inj hj
            exact (Nat.lt_or_eq_of_le hle).imp_right fun he => ⟨he, Nat.zero_le _⟩
          | succ j => exact (hlate j x hj hx).imp_right (And.imp_right Nat.succ_le_succ)
        · rw [if_neg hle]
          refine .inr ⟨0, y, rfl, rfl, hy, fun j x hj hx => ?_⟩
          cases j with
          | zero =>
            obtain rfl : y = x := Option.some.inj hj
            exact .inr ⟨rfl, Nat.le_refl 0⟩
          | succ j =>
            have := hlate j x hj hx
            exact .inl (by omega)

/-- The latest of all four bands. -/
theorem latestBand_bands (p : Pricing) : ∃ (k : Nat) (b : Band), latestBand p.bands = some b ∧ p.bands[k]? = some b ∧
    ∀ (j : Nat) (x : Band), p.bands[j]? = some x → x.start < b.start ∨ (x.start = b.start ∧ j ≤ k) := by
  have h := latestBand_filter (fun _ => true) p.bands
  rw [List.filter_true] at h
  rcases h with ⟨-, hall⟩ | ⟨k, b, hb, hk, -, hlate⟩
  · exact absurd (hall p.band0 (by simp [Pricing.bands])) (by simp)
  · exact ⟨k, b, hb, hk, fun j x hj => hlate j x hj rfl⟩

theorem bandPercent_inForce (s : State) (t : Tariff) (c : WallClock) (p : Pricing) (hu : t.usesBand = true)
    (hc : s.time.clock = some c) (hp : s.account.pricing = some p) : bandPercent s t = (p.bandAt c.minute).percent := by
  simp [bandPercent, hu, hc, hp]

theorem bandPercent_none (s : State) (t : Tariff) (h : t.usesBand = false ∨ s.time.clock = none ∨ s.account.pricing = none) :
    bandPercent s t = 100 := by
  unfold bandPercent
  split
  · rename_i hc hp
    simp only [hc, hp, reduceCtorEq, or_false] at h
    simp [h]
  · rfl

/-- Settles O53: the latest of the bands at or before the minute, and of all four where there is none. -/
theorem bandInForce : Obligations.BandInForce := by
  refine ⟨fun p m => ?_, fun s t => ⟨bandPercent_inForce s t, bandPercent_none s t⟩⟩
  rcases latestBand_filter (fun b => decide (b.start ≤ m)) p.bands with ⟨hnone, hall⟩ | ⟨k, b, hb, hk, hpb, hlate⟩
  · obtain ⟨k, b, hb, hk, hlate⟩ := latestBand_bands p
    refine ⟨k, b, hk, by simp [Pricing.bandAt, hnone, hb], fun ⟨x, hx, hle⟩ => ?_, fun _ => hlate⟩
    exact absurd hle (by simpa using hall x hx)
  · have hbm : b.start ≤ m := by simpa using hpb
    refine ⟨k, b, hk, by simp [Pricing.bandAt, hb], fun _ => ⟨hbm, fun j x hj hx => hlate j x hj (by simpa using hx)⟩, fun hnone => ?_⟩
    exact absurd (hnone b (List.mem_of_getElem? hk)) (Nat.not_lt.2 hbm)

end Sys2Proof.Machine

/-! ### TARIFF, PRICING and FREEVIEW (R129 to R131, R151) -/

namespace Sys2Proof.Machine

/-! #### The begin of a job (log 25) -/

theorem launchJob_eq (j : Job) (s : State) : launchJob j s = { s with store := (launchJob j s).store } := by
  cases j <;> rfl

theorem setStoreState_eq (x : StoreState) (s : State) : setStoreState x s = { s with
    report := (setStoreState x s).report, store := { s.store with state := x } } := by
  unfold setStoreState
  split
  · rename_i h
    rw [← h]
  · rfl

theorem beginJob_empty (s : State) (h : s.store.queue = []) : beginJob s = s := by simp [beginJob, h]

/-- The oldest waiting job begins, and the request first held over takes its place (R181, R182). -/
theorem beginJob_first (s : State) (j : Job) (rest : List Job) (h : s.store.queue = j :: rest) :
    beginJob s = setStoreState .busy (launchJob j { s with store := { s.store with
      queue := rest ++ (s.store.heldOver.take 1).map HeldJob.job, heldOver := s.store.heldOver.drop 1 } }) := by
  simp [beginJob, h]

/-- A job's begin moves the dirty set and the store alone. -/
theorem startJob_eq (s : State) : startJob s = { s with report := (startJob s).report, store := (startJob s).store } := by
  have hbegin : ∃ r x, startJob s = { s with report := r, store := x } := by
    unfold startJob
    split
    · cases hq : s.store.queue with
      | nil => exact ⟨s.report, s.store, beginJob_empty s hq⟩
      | cons j rest =>
        rw [beginJob_first s j rest hq, setStoreState_eq, launchJob_eq]
        exact ⟨_, _, rfl⟩
    · exact ⟨s.report, s.store, rfl⟩
  obtain ⟨r, x, h⟩ := hbegin
  rw [h]

theorem startJob_empty (s : State) (h : s.store.queue = []) : startJob s = s := by
  unfold startJob
  rw [beginJob_empty s h, ite_self]

/-! #### The table of classes (R129) -/

theorem tariffOf_setTariff_same (cls : Nat) (t : Option Tariff) (s : State) (h : TariffsForm s) :
    tariffOf (setTariff cls t s) cls = t := Sparse.read_write_same _ _ _ _ h

theorem tariffOf_setTariff_other (cls x : Nat) (t : Option Tariff) (s : State) (h : TariffsForm s) (hx : x ≠ cls) :
    tariffOf (setTariff cls t s) x = tariffOf s x := Sparse.read_write_other _ _ _ _ _ h hx

/-- A define that keeps the allowance changes its class alone (R129, R130). -/
theorem tariffDefineMessage_same (cls : Nat) (c : Tariff) (s : State)
    (h : (tariffOf s cls).map Tariff.allowance = some c.allowance) : tariffDefineMessage cls c s = setTariff cls (some c) s := if_pos h

/-- One that newly defines its class, or changes its allowance, is a class change for each listed event of the class, in the table's
order (R130). -/
theorem tariffDefineMessage_changed (cls : Nat) (c : Tariff) (s : State)
    (h : (tariffOf s cls).map Tariff.allowance ≠ some c.allowance) : tariffDefineMessage cls c s =
      ((s.showings.events.filter fun e => e.tariffClass == cls).map EventRecord.id).foldl (fun s id => classChange id s)
        (setTariff cls (some c) s) := if_neg h

/-- So does one that meets no listed event of its class. -/
theorem tariffDefineMessage_unlisted (cls : Nat) (c : Tariff) (s : State) (h : ∀ e ∈ s.showings.events, e.tariffClass ≠ cls) :
    tariffDefineMessage cls c s = setTariff cls (some c) s := by
  by_cases ha : (tariffOf s cls).map Tariff.allowance = some c.allowance
  · exact tariffDefineMessage_same cls c s ha
  · have hnone : s.showings.events.filter (fun e => e.tariffClass == cls) = [] := by simpa using h
    rw [tariffDefineMessage_changed cls c s ha, hnone]
    rfl

/-! #### Free-view (R151) -/

theorem setFreeView_eq (f : FreeView) (s : State) : setFreeView f s = { s with
    account := { s.account with freeView := f }, report := (setFreeView f s).report } := by
  unfold setFreeView
  split
  · rename_i h
    rw [← h]
  · rfl

theorem setFreeView_same (f : FreeView) (s : State) (h : s.account.freeView = f) : setFreeView f s = s := if_pos h

/-- A change of free-view marks line 0. -/
theorem marks_setFreeView_changed (f : FreeView) (s : State) (h : s.account.freeView ≠ f) :
    Marking (fun n => n = 0) noLine s (setFreeView f s) :=
  (marks_setFreeView f s).congr (fun _ => and_iff_left h) fun _ => Iff.rfl

/-- A FREEVIEW message: free-view, and line 0 where it changes. -/
theorem freeView_message (f : FreeView) (s : State) (hreport : Sparse.wf none s.report = true) :
    setFreeView f (clearHandOff s) = { s with
      decoder := { s.decoder with handOff := none }
      account := { s.account with freeView := f }
      report := (setFreeView f (clearHandOff s)).report } ∧
    (s.account.freeView = f → (setFreeView f (clearHandOff s)).report = s.report) ∧
    (s.account.freeView ≠ f → Marks s (setFreeView f (clearHandOff s)) (fun n => n = 0) fun _ => False) := by
  refine ⟨setFreeView_eq f _, fun h => ?_, fun h => ?_⟩
  · rw [setFreeView_same f (clearHandOff s) h]
    rfl
  · exact ((marks_setFreeView_changed f (clearHandOff s) h).after rfl).marks hreport

/-- Settles O32: each message by its owner's act, and then the begin of a job. -/
theorem priceMessages : Obligations.PriceMessages := by
  rintro s a n ha ⟨-, hreport, htariffs, -, -⟩
  refine ⟨fun cls c hf hkept => ?_, fun cls hf => ?_, fun p hf => ?_, fun x hf => ?_, fun hf => ?_, startJob_empty s, startJob_eq s,
    by simp⟩
  · refine ⟨setTariff cls (some c) (clearHandOff s), ?_, rfl, tariffOf_setTariff_same cls _ _ htariffs,
      fun x hx => tariffOf_setTariff_other cls x _ _ htariffs hx⟩
    have hset : tariffDefineMessage cls c (clearHandOff s) = setTariff cls (some c) (clearHandOff s) := by
      rcases hkept with hsame | hnone
      · exact tariffDefineMessage_same cls c _ hsame
      · exact tariffDefineMessage_unlisted cls c _ hnone
    rw [← hset]
    exact congrArg Host.Outcome.next (messageRow_dispatch .tariffDefine s a n _ ha hf rfl)
  · exact ⟨setTariff cls none (clearHandOff s), congrArg Host.Outcome.next (messageRow_dispatch .tariffDelete s a n _ ha hf rfl), rfl,
      tariffOf_setTariff_same cls _ _ htariffs, fun x hx => tariffOf_setTariff_other cls x _ _ htariffs hx⟩
  · exact congrArg Host.Outcome.next (messageRow_dispatch .pricing s a n _ ha hf rfl)
  · exact ⟨_, congrArg Host.Outcome.next (messageRow_dispatch .freeviewOn s a n _ ha hf rfl), freeView_message (.on x) s hreport⟩
  · exact ⟨_, congrArg Host.Outcome.next (messageRow_dispatch .freeviewOff s a n _ ha hf rfl), freeView_message .off s hreport⟩

end Sys2Proof.Machine

/-! ### A TARIFF define with a new allowance (R130, R145) -/

namespace Sys2Proof.Machine

/-! #### What the operations on previews keep -/

theorem ids_map {g : EventRecord → EventRecord} (hg : ∀ x, (g x).id = x.id) (l : List EventRecord) :
    (l.map g).map EventRecord.id = l.map EventRecord.id := by
  rw [List.map_map]
  exact List.map_congr_left fun x _ => hg x

/-- No operation on previews lists an event, strikes one or moves one. -/
theorem charges_eventIds (l : List Half) : Charges fun s => s.showings.events.map EventRecord.id = l where
  commit id k s h := by
    have hremoved : (removeExpired s).showings.events.map EventRecord.id = l := by
      rw [removeExpired_events, ids_map fun x => by split <;> rfl]
      exact h
    rcases commit_cases id k s with ⟨r, hc⟩ | ⟨r, hc⟩ | ⟨e, c, -, hc⟩
    · rw [hc]
      exact h
    · rw [hc]
      exact hremoved
    · rw [hc, commitEffects_events, ids_map fun x => by split <;> rfl]
      exact hremoved
  hold id cause s h := by
    rw [holdEvent_eq, ids_map fun x => by split <;> rfl]
    exact h
  meter id f s hf h := by
    rw [updateEvent_events, ids_map fun x => by split <;> simp [hf]]
    exact h

theorem charges_tariffs (l : List (Nat × Option Tariff)) : Charges fun s => s.account.tariffs = l where
  commit _ _ _ h := by simpa using h
  hold _ _ _ h := h
  meter _ _ _ _ h := h

/-- A define sets its class, whatever it does to the events of the class. -/
theorem tariffOf_tariffDefineMessage (cls : Nat) (c : Tariff) (s : State) (h : TariffsForm s) :
    tariffOf (tariffDefineMessage cls c s) cls = some c := by
  have htariffs : (tariffDefineMessage cls c s).account.tariffs = (setTariff cls (some c) s).account.tariffs := by
    by_cases ha : (tariffOf s cls).map Tariff.allowance = some c.allowance
    · rw [tariffDefineMessage_same cls c s ha]
    · rw [tariffDefineMessage_changed cls c s ha]
      exact foldl_keeps (P := fun x => x.account.tariffs = _) _ (fun x id => (charges_tariffs _).classChange id x) _ _ rfl
  unfold tariffOf
  rw [htariffs]
  exact tariffOf_setTariff_same cls _ s h

theorem tariffDefineMessage_ids (cls : Nat) (c : Tariff) (s : State) :
    (tariffDefineMessage cls c s).showings.events.map EventRecord.id = s.showings.events.map EventRecord.id :=
  (charges_eventIds _).tariff (fun _ _ _ h => h) cls c s rfl

/-! #### Under CONFIRM -/

/-- An event held to the allowance of its class under CONFIRM: one in PREVIEW that then stands at it is SPENT. -/
def EventRecord.heldTo (c : Tariff) (e : EventRecord) : EventRecord := { e with
  viewed := min e.viewed c.allowance
  preview := if e.preview = .preview ∧ c.allowance ≤ e.viewed then .spent else e.preview }

/-- A class change under CONFIRM changes its event alone. -/
theorem classChange_confirm (s : State) (id : Half) (e : EventRecord) (c : Tariff) (h : ShowingLaw s) (he : findEvent s id = some e)
    (hc : tariffOf s e.tariffClass = some c) (hm : c.mode = .confirm) :
    (classChange id s).showings.events = s.showings.events.map fun x => if x.id = id then x.heldTo c else x := by
  have honly : ∀ x ∈ s.showings.events, x.id = id → x = e := fun x hx hid =>
    Option.some.inj (((findEvent_some s id h x).2 ⟨hx, hid⟩).symm.trans he)
  obtain ⟨hkeeps, hends⟩ := classChange_spec s id e c he hc
  by_cases hp : e.preview = .preview ∧ c.allowance ≤ e.viewed
  · have hend := hends hp.1 hp.2
    rw [hm] at hend
    have hevents := congrArg (fun x : State => x.showings.events) (hend.1 rfl).1
    refine hevents.trans ?_
    simp only [updateEvent_events, List.map_map]
    refine List.map_congr_left fun x hx => ?_
    by_cases hid : x.id = id
    · obtain rfl := honly x hx hid
      simp [hid, EventRecord.heldTo, hp]
    · simp [hid]
  · rw [hkeeps hp, updateEvent_events]
    refine List.map_congr_left fun x hx => ?_
    by_cases hid : x.id = id
    · obtain rfl := honly x hx hid
      simp only [hid, EventRecord.heldTo, if_neg hp]
    · simp [hid]

/-- The class changes of a define under CONFIRM, one after another: each event of the class is held to the allowance. -/
theorem classChanges_confirm (cls : Nat) (c : Tariff) (hm : c.mode = .confirm) (ids : List Half) (hn : ids.Nodup) (s : State)
    (h : ShowingLaw s) (hc : tariffOf s cls = some c) (hids : ∀ id ∈ ids, ∃ e, findEvent s id = some e ∧ e.tariffClass = cls) :
    (ids.foldl (fun s id => classChange id s) s).showings.events =
      s.showings.events.map fun x => if x.id ∈ ids then x.heldTo c else x := by
  induction ids generalizing s with
  | nil => simp
  | cons id rest ih =>
    obtain ⟨hid, hrest⟩ := List.nodup_cons.1 hn
    obtain ⟨⟨e, he, hcls⟩, hothers⟩ := List.forall_mem_cons.1 hids
    have hfirst := classChange_confirm s id e c h he (by rw [hcls]; exact hc) hm
    have hsame : ∀ x : EventRecord, (if x.id = id then x.heldTo c else x).id = x.id ∧
        (if x.id = id then x.heldTo c else x).start = x.start := fun x => by split <;> exact ⟨rfl, rfl⟩
    have htariffs : (classChange id s).account.tariffs = s.account.tariffs := (charges_tariffs _).classChange id s rfl
    rw [List.foldl_cons, ih hrest (classChange id s) (showingLaw_of_map hfirst hsame h) (by rw [← hc, tariffOf, htariffs]; rfl) ?_,
      hfirst, List.map_map]
    · refine List.map_congr_left fun x _ => ?_
      by_cases hx : x.id = id
      · have hnot : (x.heldTo c).id ∉ rest := fun hr => hid (hx ▸ hr)
        simp [hx, hnot]
      · simp [hx]
    · intro i hi
      obtain ⟨e', he', hcls'⟩ := hothers i hi
      have hclass : ∀ x : EventRecord, (if x.id = id then x.heldTo c else x).tariffClass = x.tariffClass := fun x => by
        split <;> rfl
      exact ⟨_, (findEvent_of_map hfirst (fun x => (hsame x).1) i).trans (by rw [he']; rfl), (hclass e').trans hcls'⟩

/-- A define with a new allowance under CONFIRM holds the events of its class to it, and touches no other. -/
theorem tariffDefineMessage_confirm (cls : Nat) (c : Tariff) (s : State) (h : ShowingLaw s) (hform : TariffsForm s)
    (hm : c.mode = .confirm) (ha : (tariffOf s cls).map Tariff.allowance ≠ some c.allowance) :
    (tariffDefineMessage cls c s).showings.events =
      s.showings.events.map fun x => if x.tariffClass = cls then x.heldTo c else x := by
  have hset : ShowingLaw (setTariff cls (some c) s) := h
  have hmem : ∀ id, id ∈ (s.showings.events.filter fun e => e.tariffClass == cls).map EventRecord.id ↔
      ∃ e ∈ s.showings.events, e.tariffClass = cls ∧ e.id = id := fun id => by simp [and_assoc]
  rw [tariffDefineMessage_changed cls c s ha, classChanges_confirm cls c hm _ (h.2.1.sublist (List.filter_sublist.map _)) _ hset
    (tariffOf_setTariff_same cls _ s hform) fun id hid => ?_]
  · refine List.map_congr_left fun x hx => if_congr ((hmem x.id).trans ⟨fun ⟨e, he, hcls, hid⟩ => ?_, fun hcls => ⟨x, hx, hcls, rfl⟩⟩)
      rfl rfl
    rwa [List.inj_on_of_nodup_map h.2.1 hx he hid.symm]
  · obtain ⟨e, he, hcls, hid⟩ := (hmem id).1 hid
    exact ⟨e, (findEvent_some _ id hset e).2 ⟨he, hid⟩, hcls⟩

/-! #### Under AUTO, for a table of one event -/

/-- A refused commit leaves of a table of one event all but its preview state, which the removals of check 7 may change (R136). -/
theorem commit_refused_single (id : Half) (k : Option Nat) (s : State) (e : EventRecord) (r : Reason) (he : s.showings.events = [e])
    (hr : (commit id k s).2 = some r) : ∃ p, (commit id k s).1.showings.events = [{ e with preview := p }] := by
  rcases commit_cases id k s with ⟨x, hc⟩ | ⟨x, hc⟩ | ⟨x, c, -, hc⟩
  · exact ⟨e.preview, by rw [hc, he]⟩
  · rw [hc, removeExpired_events, he, List.map_singleton]
    split
    · exact ⟨.spent, rfl⟩
    · exact ⟨e.preview, rfl⟩
  · rw [hc] at hr
    cases hr

/-- The end of the preview of the one event listed, with its commit refused: SPENT and held with the reason (R143, R144). -/
theorem endsPreview_refused_single {s t : State} {e : EventRecord} {r : Reason} (h : EndsPreview e.id .auto s t)
    (ht : TablesLaw s) (he : s.showings.events = [e]) (hr : (commit e.id none s).2 = some r) :
    t = { (commit e.id none s).1 with
      showings := { (commit e.id none s).1.showings with events := [{ e with preview := .spent }] }
      account := { (commit e.id none s).1.account with held := some { event := e.id, cause := .refused r } }
      report := t.report } ∧ Marks (commit e.id none s).1 t (fun _ => False) fun n => n = 1 := by
  obtain ⟨hstate, hmarks⟩ := (h.2 rfl).2 r hr
  obtain ⟨p, hp⟩ := commit_refused_single e.id none s e r he hr
  rw [hp, List.map_singleton, if_pos rfl] at hstate
  exact ⟨hstate, hmarks ht⟩

/-- A define with a new allowance, for a table of one event: one class change. -/
theorem tariffDefineMessage_single (cls : Nat) (c : Tariff) (s : State) (e : EventRecord)
    (ha : (tariffOf s cls).map Tariff.allowance ≠ some c.allowance) (he : s.showings.events = [e]) (hcls : e.tariffClass = cls) :
    tariffDefineMessage cls c s = classChange e.id (setTariff cls (some c) s) := by
  rw [tariffDefineMessage_changed cls c s ha, he, List.filter_cons_of_pos (by simpa using hcls)]
  rfl

/-- Its preview ends where the event stands at the new allowance, on the state with its viewed seconds held to it (R143, R145). -/
theorem tariffDefineMessage_ends (cls : Nat) (c : Tariff) (s : State) (e : EventRecord) (hform : TariffsForm s)
    (ha : (tariffOf s cls).map Tariff.allowance ≠ some c.allowance) (he : s.showings.events = [e]) (hcls : e.tariffClass = cls)
    (hp : e.preview = .preview) (hle : c.allowance ≤ e.viewed) :
    EndsPreview e.id c.mode (setEvents [{ e with viewed := c.allowance }] (setTariff cls (some c) s)) (tariffDefineMessage cls c s) := by
  have hfind : findEvent (setTariff cls (some c) s) e.id = some e := by simp [findEvent, he]
  have hclass : tariffOf (setTariff cls (some c) s) e.tariffClass = some c := by
    rw [hcls]
    exact tariffOf_setTariff_same cls _ s hform
  have hends := (classChange_spec _ e.id e c hfind hclass).2 hp hle
  have hheld : updateEvent e.id (fun x => { x with viewed := min e.viewed c.allowance }) (setTariff cls (some c) s) =
      setEvents [{ e with viewed := c.allowance }] (setTariff cls (some c) s) := by
    simp [updateEvent, he, Nat.min_eq_right hle]
  rw [hheld] at hends
  rw [tariffDefineMessage_single cls c s e ha he hcls]
  exact hends

/-- Settles O33: a class change on every state, and then the define for every table, under CONFIRM, and under AUTO for one event. -/
theorem allowanceHoldsViewedSeconds : Obligations.AllowanceHoldsViewedSeconds := by
  refine ⟨fun s id => classChange_none s id, fun s id e c he hc => classChange_spec s id e c he hc, ?_⟩
  rintro s a n cls c ha ⟨htags, hreport, htariffs, htables⟩ hshow hf
  refine ⟨tariffDefineMessage cls c (clearHandOff s), congrArg Host.Outcome.next (messageRow_dispatch .tariffDefine s a n _ ha hf rfl),
    tariffOf_tariffDefineMessage cls c _ htariffs, rfl, tariffDefineMessage_ids cls c _, fun hm hnew e he => ?_,
    fun e hm hnew hone hcls hp hle => ?_⟩
  · refine ⟨if e.tariffClass = cls then e.heldTo c else e, ?_, ?_, fun hcls => if_neg hcls, fun hcls => if_pos hcls⟩
    · rw [tariffDefineMessage_confirm cls c (clearHandOff s) hshow htariffs hm hnew]
      exact List.mem_map_of_mem (f := fun x => if x.tariffClass = cls then x.heldTo c else x) he
    · split <;> rfl
  · have hends := tariffDefineMessage_ends cls c (clearHandOff s) e htariffs hnew hone hcls hp hle
    rw [hm] at hends
    have hheld : TablesLaw (setEvents [{ e with viewed := c.allowance }] (setTariff cls (some c) (clearHandOff s))) :=
      ⟨htags, hreport, setTariff_form cls _ _ htariffs, htables⟩
    exact ⟨(hends.2 rfl).1, fun r hr =>
      endsPreview_refused_single (e := { e with viewed := c.allowance }) hends hheld rfl hr⟩

end Sys2Proof.Machine

/-! ### A BUY that commits (R137, R149, R153, R160) -/

namespace Sys2Proof.Machine

/-! #### The jobs a commit queues (R160, R181) -/

/-- A request for a STAY job coalesces with one that waits, and finds a place where check 9 saw one. -/
theorem raiseGeneration_room (s : State) (hu : s.store.state = .ready ∨ s.store.state = .busy)
    (hroom : Job.stay ∉ s.store.queue → s.store.queue.length < 8) : raiseGeneration s = { s with
      account := { s.account with generation := s.account.generation + 1 }
      store := { s.store with queue := s.store.queue ++ (if Job.stay ∈ s.store.queue then [] else [.stay]) } } := by
  unfold raiseGeneration
  rw [requestStay_eq]
  by_cases hq : Job.stay ∈ s.store.queue
  · simp [hq]
  · have hlen := hroom hq
    simp [hq, hu, hlen, Nat.not_le.2 hlen]

/-- The charge record joins the journal, and its job the queue. -/
theorem appendCharge_eq (r : ChargeRecord) (s : State) (hu : s.store.state = .ready ∨ s.store.state = .busy) :
    ∃ marks, appendCharge r s = { s with
      journal := { s.journal with records := s.journal.records ++ [r], next := s.journal.next + 1 }
      store := { s.store with queue := s.store.queue ++ [.journal r] }
      report := marks } := by
  have husable : storeUsable s = true := (storeUsable_iff s).2 hu
  refine ⟨_, if_pos ?_⟩
  exact husable

/-- The job queue after a commit: a JOURNAL job for a total above 0, and then a STAY job unless one waits. -/
def commitQueue (record : ChargeRecord) (total : Nat) (queue : List Job) : List Job :=
  queue ++ (if 0 < total then [.journal record] else []) ++ (if Job.stay ∈ queue then [] else [.stay])

/-- The journal after a commit: a record for a total above 0. -/
def Journal.charged (j : Journal) (record : ChargeRecord) (total : Nat) : Journal :=
  if total = 0 then j else { j with records := j.records ++ [record], next := j.next + 1 }

/-- The record of a commit and the rise of the stay generation, with the jobs they queue. -/
theorem raiseGeneration_charge (r : ChargeRecord) (total : Nat) (s : State)
    (hu : s.store.state = .ready ∨ s.store.state = .busy) (hroom : lacksRoom s total = false) :
    ∃ marks, raiseGeneration (if 0 < total then appendCharge r s else s) = { s with
      account := { s.account with generation := s.account.generation + 1 }
      journal := s.journal.charged r total
      store := { s.store with queue := commitQueue r total s.store.queue }
      report := marks } := by
  have hplaces : ¬ 8 < s.store.queue.length + (if 0 < total then 1 else 0) + (if Job.stay ∈ s.store.queue then 0 else 1) :=
    fun hx => by simpa [hroom] using (lacksRoom_iff s total).2 hx
  by_cases ht : 0 < total
  · obtain ⟨marks, happend⟩ := appendCharge_eq r s hu
    rw [if_pos ht] at hplaces ⊢
    rw [happend]
    refine ⟨marks, (raiseGeneration_room _ ?_ fun hq => ?_).trans ?_⟩
    · exact hu
    · have hq : Job.stay ∉ s.store.queue := fun h => hq (List.mem_append_left _ h)
      rw [if_neg hq] at hplaces
      simp only [List.length_append, List.length_singleton]
      omega
    · simp [commitQueue, Journal.charged, ht, Nat.ne_of_gt ht]
  · rw [if_neg ht] at hplaces ⊢
    rw [raiseGeneration_room s hu fun hq => ?_]
    · exact ⟨s.report, by simp [commitQueue, Journal.charged, Nat.eq_zero_of_not_pos ht]⟩
    · rw [if_neg hq] at hplaces
      omega

/-- What a commit by slot `slot` adds to the pending buys. -/
def newPendingBuys (slot : Option Nat) (sequence : Option Nat) (needed : BitVec 32) : List PendingBuy :=
  slot.toList.map fun k => { slot := k, sequence := sequence, needed := needed, journalMark := sequence.isNone, stayMark := false }

theorem addPendingBuy_eq (slot : Option Nat) (sequence : Option Nat) (s : State) : addPendingBuy slot sequence s = { s with
    account := { s.account with pendingBuys := s.account.pendingBuys ++ newPendingBuys slot sequence s.account.generation } } := by
  cases slot with
  | none => simp [addPendingBuy, newPendingBuys]
  | some k => rfl

/-- A BUY's entry waits for a JOURNAL job where its total is above 0 (R153). -/
theorem newPendingBuys_buy (k : Nat) (s : State) (e : EventRecord) (c : Tariff) (rating total : Nat) (needed : BitVec 32) :
    newPendingBuys (some k) (purchaseRecord s e c rating total).sequence needed = [{
      slot := k
      sequence := if 0 < total then some s.journal.next else none
      needed := needed
      journalMark := !decide (0 < total)
      stayMark := false }] := by
  by_cases ht : 0 < total <;> simp [newPendingBuys, purchaseRecord, ht]

/-! #### The effects of a commit -/

section
variable (e : EventRecord) (c : Tariff) (rating total : Nat) (slot : Option Nat) (s : State)

/-- The effects of a commit on credit and night, on the purchases and on its event, the dirty set as given. -/
def commitPaid (marks : List (Nat × Option Bool)) : State := { s with
  account := { s.account with
    stay := s.account.stay.charged total, purchases := s.account.purchases ++ [purchaseRecord s e c rating total] }
  showings := { s.showings with events := s.showings.events.map fun x => if x.id = e.id then { x with preview := .paid } else x }
  report := marks }

theorem commitPaid_of_updates : ∃ marks, updateEvent e.id (fun e => { e with preview := .paid })
    (setPurchases (s.account.purchases ++ [purchaseRecord s e c rating total])
      (markLine 1 false (setStay (s.account.stay.charged total) s))) = commitPaid e c rating total s marks := by
  rw [setPurchases_eq]
  exact ⟨_, rfl⟩

/-- Everything a commit writes up to the begin of a job, the dirty set as given. -/
def committed (marks : List (Nat × Option Bool)) : State := { s with
  account := { s.account with
    stay := s.account.stay.charged total
    purchases := s.account.purchases ++ [purchaseRecord s e c rating total]
    generation := s.account.generation + 1
    pendingBuys := s.account.pendingBuys ++
      newPendingBuys slot (purchaseRecord s e c rating total).sequence (s.account.generation + 1) }
  showings := { s.showings with events := s.showings.events.map fun x => if x.id = e.id then { x with preview := .paid } else x }
  journal := s.journal.charged (chargeRecord s e c rating total) total
  store := { s.store with queue := commitQueue (chargeRecord s e c rating total) total s.store.queue }
  report := marks }

/-- A commit that finds room for its jobs writes its effects, and a job then begins (R137, R160, R181). -/
theorem commitEffects_eq (hu : s.store.state = .ready ∨ s.store.state = .busy) (hroom : lacksRoom s total = false) :
    ∃ marks, ∀ slot, commitEffects e c rating total slot s = startJob (committed e c rating total slot s marks) := by
  obtain ⟨paid, hpaid⟩ := commitPaid_of_updates e c rating total s
  obtain ⟨marks, hraised⟩ := raiseGeneration_charge (chargeRecord s e c rating total) total (commitPaid e c rating total s paid) hu hroom
  refine ⟨marks, fun slot => ?_⟩
  unfold commitEffects
  dsimp only
  rw [hpaid, hraised, addPendingBuy_eq]
  rfl

end

/-! #### The job that then begins (R181, R182; log 25) -/

theorem startJob_inFlight (s : State) (h : s.store.inFlight ≠ none) : startJob s = s := if_neg fun hx => h hx.2.1

/-- In RUN and with no job in flight the oldest waiting one begins. -/
theorem startJob_first (s : State) (j : Job) (rest : List Job) (hm : s.path.mode = .run) (hi : s.store.inFlight = none)
    (hu : s.store.state = .ready ∨ s.store.state = .busy) (hq : s.store.queue = j :: rest) :
    (startJob s).store = { (launchJob j s).store with
      state := .busy
      queue := rest ++ (s.store.heldOver.take 1).map HeldJob.job
      heldOver := s.store.heldOver.drop 1 } := by
  have hb : startJob s = beginJob s := if_pos ⟨hm, hi, (storeUsable_iff s).2 hu⟩
  rw [hb, beginJob_first s j rest hq, setStoreState_eq]
  cases j <;> rfl

/-- The state with these pending buys. -/
def withPendingBuys (l : List PendingBuy) (s : State) : State := { s with account := { s.account with pendingBuys := l } }

theorem setStoreState_withPendingBuys (l : List PendingBuy) (x : StoreState) (s : State) :
    setStoreState x (withPendingBuys l s) = withPendingBuys l (setStoreState x s) := by
  by_cases h : s.store.state = x
  · exact (if_pos h).trans (congrArg (withPendingBuys l) (if_pos h).symm)
  · refine (if_neg h).trans ?_
    rw [setStoreState, if_neg h]
    rfl

theorem beginJob_withPendingBuys (l : List PendingBuy) (s : State) :
    beginJob (withPendingBuys l s) = withPendingBuys l (beginJob s) := by
  cases hq : s.store.queue with
  | nil => rw [beginJob_empty s hq, beginJob_empty (withPendingBuys l s) hq]
  | cons j rest =>
    rw [beginJob_first s j rest hq, beginJob_first (withPendingBuys l s) j rest hq, ← setStoreState_withPendingBuys]
    cases j <;> rfl

/-- A job's begin does not look at the pending buys. -/
theorem startJob_withPendingBuys (l : List PendingBuy) (s : State) :
    startJob (withPendingBuys l s) = withPendingBuys l (startJob s) := by
  by_cases h : s.path.mode = .run ∧ s.store.inFlight = none ∧ storeUsable s = true
  · exact (if_pos h).trans ((beginJob_withPendingBuys l s).trans (congrArg (withPendingBuys l) (if_pos h).symm))
  · exact (if_neg h).trans (congrArg (withPendingBuys l) (if_neg h).symm)

/-- A commit by a preview end has the effects of a BUY's, but for the pending-buy entry (R143). -/
theorem startJob_committed_none (e : EventRecord) (c : Tariff) (rating total : Nat) (slot : Option Nat) (s : State)
    (marks : List (Nat × Option Bool)) : startJob (committed e c rating total none s marks) =
      withPendingBuys s.account.pendingBuys (startJob (committed e c rating total slot s marks)) := by
  rw [← startJob_withPendingBuys]
  simp [committed, newPendingBuys, withPendingBuys]

/-! #### The commit of a BUY -/

/-- The checks of R135 that a BUY has to pass. -/
theorem commit_passes (id : Half) (slot : Option Nat) (s : State) (e : EventRecord) (c : Tariff) (he : findEvent s id = some e)
    (hc : tariffOf s e.tariffClass = some c) (ho : s.account.stay.state = .occupied)
    (hr : ratingOf s e.service (some e) ≤ effectiveCeiling s.lock) (hl : livePurchase s id = false)
    (hu : s.store.state = .ready ∨ s.store.state = .busy)
    (hp : (s.account.purchases.filter fun p => decide (s.time.seconds < p.rentalEnd)).length < 16)
    (hj : 0 < totalOf s c → s.journal.records.length < 32) (hroom : lacksRoom s (totalOf s c) = false)
    (hm : totalOf s c ≤ s.account.stay.remaining)
    (hn : 0 < s.account.stay.nightCeiling → s.account.stay.nightSpent + totalOf s c ≤ s.account.stay.nightCeiling) :
    commit id slot s = (commitEffects e c (ratingOf s e.service (some e)) (totalOf s c) slot (removeExpired s), none) := by
  have hf : ¬ (s.store.state = .fault ∨ s.store.state = .absent) := by rcases hu with hu | hu <;> simp [hu]
  rw [commit_listed id slot s e c ho he hc, if_neg (Nat.not_lt.2 hr), if_neg (by simp [hl]), if_neg hf,
    commitChecked_removeExpired, if_neg (Nat.not_le.2 hp), if_neg fun h => Nat.not_le.2 (hj h.1) h.2, if_neg (by simp [hroom]),
    if_neg (Nat.not_lt.2 hm), if_neg fun h => Nat.not_lt.2 (hn h.1) h.2]

section
variable (e : EventRecord) (c : Tariff) (rating total : Nat) (slot : Option Nat) (s : State) (marks : List (Nat × Option Bool))

/-- What a commit writes behind the removals of check 7, on the state before them. -/
theorem committed_removeExpired : committed e c rating total slot (removeExpired s) marks = { s with
    account := { s.account with
      stay := s.account.stay.charged total
      purchases := (s.account.purchases.filter fun p => decide (s.time.seconds < p.rentalEnd)) ++
        [purchaseRecord s e c rating total]
      generation := s.account.generation + 1
      pendingBuys := s.account.pendingBuys ++
        newPendingBuys slot (purchaseRecord s e c rating total).sequence (s.account.generation + 1) }
    showings := { s.showings with events := s.showings.events.map fun x => if x.id = e.id then { x with preview := .paid }
      else if s.account.purchases.any (fun p => p.event == x.id && decide (p.rentalEnd ≤ s.time.seconds))
      then { x with preview := .spent } else x }
    journal := s.journal.charged (chargeRecord s e c rating total) total
    store := { s.store with queue := commitQueue (chargeRecord s e c rating total) total s.store.queue }
    report := marks } := by
  rw [removeExpired_eq]
  have hevents : ∀ l : List EventRecord, (l.map fun x =>
      if s.account.purchases.any (fun p => p.event == x.id && decide (p.rentalEnd ≤ s.time.seconds))
      then { x with preview := .spent } else x).map (fun x => if x.id = e.id then { x with preview := .paid } else x) =
      l.map fun x => if x.id = e.id then { x with preview := .paid }
        else if s.account.purchases.any (fun p => p.event == x.id && decide (p.rentalEnd ≤ s.time.seconds))
        then { x with preview := .spent } else x := by
    intro l
    rw [List.map_map]
    refine List.map_congr_left fun x _ => ?_
    simp only [Function.comp]
    by_cases hid : x.id = e.id <;> split <;> simp [hid]
  rw [← hevents]
  rfl

theorem purchaseRecord_removeExpired : purchaseRecord (removeExpired s) e c rating total = purchaseRecord s e c rating total := by
  simp [purchaseRecord]

/-- The lines a commit marks, those of the removals of check 7 among them (R128, R146, R160, R180). -/
theorem marks_commit : Marking (fun n => n = 1 ∨ 0 < total ∧ n = 21 + s.journal.next % 32 ∨
      n = 0 ∧ (commitEffects e c rating total slot (removeExpired s)).store.state ≠ s.store.state ∨
      5 ≤ n ∧ n < 21 ∧
        (s.account.purchases[n - 5]? ≠ (s.account.purchases.filter fun p => decide (s.time.seconds < p.rentalEnd))[n - 5]? ∨
          (s.account.purchases.filter fun p => decide (s.time.seconds < p.rentalEnd))[n - 5]? ≠
            ((s.account.purchases.filter fun p => decide (s.time.seconds < p.rentalEnd)) ++
              [purchaseRecord s e c rating total])[n - 5]?))
    noLine s (commitEffects e c rating total slot (removeExpired s)) := by
  have h := (marks_removeExpired s).plain (marks_commitEffects e c rating total slot (removeExpired s))
  simp only [removeExpired_purchases, removeExpired_frame, purchaseRecord_removeExpired, Purchase.live] at h
  refine h.congr (fun n => ?_) fun _ => Iff.rfl
  tauto

end

/-- A BUY whose commit passes: its effects, its slot pending, and the passing write that carries PENDING (R149, R168, R169). -/
theorem exec_buy_passed (w : BusWrite) (k j : Nat) (s u : State) (id : Half) (hw : w.wellFormed = true)
    (hu : UpstreamFree s) (hk : windowFor s w.address.toNat = .request k j) (hs : slotPending s k = false)
    (ht : isTaken w = true) (hq : requestOf (recordOf w) = .buy id) (hc : commit id (some k) s = (u, none)) :
    ∃ t, exec (.buy w) s = .next t ∧ t = { setSlotPending k true u with path := { s.path with
      passing := some (.write (rewriteResult answerPending w) (some k)), port := portAfter s t } } := by
  have hbuy : answerRequest k (.buy id) s = (setSlotPending k true u, answerPending) := by simp [answerRequest, buyRequest, hc]
  have hpath : u.path = s.path := by simpa [hc] using (commit_frame id (some k) s).2.1
  have h := exec_taken_answer (.buy w) w k j s (.buy id) rfl hw hu hk hs ht hq (by rw [hbuy]; exact hpath)
  rwa [hbuy] at h

/-- Settles O18: the commit, the passing write that carries its answer, and the job that begins. -/
theorem buyCommits : Obligations.BuyCommits := by
  intro w k j s id e c hw hu ht hk hs htaken hq he hc ho hr hl hstore hp hj hroom hm hn
  have ⟨_, hreport, _, hpending, _⟩ := ht
  have hmode : s.path.mode = .run := not_not.1 fun h => by simp [windowFor_none s _ (.inl h)] at hk
  have hcommit := fun slot => commit_passes id slot s e c he hc ho hr hl hstore hp hj hroom hm hn
  have hmarks := (marks_commit e c (ratingOf s e.service (some e)) (totalOf s c) (some k) s).marks hreport
  obtain ⟨marks, heffects⟩ := commitEffects_eq e c (ratingOf s e.service (some e)) (totalOf s c) (removeExpired s)
    (by simpa using hstore) (by rwa [lacksRoom_removeExpired])
  have hnone := startJob_committed_none e c (ratingOf s e.service (some e)) (totalOf s c) (some k) (removeExpired s) marks
  have hwritten := committed_removeExpired e c (ratingOf s e.service (some e)) (totalOf s c) (some k) s marks
  rw [newPendingBuys_buy] at hwritten
  simp only [heffects] at hcommit hmarks
  generalize hx : committed e c (ratingOf s e.service (some e)) (totalOf s c) (some k) (removeExpired s) marks = x at *
  obtain ⟨lines, store, hjob⟩ : ∃ lines store, startJob x = { x with report := lines, store := store } := ⟨_, _, startJob_eq x⟩
  have hbusy := startJob_inFlight x
  have hfirst := startJob_first x
  have hslot : commit id (some k) s = (startJob x, none) := by rw [hcommit, hx]
  have hend : commit id none s = (withPendingBuys s.account.pendingBuys (startJob x), none) := by
    simp only [hcommit, hnone, removeExpired_frame]
  rw [hjob] at hslot hend hmarks hbusy hfirst
  obtain rfl : e.id = id := findEvent_id he
  obtain ⟨t, hexec, hstate⟩ := exec_buy_passed w k j s _ _ hw hu hk hs htaken hq hslot
  clear hx
  subst hwritten
  have hshowings := congrArg State.showings hstate
  have hrequests := congrArg State.requests hstate
  have hlines := congrArg State.report hstate
  have hjobs := congrArg State.store hstate
  have hpurchases := congrArg (fun x => x.account.purchases) hstate
  refine ⟨rewriteResult answerPending w, t, rewriteResult_carries w _ (isTaken_length w htaken), hexec, ?_, ?_, ?_, ?_, ?_, ?_, ?_, ?_, ?_,
    ?_, ?_⟩
  · rw [hshowings, hrequests, hlines, hjobs]
    exact hstate
  · rw [slotPending, hrequests]
    exact Sparse.read_write_same _ _ _ _ hpending
  · intro i hi
    rw [slotPending, hrequests]
    exact Sparse.read_write_other _ _ _ _ _ hpending hi
  · intro i
    rw [heldResult, hrequests]
    rfl
  · rw [hshowings]
    rfl
  · rw [hshowings]
    rfl
  · intro hi
    rw [hjobs]
    exact congrArg State.store (hbusy hi)
  · intro hi j rest hqueue
    rw [hjobs]
    refine (hfirst j rest hmode hi hstore hqueue).trans ?_
    rw [hstate]
    cases j <;> rfl
  · rw [hjobs, hpurchases]
    exact Marks.of_report hmarks rfl hlines
  · have hcopy := congrArg (fun y : State => { y with path := s.path, requests := s.requests }) hstate
    rw [hslot]
    exact congrArg (·, none) hcopy.symm
  · have hcopy := congrArg (fun y : State => withPendingBuys s.account.pendingBuys { y with path := s.path, requests := s.requests })
      hstate
    rw [hend]
    exact congrArg (·, none) hcopy.symm

end Sys2Proof.Machine

/-! ### The law for previews (R139) -/

namespace Sys2Proof.Machine

/-! #### The law beside some events -/

/-- An event stands within the allowance of its class, and below it in PREVIEW, where the class is defined. -/
def WithinAllowance (s : State) (e : EventRecord) : Prop :=
  ∀ t, tariffOf s e.tariffClass = some t → e.viewed ≤ t.allowance ∧ (e.preview = .preview → e.viewed < t.allowance)

/-- The law for previews while these events may stand beyond a new allowance: between a relisting or a define and the class changes it
asks for (R81, R130). -/
def PreviewLawBut (ids : List Half) (s : State) : Prop :=
  ∀ e ∈ s.showings.events, (e.preview = .untouched → e.viewed = 0) ∧ (e.id ∉ ids → WithinAllowance s e)

theorem previewLaw_iff (s : State) : PreviewLaw s ↔ PreviewLawBut [] s := by
  simp [PreviewLaw, PreviewLawBut, WithinAllowance]

theorem PreviewLawBut.mono {ids more : List Half} {s : State} (h : PreviewLawBut ids s) (hsub : ids ⊆ more) :
    PreviewLawBut more s := fun e he => ⟨(h e he).1, fun hid => (h e he).2 fun hm => hid (hsub hm)⟩

theorem withinAllowance_of_tariffs {s t : State} (ht : t.account.tariffs = s.account.tariffs) {e : EventRecord}
    (h : WithinAllowance s e) : WithinAllowance t e := by
  unfold WithinAllowance tariffOf
  rw [ht]
  exact h

/-! #### What at most ends previews -/

/-- A record that keeps its id, class and viewed seconds, and its preview state but that it may have become SPENT or PAID. -/
def EventRecord.ClosesTo (x y : EventRecord) : Prop :=
  y.id = x.id ∧ y.tariffClass = x.tariffClass ∧ y.viewed = x.viewed ∧
    (y.preview = x.preview ∨ y.preview = .spent ∨ y.preview = .paid)

theorem EventRecord.ClosesTo.refl (x : EventRecord) : x.ClosesTo x := ⟨rfl, rfl, rfl, .inl rfl⟩

theorem EventRecord.ClosesTo.trans {x y z : EventRecord} (hxy : x.ClosesTo y) (hyz : y.ClosesTo z) : x.ClosesTo z := by
  obtain ⟨hid, hclass, hviewed, hpreview⟩ := hxy
  obtain ⟨hid', hclass', hviewed', hpreview'⟩ := hyz
  refine ⟨hid'.trans hid, hclass'.trans hclass, hviewed'.trans hviewed, ?_⟩
  rcases hpreview' with h | h
  · rw [h]
    exact hpreview
  · exact .inr h

/-- From `s` to `t` the classes stay, and each event of `t` is one of `s` whose preview may have ended. -/
structure Closing (s t : State) : Prop where
  tariffs : t.account.tariffs = s.account.tariffs
  events : ∀ y ∈ t.showings.events, ∃ x ∈ s.showings.events, x.ClosesTo y

theorem Closing.trans {s t u : State} (hst : Closing s t) (htu : Closing t u) : Closing s u := by
  refine ⟨htu.tariffs.trans hst.tariffs, fun z hz => ?_⟩
  obtain ⟨y, hy, hyz⟩ := htu.events z hz
  obtain ⟨x, hx, hxy⟩ := hst.events y hy
  exact ⟨x, hx, hxy.trans hyz⟩

theorem Closing.of_sublist {s t : State} (ht : t.account.tariffs = s.account.tariffs)
    (he : t.showings.events.Sublist s.showings.events) : Closing s t := ⟨ht, fun y hy => ⟨y, he.subset hy, .refl y⟩⟩

theorem Closing.of_frame {s t : State} (ht : t.account.tariffs = s.account.tariffs)
    (he : t.showings.events = s.showings.events) : Closing s t := .of_sublist ht (by rw [he])

theorem Closing.of_map {s t : State} {g : EventRecord → EventRecord} (ht : t.account.tariffs = s.account.tariffs)
    (he : t.showings.events = s.showings.events.map g) (hg : ∀ x : EventRecord, x.ClosesTo (g x)) : Closing s t := by
  refine ⟨ht, fun y hy => ?_⟩
  rw [he] at hy
  obtain ⟨x, hx, rfl⟩ := List.mem_map.1 hy
  exact ⟨x, hx, hg x⟩

/-- What at most ends previews keeps the law, of whichever events it speaks. -/
theorem Closing.previewLawBut {ids : List Half} {s t : State} (h : Closing s t) (hs : PreviewLawBut ids s) :
    PreviewLawBut ids t := by
  intro y hy
  obtain ⟨x, hx, hid, hclass, hviewed, hpreview⟩ := h.events y hy
  obtain ⟨hzero, hwithin⟩ := hs x hx
  rw [hid]
  refine ⟨fun hu => ?_, fun hn => withinAllowance_of_tariffs h.tariffs ?_⟩
  · rw [hviewed]
    refine hzero ?_
    rcases hpreview with hp | hp | hp <;> simp_all
  · unfold WithinAllowance
    rw [hclass, hviewed]
    refine fun c hc => ⟨(hwithin hn c hc).1, fun hp => (hwithin hn c hc).2 ?_⟩
    rcases hpreview with hq | hq | hq <;> simp_all

theorem Closing.previewLaw {s t : State} (h : Closing s t) (hs : PreviewLaw s) : PreviewLaw t :=
  (previewLaw_iff t).2 (h.previewLawBut ((previewLaw_iff s).1 hs))

theorem removeExpired_closing (s : State) : Closing s (removeExpired s) := by
  refine .of_map (by simp) (removeExpired_events s) fun x => ?_
  split
  · exact ⟨rfl, rfl, rfl, .inr (.inl rfl)⟩
  · exact .refl x

theorem commitEffects_closing (e : EventRecord) (c : Tariff) (rating total : Nat) (k : Option Nat) (s : State) :
    Closing s (commitEffects e c rating total k s) := by
  refine .of_map (by simp) (commitEffects_events e c rating total k s) fun x => ?_
  split
  · exact ⟨rfl, rfl, rfl, .inr (.inr rfl)⟩
  · exact .refl x

theorem commit_closing (id : Half) (k : Option Nat) (s : State) : Closing s (commit id k s).1 := by
  rcases commit_cases id k s with ⟨r, hc⟩ | ⟨r, hc⟩ | ⟨e, c, -, hc⟩ <;> rw [hc]
  · exact .of_frame rfl rfl
  · exact removeExpired_closing s
  · exact (removeExpired_closing s).trans (commitEffects_closing _ _ _ _ _ _)

/-- A change of an event that leaves its class, its viewed seconds and its preview state. -/
theorem updateEvent_closing (id : Half) (f : EventRecord → EventRecord) (s : State) (hf : ∀ x : EventRecord, x.ClosesTo (f x)) :
    Closing s (updateEvent id f s) := by
  refine .of_map rfl (updateEvent_events s id f) fun x => ?_
  split
  · exact hf x
  · exact .refl x

/-! #### The end of a preview -/

/-- After the end of an event's preview the event is SPENT or PAID (R143, R144). -/
def Ended (id : Half) (t : State) : Prop :=
  ∀ y ∈ t.showings.events, y.id = id → y.preview = .spent ∨ y.preview = .paid

theorem commit_ended (id : Half) (k : Option Nat) (s : State) (h : (commit id k s).2 = none) : Ended id (commit id k s).1 := by
  rcases commit_cases id k s with ⟨r, hc⟩ | ⟨r, hc⟩ | ⟨e, c, hp, hc⟩ <;> rw [hc] at h ⊢
  · cases h
  · cases h
  · intro y hy hid
    rw [commitEffects_events, findEvent_id hp.listed] at hy
    obtain ⟨x, -, rfl⟩ := List.mem_map.1 hy
    by_cases hx : x.id = id
    · exact .inr (by simp [hx])
    · rw [if_neg hx] at hid
      exact absurd hid hx

/-- A hold, as `EndsPreview` spells it, ends its event's preview. -/
theorem held_closes {id : Half} {u t : State} {h : Option HeldRecord} {l : List (Nat × Option Bool)}
    (ht : t = { u with
      showings := { u.showings with events := u.showings.events.map fun x => if x.id = id then { x with preview := .spent } else x }
      account := { u.account with held := h }
      report := l }) : Closing u t ∧ Ended id t := by
  subst ht
  refine ⟨.of_map (g := fun x => if x.id = id then { x with preview := .spent } else x) rfl rfl fun x => ?_, fun y hy hid => ?_⟩
  · split
    · exact ⟨rfl, rfl, rfl, .inr (.inl rfl)⟩
    · exact .refl x
  obtain ⟨x, -, rfl⟩ := List.mem_map.1 hy
  by_cases hx : x.id = id
  · exact .inl (by simp [hx])
  · rw [if_neg hx] at hid
    exact absurd hid hx

/-- The end of a preview, under CONFIRM or AUTO, at most ends previews, and ends its event's. -/
theorem endsPreview_closes {id : Half} {m : PurchaseMode} {s t : State} (h : EndsPreview id m s t) : Closing s t ∧ Ended id t := by
  obtain ⟨hconfirm, hauto⟩ := h
  cases m with
  | confirm => exact held_closes (hconfirm rfl).1
  | auto =>
    obtain ⟨hpaid, hrefused⟩ := hauto rfl
    have hcommit := commit_closing id none s
    cases hr : (commit id none s).2 with
    | none =>
      rw [hpaid hr]
      exact ⟨hcommit, commit_ended id none s hr⟩
    | some r =>
      obtain ⟨hclosing, hended⟩ := held_closes (hrefused r hr).1
      exact ⟨hcommit.trans hclosing, hended⟩

/-- With the end of its preview an event that stands at its allowance at most is back under the law. -/
theorem endsPreview_previewLawBut {id : Half} {ids : List Half} {m : PurchaseMode} {s t : State} (h : EndsPreview id m s t)
    (hs : PreviewLawBut (id :: ids) s)
    (hv : ∀ x ∈ s.showings.events, x.id = id → ∀ c, tariffOf s x.tariffClass = some c → x.viewed ≤ c.allowance) :
    PreviewLawBut ids t := by
  obtain ⟨hclosing, hended⟩ := endsPreview_closes h
  have hothers := hclosing.previewLawBut hs
  intro y hy
  refine ⟨(hothers y hy).1, fun hn => ?_⟩
  by_cases hid : y.id = id
  · obtain ⟨x, hx, hxid, hclass, hviewed, -⟩ := hclosing.events y hy
    refine withinAllowance_of_tariffs hclosing.tariffs fun c hc => ⟨?_, fun hp => ?_⟩
    · rw [hviewed]
      exact hv x hx (hxid.symm.trans hid) c (hclass ▸ hc)
    · rcases hended y hy hid with hq | hq <;> simp [hq] at hp
  · exact (hothers y hy).2 (by simp [hid, hn])

/-! #### One event changed -/

/-- The events after a change of one listed event, in a table that lists no event twice. -/
theorem mem_updateEvent {id : Half} {f : EventRecord → EventRecord} {s : State} {e y : EventRecord} (hshow : ShowingLaw s)
    (he : findEvent s id = some e) (hy : y ∈ (updateEvent id f s).showings.events) :
    y = f e ∨ y ∈ s.showings.events ∧ y.id ≠ id := by
  rw [updateEvent_events] at hy
  obtain ⟨x, hx, rfl⟩ := List.mem_map.1 hy
  by_cases hid : x.id = id
  · obtain rfl : e = x := Option.some.inj (he.symm.trans ((findEvent_some s id hshow x).2 ⟨hx, hid⟩))
    exact .inl (if_pos hid)
  · rw [if_neg hid]
    exact .inr ⟨hx, hid⟩

/-- The law then asks of that event alone. -/
theorem updateEvent_previewLawBut {ids : List Half} {id : Half} {f : EventRecord → EventRecord} {s : State} {e : EventRecord}
    (hshow : ShowingLaw s) (he : findEvent s id = some e) (hf : (f e).id = e.id)
    (hzero : (f e).preview = .untouched → (f e).viewed = 0) (hwithin : id ∉ ids → WithinAllowance s (f e))
    (h : PreviewLawBut (id :: ids) s) : PreviewLawBut ids (updateEvent id f s) := by
  intro y hy
  rcases mem_updateEvent hshow he hy with rfl | ⟨hmem, hid⟩
  · rw [hf, findEvent_id he]
    exact ⟨hzero, hwithin⟩
  · obtain ⟨hzero', hwithin'⟩ := h y hmem
    exact ⟨hzero', fun hn => hwithin' (by simp [hid, hn])⟩

/-! #### Class changes and the second timer -/

/-- Of an event that is not listed, or of no defined class, the law asks nothing of an allowance. -/
theorem previewLawBut_undefined {ids : List Half} {id : Half} {s : State} (hshow : ShowingLaw s)
    (hn : ((findEvent s id).bind fun e => tariffOf s e.tariffClass) = none) (h : PreviewLawBut (id :: ids) s) :
    PreviewLawBut ids s := by
  intro e he
  obtain ⟨hzero, hwithin⟩ := h e he
  refine ⟨hzero, fun hids => ?_⟩
  by_cases hid : e.id = id
  · have hundefined : tariffOf s e.tariffClass = none := by
      simpa [(findEvent_some s id hshow e).2 ⟨he, hid⟩] using hn
    intro c hc
    rw [hundefined] at hc
    cases hc
  · exact hwithin (by simp [hid, hids])

/-- A class change brings its event back under the law (R145). -/
theorem classChange_previewLawBut {ids : List Half} {id : Half} {s : State} (hshow : ShowingLaw s)
    (h : PreviewLawBut (id :: ids) s) : PreviewLawBut ids (classChange id s) := by
  cases hb : (findEvent s id).bind fun e => tariffOf s e.tariffClass with
  | none =>
    rw [classChange_none s id hb]
    exact previewLawBut_undefined hshow hb h
  | some c =>
    obtain ⟨e, he, hc⟩ := Option.bind_eq_some_iff.1 hb
    have hzero := (h e (List.mem_of_find?_eq_some he)).1
    have honly : ∀ x, tariffOf s e.tariffClass = some x → x = c := fun x hx => Option.some.inj (hx.symm.trans hc)
    obtain ⟨hkept, hends⟩ := classChange_spec s id e c he hc
    by_cases hp : e.preview = .preview ∧ c.allowance ≤ e.viewed
    · refine endsPreview_previewLawBut (hends hp.1 hp.2) (updateEvent_previewLawBut hshow he rfl (by simp [hp.1]) (by simp)
        (h.mono (by simp))) fun x hx hxid d hd => ?_
      rcases mem_updateEvent hshow he hx with rfl | ⟨-, hne⟩
      · rw [honly d hd]
        exact Nat.min_le_right _ _
      · exact absurd hxid hne
    · rw [hkept hp]
      refine updateEvent_previewLawBut hshow he rfl (fun hu => by simp [hzero hu]) (fun _ d hd => ?_) h
      rw [honly d hd]
      exact ⟨Nat.min_le_right _ _, fun hpre => min_lt_of_left_lt (Nat.not_le.1 fun hle => hp ⟨hpre, hle⟩)⟩

/-- The class changes of a define, one after another, bring all their events back under the law (R130). -/
theorem classChanges_previewLaw (ids : List Half) (s : State) (hshow : ShowingLaw s) (h : PreviewLawBut ids s) :
    PreviewLaw (ids.foldl (fun s id => classChange id s) s) := by
  induction ids generalizing s with
  | nil => exact (previewLaw_iff s).2 h
  | cons id rest ih => exact ih _ (previews_showingLaw.classChange id s hshow) (classChange_previewLawBut hshow h)

/-- The count of an event back at 0, and a note, leave the law alone. -/
theorem cells_closing (id : Half) (f : EventRecord → Half) (s : State) :
    Closing s (updateEvent id (fun x => { x with cells := f x }) s) :=
  updateEvent_closing id _ s fun _ => ⟨rfl, rfl, rfl, .inl rfl⟩

/-- The second timer's handling of one event (R141): a viewed second is added below the allowance alone, and where it meets the allowance
the preview ends. -/
theorem meterEvent_previewLaw (id : Half) (s : State) (hshow : ShowingLaw s) (h : PreviewLaw s) : PreviewLaw (meterEvent id s) := by
  cases he : findEvent s id with
  | none =>
    rw [meterEvent_none s id he]
    exact h
  | some e =>
    have hbut : ∀ ids, PreviewLawBut ids s := fun ids => ((previewLaw_iff s).1 h).mono (List.nil_subset ids)
    obtain ⟨hstill, hcounted, hends⟩ := meterEvent_spec s id e he
    cases hk : countsSecond s e with
    | false =>
      rw [hstill hk]
      exact (cells_closing id _ s).previewLaw h
    | true =>
      obtain ⟨-, hpre, ⟨c, hc⟩, -⟩ := (countsSecond_iff s e).1 hk
      have hbelow := ((h e (List.mem_of_find?_eq_some he)).2 c hc).2 hpre
      have honly : ∀ x : Tariff, tariffOf s e.tariffClass = some x → x = c := fun x hx => Option.some.inj (hx.symm.trans hc)
      by_cases ha : c.allowance = e.viewed + 1
      · obtain ⟨t, hend, hmeter⟩ := hends c hk hc ha
        rw [hmeter]
        refine (cells_closing id _ t).previewLaw ((previewLaw_iff t).2 (endsPreview_previewLawBut hend
          (updateEvent_previewLawBut hshow he rfl (by simp [hpre]) (by simp) (hbut _)) fun x hx hxid d hd => ?_))
        rcases mem_updateEvent hshow he hx with rfl | ⟨-, hne⟩
        · rw [honly d hd, ha]
        · exact absurd hxid hne
      · rw [hcounted hk (by simpa [hc] using ha), previewLaw_iff]
        refine updateEvent_previewLawBut hshow he rfl (by simp [hpre]) (fun _ d hd => ?_) (hbut _)
        rw [honly d hd]
        exact ⟨hbelow, fun _ => Nat.lt_of_le_of_ne hbelow (Ne.symm ha)⟩

theorem meterEvent_showingLaw (id : Half) (s : State) (h : ShowingLaw s) : ShowingLaw (meterEvent id s) := by
  have hcount : ∀ i (f : EventRecord → EventRecord) x, CountsOnly f → ShowingLaw x → ShowingLaw (updateEvent i f x) :=
    previews_showingLaw.count
  unfold meterEvent
  split
  · exact h
  · rename_i e _
    refine hcount _ _ _ (fun _ => ⟨rfl, rfl, rfl⟩) ?_
    split
    · unfold addViewed
      have hadded := hcount e.id (fun e => { e with viewed := e.viewed + 1 }) s (fun _ => ⟨rfl, rfl, rfl⟩) h
      dsimp only
      split
      · exact previews_showingLaw.previewEnd _ _ hadded
      · exact hadded
    · exact h

/-! #### Evaluations -/

/-- An evaluation that begins a preview begins it on an event with no viewed second and an allowance above 0 (R95, R140). -/
theorem beginPreview_previewLaw {s : State} {e : EventRecord} {c : Tariff} (hshow : ShowingLaw s) (he : findEvent s e.id = some e)
    (hc : tariffOf s e.tariffClass = some c) (hu : e.preview = .untouched) (ha : 0 < c.allowance) (h : PreviewLaw s) :
    PreviewLaw (beginPreview e.id s) := by
  have hzero := (h e (List.mem_of_find?_eq_some he)).1 hu
  rw [previewLaw_iff]
  refine updateEvent_previewLawBut hshow he rfl (by simp) (fun _ d hd => ?_) (((previewLaw_iff s).1 h).mono (List.nil_subset _))
  obtain rfl : d = c := Option.some.inj (hd.symm.trans hc)
  simpa [hzero] using ha

theorem previewStep_previewLaw {s : State} {e : EventRecord} {c : Tariff} (hshow : ShowingLaw s) (he : findEvent s e.id = some e)
    (hc : tariffOf s e.tariffClass = some c) (h : PreviewLaw s) : PreviewLaw (previewStep e c s).1 := by
  have hnote : ∀ x, PreviewLaw x → PreviewLaw (presentationNote e.id x) := fun x => (cells_closing e.id _ x).previewLaw
  unfold previewStep
  cases hp : e.preview with
  | preview => exact hnote s h
  | spent => exact h
  | paid => exact h
  | untouched =>
    dsimp only
    split
    · exact hnote _ (beginPreview_previewLaw hshow he hc hp ‹_› h)
    · exact (endsPreview_closes (previewEnd_ends e.id s e c he hc)).1.previewLaw h

/-- The evaluation of a slot (R92 to R95). -/
theorem verdictOf_previewLaw (t : SlotTag) (s : State) (hshow : ShowingLaw s) (h : PreviewLaw s) : PreviewLaw (verdictOf t s).1 := by
  unfold verdictOf
  split
  · exact h
  · rename_i f _
    split
    · rcases judge_pays f s with hj | ⟨-, hj⟩ <;> rw [hj]
      · exact h
      · unfold payStep
        split
        · rename_i e c _ he hc
          have hfound : findEvent s e.id = some e := findShowing_id he ▸ findShowing_event he
          exact previewStep_previewLaw hshow hfound (by simpa [he] using hc) h
        · exact h
    · exact h

/-- The grant to the passing transaction keeps what an evaluation, a latch and the path's own fields keep. -/
theorem grantPassing_keeps {P : State → Prop} (hv : ∀ t s, P s → P (verdictOf t s).1)
    (hl : ∀ r n v s, P s → P (latchVerdict r n v s)) (hp : ∀ s p, P s → P { s with path := p }) (s : State) (h : P s) :
    P (grantPassing s) := by
  unfold grantPassing
  split
  · unfold returnRead giveBack
    dsimp only
    split
    · exact hp _ _ (hp _ _ h)
    · exact hp _ _ (hp _ _ (hp _ _ h))
    · exact hp _ _ (presentWords_keeps (fun r n s h => hl _ _ _ _ (hv _ _ h)) hl _ _ _ _ _ _ (hp _ _ h))
  · exact hp s _ h
  · exact h

/-! #### The law with what keeps it -/

/-- The law for previews, with the order of the showing table and the form of the classes' table. -/
def PreviewForm (s : State) : Prop := ShowingLaw s ∧ TariffsForm s ∧ PreviewLaw s

theorem previewForm_of_sublist {s t : State} (ht : t.account.tariffs = s.account.tariffs)
    (he : t.showings.events.Sublist s.showings.events) (h : PreviewForm s) : PreviewForm t := by
  obtain ⟨hshow, hform, hlaw⟩ := h
  refine ⟨showingLaw_of_sublist he hshow, ?_, (Closing.of_sublist ht he).previewLaw hlaw⟩
  unfold TariffsForm
  rw [ht]
  exact hform

theorem previewForm_of_frame {s t : State} (ht : t.account.tariffs = s.account.tariffs)
    (he : t.showings.events = s.showings.events) : PreviewForm s → PreviewForm t := previewForm_of_sublist ht (by rw [he])

theorem commit_previewForm (id : Half) (k : Option Nat) (s : State) (h : PreviewForm s) : PreviewForm (commit id k s).1 := by
  obtain ⟨hshow, hform, hlaw⟩ := h
  exact ⟨commit_showingLaw id k s hshow, charges_tariffsForm.commit id k s hform, (commit_closing id k s).previewLaw hlaw⟩

theorem verdictOf_previewForm (t : SlotTag) (s : State) (h : PreviewForm s) : PreviewForm (verdictOf t s).1 := by
  obtain ⟨hshow, hform, hlaw⟩ := h
  exact ⟨previews_showingLaw.verdict t s hshow, charges_tariffsForm.verdict t s hform, verdictOf_previewLaw t s hshow hlaw⟩

theorem meterSecond_previewForm (s : State) (h : PreviewForm s) : PreviewForm (meterSecond s) := by
  obtain ⟨hshow, hform, hlaw⟩ := h
  have hboth : ShowingLaw (meterSecond s) ∧ PreviewLaw (meterSecond s) :=
    foldl_keeps (P := fun s => ShowingLaw s ∧ PreviewLaw s) _
      (fun s id ⟨hshow, hlaw⟩ => ⟨meterEvent_showingLaw id s hshow, meterEvent_previewLaw id s hshow hlaw⟩) _ s ⟨hshow, hlaw⟩
  exact ⟨hboth.1, charges_tariffsForm.meterSecond s hform, hboth.2⟩

/-! #### Messages -/

/-- A new record has no viewed second. -/
theorem listEvent_previewLaw (r : ListingRecord) (s : State) (h : PreviewLaw s) : PreviewLaw (listEvent r s) := by
  intro e he
  have hmem : e ∈ insertEvent r.fresh s.showings.events := by
    unfold listEvent at he
    dsimp only at he
    split at he
    · exact List.mem_of_mem_dropLast he
    · exact he
  rcases (mem_insertEvent _ _ _).1 hmem with rfl | hold
  · exact ⟨fun _ => rfl, fun t _ => ⟨Nat.zero_le _, fun hp => nomatch hp⟩⟩
  · exact h e hold

/-- An update keeps the metering fields of its event, and with its class what the law asks of it (R81). -/
theorem relistEvent_previewLawBut {r : ListingRecord} {s : State} {x : EventRecord} (hf : findEvent s r.id = some x)
    {ids : List Half} (hids : x.tariffClass ≠ r.tariffClass → r.id ∈ ids) (h : PreviewLaw s) :
    PreviewLawBut ids (relistEvent r x s) := by
  intro e he
  rcases (mem_insertEvent _ _ _).1 he with rfl | hold
  · obtain ⟨hzero, hwithin⟩ := h x (List.mem_of_find?_eq_some hf)
    refine ⟨hzero, fun hn => ?_⟩
    have hclass : x.tariffClass = r.tariffClass := not_not.1 fun hne => hn (hids hne)
    intro c hc
    exact hwithin c (by rw [hclass]; exact hc)
  · exact ((previewLaw_iff s).1 h).mono (List.nil_subset ids) e (List.mem_filter.1 hold).1

theorem takeListing_previewForm (r : ListingRecord) (s : State) (h : PreviewForm s) : PreviewForm (takeListing r s) := by
  obtain ⟨hshow, hform, hlaw⟩ := h
  unfold takeListing
  split
  · rename_i x hf
    have hshow' := relistEvent_showingLaw r x s hshow hf
    split
    · rename_i hclass
      exact ⟨hshow', hform, (previewLaw_iff _).2 (relistEvent_previewLawBut hf (fun hne => absurd hclass hne) hlaw)⟩
    · exact ⟨previews_showingLaw.classChange r.id _ hshow', charges_tariffsForm.classChange r.id _ hform,
        (previewLaw_iff _).2 (classChange_previewLawBut hshow' (relistEvent_previewLawBut hf (by simp) hlaw))⟩
  · rename_i hf
    exact ⟨listEvent_showingLaw r s hshow hf, hform, listEvent_previewLaw r s hlaw⟩

/-- A class set anew leaves under the law the events of the others, and those of its own where its allowance stays. -/
theorem setTariff_previewLawBut {cls : Nat} {c : Option Tariff} {ids : List Half} {s : State} (hform : TariffsForm s)
    (hids : ∀ e ∈ s.showings.events, e.tariffClass = cls → c.map Tariff.allowance = none ∨
      c.map Tariff.allowance = (tariffOf s cls).map Tariff.allowance ∨ e.id ∈ ids) (h : PreviewLaw s) :
    PreviewLawBut ids (setTariff cls c s) := by
  intro e he
  obtain ⟨hzero, hwithin⟩ := h e he
  refine ⟨hzero, fun hn d hd => ?_⟩
  by_cases hcls : e.tariffClass = cls
  · rw [hcls, tariffOf_setTariff_same cls c s hform] at hd
    subst hd
    rcases hids e he hcls with hnone | hsame | hmem
    · cases hnone
    · obtain ⟨old, hold, hallowance⟩ := Option.map_eq_some_iff.1 hsame.symm
      rw [← hallowance]
      exact hwithin old (by rw [hcls]; exact hold)
    · exact absurd hmem hn
  · rw [tariffOf_setTariff_other cls e.tariffClass c s hform hcls] at hd
    exact hwithin d hd

theorem tariffDefineMessage_previewLaw (cls : Nat) (c : Tariff) (s : State) (hshow : ShowingLaw s) (hform : TariffsForm s)
    (h : PreviewLaw s) : PreviewLaw (tariffDefineMessage cls c s) := by
  by_cases ha : (tariffOf s cls).map Tariff.allowance = some c.allowance
  · rw [tariffDefineMessage_same cls c s ha, previewLaw_iff]
    exact setTariff_previewLawBut hform (fun _ _ _ => .inr (.inl ha.symm)) h
  · rw [tariffDefineMessage_changed cls c s ha]
    exact classChanges_previewLaw _ _ hshow (setTariff_previewLawBut hform
      (fun e he hcls => .inr (.inr (List.mem_map_of_mem (List.mem_filter.2 ⟨he, by simpa using hcls⟩)))) h)

theorem setTariff_none_previewForm (cls : Nat) (s : State) (h : PreviewForm s) : PreviewForm (setTariff cls none s) := by
  obtain ⟨hshow, hform, hlaw⟩ := h
  exact ⟨hshow, setTariff_form cls none s hform,
    (previewLaw_iff _).2 (setTariff_previewLawBut hform (fun _ _ _ => .inl rfl) hlaw)⟩

theorem tariffDefineMessage_previewForm (cls : Nat) (c : Tariff) (s : State) (h : PreviewForm s) :
    PreviewForm (tariffDefineMessage cls c s) := by
  obtain ⟨hshow, hform, hlaw⟩ := h
  exact ⟨previews_showingLaw.tariff (fun _ _ _ => showingLaw_of_frame rfl) cls c s hshow,
    charges_tariffsForm.tariff setTariff_form cls c s hform, tariffDefineMessage_previewLaw cls c s hshow hform hlaw⟩

/-- Metering afresh (R124, R125). -/
theorem previewLaw_of_fresh {s t : State} (he : t.showings.events =
    s.showings.events.map fun e => { e with preview := .untouched, viewed := 0, cells := 0 }) : PreviewLaw t := by
  intro e hm
  rw [he] at hm
  obtain ⟨x, -, rfl⟩ := List.mem_map.1 hm
  exact ⟨fun _ => rfl, fun c _ => ⟨Nat.zero_le _, fun hp => nomatch hp⟩⟩

theorem checkOut_previewForm (s : State) (h : PreviewForm s) : PreviewForm (checkOut s) := by
  obtain ⟨hshow, hform, -⟩ := h
  exact ⟨checkOut_showingLaw s hshow, by simpa [TariffsForm] using hform,
    previewLaw_of_fresh (s := s) (by rw [← accountCheckOut_events]; simp [checkOut])⟩

theorem checkIn_previewForm (b : CheckinBody) (night : Option Half) (s : State) (h : PreviewForm s) :
    PreviewForm (checkIn b night s) := by
  obtain ⟨hshow, hform, -⟩ := h
  exact ⟨checkIn_showingLaw b night s hshow, by simpa [TariffsForm] using hform,
    previewLaw_of_fresh (s := s) (by rw [← accountCheckIn_events b night]; simp [checkIn])⟩

/-- A maintenance reset lists no event (R88). -/
theorem maintMessage_previewForm (tag : Half) (s : State) (h : PreviewForm s) : PreviewForm (maintMessage tag s) := by
  obtain ⟨hshow, hform, hlaw⟩ := h
  refine ⟨maintMessage_showingLaw tag s hshow, maintMessage_tariffs tag s hform, ?_⟩
  unfold maintMessage
  split
  · exact hlaw
  · exact fun _ he => nomatch he

theorem dispatch_previewForm (a : AddressType) (m : Message) (s : State) (h : PreviewForm s) : PreviewForm (dispatch a m s) := by
  cases m with
  | listing l => exact foldl_keeps _ (fun s r => takeListing_previewForm r s) l s h
  | tariffDefine cls c => exact tariffDefineMessage_previewForm cls c s h
  | tariffDelete cls => exact setTariff_none_previewForm cls s h
  | serviceDelete v => exact previewForm_of_sublist (s := s) (by simp [dispatch]) List.filter_sublist h
  | checkin b =>
    exact checkinMessage_keeps (fun _ => previewForm_of_frame (by simp) (by simp)) checkOut_previewForm checkIn_previewForm b _ s h
  | checkout n => exact checkoutMessage_keeps (fun _ => previewForm_of_frame (by simp) (by simp)) checkOut_previewForm n s h
  | maint tag => exact maintMessage_previewForm tag s h
  | _ => exact previewForm_of_frame (by simp [dispatch, pricingMessage]) (by simp [dispatch]) h

/-! #### Every step -/

theorem answerRequest_previewForm (k : Nat) (q : Request) (s : State) : PreviewForm s → PreviewForm (answerRequest k q s).1 :=
  answerRequest_keeps commit_previewForm (fun _ _ _ => previewForm_of_frame rfl rfl)
    (fun _ _ _ => previewForm_of_frame (by simp) (by simp)) (fun _ _ => previewForm_of_frame (by simp) (by simp))
    (fun _ => previewForm_of_frame rfl rfl) k q s

theorem accountMinute_previewForm (s : State) (h : PreviewForm s) : PreviewForm (accountMinute s) := by
  obtain ⟨hshow, hform, hlaw⟩ := h
  exact previewForm_of_frame (s := removeExpired s) (by simp) (accountMinute_events s)
    ⟨removeExpired_showingLaw s hshow, by simpa [TariffsForm] using hform, (removeExpired_closing s).previewLaw hlaw⟩

/-- Metering changes at the second timer, at evaluations and at the messages that list, define and reset; previews end also at
commits and at the removal of a purchase. -/
theorem kept_previewForm : Kept PreviewForm where
  queue _ _ := previewForm_of_frame rfl rfl
  power _ _ _ _ := ⟨showingLaw_reset, rfl, fun _ he => nomatch he⟩
  resetUnits _ := previewForm_of_frame rfl rfl
  resetPath _ := previewForm_of_frame (by simp) (by simp)
  image _ _ := previewForm_of_frame (by simp) (by simp)
  journal _ _ := previewForm_of_frame rfl rfl
  stay _ _ _ := previewForm_of_frame (by simp) (by simp)
  handOff x s _ := decodeHandOff_keeps (P := PreviewForm) (fun _ => previewForm_of_frame rfl rfl)
    (fun _ => previewForm_of_frame (by simp) (by simp)) (fun _ => previewForm_of_frame (by simp) (by simp))
    (fun _ _ => previewForm_of_frame (by simp) (by simp)) dispatch_previewForm
    (fun _ => previewForm_of_frame (by simp) (by simp)) x s
  accept := acceptTransaction_keeps (fun _ _ => previewForm_of_frame rfl rfl)
    (fun _ _ _ => previewForm_of_frame (by simp) (by simp)) (fun _ => previewForm_of_frame (by simp) (by simp))
    answerRequest_previewForm
  grant := grantPassing_keeps verdictOf_previewForm (fun _ _ _ _ => previewForm_of_frame (by simp) (by simp))
    (fun _ _ => previewForm_of_frame rfl rfl)
  issue _ _ := previewForm_of_frame (by simp) (by simp)
  spend _ := previewForm_of_frame rfl rfl
  waiting _ _ := previewForm_of_frame rfl rfl
  passing _ _ _ := previewForm_of_frame (by simp) (by simp)
  inserted _ _ _ := previewForm_of_frame (by simp) (by simp)
  tokens _ _ := previewForm_of_frame rfl rfl
  second _ := previewForm_of_frame (by simp) (by simp)
  due _ _ _ _ := previewForm_of_frame rfl rfl
  meter := meterSecond_previewForm
  account := accountMinute_previewForm
  keys _ := previewForm_of_frame rfl rfl
  showings s := previewForm_of_sublist (by simp) (retireEvents_sublist s)
  lock _ := previewForm_of_frame (by simp) (by simp)
  page _ _ _ := previewForm_of_frame (by simp) (by simp)
  fault _ _ _ := previewForm_of_frame (by simp) (by simp)

/-- Settles O59: the law for previews is kept, with what keeps it, by every move a step is made of. -/
theorem previewLawKept : Obligations.PreviewLawKept := by
  intro s t hshow ⟨_, _, htariffs, _, _⟩ hlaw hstep
  obtain ⟨-, -, hkept⟩ := step_keeps kept_previewForm s t ⟨hshow, htariffs, hlaw⟩ hstep
  exact hkept

end Sys2Proof.Machine

/-! ### The second timer (R141, R143, R144) -/

namespace Sys2Proof.Machine

/-! #### Seconds at which no preview ends -/

/-- An event after a second at which it does not reach its allowance. -/
def secondPassed (s : State) (e : EventRecord) : EventRecord :=
  { e with viewed := if countsSecond s e then e.viewed + 1 else e.viewed, cells := 0 }

/-- Whether an event counts is read outside the table. -/
theorem secondPassed_updateEvent (id : Half) (f : EventRecord → EventRecord) (s : State) :
    secondPassed (updateEvent id f s) = secondPassed s := rfl

/-- Where the one listed event of an id does not reach its allowance, the second changes that event alone. -/
theorem meterEvent_still (s : State) (id : Half) (hshow : ShowingLaw s)
    (hbelow : ∀ e ∈ s.showings.events, e.id = id → countsSecond s e = true →
      (tariffOf s e.tariffClass).map Tariff.allowance ≠ some (e.viewed + 1)) :
    meterEvent id s = updateEvent id (secondPassed s) s := by
  have hsame : ∀ f g : EventRecord → EventRecord, (∀ e ∈ s.showings.events, e.id = id → f e = g e) →
      updateEvent id f s = updateEvent id g s := by
    intro f g hfg
    refine congrArg (fun l => setEvents l s) (List.map_congr_left fun x hx => ?_)
    by_cases hid : x.id = id
    · simp only [if_pos hid, hfg x hx hid]
    · simp only [if_neg hid]
  cases he : findEvent s id with
  | none =>
    rw [meterEvent_none s id he]
    have hnone := (findEvent_none s id).1 he
    rw [hsame (secondPassed s) (fun x => x) fun e hm hid => absurd hid (hnone e hm)]
    simp [updateEvent, setEvents]
  | some e =>
    obtain ⟨hstill, hcounted, -⟩ := meterEvent_spec s id e he
    have honly : ∀ x ∈ s.showings.events, x.id = id → x = e := fun x hx hid =>
      Option.some.inj (((findEvent_some s id hshow x).2 ⟨hx, hid⟩).symm.trans he)
    cases hk : countsSecond s e with
    | false =>
      rw [hstill hk]
      refine hsame _ _ fun x hx hid => ?_
      rw [honly x hx hid]
      simp [secondPassed, hk]
    | true =>
      rw [hcounted hk (hbelow e (List.mem_of_find?_eq_some he) (findEvent_id he) hk)]
      refine hsame _ _ fun x hx hid => ?_
      rw [honly x hx hid]
      simp [secondPassed, hk]

/-- The events in turn, where none reaches its allowance: each has its second. -/
theorem meterEvents_still (ids : List Half) (hn : ids.Nodup) (s : State) (hshow : ShowingLaw s)
    (hbelow : ∀ e ∈ s.showings.events, e.id ∈ ids → countsSecond s e = true →
      (tariffOf s e.tariffClass).map Tariff.allowance ≠ some (e.viewed + 1)) :
    ids.foldl (fun s id => meterEvent id s) s =
      setEvents (s.showings.events.map fun x => if x.id ∈ ids then secondPassed s x else x) s := by
  induction ids generalizing s with
  | nil => simp [setEvents]
  | cons id rest ih =>
    obtain ⟨hid, hrest⟩ := List.nodup_cons.1 hn
    have hfirst := meterEvent_still s id hshow fun e he hid => hbelow e he (by simp [hid])
    have hothers : ∀ e ∈ (updateEvent id (secondPassed s) s).showings.events, e.id ∈ rest → e ∈ s.showings.events := by
      intro e he hr
      rw [updateEvent_events] at he
      obtain ⟨x, hx, rfl⟩ := List.mem_map.1 he
      by_cases hxid : x.id = id
      · simp only [hxid, if_true] at hr
        exact absurd hr (by simpa [secondPassed, hxid] using hid)
      · simpa only [if_neg hxid] using hx
    rw [List.foldl_cons, hfirst, ih hrest (updateEvent id (secondPassed s) s)
      (updateEvent_showingLaw id _ s (fun _ => ⟨rfl, rfl⟩) hshow) fun e he hr => hbelow e (hothers e he hr) (List.mem_cons_of_mem _ hr)]
    refine congrArg (fun l => setEvents l s) ?_
    rw [updateEvent_events, List.map_map]
    refine List.map_congr_left fun x _ => ?_
    by_cases hx : x.id = id
    · have hnot : (secondPassed s x).id ∉ rest := fun hr => hid (hx ▸ hr)
      simp [hx, hnot]
    · simp [hx, secondPassed_updateEvent]

theorem meterSecond_still (s : State) (hshow : ShowingLaw s) (hbelow : ∀ e ∈ s.showings.events, countsSecond s e = true →
    (tariffOf s e.tariffClass).map Tariff.allowance ≠ some (e.viewed + 1)) :
    meterSecond s = setEvents (s.showings.events.map (secondPassed s)) s := by
  have hall := meterEvents_still (s.showings.events.map EventRecord.id) hshow.2.1 s hshow fun e he _ => hbelow e he
  refine hall.trans (congrArg (fun l => setEvents l s) (List.map_congr_left fun x hx => ?_))
  exact if_pos (List.mem_map_of_mem hx)

/-! #### The one event of a table, at its allowance -/

/-- The one event listed, after a change of it. -/
theorem updateEvent_single (f : EventRecord → EventRecord) (s : State) (e : EventRecord) (he : s.showings.events = [e]) :
    updateEvent e.id f s = setEvents [f e] s := by simp [updateEvent, he]

/-- A successful commit for the one event listed leaves it PAID (R137). -/
theorem commit_paid_single (k : Option Nat) (s : State) (e : EventRecord) (he : s.showings.events = [e])
    (hr : (commit e.id k s).2 = none) : (commit e.id k s).1.showings.events = [{ e with preview := .paid }] := by
  rcases commit_cases e.id k s with ⟨x, hc⟩ | ⟨x, hc⟩ | ⟨x, c, hp, hc⟩
  · rw [hc] at hr
    cases hr
  · rw [hc] at hr
    cases hr
  · rw [hc, commitEffects_events, removeExpired_events, he, findEvent_id hp.listed]
    simp only [List.map_cons, List.map_nil]
    split <;> simp

/-- The second at which the one event listed reaches its allowance: its preview ends on the state with that second counted, and its
count returns to 0 (R141, R143). -/
theorem meterSecond_single (s : State) (e : EventRecord) (c : Tariff) (he : s.showings.events = [e]) (hk : countsSecond s e = true)
    (hc : tariffOf s e.tariffClass = some c) (ha : c.allowance = e.viewed + 1) :
    ∃ t, EndsPreview e.id c.mode (setEvents [{ e with viewed := c.allowance }] s) t ∧
      meterSecond s = updateEvent e.id (fun x => { x with cells := 0 }) t := by
  obtain ⟨-, -, hends⟩ := meterEvent_spec s e.id e (by simp [findEvent, he])
  obtain ⟨t, hend, hmeter⟩ := hends c hk hc ha
  rw [updateEvent_single _ s e he, ← ha] at hend
  refine ⟨t, hend, ?_⟩
  unfold meterSecond
  rw [he]
  exact hmeter

/-- Under CONFIRM the second leaves the event SPENT and held (R144). -/
theorem meterSecond_confirm (s : State) (e : EventRecord) (c : Tariff) (ht : TablesLaw s) (he : s.showings.events = [e])
    (hk : countsSecond s e = true) (hc : tariffOf s e.tariffClass = some c) (ha : c.allowance = e.viewed + 1)
    (hm : c.mode = .confirm) :
    meterSecond s = { s with
      showings := { s.showings with events := [{ e with preview := .spent, viewed := c.allowance, cells := 0 }] }
      account := { s.account with held := some { event := e.id, cause := .confirm } }
      report := (meterSecond s).report } ∧ Marks s (meterSecond s) (fun _ => False) fun n => n = 1 := by
  obtain ⟨t, ⟨hconfirm, -⟩, hmeter⟩ := meterSecond_single s e c he hk hc ha
  obtain ⟨hstate, hmarks⟩ := hconfirm hm
  rw [hmeter]
  refine ⟨?_, hmarks ht⟩
  generalize t.report = l at hstate
  subst hstate
  simp [updateEvent, setEvents]

/-- Under AUTO a commit that passes is the end of the preview, and the event is PAID (R143). -/
theorem meterSecond_paid (s : State) (e : EventRecord) (c : Tariff) (he : s.showings.events = [e]) (hk : countsSecond s e = true)
    (hc : tariffOf s e.tariffClass = some c) (ha : c.allowance = e.viewed + 1) (hm : c.mode = .auto)
    (hpaid : (commit e.id none (setEvents [{ e with viewed := c.allowance }] s)).2 = none) :
    meterSecond s = setEvents [{ e with preview := .paid, viewed := c.allowance, cells := 0 }]
      (commit e.id none (setEvents [{ e with viewed := c.allowance }] s)).1 := by
  obtain ⟨t, ⟨-, hauto⟩, hmeter⟩ := meterSecond_single s e c he hk hc ha
  rw [hmeter, (hauto hm).1 hpaid]
  exact updateEvent_single _ _ { e with viewed := c.allowance, preview := .paid }
    (commit_paid_single (e := { e with viewed := c.allowance }) none _ rfl hpaid)

/-- A commit that is refused leaves it SPENT and held with the reason (R144). -/
theorem meterSecond_refused (s : State) (e : EventRecord) (c : Tariff) (ht : TablesLaw s) (he : s.showings.events = [e])
    (hk : countsSecond s e = true) (hc : tariffOf s e.tariffClass = some c) (ha : c.allowance = e.viewed + 1)
    (hm : c.mode = .auto) (u : State) (r : Reason)
    (hr : commit e.id none (setEvents [{ e with viewed := c.allowance }] s) = (u, some r)) :
    meterSecond s = { u with
      showings := { u.showings with events := [{ e with preview := .spent, viewed := c.allowance, cells := 0 }] }
      account := { u.account with held := some { event := e.id, cause := .refused r } }
      report := (meterSecond s).report } ∧ Marks u (meterSecond s) (fun _ => False) fun n => n = 1 := by
  obtain ⟨t, hend, hmeter⟩ := meterSecond_single s e c he hk hc ha
  rw [hm] at hend
  obtain ⟨hstate, hmarks⟩ := endsPreview_refused_single (e := { e with viewed := c.allowance }) (r := r) hend ht rfl (by rw [hr])
  rw [hr] at hstate hmarks
  rw [hmeter]
  refine ⟨?_, hmarks⟩
  generalize t.report = l at hstate
  subst hstate
  simp [updateEvent, setEvents]

/-- Settles O47: what counts, the seconds at which no preview ends, one event on every state, and the one event of a table. -/
theorem secondTimerMeters : Obligations.SecondTimerMeters := by
  have hexec : ∀ s : State, s.decoder.handOff = none → s.path.mode = .run → 0 < s.time.secondDue →
      exec .accountSecondTimer s = .next (meterSecond { s with time := { s.time with secondDue := s.time.secondDue - 1 } }) :=
    fun s hm hr hd => exec_expiry _ _ meterSecond s hm hr hd
  refine ⟨countsSecond_iff, fun s hm hr hd hshow hbelow => ?_, hexec, meterEvent_none, fun s id e he => meterEvent_spec s id e he, ?_⟩
  · rw [hexec s hm hr hd]
    exact congrArg Host.Outcome.next (meterSecond_still _ hshow hbelow)
  · intro s e c hm hr hd ht hone hk hc ha timed
    refine ⟨fun hmode => ⟨_, hexec s hm hr hd, meterSecond_confirm { s with time := timed } e c ht hone hk hc ha hmode⟩,
      fun hmode => ⟨fun hpaid => ?_, fun r hr' => ?_⟩⟩
    · rw [hexec s hm hr hd]
      exact congrArg Host.Outcome.next (meterSecond_paid { s with time := timed } e c hone hk hc ha hmode hpaid)
    · exact ⟨_, hexec s hm hr hd, meterSecond_refused { s with time := timed } e c ht hone hk hc ha hmode _ r
        (Prod.ext rfl hr')⟩

end Sys2Proof.Machine

/-! ### The ends of jobs and the entry into FAULT (R153, R154, R171, R178, R183) -/

namespace Sys2Proof.Machine

/-! #### Deferred results (R171) -/

theorem carrierInProgress_iff (s : State) (k : Nat) :
    carrierInProgress s k = true ↔ ∃ w, s.path.passing = some (.write w (some k)) := by
  unfold carrierInProgress
  split
  · rename_i w j hp
    simp [hp]
  · rename_i hp
    simp only [Bool.false_eq_true, false_iff, not_exists]
    exact fun w => hp w k

theorem carrierInProgress_congr {s t : State} (h : t.path.passing = s.path.passing) (k : Nat) :
    carrierInProgress t k = carrierInProgress s k := by
  unfold carrierInProgress
  rw [h]

/-- The same answer for the slots of pending buys, one entry after another. -/
def deliverAll (a : Answer) (l : List PendingBuy) (s : State) : State := l.foldl (fun s e => deliverResult e.slot a s) s

/-- A result that can go joins the insertion queue; only the held results may change beside. -/
theorem deliverResult_eq (k : Nat) (a : Answer) (s : State) : ∃ held, deliverResult k a s = { s with
    path := { s.path with results := s.path.results ++
      if carrierInProgress s k then [] else [{ slot := k, answer := a, attention := true }] }
    requests := { s.requests with heldResults := held } } := by
  unfold deliverResult
  split
  · exact ⟨_, by simp [setHeldResult]; rfl⟩
  · exact ⟨s.requests.heldResults, rfl⟩

/-- The results that can go join the insertion queue in the order of the list. -/
theorem deliverAll_eq (a : Answer) (l : List PendingBuy) (s : State) : ∃ held, deliverAll a l s = { s with
    path := { s.path with results := s.path.results ++ (l.filter fun e => !carrierInProgress s e.slot).map fun e =>
      { slot := e.slot, answer := a, attention := true } }
    requests := { s.requests with heldResults := held } } := by
  induction l generalizing s with
  | nil => exact ⟨s.requests.heldResults, by simp [deliverAll]⟩
  | cons e rest ih =>
    have hcarrier : ∀ k, carrierInProgress (deliverResult e.slot a s) k = carrierInProgress s k :=
      carrierInProgress_congr (by simp)
    obtain ⟨first, hfirst⟩ := deliverResult_eq e.slot a s
    obtain ⟨held, hrest⟩ := ih (deliverResult e.slot a s)
    refine ⟨held, hrest.trans ?_⟩
    simp only [hcarrier]
    rw [hfirst]
    cases hc : carrierInProgress s e.slot <;> simp [hc]

theorem heldResult_setHeldResult_same (k : Nat) (a : Option Answer) (s : State) (h : HeldForm s) :
    heldResult (setHeldResult k a s) k = a := Sparse.read_write_same _ _ _ _ h

theorem heldResult_setHeldResult_other (k i : Nat) (a : Option Answer) (s : State) (h : HeldForm s) (hi : i ≠ k) :
    heldResult (setHeldResult k a s) i = heldResult s i := Sparse.read_write_other _ _ _ _ _ h hi

theorem heldResult_deliverResult (k : Nat) (a : Answer) (s : State) (h : HeldForm s) (i : Nat) :
    heldResult (deliverResult k a s) i = if carrierInProgress s i && k == i then some a else heldResult s i := by
  unfold deliverResult
  by_cases hk : k = i
  · subst hk
    split
    · simp [*, heldResult_setHeldResult_same k _ s h]
    · simp [*, heldResult]
  · split
    · simp [hk, heldResult_setHeldResult_other k i _ s h (Ne.symm hk)]
    · simp [hk, heldResult]

/-- The results that have to wait are held, each for its slot. -/
theorem heldResult_deliverAll (a : Answer) (l : List PendingBuy) (s : State) (h : HeldForm s) (i : Nat) :
    heldResult (deliverAll a l s) i = if carrierInProgress s i && l.any (fun e => e.slot == i) then some a else heldResult s i := by
  induction l generalizing s with
  | nil => simp [deliverAll]
  | cons e rest ih =>
    have hcarrier : carrierInProgress (deliverResult e.slot a s) i = carrierInProgress s i :=
      carrierInProgress_congr (by simp) i
    have hrest := ih (deliverResult e.slot a s) (deliverResult_held e.slot a s h)
    rw [hcarrier, heldResult_deliverResult e.slot a s h i] at hrest
    refine hrest.trans ?_
    cases carrierInProgress s i <;> cases he : e.slot == i <;> simp [he]

/-! #### The entry into FAULT (R154, R178) -/

/-- An event of the page write in progress, with no message waiting for the Decoder. -/
theorem exec_onPageWrite (act : InFlight → State → State) (s : State) (f : InFlight) (hm : s.decoder.handOff = none)
    (hf : s.store.inFlight = some f) : afterMessage (onPageWrite act) s = .next (act f s) := by
  rw [afterMessage_of_none _ s hm, onPageWrite, hf]

/-- The answer of a buy lost to FAULT (R154). -/
abbrev answerLost : Answer := { result := .volatile, reason := some .storeFault }

/-- The store in FAULT with its jobs discarded, the EEPROM, the dirty set and the count of free values as given (R178). -/
def inFault (bytes : List Host.Cell) (marks : List (Nat × Option Bool)) (count : Nat) (s : State) : State := { s with
  store := { s.store with state := .fault, queue := [], heldOver := [], inFlight := none, eeprom := bytes }
  report := marks
  freeCount := count }

theorem enterFault_eq (f : InFlight) (s : State) : ∃ bytes marks count, enterFault f s =
    deliverAll answerLost s.account.pendingBuys (withPendingBuys [] (inFault bytes marks count s)) := by
  unfold enterFault
  simp only [setEeprom]
  rw [setStoreState_eq]
  exact ⟨_, _, _, rfl⟩

/-- The entry into FAULT from another state marks line 0 with attention (R180). -/
theorem marks_enterFault (f : InFlight) (s : State) (h : s.store.state ≠ .fault) :
    Marking noLine (fun n => n = 0) s (enterFault f s) := by
  have hentered : ∀ x : State, x.report = s.report → x.store.state = s.store.state →
      Marking noLine (fun n => n = 0) s (setStoreState .fault x) := by
    intro x hr hs
    unfold setStoreState
    rw [if_neg (hs ▸ h)]
    exact (marks_markAttention 0 _).after hr
  unfold enterFault
  refine Marking.before (hentered _ ?_ ?_) (voidPendingBuys_report _) <;> simp

/-- Every byte outside the page that overran is kept. -/
theorem enterFault_otherPages (f : InFlight) (s : State) (h : Eeprom.wf s.store.eeprom = true) (a : Nat)
    (ha : a / 32 ≠ f.current.page) : storeByte (enterFault f s) a = storeByte s a := by
  unfold storeByte
  rw [enterFault_eeprom, writePage, read_writeStore _ _ _ _ h]
  refine if_neg fun hin => ha ?_
  simp only [overrunPage, List.length_map, List.length_range] at hin
  omega

/-- Settles O51: the store in FAULT, and then a VOLATILE result for each pending buy. -/
theorem storeFaultDiscardsJobs : Obligations.StoreFaultDiscardsJobs := by
  intro s f hm hf ⟨_, hreport, _, _, hheld⟩ hstate
  obtain ⟨bytes, marks, count, hentry⟩ := enterFault_eq f s
  obtain ⟨held, hall⟩ := deliverAll_eq answerLost s.account.pendingBuys (withPendingBuys [] (inFault bytes marks count s))
  have hresults := heldResult_deliverAll answerLost s.account.pendingBuys (withPendingBuys [] (inFault bytes marks count s)) hheld
  refine ⟨enterFault f s, exec_onPageWrite enterFault s f hm hf, ?_, ?_, (marks_enterFault f s hstate).marks hreport,
    fun hmem => enterFault_otherPages f s hmem.2⟩ <;> rw [hentry]
  · rw [hall]
    rfl
  · exact hresults

end Sys2Proof.Machine

namespace Sys2Proof.Machine

/-! #### Pending buys that settle (R153) -/

/-- Whether both marks of a pending buy are yes. -/
def PendingBuy.whole (e : PendingBuy) : Bool := e.journalMark && e.stayMark

/-- The answer of a buy whose jobs are complete (R153). -/
abbrev answerStored : Answer := { result := .done, reason := none }

/-- From `s` to `t` the entries of this list whose two marks are yes have left it, each with a DONE result: in the insertion queue, or held
while the write that carried its BUY is in progress (R153, R171). -/
def Settled (l : List PendingBuy) (s t : State) : Prop :=
  t.account.pendingBuys = (l.filter fun e => !e.whole) ∧
    t.path = { s.path with results := s.path.results ++
      ((l.filter PendingBuy.whole).filter fun e => !carrierInProgress s e.slot).map fun e =>
        { slot := e.slot, answer := answerStored, attention := true } } ∧
    t.requests = { s.requests with heldResults := t.requests.heldResults } ∧
    ∀ k, heldResult t k = if carrierInProgress s k && (l.filter PendingBuy.whole).any (fun e => e.slot == k) then some answerStored
      else heldResult s k

/-- Settling looks at the path and the requests before, and at these and the list behind. -/
theorem Settled.of_eq {l : List PendingBuy} {s s' t t' : State} (h : Settled l s t) (hpath : s'.path = s.path)
    (hrequests : s'.requests = s.requests) (hpath' : t'.path = t.path) (hrequests' : t'.requests = t.requests)
    (haccount' : t'.account = t.account) : Settled l s' t' := by
  unfold Settled heldResult carrierInProgress at *
  rw [hpath, hrequests, hpath', hrequests', haccount']
  exact h

theorem settlePendingBuys_eq (l : List PendingBuy) (s : State) : settlePendingBuys (withPendingBuys l s) =
    deliverAll answerStored (l.filter PendingBuy.whole) (withPendingBuys (l.filter fun e => !e.whole) s) := rfl

theorem settlePendingBuys_settled (l : List PendingBuy) (s : State) (h : HeldForm s) :
    Settled l s (settlePendingBuys (withPendingBuys l s)) := by
  obtain ⟨held, hall⟩ := deliverAll_eq answerStored (l.filter PendingBuy.whole) (withPendingBuys (l.filter fun e => !e.whole) s)
  have hresults := heldResult_deliverAll answerStored (l.filter PendingBuy.whole) (withPendingBuys (l.filter fun e => !e.whole) s) h
  rw [settlePendingBuys_eq]
  refine ⟨?_, ?_, ?_, hresults⟩ <;> rw [hall] <;> rfl

/-- Settling changes the list, the results in the queue and the held ones alone. -/
theorem settlePendingBuys_changes (l : List PendingBuy) (s : State) : ∃ rest path held,
    settlePendingBuys (withPendingBuys l s) =
      { withPendingBuys rest s with path := path, requests := { s.requests with heldResults := held } } := by
  obtain ⟨held, hall⟩ := deliverAll_eq answerStored (l.filter PendingBuy.whole) (withPendingBuys (l.filter fun e => !e.whole) s)
  exact ⟨_, _, held, hall⟩

/-! #### The report of a job (R162, R183) -/

/-- The record of a sequence number is stored; no other changes. -/
theorem markStored_eq (n : Nat) (s : State) : markStored n s = { s with
    journal := { s.journal with records := s.journal.records.map fun r => if r.sequence = n then { r with stored := true } else r }
    report := (markStored n s).report } := by
  unfold markStored
  split
  · rfl
  · rename_i hnone
    have hne : ∀ r ∈ s.journal.records, r.sequence ≠ n := by simpa using hnone
    rw [(List.map_congr_left fun r hr => if_neg (hne r hr)).trans (List.map_id' _)]

/-- The marks of pending buys at the completion of a JOURNAL job (R153). -/
def journalMarked (n : Nat) (l : List PendingBuy) : List PendingBuy :=
  l.map fun e => if e.sequence = some n then { e with journalMark := true } else e

/-- The marks of pending buys at the completion of a STAY job: a generation half the range behind or less is reached (R152, R153). -/
def stayMarked (g : BitVec 32) (l : List PendingBuy) : List PendingBuy :=
  l.map fun e => if (g - e.needed).toNat ≤ 2147483647 then { e with stayMark := true } else e

theorem reportJob_journal (n : Nat) (s : State) : reportJob (.journal n) s =
    settlePendingBuys (withPendingBuys (journalMarked n s.account.pendingBuys) (markStored n s)) := by
  have haccount : (markStored n s).account = s.account := by simp
  rw [← haccount]
  rfl

theorem reportJob_stay (g : BitVec 32) (s : State) : reportJob (.stay g) s =
    settlePendingBuys (withPendingBuys (stayMarked g s.account.pendingBuys) s) := by
  simp only [reportJob, markStayDone, generationReached, decide_eq_true_eq]
  rfl

/-- A report reaches the pending buys and their results, the records and the dirty set, and nothing else. -/
theorem reportJob_eq (r : JobReport) (s : State) : reportJob r s = { s with
    path := (reportJob r s).path
    account := { s.account with pendingBuys := (reportJob r s).account.pendingBuys }
    journal := { s.journal with records := (reportJob r s).journal.records }
    requests := (reportJob r s).requests
    report := (reportJob r s).report } := by
  cases r with
  | mark => rfl
  | stay g =>
    obtain ⟨rest, path, held, h⟩ := settlePendingBuys_changes (stayMarked g s.account.pendingBuys) s
    rw [reportJob_stay, h]
    rfl
  | journal n =>
    obtain ⟨rest, path, held, h⟩ := settlePendingBuys_changes (journalMarked n s.account.pendingBuys) (markStored n s)
    rw [reportJob_journal, h, markStored_eq]
    rfl

/-- A report marks the line of the record it stores, without attention (R162). -/
theorem marks_reportJob (r : JobReport) (s : State) : Marking
    (fun n => ∃ c ∈ s.journal.records, r = .journal c.sequence ∧ n = 21 + c.sequence % 32) noLine s (reportJob r s) := by
  cases r with
  | mark => exact (Marking.of_eq rfl).congr (by simp) (by simp)
  | stay g => exact (Marking.of_eq (by simp [reportJob])).congr (by simp) (by simp)
  | journal q =>
    refine ((marks_markStored q s).before (by simp [reportJob])).congr (fun n => ?_) fun _ => Iff.rfl
    refine exists_congr fun c => and_congr_right fun _ => ?_
    simp only [JobReport.journal.injEq]
    exact ⟨fun ⟨hq, hn⟩ => ⟨hq.symm, hq ▸ hn⟩, fun ⟨hq, hn⟩ => ⟨hq.symm, hq ▸ hn⟩⟩

theorem reportJob_journal_records (n : Nat) (s : State) : (reportJob (.journal n) s).journal.records =
    s.journal.records.map fun r => if r.sequence = n then { r with stored := true } else r := by
  obtain ⟨rest, path, held, h⟩ := settlePendingBuys_changes (journalMarked n s.account.pendingBuys) (markStored n s)
  rw [reportJob_journal, h, markStored_eq]
  rfl

theorem reportJob_journal_settled (n : Nat) (s : State) (h : HeldForm s) :
    Settled (journalMarked n s.account.pendingBuys) s (reportJob (.journal n) s) := by
  rw [reportJob_journal]
  refine (settlePendingBuys_settled _ (markStored n s) (by rw [markStored_eq]; exact h)).of_eq ?_ ?_ rfl rfl rfl <;> simp

theorem reportJob_stay_settled (g : BitVec 32) (s : State) (h : HeldForm s) :
    Settled (stayMarked g s.account.pendingBuys) s (reportJob (.stay g) s) := by
  rw [reportJob_stay]
  exact settlePendingBuys_settled _ s h

/-! #### The next job (R180, R183) -/

theorem nextJob_empty (s : State) (h : s.store.queue = []) : nextJob s = setStoreState .ready (setInFlight none s) := if_pos h

theorem nextJob_first (s : State) (j : Job) (rest : List Job) (h : s.store.queue = j :: rest) :
    nextJob s = setStoreState .busy (launchJob j { s with store := { s.store with
      inFlight := none, queue := rest ++ (s.store.heldOver.take 1).map HeldJob.job, heldOver := s.store.heldOver.drop 1 } }) := by
  have hbegin : nextJob s = beginJob (setInFlight none s) := if_neg (by simp [setInFlight, h])
  exact hbegin.trans (beginJob_first (setInFlight none s) j rest h)

/-- The next job moves the dirty set and the store alone. -/
theorem nextJob_eq (s : State) : nextJob s = { s with report := (nextJob s).report, store := (nextJob s).store } := by
  cases hq : s.store.queue with
  | nil =>
    rw [nextJob_empty s hq, setStoreState_eq]
    rfl
  | cons j rest =>
    rw [nextJob_first s j rest hq, setStoreState_eq, launchJob_eq]

/-- Without a waiting job the store returns to READY. -/
theorem nextJob_empty_store (s : State) (h : s.store.queue = []) :
    (nextJob s).store = { s.store with inFlight := none, state := .ready } := by
  rw [nextJob_empty s h, setStoreState_eq]
  rfl

/-- The oldest waiting job begins, its snapshot taken of everything but the store. -/
theorem nextJob_first_store (s : State) (j : Job) (rest : List Job) (h : s.store.queue = j :: rest) :
    (nextJob s).store = { (launchJob j s).store with
      state := .busy
      queue := rest ++ (s.store.heldOver.take 1).map HeldJob.job
      heldOver := s.store.heldOver.drop 1 } := by
  rw [nextJob_first s j rest h, setStoreState_eq]
  cases j <;> rfl

/-! #### The completion of a job -/

/-- The state between a job's last page and the next job: the page is stored and the job is reported (R177, R183). -/
def reported (f : InFlight) (s : State) : State := reportJob f.report (setEeprom (writePage f.current s.store.eeprom) s)

theorem completeJob_reported (f : InFlight) (s : State) : completeJob f s = nextJob (reported f s) := rfl

theorem reported_store (f : InFlight) (s : State) :
    (reported f s).store = { s.store with eeprom := writePage f.current s.store.eeprom } :=
  congrArg State.store (reportJob_eq f.report (setEeprom (writePage f.current s.store.eeprom) s))

theorem completeJob_eq (f : InFlight) (s : State) : completeJob f s = { s with
    path := (completeJob f s).path
    account := { s.account with pendingBuys := (completeJob f s).account.pendingBuys }
    journal := { s.journal with records := (completeJob f s).journal.records }
    requests := (completeJob f s).requests
    report := (completeJob f s).report
    store := (completeJob f s).store } := by
  have hreported := reportJob_eq f.report (setEeprom (writePage f.current s.store.eeprom) s)
  rw [completeJob_reported, nextJob_eq, reported, hreported]
  rfl

theorem marks_completeJob (f : InFlight) (s : State) : Marking
    (fun n => n = 0 ∧ (completeJob f s).store.state ≠ s.store.state ∨
      ∃ r ∈ s.journal.records, f.report = .journal r.sequence ∧ n = 21 + r.sequence % 32) noLine s (completeJob f s) := by
  have hreport := (marks_reportJob f.report (setEeprom (writePage f.current s.store.eeprom) s)).after (s := s) rfl
  refine (hreport.plain (marks_nextJob (reported f s))).congr (fun n => ?_) fun _ => Iff.rfl
  rw [reported_store]
  exact or_comm

/-- The end of a job with none waiting (R180). -/
theorem completeJob_store_empty (f : InFlight) (s : State) (h : s.store.queue = []) : (completeJob f s).store =
    { s.store with inFlight := none, state := .ready, eeprom := (completeJob f s).store.eeprom } := by
  have hnext := nextJob_empty_store (reported f s) (by rw [reported_store]; exact h)
  rw [completeJob_reported, hnext, reported_store]

/-- A snapshot is taken of the blocks and of the stay page number, not of the EEPROM or the dirty set (R182). -/
theorem launchJob_snapshot (j : Job) (s : State) (x : Store) (bytes : List Host.Cell) (marks : List (Nat × Option Bool)) :
    (launchJob j { s with store := { x with eeprom := bytes } }).store =
      { (launchJob j { s with store := x, report := marks }).store with eeprom := bytes } := by
  cases j <;> rfl

/-- The end of a job with others waiting: the oldest begins, on the state after the report (R183). -/
theorem completeJob_store_first (f : InFlight) (s : State) (j : Job) (rest : List Job) (h : s.store.queue = j :: rest) :
    (completeJob f s).store = { (launchJob j { completeJob f s with store := s.store }).store with
      state := .busy
      queue := rest ++ (s.store.heldOver.take 1).map HeldJob.job
      heldOver := s.store.heldOver.drop 1
      eeprom := (completeJob f s).store.eeprom } := by
  have hnext := nextJob_first_store (reported f s) j rest (by rw [reported_store]; exact h)
  have hstate : { completeJob f s with store := s.store } =
      { reported f s with store := s.store, report := (completeJob f s).report } := by
    rw [completeJob_reported, nextJob_eq]
  have hsnap : (launchJob j (reported f s)).store = { (launchJob j { completeJob f s with store := s.store }).store with
      eeprom := writePage f.current s.store.eeprom } := by
    rw [hstate, ← launchJob_snapshot, ← reported_store]
  rw [completeJob_eeprom]
  refine hnext.trans ?_
  rw [hsnap, reported_store]

theorem completeJob_settled {l : List PendingBuy} {f : InFlight} {s : State}
    (h : Settled l (setEeprom (writePage f.current s.store.eeprom) s) (reported f s)) : Settled l s (completeJob f s) := by
  rw [completeJob_reported]
  exact h.of_eq rfl rfl (by simp) (by simp) (by simp)

theorem completeLastPage_last (f : InFlight) (s : State) (h : f.later = []) : completeLastPage f s = completeJob f s := if_pos h

theorem completePage_last (f : InFlight) (s : State) (h : f.later = []) : completePage f s = completeJob f s := by
  unfold completePage
  rw [h]

/-- Settles O50: the report of the job, and then the next job or READY. -/
theorem storeJobCompletes : Obligations.StoreJobCompletes := by
  intro s f hm hf hlast hbusy _ ⟨_, hreport, _, _, hheld⟩
  refine ⟨carrierInProgress_iff s, completeJob f s, ?_, ?_, completeJob_eq f s, (marks_completeJob f s).marks hreport,
    completeJob_store_empty f s, completeJob_store_first f s, fun hmark => ?_, fun n hn => ⟨?_, ?_⟩, fun g hg => ⟨?_, ?_⟩⟩
  · exact (exec_onPageWrite completeLastPage s f hm hf).trans (congrArg _ (completeLastPage_last f s hlast))
  · exact (exec_onPageWrite completePage s f hm hf).trans (congrArg _ (completePage_last f s hlast))
  · rw [completeJob_reported, reported, hmark]
    refine ⟨?_, ?_, ?_, ?_⟩ <;> simp [reportJob, setEeprom]
  · rw [completeJob_reported, reported, hn]
    simpa [setEeprom] using reportJob_journal_records n (setEeprom (writePage f.current s.store.eeprom) s)
  · refine completeJob_settled (l := journalMarked n s.account.pendingBuys) ?_
    unfold reported
    rw [hn]
    exact reportJob_journal_settled n _ hheld
  · rw [completeJob_reported, reported, hg]
    simp [reportJob]
  · refine completeJob_settled (l := stayMarked g s.account.pendingBuys) ?_
    unfold reported
    rw [hg]
    exact reportJob_stay_settled g _ hheld

end Sys2Proof.Machine

/-! ### The charge journal (R157, R163, R186) -/

namespace Sys2Proof.Machine

/-! #### The law on the journal alone -/

/-- The law for the journal, its numbers written as a run (R157). -/
structure Journal.Lawful (j : Journal) : Prop where
  numbers : j.records.map ChargeRecord.sequence = List.range' (j.mark + 1) j.records.length
  next : j.next = j.mark + j.records.length + 1
  places : j.records.length ≤ journalPlaces

theorem journalLaw_iff (s : State) : JournalLaw s ↔ s.journal.Lawful := by
  unfold JournalLaw
  rw [← List.range'_eq_map_range]
  exact ⟨fun ⟨hn, hx, hp⟩ => ⟨hn, hx, hp⟩, fun ⟨hn, hx, hp⟩ => ⟨hn, hx, hp⟩⟩

/-- A record under the next number finds its place at the end (R160). -/
theorem Journal.Lawful.append {j : Journal} (h : j.Lawful) (r : ChargeRecord) (hr : r.sequence = j.next)
    (hp : j.records.length < journalPlaces) : { j with records := j.records ++ [r], next := j.next + 1 : Journal }.Lawful where
  numbers := by
    have hnext : r.sequence = j.mark + 1 + 1 * j.records.length := by rw [hr, h.next]; omega
    simp [h.numbers, hnext, List.range'_concat]
  next := by simp [h.next, Nat.add_assoc]
  places := by simpa using hp

/-- The oldest records leave, and the mark is the number of the last that left (R163). -/
theorem Journal.Lawful.drop {j : Journal} (h : j.Lawful) (k : Nat) (hk : k ≤ j.records.length) :
    { j with records := j.records.drop k, mark := j.mark + k : Journal }.Lawful where
  numbers := by
    simp only [List.map_drop, h.numbers, List.drop_range', List.length_drop]
    congr 1
    omega
  next := by
    have := h.next
    simp only [List.length_drop]
    omega
  places := by
    simp only [List.length_drop]
    exact (Nat.sub_le _ _).trans h.places

/-- The stored flag plays no part in the law (R162). -/
theorem Journal.Lawful.stored {j : Journal} (h : j.Lawful) (n : Nat) :
    { j with records := j.records.map fun r => if r.sequence = n then { r with stored := true } else r : Journal }.Lawful where
  numbers := by
    have hsame : (j.records.map fun r => if r.sequence = n then { r with stored := true } else r).map ChargeRecord.sequence =
        j.records.map ChargeRecord.sequence := by
      rw [List.map_map]
      refine List.map_congr_left fun r _ => ?_
      simp only [Function.comp]
      split <;> rfl
    simpa [hsame] using h.numbers
  next := by simpa using h.next
  places := by simpa using h.places

/-- What an ACK past the mark leaves is the journal without its oldest records (R163). -/
theorem Journal.Lawful.acknowledged {j : Journal} (h : j.Lawful) (a : Nat) (ha : j.mark < a) :
    { j with records := j.records.filter fun r => decide (a < r.sequence), mark := min a (j.next - 1) : Journal }.Lawful := by
  have hkept : j.records.filter (fun r => decide (a < r.sequence)) = j.records.drop (a - j.mark) :=
    filter_sequence j.records j.mark a (h.numbers.trans List.range'_eq_map_range)
  have hnext := h.next
  by_cases hall : a - j.mark ≤ j.records.length
  · have hmark : min a (j.next - 1) = j.mark + (a - j.mark) := by omega
    rw [hkept, hmark]
    exact h.drop _ hall
  · have hmark : min a (j.next - 1) = j.mark + j.records.length := by omega
    rw [hkept, hmark, List.drop_eq_nil_of_le (Nat.le_of_not_le hall), ← List.drop_length (l := j.records)]
    exact h.drop _ (Nat.le_refl _)

theorem Journal.reset_lawful : Journal.reset.Lawful := ⟨rfl, rfl, Nat.zero_le _⟩

/-! #### The mark and a record in their pages (R186) -/

theorem markOf_eq (page : List Byte) :
    markOf page = if wordSum page = 0xA55A ∧ field page 0 4 ≤ 4294967294 then field page 0 4 else 0 := by
  unfold markOf markLimit
  simp only [Bool.and_eq_true, passesCheck_iff, decide_eq_true_eq]

/-- The clock field of a stored record: "clock invalid", or valid with its moment. -/
theorem storedClock_iff (page : List Byte) (clock : Option Moment) : storedClock page = some clock ↔
    (field page 21 1 = 0 ∨ field page 21 1 = 1 ∧ field page 24 2 ≤ 1439) ∧
      clock = if field page 21 1 = 1 then some (momentAt page 22) else none := by
  unfold storedClock
  rw [← field_one]
  split
  · rename_i h0
    simp [h0, eq_comm]
  · rename_i h1
    by_cases hm : field page 24 2 ≤ 1439
    · simp [h1, hm, momentField, momentAt, eq_comm]
    · simp [h1, hm]
  · simp_all

/-- A 16-bit field is 0 as a number exactly if it is 0 as a word. -/
theorem half_ne_zero_iff (page : List Byte) (offset : Nat) :
    BitVec.ofNat 16 (field page offset 2) ≠ 0 ↔ field page offset 2 ≠ 0 := by
  have hlt := field_two_lt page offset
  rw [ne_eq, ne_eq, not_iff_not, ← BitVec.toNat_inj, BitVec.toNat_ofNat, Nat.mod_eq_of_lt hlt]
  rfl

/-- A stored record, every field from its place (13, section 13.5). -/
theorem storedRecord_eq (page : List Byte) (clock : Option Moment) : storedRecord page clock = {
    sequence := field page 0 4
    stay := BitVec.ofNat 16 (field page 4 2)
    event := BitVec.ofNat 16 (field page 6 2)
    title := BitVec.ofNat 32 (field page 8 4)
    amount := field page 12 4
    base := field page 16 2
    percent := field page 18 1
    tax := field page 19 1
    tariffClass := field page 20 1
    clock := clock
    stored := true } := by simp only [storedRecord, field_one]

/-- The record of a slot's page is found where its clock field and its other fields pass. -/
theorem seekRecord_storedRecord (eeprom : List Host.Cell) (n : Nat) (r : ChargeRecord) :
    seekRecord eeprom n = some r ↔ ∃ clock, storedClock (readPage eeprom (journalPage n)) = some clock ∧
      let x := storedRecord (readPage eeprom (journalPage n)) clock
      (passesCheck (readPage eeprom (journalPage n)) ∧ x.sequence = n ∧ x.stay ≠ 0 ∧ x.tariffClass ≤ 7 ∧ 1 ≤ x.amount ∧
        x.amount ≤ 204750 ∧ x.percent ≤ 250 ∧ x.tax ≤ 250) ∧ x = r := by
  unfold seekRecord
  dsimp only
  cases storedClock (readPage eeprom (journalPage n)) with
  | none => simp
  | some clock => simp only [Option.ite_none_right_eq_some, Option.some.injEq, exists_eq_left']

/-- The record numbered `n`, test by test (R186; 13, section 13.5). -/
theorem seekRecord_iff (eeprom : List Host.Cell) (n : Nat) (r : ChargeRecord) : let page := readPage eeprom (18 + n % 64)
    seekRecord eeprom n = some r ↔
      wordSum page = 0xA55A ∧ field page 0 4 = n ∧ field page 4 2 ≠ 0 ∧ field page 20 1 ≤ 7 ∧ 1 ≤ field page 12 4 ∧
        field page 12 4 ≤ 204750 ∧ field page 18 1 ≤ 250 ∧ field page 19 1 ≤ 250 ∧
        (field page 21 1 = 0 ∨ field page 21 1 = 1 ∧ field page 24 2 ≤ 1439) ∧
        r = {
          sequence := n
          stay := BitVec.ofNat 16 (field page 4 2)
          event := BitVec.ofNat 16 (field page 6 2)
          title := BitVec.ofNat 32 (field page 8 4)
          amount := field page 12 4
          base := field page 16 2
          percent := field page 18 1
          tax := field page 19 1
          tariffClass := field page 20 1
          clock := if field page 21 1 = 1 then some (momentAt page 22) else none
          stored := true } := by
  intro page
  have hpage : readPage eeprom (journalPage n) = page := rfl
  rw [seekRecord_storedRecord, hpage]
  simp only [storedRecord_eq, storedClock_iff, passesCheck_iff, half_ne_zero_iff]
  constructor
  · rintro ⟨clock, ⟨hclock, rfl⟩, ⟨hcheck, hn, hstay, hclass, hlow, hhigh, hpercent, htax⟩, rfl⟩
    exact ⟨hcheck, hn, hstay, hclass, hlow, hhigh, hpercent, htax, hclock, by rw [hn]⟩
  · rintro ⟨hcheck, hn, hstay, hclass, hlow, hhigh, hpercent, htax, hclock, rfl⟩
    exact ⟨_, ⟨hclock, rfl⟩, ⟨hcheck, hn, hstay, hclass, hlow, hhigh, hpercent, htax⟩, by rw [hn]⟩

/-- A record found carries the number sought, and is stored. -/
theorem seekRecord_some {eeprom : List Host.Cell} {n : Nat} {r : ChargeRecord} (h : seekRecord eeprom n = some r) :
    r.sequence = n ∧ r.stored = true := by
  obtain ⟨-, -, -, -, -, -, -, -, -, rfl⟩ := (seekRecord_iff eeprom n r).1 h
  exact ⟨rfl, rfl⟩

/-- A slot holds one number at a time: of two numbers 64 apart one is not found. -/
theorem seekRecord_slot {eeprom : List Host.Cell} {n : Nat} (h : (seekRecord eeprom n).isSome = true) :
    seekRecord eeprom (n + 64) = none := by
  obtain ⟨r, hr⟩ := Option.isSome_iff_exists.1 h
  cases hq : seekRecord eeprom (n + 64) with
  | none => rfl
  | some q =>
    obtain ⟨-, hn, -⟩ := (seekRecord_iff eeprom n r).1 hr
    obtain ⟨-, hn', -⟩ := (seekRecord_iff eeprom (n + 64) q).1 hq
    rw [Nat.add_mod_right, hn] at hn'
    omega

/-! #### The run of records found (R186) -/

/-- The run holds, place by place, what is found under each number. -/
theorem seekRun_getElem? (eeprom : List Host.Cell) (fuel n i : Nat) (hi : i < (seekRun eeprom fuel n).length) :
    (seekRun eeprom fuel n)[i]? = seekRecord eeprom (n + i) := by
  induction fuel generalizing n i with
  | zero => simp [seekRun] at hi
  | succ fuel ih =>
    unfold seekRun at hi ⊢
    cases hr : seekRecord eeprom n with
    | none => simp [hr] at hi
    | some r =>
      simp only [hr, List.length_cons] at hi ⊢
      cases i with
      | zero => exact hr.symm
      | succ i => exact (ih (n + 1) i (Nat.lt_of_succ_lt_succ hi)).trans (congrArg _ (by omega))

/-- The run ends at the first number not found, unless its seeks run out. -/
theorem seekRun_ends (eeprom : List Host.Cell) (fuel n : Nat) (h : (seekRun eeprom fuel n).length < fuel) :
    seekRecord eeprom (n + (seekRun eeprom fuel n).length) = none := by
  induction fuel generalizing n with
  | zero => exact absurd h (Nat.not_lt_zero _)
  | succ fuel ih =>
    unfold seekRun at h ⊢
    cases hr : seekRecord eeprom n with
    | none => exact hr
    | some r =>
      simp only [hr, List.length_cons] at h ⊢
      exact (congrArg _ (by omega)).trans (ih (n + 1) (Nat.lt_of_succ_lt_succ h))

theorem seekRun_isSome (eeprom : List Host.Cell) (fuel n i : Nat) (hi : i < (seekRun eeprom fuel n).length) :
    (seekRecord eeprom (n + i)).isSome = true := by
  rw [← seekRun_getElem? eeprom fuel n i hi]
  simpa using hi

/-- The 64 slots end a run before its 65 seeks run out. -/
theorem seekRun_length (eeprom : List Host.Cell) (n : Nat) : (seekRun eeprom 65 n).length ≤ 64 := by
  by_contra hlong
  have hfirst := seekRun_isSome eeprom 65 n 0 (by omega)
  have hlast := seekRun_isSome eeprom 65 n 64 (by omega)
  rw [seekRecord_slot hfirst] at hlast
  cases hlast

theorem seekRun_numbers (eeprom : List Host.Cell) (fuel n : Nat) :
    (seekRun eeprom fuel n).map ChargeRecord.sequence = List.range' n (seekRun eeprom fuel n).length := by
  refine List.ext_getElem (by simp) fun i hi _ => ?_
  have hi : i < (seekRun eeprom fuel n).length := by simpa using hi
  have hfound := seekRun_getElem? eeprom fuel n i hi
  rw [List.getElem?_eq_getElem hi] at hfound
  simpa using (seekRecord_some hfound.symm).1

/-- The run found from the mark plus 1 (R186). -/
def foundRun (eeprom : List Host.Cell) : List ChargeRecord := seekRun eeprom 65 (markOf (readPage eeprom 8) + 1)

/-- The journal rebuilt, in terms of the run. -/
theorem rebuildJournal_eq (eeprom : List Host.Cell) : rebuildJournal eeprom = {
    records := (foundRun eeprom).drop ((foundRun eeprom).length - 32)
    next := markOf (readPage eeprom 8) + (foundRun eeprom).length + 1
    mark := markOf (readPage eeprom 8) + ((foundRun eeprom).length - 32) } := rfl

theorem rebuildJournal_lawful (eeprom : List Host.Cell) : (rebuildJournal eeprom).Lawful where
  numbers := by
    simp only [rebuildJournal_eq, List.map_drop, List.length_drop]
    rw [foundRun, seekRun_numbers, List.drop_range']
    congr 1
    omega
  next := by
    simp only [rebuildJournal_eq, List.length_drop]
    omega
  places := by
    simp only [rebuildJournal_eq, List.length_drop, journalPlaces]
    omega

theorem exec_journalLoad (s : State) (hm : s.decoder.handOff = none) (hmode : s.path.mode = .load)
    (hphase : s.store.phase = .journal) : exec .journalLoad s = .next (loadJournal s) := by
  show afterMessage (atPhase .journal loadJournal) s = _
  rw [afterMessage_of_none _ s hm, atPhase, if_pos ⟨hmode, hphase⟩]

/-- Settles O9: the tests of the mark and of a record, and the journal from the run found. -/
theorem journalLoadRebuilds : Obligations.JournalLoadRebuilds := by
  refine ⟨markOf_eq, seekRecord_iff, fun s hm hmode hphase => ?_⟩
  have hlen := seekRun_length s.store.eeprom (markOf (readPage s.store.eeprom 8) + 1)
  refine ⟨loadJournal s, (foundRun s.store.eeprom).length, exec_journalLoad s hm hmode hphase, rfl, hlen,
    seekRun_isSome _ _ _, seekRun_ends _ _ _ (Nat.lt_succ_of_le hlen), rfl, rfl, List.length_drop, fun i hi => ?_⟩
  have hi : i < (foundRun s.store.eeprom).length - ((foundRun s.store.eeprom).length - 32) := List.length_drop ▸ hi
  have hplace : (foundRun s.store.eeprom).length - 32 + i < (foundRun s.store.eeprom).length := Nat.add_lt_of_lt_sub' hi
  obtain ⟨r, hr⟩ := Option.isSome_iff_exists.1 (seekRun_isSome _ _ _ _ hplace)
  have hget : (loadJournal s).journal.records[i]? = some r :=
    List.getElem?_drop.trans ((seekRun_getElem? _ _ _ _ hplace).trans hr)
  have hnumber : (loadJournal s).journal.mark + 1 + i =
      markOf (readPage s.store.eeprom 8) + 1 + ((foundRun s.store.eeprom).length - 32 + i) := by
    show markOf (readPage s.store.eeprom 8) + ((foundRun s.store.eeprom).length - 32) + 1 + i = _
    omega
  obtain ⟨hsequence, hstored⟩ := seekRecord_some hr
  rw [hget, hnumber, hr]
  exact ⟨rfl, congrArg some hstored, congrArg some hsequence⟩

end Sys2Proof.Machine

/-! ### Every step keeps the law for the journal (R157) -/

namespace Sys2Proof.Machine

/-- The journal is lawful, and its next number is `n` or above. -/
def JournalFrom (n : Nat) (s : State) : Prop := s.journal.Lawful ∧ n ≤ s.journal.next

section
variable {n : Nat}

theorem journalFrom_of_frame {s t : State} (h : t.journal = s.journal) (hs : JournalFrom n s) : JournalFrom n t := by
  unfold JournalFrom
  rwa [h]

/-! #### The moves of the journal: a commit, an ACK, and the report of a JOURNAL job (R160, R162, R163) -/

theorem commit_journalFrom (id : Half) (k : Option Nat) (s : State) (h : JournalFrom n s) : JournalFrom n (commit id k s).1 := by
  rcases commit_cases id k s with ⟨r, he⟩ | ⟨r, he⟩ | ⟨e, t, hp, he⟩ <;> rw [he]
  · exact h
  · exact journalFrom_of_frame (by simp) h
  · obtain ⟨hlaw, hn⟩ := h
    have hj : (removeExpired s).journal = s.journal := by simp
    unfold JournalFrom
    rw [commitEffects_journal, hj]
    split
    · exact ⟨hlaw.append _ (congrArg Journal.next hj) (hp.journal ‹_›), Nat.le_succ_of_le hn⟩
    · exact ⟨hlaw, hn⟩

theorem charges_journalFrom : Charges (JournalFrom n) where
  commit := commit_journalFrom
  hold _ _ _ := journalFrom_of_frame (by simp)
  meter _ _ _ _ := journalFrom_of_frame rfl

theorem ackMessage_journalFrom (a : Nat) (s : State) (h : JournalFrom n s) : JournalFrom n (ackMessage a s) := by
  by_cases hi : a ≤ s.journal.mark ∨ s.journal.records = []
  · rw [ackMessage_ignored a s hi]
    exact journalFrom_of_frame (by simp) h
  · obtain ⟨ha, hr⟩ := not_or.1 hi
    rw [(ackMessage_removes a s (Nat.lt_of_not_le ha) hr).1]
    exact ⟨h.1.acknowledged a (Nat.lt_of_not_le ha), h.2⟩

theorem reportJob_journalFrom (r : JobReport) (s : State) (h : JournalFrom n s) : JournalFrom n (reportJob r s) := by
  cases r with
  | mark => exact h
  | stay g => exact journalFrom_of_frame (by simp [reportJob]) h
  | journal q =>
    unfold JournalFrom
    rw [reportJob_eq, reportJob_journal_records]
    exact ⟨h.1.stored q, h.2⟩

theorem completeJob_journalFrom (f : InFlight) (s : State) (h : JournalFrom n s) : JournalFrom n (completeJob f s) :=
  journalFrom_of_frame (s := reported f s) (by simp [completeJob_reported]) (reportJob_journalFrom _ _ h)

theorem completeLastPage_journalFrom (f : InFlight) (s : State) (h : JournalFrom n s) : JournalFrom n (completeLastPage f s) := by
  unfold completeLastPage
  split
  · exact completeJob_journalFrom f s h
  · exact h

theorem completePage_journalFrom (f : InFlight) (s : State) (h : JournalFrom n s) : JournalFrom n (completePage f s) := by
  unfold completePage
  split
  · exact h
  · exact completeJob_journalFrom f s h

theorem dispatch_journalFrom (a : AddressType) (m : Message) (s : State) (h : JournalFrom n s) :
    JournalFrom n (dispatch a m s) := by
  cases m with
  | listing l => exact charges_journalFrom.listing (fun _ _ h _ => h) (fun _ _ _ h _ => h) l s h
  | tariffDefine cls c => exact charges_journalFrom.tariff (fun _ _ _ h => h) cls c s h
  | ack q => exact ackMessage_journalFrom q s h
  | _ => exact journalFrom_of_frame (by simp [dispatch]) h

/-! #### The rows -/

theorem decodeHandOff_journalFrom (x : HandOff) (s : State) (h : JournalFrom n s) : JournalFrom n (decodeHandOff x s) :=
  decodeHandOff_keeps (P := JournalFrom n) (fun _ => journalFrom_of_frame rfl) (fun _ => journalFrom_of_frame (by simp))
    (fun _ => journalFrom_of_frame (by simp)) (fun _ _ => journalFrom_of_frame (by simp)) dispatch_journalFrom
    (fun _ => journalFrom_of_frame (by simp)) x s h

theorem finishHandOff_journalFrom (s : State) (h : JournalFrom n s) : JournalFrom n (finishHandOff s) := by
  unfold finishHandOff
  split
  · exact decodeHandOff_journalFrom _ _ h
  · exact h

theorem JournalFrom.after {act : State → State} {s t : State} (ha : ∀ x, JournalFrom n x → JournalFrom n (act x))
    (h : JournalFrom n s) (ht : afterMessage act s = .next t) : JournalFrom n t := by
  cases ht
  exact ha _ (finishHandOff_journalFrom s h)

theorem messageRow_journalFrom (is : Finding → Bool) (s : State) (h : JournalFrom n s) : JournalFrom n (messageRow is s) := by
  unfold messageRow
  split
  · split
    · exact decodeHandOff_journalFrom _ _ h
    · exact h
  · exact h

theorem answerRequest_journalFrom (k : Nat) (q : Request) (s : State) :
    JournalFrom n s → JournalFrom n (answerRequest k q s).1 :=
  answerRequest_keeps commit_journalFrom (fun _ _ _ => journalFrom_of_frame rfl) (fun _ _ _ => journalFrom_of_frame (by simp))
    (fun _ _ => journalFrom_of_frame (by simp)) (fun _ => journalFrom_of_frame rfl) k q s

theorem grantPassing_journalFrom : ∀ s, JournalFrom n s → JournalFrom n (grantPassing s) :=
  charges_journalFrom.grantPassing (fun _ _ _ _ => journalFrom_of_frame (by simp)) (fun _ _ h => h) (fun _ _ h => h)
    (fun _ _ _ h => h)

theorem present_journalFrom (x : Transaction) (s : State) (h : JournalFrom n s) : JournalFrom n (present x s) := by
  unfold present
  split
  · have haccept : JournalFrom n (acceptTransaction x s) :=
      acceptTransaction_keeps (P := JournalFrom n) (fun _ _ => journalFrom_of_frame rfl) (fun _ _ _ => journalFrom_of_frame (by simp))
        (fun _ => journalFrom_of_frame (by simp)) answerRequest_journalFrom x s h
    unfold takeTransaction grantAtOnce
    split
    · exact grantPassing_journalFrom _ haccept
    · exact haccept
  · exact h

theorem presentWaiting_journalFrom (s : State) (h : JournalFrom n s) : JournalFrom n (presentWaiting s) :=
  foldl_keeps _ (fun s x => present_journalFrom x s) _ _ (journalFrom_of_frame (s := s) rfl h)

/-- A grant of the port, as one of its three outcomes. -/
theorem grantPort_cases (s : State) :
    grantPort s = s ∨ grantPort s = grantPassing s ∨ grantPort s = issueHead (tokenSpent s) := by
  by_cases hf : s.path.port = .free
  · rw [grantPort_free s hf]
    cases hp : s.path.passing with
    | none =>
      cases hw : headWaiting s with
      | false => exact .inl (arbitrate_idle s hw hp)
      | true => exact .inr (.inr (arbitrate_head s hw (.inl hp)))
    | some p =>
      by_cases hh : headWaiting s = false ∨ s.path.tokens = 0
      · exact .inr (.inl (arbitrate_passing s p hp hh))
      · obtain ⟨hw, ht⟩ := not_or.1 hh
        exact .inr (.inr (arbitrate_head s (Bool.eq_true_of_not_eq_false hw) (.inr (Nat.pos_of_ne_zero ht))))
  · exact .inl (grantPort_busy s hf)

theorem grantPort_journalFrom (s : State) (h : JournalFrom n s) : JournalFrom n (grantPort s) := by
  rcases grantPort_cases s with he | he | he <;> rw [he]
  · exact h
  · exact grantPassing_journalFrom s h
  · exact journalFrom_of_frame (s := s) (by simp [tokenSpent]) h

theorem passingComplete_journalFrom (s : State) (h : JournalFrom n s) : JournalFrom n (passingComplete s) := by
  unfold passingComplete
  split
  · exact presentWaiting_journalFrom _ (journalFrom_of_frame (by simp) h)
  · exact h

theorem insertedComplete_journalFrom (s : State) (h : JournalFrom n s) : JournalFrom n (insertedComplete s) := by
  unfold insertedComplete
  split
  · exact journalFrom_of_frame (by simp) h
  · exact h

theorem loadStayHeld_journalFrom (s : State) (h : JournalFrom n s) : JournalFrom n (loadStayHeld s) := by
  unfold loadStayHeld
  split
  · exact journalFrom_of_frame (by simp) h
  · exact h

theorem takeExpiry_journalFrom {due : Timebase → Nat} {taken : Timebase → Timebase} {act : State → State}
    (ha : ∀ x, JournalFrom n x → JournalFrom n (act x)) (s : State) (h : JournalFrom n s) :
    JournalFrom n (takeExpiry due taken act s) := by
  rcases takeExpiry_cases due taken act s with he | he <;> rw [he]
  · exact ha _ h
  · exact h

theorem busRow_journalFrom {x : Transaction} {s t : State} (h : JournalFrom n s) (ht : busRow x s = .next t) :
    JournalFrom n t := by
  unfold busRow at ht
  split at ht
  · exact .after (present_journalFrom x) h ht
  · cases ht

/-- Every row but the two that set the journal anew keeps its law and its next number's lower bounds. -/
theorem exec_journalFrom (i : Instr) (s t : State) (hp : ∀ a b, i ≠ .powerOn a b) (hl : i ≠ .journalLoad) (h : JournalFrom n s)
    (ht : exec i s = .next t) : JournalFrom n t := by
  cases i with
  | powerOn a b => exact absurd rfl (hp a b)
  | journalLoad => exact absurd rfl hl
  | busPassThrough x | otherWindowAccess x => exact busRow_journalFrom h ht
  | ringRead x | reportRead x => exact busRow_journalFrom h ht
  | ringWrite x | reportWriteDropped x | requestWriteDropped x | requestWriteNotTaken x | buy x | unlock x | relock x | refresh x
  | unknownRequestKind x => exact busRow_journalFrom h ht
  | messageRejected | key | serviceAdd | serviceDelete | listing | tariffDefine | tariffDelete | pricing | time | freeviewOn
  | freeviewOff | checkin | checkout | credit | ack | ceiling | maint => cases ht; exact messageRow_journalFrom _ s h
  | setReset => exact .after (act := setReset) (fun x => journalFrom_of_frame (by simp [setReset])) h ht
  | imageLoad => exact .after (atPhase_keeps _ _ fun x _ => journalFrom_of_frame (by simp)) h ht
  | stayLoad => exact .after (atPhase_keeps _ _ fun x _ => loadStayHeld_journalFrom x) h ht
  | portGrant =>
    exact .after (act := fun s => presentWaiting (grantPort s))
      (fun x hx => presentWaiting_journalFrom _ (grantPort_journalFrom x hx)) h ht
  | insertedWriteComplete => exact .after insertedComplete_journalFrom h ht
  | passingWriteComplete => exact .after passingComplete_journalFrom h ht
  | refreshPeriodStart => exact .after (act := renewTokens) (fun x => journalFrom_of_frame (by rw [renewTokens_eq])) h ht
  | secondsAdvance => exact .after (act := advanceSecond) (fun x => journalFrom_of_frame (by simp)) h ht
  | accountSecondTimer => exact .after (takeExpiry_journalFrom charges_journalFrom.meterSecond) h ht
  | accountMinuteTimer | keyMinuteTimer | showingMinuteTimer | lockMinuteTimer =>
    exact .after (takeExpiry_journalFrom fun x => journalFrom_of_frame (by simp)) h ht
  | pageWriteComplete => exact .after (onPageWrite_keeps _ fun f x _ => completePage_journalFrom f x) h ht
  | storeJobComplete => exact .after (onPageWrite_keeps _ fun f x _ => completeLastPage_journalFrom f x) h ht
  | storeFault => exact .after (onPageWrite_keeps _ fun f x _ => journalFrom_of_frame (by simp)) h ht

end

theorem exec_powerOn_journal (a b : Bool) (s t : State) (ht : exec (.powerOn a b) s = .next t) : t.journal.Lawful := by
  cases ht
  exact Journal.reset_lawful

theorem exec_journalLoad_journal (s t : State) (h : s.journal.Lawful) (ht : exec .journalLoad s = .next t) :
    t.journal.Lawful := by
  have hkept : JournalFrom 0 (finishHandOff s) := finishHandOff_journalFrom s ⟨h, Nat.zero_le _⟩
  cases ht
  rcases atPhase_cases .journal loadJournal (finishHandOff s) with he | he <;> rw [he]
  · exact rebuildJournal_lawful _
  · exact hkept.1

/-- Settles O57: the rows that set the journal anew set a lawful one, and every other keeps the law and the next number or raises it. -/
theorem journalLawKept : Obligations.JournalLawKept := by
  intro s t hs ht
  rw [journalLaw_iff] at hs ⊢
  cases hq : s.pending with
  | nil =>
    simp only [step, hq] at ht
    cases ht
    exact ⟨hs, .inl (Nat.le_refl _)⟩
  | cons c rest =>
    have hrow : exec c (s.withPending rest) = .next t := by simpa only [step, hq] using ht
    by_cases hl : c = .journalLoad
    · subst hl
      exact ⟨exec_journalLoad_journal (s.withPending rest) t hs hrow, .inr ⟨_, _, rfl, .inl rfl⟩⟩
    by_cases hp : ∃ a b, c = .powerOn a b
    · obtain ⟨a, b, rfl⟩ := hp
      exact ⟨exec_powerOn_journal a b _ t hrow, .inr ⟨_, _, rfl, .inr ⟨a, b, rfl⟩⟩⟩
    · have hother : JournalFrom s.journal.next t :=
        exec_journalFrom c (s.withPending rest) t (fun a b hc => hp ⟨a, b, hc⟩) hl ⟨hs, Nat.le_refl _⟩ hrow
      exact ⟨hother.1, .inl hother.2⟩

end Sys2Proof.Machine

/-! ### The report lines (R165, R174, R175) -/

namespace Sys2Proof.Machine

/-! #### Lines as fields -/

theorem layout_length (fields : List (Nat × Nat)) : (layout fields).length = (fields.map Prod.fst).sum := by
  simp [layout, List.length_flatMap]

theorem bytesOf_one (n : Nat) : bytesOf 1 n = [BitVec.ofNat 8 n] := by simp [bytesOf]

theorem flagByte_eq (b : Bool) : flagByte b = BitVec.ofNat 8 (yes b) := by cases b <;> rfl

theorem zeroBytes_eq (n : Nat) : zeroBytes n = bytesOf n 0 := zeros_eq_bytesOf n

/-- A word that is 0 where it is absent. -/
theorem toNat_getD (h : Option Half) : (h.getD 0#16).toNat = (h.map BitVec.toNat).getD 0 := by
  cases h <;> rfl

/-! #### Line 0 (R174) -/

def modeNumber : Mode → Nat
  | .load => 0
  | .run => 1
  | .pass => 2

def storeNumber : StoreState → Nat
  | .absent => 0
  | .ready => 1
  | .busy => 2
  | .fault => 3

def freeViewNumber : FreeView → Nat
  | .off => 0
  | .on none => 1
  | .on (some _) => 2

/-- The day and the minute of free-view's end, 0 where it has none. -/
def freeViewDay : FreeView → Nat
  | .on (some m) => m.day.toNat
  | _ => 0

def freeViewMinute : FreeView → Nat
  | .on (some m) => m.minute
  | _ => 0

theorem modeCode_eq (m : Mode) : modeCode m = BitVec.ofNat 8 (modeNumber m) := by cases m <;> rfl

theorem storeCode_eq (x : StoreState) : storeCode x = BitVec.ofNat 8 (storeNumber x) := by cases x <;> rfl

theorem freeViewBytes_layout (f : FreeView) :
    freeViewBytes f = layout [(1, freeViewNumber f), (2, freeViewDay f), (2, freeViewMinute f)] := by
  match f with
  | .off => rfl
  | .on none => rfl
  | .on (some m) => simp [freeViewBytes, layout, bytesOf_one, halfBytes, numberBytes, freeViewNumber, freeViewDay, freeViewMinute]

theorem statusLine_layout (s : State) : statusLine s = layout [
    (1, modeNumber s.path.mode), (1, storeNumber s.store.state), (1, yes s.time.clock.isSome),
    (1, freeViewNumber s.account.freeView), (2, freeViewDay s.account.freeView), (2, freeViewMinute s.account.freeView),
    (4, s.time.seconds), (2, s.path.dropped.toNat), (2, s.intake.headerErrors.toNat), (2, s.intake.abandoned.toNat),
    (2, s.decoder.tagFailures.toNat), (2, s.decoder.ignored.toNat), (2, s.presentation.noKey.toNat), (8, 0)] := by
  simp [statusLine, freeViewBytes_layout, layout, bytesOf_one, modeCode_eq, storeCode_eq, flagByte_eq, halfBytes, numberBytes,
    zeroBytes_eq]

/-! #### Lines 1 and 2 (R175) -/

/-- The cause of the held record, 0 where none is held. -/
def heldNumber : Option HeldRecord → Nat
  | none => 0
  | some { event := _, cause := .confirm } => 16
  | some { event := _, cause := .refused r } => (reasonCode r).toNat

theorem heldCode_eq (h : Option HeldRecord) : heldCode h = BitVec.ofNat 8 (heldNumber h) := by
  match h with
  | none => rfl
  | some { event := _, cause := .confirm } => rfl
  | some { event := _, cause := .refused r } => simp [heldCode, heldNumber]

theorem stayLine_layout (s : State) : stayLine s = layout [
    (1, yes (s.account.stay.state == .occupied)), (1, heldNumber s.account.held), (2, s.account.stay.number.toNat),
    (4, s.account.stay.granted), (4, s.account.stay.remaining), (4, s.account.stay.spent), (4, s.account.stay.nightCeiling),
    (4, s.account.stay.nightSpent), (2, (s.account.stay.nightIndex.map BitVec.toNat).getD 0),
    (1, yes s.account.stay.nightIndex.isSome), (1, 0), (2, (s.account.held.map fun x => x.event.toNat).getD 0), (2, 0)] := by
  simp [stayLine, layout, bytesOf_one, heldCode_eq, flagByte_eq, toNat_getD, halfBytes, numberBytes, zeroBytes_eq,
    Function.comp_def]

theorem periodBytes_layout (p : Option Period) : periodBytes p =
    layout [(1, yes p.isSome), (1, 0), (2, (p.map Period.minutes).getD 0), (4, (p.map Period.finish).getD 0)] := by
  cases p with
  | none => rfl
  | some p => simp [periodBytes, layout, bytesOf_one, numberBytes, yes]

theorem lockLine_layout (s : State) : lockLine s = layout [
    (1, s.lock.roomCeiling), (1, s.lock.defaultCeiling), (1, s.lock.guestCeiling), (1, effectiveCeiling s.lock),
    (1, yes s.lock.pin.isSome), (1, s.lock.wrongAttempts), (1, s.lock.lockouts), (1, 0),
    (1, yes s.lock.unlock.isSome), (1, 0), (2, (s.lock.unlock.map Period.minutes).getD 0),
    (4, (s.lock.unlock.map Period.finish).getD 0),
    (1, yes s.lock.lockout.isSome), (1, 0), (2, (s.lock.lockout.map Period.minutes).getD 0),
    (4, (s.lock.lockout.map Period.finish).getD 0), (8, 0)] := by
  simp [lockLine, layout, periodBytes_layout, bytesOf_one, flagByte_eq, numberBytes, zeroBytes_eq]

/-! #### Lines 3 to 20 (R175) -/

def verdictNumber : Verdict → Nat
  | .raw => 0
  | .clear => 1
  | .opened _ => 2
  | .voided _ => 3

/-- The basis of OPEN or the reason of VOID. -/
def basisNumber : Verdict → Nat
  | .opened .free => 1
  | .opened .paid => 2
  | .opened .freeView => 3
  | .opened .preview => 4
  | .voided .lock => 1
  | .voided .noKey => 2
  | .voided .hold => 3
  | _ => 0

theorem verdictCodes_layout (v : Verdict) : verdictCodes v = layout [(1, verdictNumber v), (1, basisNumber v)] := by
  match v with
  | .raw | .clear => rfl
  | .opened b => cases b <;> rfl
  | .voided r => cases r <;> rfl

theorem summaryBytes_layout (x : Summary) : summaryBytes (some x) = layout [
    (1, 1), (1, verdictNumber x.verdict), (1, basisNumber x.verdict), (1, yes x.listed), (2, x.service.toNat),
    (2, x.event.toNat), (2, (x.metering.map ShownMetering.viewed).getD 0),
    (2, (x.metering.map ShownMetering.allowance).getD 0), (1, yes x.metering.isSome), (19, 0)] := by
  simp [summaryBytes, verdictCodes_layout, layout, bytesOf_one, flagByte_eq, halfBytes, numberBytes, zeroBytes_eq]

theorem purchaseBytes_layout (p : Purchase) : purchaseBytes (some p) = layout [
    (1, 1), (1, p.rating), (2, p.event.toNat), (2, p.service.toNat), (1, yes p.sequence.isSome), (1, 0), (4, p.title.toNat),
    (4, p.amount), (4, p.rentalEnd), (4, p.sequence.getD 0), (8, 0)] := by
  simp [purchaseBytes, layout, bytesOf_one, flagByte_eq, halfBytes, numberBytes, zeroBytes_eq]

/-! #### Lines 21 to 52 (R165) -/

theorem recordBytes_layout (r : ChargeRecord) : recordBytes (some r) = layout [
    (1, 1), (1, yes r.stored), (1, r.tariffClass), (1, yes r.clock.isSome), (4, r.sequence), (2, r.stay.toNat),
    (2, r.event.toNat), (4, r.title.toNat), (4, r.amount), (2, r.base), (1, r.percent), (1, r.tax),
    (2, (r.clock.map fun m => m.day.toNat).getD 0), (2, (r.clock.map Moment.minute).getD 0), (4, 0)] := by
  simp [recordBytes, layout, bytesOf_one, flagByte_eq, toNat_getD, halfBytes, numberBytes, zeroBytes_eq, Function.comp_def]

theorem recordOnLine_none (s : State) (n : Nat) (h : ∀ r ∈ s.journal.records, r.sequence % 32 ≠ n) :
    recordOnLine s (21 + n) = none := by
  simpa [recordOnLine, journalLine] using h

/-- The only record of a line is the one shown. -/
theorem recordOnLine_some (s : State) (n : Nat) (r : ChargeRecord) (hr : r ∈ s.journal.records) (hn : r.sequence % 32 = n)
    (honly : ∀ q ∈ s.journal.records, q.sequence % 32 = n → q = r) : recordOnLine s (21 + n) = some r := by
  have hfound : (recordOnLine s (21 + n)).isSome = true := by
    rw [recordOnLine, List.find?_isSome]
    exact ⟨r, hr, by simp [journalLine, hn]⟩
  obtain ⟨q, hq⟩ := Option.isSome_iff_exists.1 hfound
  have hline : q.sequence % 32 = n := by simpa [journalLine] using List.find?_some hq
  rw [hq, honly q (List.mem_of_find?_eq_some hq) hline]

/-! #### The lines by number (11, section 11.5) -/

theorem composeLine_status (s : State) : composeLine s 0 = statusLine s := rfl

theorem composeLine_stay (s : State) : composeLine s 1 = stayLine s := rfl

theorem composeLine_lock (s : State) : composeLine s 2 = lockLine s := rfl

theorem composeLine_summary (s : State) (r : Ring) :
    composeLine s (if r = .ring0 then 3 else 4) = summaryBytes (s.presentation.summary.get r) := by
  cases r <;> rfl

theorem composeLine_purchase (s : State) (n : Nat) (hn : n < 16) :
    composeLine s (5 + n) = purchaseBytes s.account.purchases[n]? := by
  have hlast : 5 + n ≤ 20 := by omega
  have hplace : 5 + n - 5 = n := by omega
  have hlow : 5 + n ≠ 0 ∧ 5 + n ≠ 1 ∧ 5 + n ≠ 2 ∧ 5 + n ≠ 3 ∧ 5 + n ≠ 4 := by omega
  simp only [composeLine, hlow, if_false, if_pos hlast, hplace]

theorem composeLine_journal (s : State) (n : Nat) : composeLine s (21 + n) = recordBytes (recordOnLine s (21 + n)) := by
  have hlast : ¬ 21 + n ≤ 20 := by omega
  have hlow : 21 + n ≠ 0 ∧ 21 + n ≠ 1 ∧ 21 + n ≠ 2 ∧ 21 + n ≠ 3 ∧ 21 + n ≠ 4 := by omega
  simp only [composeLine, hlow, if_false, if_neg hlast]

theorem summaryBytes_length (x : Option Summary) : (summaryBytes x).length = 32 := by
  cases x with
  | none => rfl
  | some x => simp [summaryBytes_layout, layout_length]

theorem purchaseBytes_length (p : Option Purchase) : (purchaseBytes p).length = 32 := by
  cases p with
  | none => rfl
  | some p => simp [purchaseBytes_layout, layout_length]

theorem recordBytes_length (r : Option ChargeRecord) : (recordBytes r).length = 32 := by
  cases r with
  | none => rfl
  | some r => simp [recordBytes_layout, layout_length]

/-- Every line fills its granule. -/
theorem composeLine_length (s : State) (n : Nat) : (composeLine s n).length = 32 := by
  unfold composeLine
  split_ifs
  · simp [statusLine_layout, layout_length]
  · simp [stayLine_layout, layout_length]
  · simp [lockLine_layout, layout_length]
  · exact summaryBytes_length _
  · exact summaryBytes_length _
  · exact purchaseBytes_length _
  · exact recordBytes_length _

/-- Settles O42: each line is a layout of its fields, and shows them at the offsets their widths add up to. -/
theorem reportLinesAreWhole : Obligations.ReportLinesAreWhole := by
  refine fun s => ⟨composeLine_length s, ?_, ?_, ?_, fun r => ⟨fun hx => ?_, fun x hx _ => ?_⟩,
    fun n hn => ⟨fun hp => ?_, fun p hp => ?_⟩, fun n hn => ⟨fun hnone => ?_, fun r hr hrn honly => ?_⟩⟩
  · rw [composeLine_status, statusLine_layout]
    exact shows_layout _
  · rw [composeLine_stay, stayLine_layout]
    exact shows_layout _
  · rw [composeLine_lock, lockLine_layout]
    exact shows_layout _
  · rw [composeLine_summary, hx]
    rfl
  · rw [composeLine_summary, hx, summaryBytes_layout]
    exact shows_layout _
  · rw [composeLine_purchase s n hn, hp]
    rfl
  · rw [composeLine_purchase s n hn, hp, purchaseBytes_layout]
    exact shows_layout _
  · rw [composeLine_journal, recordOnLine_none s n hnone]
    rfl
  · rw [composeLine_journal, recordOnLine_some s n r hr hrn honly, recordBytes_layout]
    exact shows_layout _

end Sys2Proof.Machine

/-! ### The pages of jobs and their writing (R177, R179 to R182, R190, R191) -/

namespace Sys2Proof.Machine

/-! #### The check word (R179) -/

/-- Words in front add to the sum. -/
theorem wordSum_append (a b : List Byte) (h : a.length % 2 = 0) : wordSum (a ++ b) = wordSum a + wordSum b := by
  induction a using wordSum.induct with
  | case1 hi lo rest ih =>
    have hrest : rest.length % 2 = 0 := by
      simp only [List.length_cons] at h
      omega
    simp only [List.cons_append, wordSum, ih hrest, BitVec.add_assoc]
  | case2 a hshort =>
    match a, hshort, h with
    | [], _, _ => simp [wordSum]
    | [_], _, h => simp at h
    | hi :: lo :: rest, hshort, _ => exact absurd rfl (hshort hi lo rest)

theorem wordSum_word (n : Half) : wordSum (bytesOf 2 n.toNat) = n := by
  have hfield : field (bytesOf 2 n.toNat) 0 2 = n.toNat := by
    rw [← List.append_nil (bytesOf 2 n.toNat), field_front]
    exact Nat.mod_eq_of_lt n.isLt
  simp [wordSum_eq, hfield]

theorem sealPage_length (body : List Byte) : (sealPage body).length = body.length + 2 := by simp [sealPage]

/-- A sealed page passes its check. -/
theorem wordSum_sealPage (body : List Byte) (h : body.length % 2 = 0) : wordSum (sealPage body) = 0xA55A := by
  rw [sealPage, wordSum_append _ _ h, wordSum_word, BitVec.add_comm, BitVec.sub_add_cancel]

/-! #### Fields within a page -/

theorem placed_end (offset : Nat) (fields : List (Nat × Nat)) (x : Nat × Nat × Nat) (hx : x ∈ placed offset fields) :
    x.1 + x.2.1 ≤ offset + (layout fields).length := by
  induction fields generalizing offset with
  | nil => cases hx
  | cons f rest ih =>
    have hlen : (layout (f :: rest)).length = f.1 + (layout rest).length := by simp [layout]
    rcases List.mem_cons.1 hx with rfl | hx
    · dsimp only
      omega
    · have hend := ih (offset + f.1) hx
      omega

/-- Fields with bytes before and behind them are shown. -/
theorem shows_within (a : List Byte) (fields : List (Nat × Nat)) (b : List Byte) :
    Shows (a ++ layout fields ++ b) (placed a.length fields) := by
  intro x hx
  have hend : x.1 + x.2.1 ≤ (a ++ layout fields).length := by
    rw [List.length_append]
    exact placed_end a.length fields x hx
  exact (field_append_left _ b _ _ hend).trans (shows_behind a fields x hx)

/-- Thirty bytes of fields, sealed: a page of 32 bytes that passes its check and shows the fields. -/
theorem sealPage_layout (fields : List (Nat × Nat)) (h : (fields.map Prod.fst).sum = 30) :
    (sealPage (layout fields)).length = 32 ∧ wordSum (sealPage (layout fields)) = 0xA55A ∧
      Shows (sealPage (layout fields)) (placed 0 fields) := by
  have hlen : (layout fields).length = 30 := (layout_length fields).trans h
  exact ⟨by rw [sealPage_length, hlen], wordSum_sealPage _ (by rw [hlen]), shows_before fields _⟩

/-! #### The stay pages (R182, R190, R191) -/

/-- The fields of a purchase entry; a free entry is one field of zeros. -/
def entryFields (now : Nat) : Option Purchase → List (Nat × Nat)
  | none => [(14, 0)]
  | some p => [(2, p.event.toNat), (2, p.rating * 4096 + p.service.toNat), (3, p.amount), (3, p.rentalEnd - now),
      (4, p.sequence.getD 0)]

theorem purchaseEntry_layout (now : Nat) (p : Option Purchase) : purchaseEntry now p = layout (entryFields now p) := by
  cases p <;> simp [purchaseEntry, entryFields, layout]

theorem entryFields_sum (now : Nat) (p : Option Purchase) : ((entryFields now p).map Prod.fst).sum = 14 := by
  cases p <;> rfl

/-- The fields of page 10 + k: the stay page number and two purchase entries. -/
def purchaseFields (s : State) (number : Half) (k : Nat) : List (Nat × Nat) :=
  (2, number.toNat) :: (entryFields s.time.seconds s.account.purchases[2 * k]?
    ++ entryFields s.time.seconds s.account.purchases[2 * k + 1]?)

theorem purchasePage_bytes (s : State) (number : Half) (k : Nat) :
    (purchasePage s number k).bytes = sealPage (layout (purchaseFields s number k)) := by
  simp [purchasePage, purchaseFields, purchaseEntry_layout, layout]

theorem purchaseFields_sum (s : State) (number : Half) (k : Nat) : ((purchaseFields s number k).map Prod.fst).sum = 30 := by
  rw [purchaseFields, List.map_cons, List.sum_cons, List.map_append, List.sum_append, entryFields_sum, entryFields_sum]

theorem field_purchasePage_number (s : State) (number : Half) (k : Nat) :
    field (purchasePage s number k).bytes 0 2 = number.toNat := by
  obtain ⟨-, -, hshows⟩ := sealPage_layout _ (purchaseFields_sum s number k)
  rw [purchasePage_bytes]
  exact (hshows (0, 2, number.toNat) List.mem_cons_self).trans (Nat.mod_eq_of_lt number.isLt)

/-- Each of the two entries stands in its place. -/
theorem shows_purchasePage (s : State) (number : Half) (k i : Nat) (hi : i < 2) :
    Shows (purchasePage s number k).bytes
      (placed (2 + 14 * i) (entryFields s.time.seconds s.account.purchases[2 * k + i]?)) := by
  have hfirst : (layout (entryFields s.time.seconds s.account.purchases[2 * k]?)).length = 14 :=
    (layout_length _).trans (entryFields_sum _ _)
  have hplaces : i = 0 ∨ i = 1 := by omega
  rw [purchasePage, sealPage, purchaseEntry_layout, purchaseEntry_layout]
  rcases hplaces with rfl | rfl
  · rw [List.append_assoc (_ ++ _)]
    simpa using shows_within (bytesOf 2 number.toNat) (entryFields s.time.seconds s.account.purchases[2 * k]?) _
  · simpa [hfirst] using shows_within (bytesOf 2 number.toNat ++ layout (entryFields s.time.seconds s.account.purchases[2 * k]?))
      (entryFields s.time.seconds s.account.purchases[2 * k + 1]?) _

/-- The fields of page 9, the stay header page. -/
def stayHeaderFields (s : State) (number : Half) : List (Nat × Nat) :=
  [(1, yes (s.account.stay.state == .occupied)),
    (1, yes s.decoder.lastNumber.isSome + 2 * yes s.account.stay.nightIndex.isSome + 4 * yes s.lock.pin.isSome),
    (2, number.toNat), (2, s.account.stay.number.toNat), (2, (s.decoder.lastNumber.map BitVec.toNat).getD 0),
    (3, s.account.stay.granted), (3, s.account.stay.remaining), (3, s.account.stay.spent), (3, s.account.stay.nightCeiling),
    (3, s.account.stay.nightSpent), (2, (s.account.stay.nightIndex.map BitVec.toNat).getD 0), (1, s.lock.roomCeiling),
    (1, s.lock.defaultCeiling), (1, s.lock.guestCeiling), (2, (s.lock.pin.map pinNumber).getD 0)]

theorem stayHeaderPage_bytes (s : State) (number : Half) :
    (stayHeaderPage s number).bytes = sealPage (layout (stayHeaderFields s number)) := by
  simp [stayHeaderPage, stayHeaderFields, layout, yes, toNat_getD]

/-! #### The journal slot and the mark page (R182) -/

/-- The fields of a journal slot. -/
def journalSlotFields (r : ChargeRecord) : List (Nat × Nat) :=
  [(4, r.sequence), (2, r.stay.toNat), (2, r.event.toNat), (4, r.title.toNat), (4, r.amount), (2, r.base), (1, r.percent),
    (1, r.tax), (1, r.tariffClass), (1, yes r.clock.isSome), (2, (r.clock.map fun m => m.day.toNat).getD 0),
    (2, (r.clock.map Moment.minute).getD 0), (4, 0)]

theorem journalSlotPage_bytes (r : ChargeRecord) : (journalSlotPage r).bytes = sealPage (layout (journalSlotFields r)) := by
  simp [journalSlotPage, journalSlotFields, layout, yes]

theorem markPage_bytes (mark : Nat) : (markPage mark).bytes = sealPage (layout [(4, mark), (26, 0)]) := by
  simp [markPage, layout]

/-! #### The begin of a job and the end of a page write (R177, R182) -/

/-- No job begins outside RUN, with one in flight, in FAULT or ABSENT, or with none waiting. -/
theorem startJob_idle (s : State) (h : s.path.mode ≠ .run ∨ s.store.inFlight ≠ none ∨ s.store.state = .fault ∨
    s.store.state = .absent ∨ s.store.queue = []) : startJob s = s := by
  rcases h with hmode | hflight | hfault | habsent | hempty
  · exact if_neg fun ⟨hrun, _⟩ => hmode hrun
  · exact startJob_inFlight s hflight
  · exact if_neg fun ⟨_, _, husable⟩ => by simp [storeUsable, hfault] at husable
  · exact if_neg fun ⟨_, _, husable⟩ => by simp [storeUsable, habsent] at husable
  · exact startJob_empty s hempty

/-- A byte after a page write: page p lies at byte address 32 p. -/
theorem read_writePage (p : PageWrite) (m : List Host.Cell) (a : Nat) (h : Eeprom.wf m = true) (hlen : p.bytes.length = 32) :
    Sparse.read Config.storeUnlisted (writePage p m) a =
      if a / 32 = p.page then byteAt p.bytes (a % 32) else Sparse.read Config.storeUnlisted m a := by
  rw [writePage, read_writeStore _ _ _ _ h, hlen]
  by_cases hpage : a / 32 = p.page
  · have hplace : a - 32 * p.page = a % 32 := by omega
    rw [if_pos (by omega), if_pos hpage, hplace]
  · rw [if_neg (by omega), if_neg hpage]

theorem completePage_next (f : InFlight) (s : State) (p : PageWrite) (rest : List PageWrite) (h : f.later = p :: rest) :
    completePage f s = { s with store := { s.store with
      eeprom := (completePage f s).store.eeprom, inFlight := some { f with current := p, later := rest } } } := by
  rw [completePage_eeprom]
  unfold completePage
  rw [h]
  rfl

/-- Settles O49: every page is a sealed layout of its fields, and shows them at the offsets their widths add up to. -/
theorem pageWriteCompletes : Obligations.PageWriteCompletes := by
  refine ⟨fun s => ⟨purchasePage s _, stayHeaderPage s _, rfl, fun k _ => ?_, rfl, ?_⟩, fun s r => ⟨journalSlotPage r, rfl, rfl, ?_⟩,
    fun s => ⟨markPage s.journal.mark, rfl, rfl, ?_⟩,
    fun s => ⟨fun j rest hmode hflight hstate hqueue => ?_, startJob_idle s, fun ⟨_, hreport, _⟩ => (marks_startJob s).marks hreport⟩,
    fun s f hm hf ⟨_, hwf⟩ hlen => ⟨completePage f s, exec_onPageWrite completePage s f hm hf, by simp, fun a => ?_,
      completePage_next f s⟩⟩
  · obtain ⟨hlen, hsum, -⟩ := sealPage_layout _ (purchaseFields_sum s (s.store.pageNumber + 1) k)
    rw [← purchasePage_bytes] at hlen hsum
    refine ⟨rfl, hlen, hsum, field_purchasePage_number s _ k, fun i hi => ?_⟩
    have hentry := shows_purchasePage s (s.store.pageNumber + 1) k i hi
    refine ⟨fun hnone => ?_, fun p hp => ?_⟩
    · rw [hnone] at hentry
      exact hentry
    · rw [hp] at hentry
      exact hentry
  · rw [stayHeaderPage_bytes]
    exact sealPage_layout (stayHeaderFields s _) rfl
  · rw [journalSlotPage_bytes]
    exact sealPage_layout (journalSlotFields r) rfl
  · rw [markPage_bytes]
    exact sealPage_layout _ rfl
  · rw [← startJob_first s j rest hmode hflight hstate hqueue]
    exact startJob_eq s
  · unfold storeByte
    rw [completePage_eeprom]
    exact read_writePage f.current s.store.eeprom a hwf hlen

end Sys2Proof.Machine

/-! ### The queue of commands (log 12) -/

namespace Sys2Proof.Machine

/-- A command runs with itself already off the queue, so what it finds in `pending` is what comes after it. -/
theorem step_front (c : Instr) (rest : List Instr) (s : State) (hqueue : s.pending = c :: rest) :
    step s = exec c (s.withPending rest) := by
  rw [step, hqueue]

/-- The block neither stops nor changes with no command waiting: an idle step is no event of the part. -/
theorem step_idle (s : State) (hqueue : s.pending = []) : step s = .next s := by
  rw [step, hqueue]

/-- Settles O1: the two cases of the queue, a command in front and none. -/
theorem stepTakesFrontCommand : Obligations.StepTakesFrontCommand :=
  ⟨step_front, step_idle⟩

end Sys2Proof.Machine
